-- ==== Sys2Proof/Word.lean ====
section
/-!
DEFINITION. The byte and the two small index types of the part's formats: a byte of a record or payload (R187),
a station address (arbitration field, R163) and a command token (R150).
-/

namespace Sys2Proof

/-- One byte of a line payload, a section report or an order record (R187). -/
abbrev Byte := BitVec 8

/-- A station address, the 5-bit sender field of R163: 1 to 31, with 0 for "none". -/
abbrev Station := Fin 32

/-- A section-port command token, 0 to 15 (R150). -/
abbrev Token := Fin 16

end Sys2Proof
end

