-- ==== Sys2Proof/Config.lean ====
section
/-!
DEFINITION. The free values: what the manual leaves open and the machine settles somehow. Each is a constant with no
body, so nothing can be proved of its value; the first argument is the model's free-value counter, so that two uses
need not agree.
-/

namespace Sys2Proof

/-- Where in the queue, among the expiries of the same tick, an expiry is put (R69, R132 and R158 say "either may be
taken first"; log 3). -/
opaque Config.expiryOrder : Nat → Nat

/-- Which of the outputs of one rate interval expiry is taken first, the step train by the SP (`true`) or the
requests by the PS (R52: "in no fixed order"; log 4). -/
opaque Config.trainFirst : Nat → Bool

/-- Which block places its frames in the message FIFO first at trip entry, the PS its reply (`true`) or the HU its
answers (R133: "each block takes its own in no fixed order"; log 5). -/
opaque Config.replyFirst : Nat → Bool

/-- Whether a list found met by the evaluation made at the expiry of the stage 1 and 2 deadline lets the transition
leave the stage (`true`) or the refusal stands (R7 gives both; log 6). -/
opaque Config.metAtDeadline : Nat → Bool

/-- The detail of a PREREQ_UNMET refusal whose evaluation found no unmet entry (R7 states none; log 6). -/
opaque Config.unstatedIndex : Nat → Byte

/-- The kind of work kept from a HANDOFF whose kind byte is above 15 (R187 and R188 judge it nowhere; log 7). -/
opaque Config.workKindAbove : Nat → Byte → Fin 16

/-- Which reader of a change report is taken first, the AU (`true`) or the PS, where a transition waits on its list
(R32: "in no fixed order"; log 32). -/
opaque Config.allotFirst : Nat → Bool

/-- Whether a CANCEL removes a transition whose SET_PHASE still waits at the section port (`true`: R101, and R112 for an
auto hold) or is refused TOO_LATE (R12, R111 and 5.8; log 37). -/
opaque Config.cancelBeforeIssue : Nat → Bool

end Sys2Proof
end

