-- ==== Sys2Proof/Syntax.lean ====
section
/-!
DEFINITION. The commands the node takes: one constructor of `Instr` for each row of spec/opcode_table.json, with the
operands the row's rule gives it. The table gives no bits for any row.
-/

namespace Sys2Proof

/-- Where a directive comes from: a DIRECTIVE frame, with its sender, addressing mode, two target bytes and tag
(R95, 11.2), or the section port, with its tag (R96). -/
inductive Source where
  | line (sender : Station) (mode target1 target2 tag : Byte)
  | port (tag : Byte)
  deriving DecidableEq, Repr

/-- A directive as its bytes stand: the payload of a DIRECTIVE frame (11.2) or the local directive of a report
(11.3: code, tag, argument high and low, close-after byte). -/
inductive RawDirective where
  | frame (sender : Station) (payload : List Byte)
  | part (code tag argHigh argLow closeAfter : Byte)
  deriving DecidableEq, Repr

/-- The outcome an acknowledgement carries (R144). -/
inductive AckOutcome where
  | done
  | failed
  deriving DecidableEq, Repr

/-- The commands, in the table's order. A row that stands for one part of a valid report (a port directive, a
configuration part, an acknowledgement) is that part taken alone (log 17). -/
inductive Instr where
  | powerOnReset
  | exchangeStart
  | reportArrival (sdi : List Bool)
  | startCampaign (src : Source)
  | fill (src : Source)
  | feed (src : Source) (limit : BitVec 16)
  | hold (src : Source)
  | resume (src : Source)
  | bank (src : Source)
  | runOut (src : Source) (length : BitVec 16) (closeAfter : Bool)
  | stopRunOut (src : Source)
  | drain (src : Source)
  | endCampaign (src : Source)
  | trip (src : Source)
  | clearTrip (src : Source)
  | confirm (src : Source)
  | cancel (src : Source)
  | directiveBadCode (raw : RawDirective)
  | configItem (item v0 v1 v2 v3 v4 : Byte)
  | lockConfig
  | restartNode
  | commandIssue
  | ackSetPhase (token : Token) (outcome : AckOutcome)
  | ackSetRate (token : Token) (outcome : AckOutcome)
  | ackTurnover (token : Token) (outcome : AckOutcome)
  | ackHandoffWork (token : Token) (outcome : AckOutcome)
  | setPhaseAckTimeout (token : Token)
  | setRateAckTimeout (token : Token)
  | turnoverAckTimeout (token : Token)
  | handoffWorkAckTimeout (token : Token)
  | rateIntervalExpiry
  | starveTimerExpiry
  | blockTimerExpiry
  | dwellExpiry
  | settleExpiry
  | prereqDeadlineExpiry
  | claimDeadlineExpiry
  | fillTimeout
  | drainTimeout
  | holdMaximumExpiry
  | turnoverTimerExpiry
  | freezeLong
  | underStandingTimeout
  | portSilent
  | handoffDeadlineExpiry
  | statusPeriodExpiry
  | shortSpacingExpiry
  | peerSilence (station : Station)
  | ageWatchExpiry (station : Station)
  | statusLong (sender : Station) (payload : List Byte)
  | statusShort (sender : Station) (payload : List Byte)
  | claim (sender : Station) (payload : List Byte)
  | release (sender : Station) (payload : List Byte)
  | tripNotice (sender : Station) (payload : List Byte)
  | handoff (sender : Station) (payload : List Byte)
  | handoffDone (sender : Station) (payload : List Byte)
  | replyReceived (sender : Station) (payload : List Byte)
  | lineFrameError (bits : List Bool)
  | lineIdle
  | arbitrationLost
  | transmitFault
  | transmissionBegin
  | frameCompletion
  | frameFailure
  deriving DecidableEq, Repr

end Sys2Proof
end

