-- ==== Sys2Proof/Decode.lean ====
section
/-!
DEFINITION. Commands read from table words. spec/opcode_table.json gives no row any bits, so no word spells a
command; the formats that reach the node from outside are read where they are taken: frame payloads in
Machine/PeerFrames, Handoffs and Directives, reports in Machine/Report, configuration values in Machine/Store.
-/

namespace Sys2Proof

/-- The command that a word of the table's bits spells: none, since no row of the table has bits (log 20). -/
def decodeTableWord (_nbits _w : Nat) : Option Instr := none

end Sys2Proof
end

