-- ==== Sys2Proof/Machine/Bytes.lean ====
section
/-!
DEFINITION. Bytes and bits of the part's formats: byte order, the two CRCs, roundings and saturation.
-/

namespace Sys2Proof.Machine

/-- A two-byte field, most significant byte first (R187). -/
def word16 (hi lo : Byte) : Nat := hi.toNat * 256 + lo.toNat

/-- The two bytes of a 16-bit field, most significant first (R187). -/
def bytes16 (n : Nat) : List Byte := [BitVec.ofNat 8 (n / 256), BitVec.ofNat 8 n]

/-- The byte with this value. -/
def byteOf (n : Nat) : Byte := BitVec.ofNat 8 n

/-- A byte from its high and low nibbles. -/
def nibbles (hi lo : Nat) : Byte := BitVec.ofNat 8 (hi * 16 + lo)

/-- A bit as a number. -/
def bit (b : Bool) : Nat := if b then 1 else 0

/-- Byte `k` of a payload; the callers have judged its length. -/
def byteAt (p : List Byte) (k : Nat) : Byte := p.getD k 0

/-- The two-byte field at byte `k` of a payload (R187). -/
def wordAt (p : List Byte) (k : Nat) : Nat := word16 (byteAt p k) (byteAt p (k + 1))

/-- The field of `width` bits from bit `low` of a byte. -/
def bitsOf (b : Byte) (low width : Nat) : Nat := b.toNat / 2 ^ low % 2 ^ width

/-- The bits of a byte, most significant first (R187). -/
def bitsOfByte (b : Byte) : List Bool :=
  [b[7], b[6], b[5], b[4], b[3], b[2], b[1], b[0]]

/-- The complete bytes of bits sampled most significant first; a last byte left incomplete is ignored (R143, R187). -/
def bytesOfBits : List Bool → List Byte
  | b7 :: b6 :: b5 :: b4 :: b3 :: b2 :: b1 :: b0 :: rest =>
    BitVec.ofBoolListBE [b7, b6, b5, b4, b3, b2, b1, b0] :: bytesOfBits rest
  | _ => []

/-- The low `n` bits of a number, most significant first (R163). -/
def bitsOfNat : Nat → Nat → List Bool
  | 0, _ => []
  | n + 1, v => v.testBit n :: bitsOfNat n v

/-- The number that bits spell, most significant first (R163). -/
def natOfBits (bits : List Bool) : Nat := bits.foldl (fun a b => 2 * a + bit b) 0

/-- One bit into the CRC-8 register of R144: generator x^8 + x^2 + x + 1. -/
def crc8Bit (c : BitVec 8) (b : Bool) : BitVec 8 :=
  if c.msb != b then (c <<< 1) ^^^ 0x07#8 else c <<< 1

/-- The CRC-8 of R144: initial value 00h, most significant bit first. -/
def crc8 (bytes : List Byte) : Byte := (bytes.flatMap bitsOfByte).foldl crc8Bit 0

/-- One bit into the CRC-16 register of R164: generator x^16 + x^12 + x^5 + 1. -/
def crc16Bit (c : BitVec 16) (b : Bool) : BitVec 16 :=
  if c.msb != b then (c <<< 1) ^^^ 0x1021#16 else c <<< 1

/-- The CRC-16 of R164 over bits: initial value all ones, no final inversion. -/
def crc16 (bits : List Bool) : BitVec 16 := bits.foldl crc16Bit 0xFFFF#16

/-- Saturation to a range (00_scope 4). -/
def clamp (lo hi n : Nat) : Nat := max lo (min hi n)

/-- Saturation of a signed value to a range (00_scope 4). -/
def clampInt (lo hi n : Int) : Int := max lo (min hi n)

/-- Division rounded up (00_scope 4). -/
def ceilDiv (a b : Nat) : Nat := (a + b - 1) / b

end Sys2Proof.Machine
end

