-- ==== Sys2Proof/Machine/State.lean ====
section
/-!
DEFINITION. The state of the node: every piece of state the manual gives its ten blocks, as plain data, and the state
after a power-on reset. INVENTORY.md lists each field with its rule.

Conventions. A `Timer` is `none` when stopped; `some n` is running with n ticks left, and `some 0` has run down and
its expiry has not been taken yet. Quantities the manual saturates are natural numbers, kept in range by the
operations.
-/

namespace Sys2Proof.Machine

/-! ### Codes (11.5) -/

/-- The eleven phases (R1). -/
inductive Phase where
  | cold | primed | filling | filled | running | hold | banked | runOut | draining | drained | tripped
  deriving DecidableEq, Repr

/-- The eleven trip causes (R130). -/
inductive Cause where
  | lineDirective | localDirective | sectionRequest | portNoAck | portSilent | phaseRefused | fillTimeout
  | drainTimeout | stagnation | freezeLong | utilityLost
  deriving DecidableEq, Repr

/-- The twelve section classes (00_scope 4). -/
inductive SectionClass where
  | yard | wash | slice | diffuse | pulp | purify | evap | pan | spin | dry | silo | utility
  deriving DecidableEq, Repr

/-- The four utility resources (00_scope 4). -/
inductive Resource where
  | steam | power | lime | water
  deriving DecidableEq, Repr

/-- The refusal codes (11.5, 5.8, R179 to R185). -/
inductive RefusalCode where
  | configUnlocked | badCode | notAuthorized | frozen | illegalInPhase | belowMin | lockedRunout | holdOwner
  | notToEmpty | holdupPresent | causeActive | busy | nothingPending | tooLate | nothingToConfirm | dwell
  | prereqUnmet | noBudget | cancelled | tripped | configLocked | badItem | inconsistent
  deriving DecidableEq, Repr

/-- A value for each of the four resources. -/
structure PerRes (α : Type) where
  steam : α
  power : α
  lime : α
  water : α
  deriving DecidableEq, Repr

/-- The published flags, in the order of the flags word (11.5). -/
structure Flags where
  starved : Bool
  blocked : Bool
  limited : Bool
  claimWait : Bool
  underStanding : Bool
  runoutLate : Bool
  runoutDone : Bool
  holdExpired : Bool
  counitWait : Bool
  counitLate : Bool
  holdupMismatch : Bool
  rateRefused : Bool
  replyOverflow : Bool
  frozen : Bool
  deriving DecidableEq, Repr

/-- A timer: stopped, or the ticks left to its expiry. -/
abbrev Timer := Option Nat

/-! ### Configuration store (chapter 10) -/

/-- The subject of a prerequisite entry (R46). -/
inductive Subject where
  | up1 | up2 | down1 | down2
  | station (a : Station)
  deriving DecidableEq, Repr

/-- The test of a prerequisite entry with its argument (R48); a phase set is the 11-bit mask of 11.3. -/
inductive PrereqTest where
  | phaseIn (set : BitVec 11)
  | offerGe (v : Nat)
  | acceptGe (v : Nat)
  | ageGe (s : Nat)
  | capacityGe (r : Resource) (v : Nat)
  | notFrozen
  deriving DecidableEq, Repr

/-- A prerequisite list entry (R46). -/
structure PrereqEntry where
  subject : Subject
  test : PrereqTest
  absentIsMet : Bool
  deriving DecidableEq, Repr

/-- The five prerequisite lists (R46). -/
inductive ListName where
  | fill | feed | resume | drain | endList
  deriving DecidableEq, Repr

/-- A value for each of the five lists. -/
structure PerList (α : Type) where
  fill : α
  feed : α
  resume : α
  drain : α
  endList : α
  deriving DecidableEq, Repr

/-- The four handoff points (R117). -/
inductive Point where
  | fill | feed | runOut | drain
  deriving DecidableEq, Repr

/-- The mode of a handoff point (R117). -/
inductive PointMode where
  | none | confirmOnly | coUnit
  deriving DecidableEq, Repr

/-- A handoff point item: mode, co-unit address and kind of work (R178 items 108 to 111). -/
structure PointSetting where
  mode : PointMode
  coUnit : Station
  work : Fin 16
  deriving DecidableEq, Repr

/-- A value for each of the four handoff points. -/
structure PerPoint (α : Type) where
  fill : α
  feed : α
  runOut : α
  drain : α
  deriving DecidableEq, Repr

/-- The stored value of each of the 111 configuration items (R178). A list entry that is `none` was never loaded:
its loaded mark is clear. -/
structure Settings where
  ownAddress : Station
  sectionClass : SectionClass
  chainPosition : Nat
  rank : Nat
  provider : PerRes Bool
  up1 : Station
  up2 : Station
  down1 : Station
  down2 : Station
  authoritySet : BitVec 32
  bitRate : Nat
  statusPeriod : Nat
  rMax : Nat
  rMin : Nat
  q : Nat
  rampUp : Nat
  rampDown : Nat
  maxStep : Nat
  tInt : Nat
  publishDeadband : Nat
  hMax : Nat
  hSet : Nat
  hDr : Nat
  tLevel : Nat
  rCorrMax : Nat
  mismatchBand : Nat
  standing : PerRes Nat
  fullRate : PerRes Nat
  capacityDeadband : Nat
  tFillMin : Nat
  tDrainRest : Nat
  tHoldMax : Nat
  tTurnover : Nat
  tBankExit : Nat
  tFreezeMax : Nat
  tPrereqWait : Nat
  tClaimWait : Nat
  tAckPhase : Nat
  tAckRate : Nat
  tAckTurnover : Nat
  tPortSilence : Nat
  tFillMax : Nat
  tDrainMax : Nat
  tStarve : Nat
  tHandoff : Nat
  depth : Nat
  lengths : PerList Nat
  entries : PerList (Vector (Option PrereqEntry) 10)
  points : PerPoint PointSetting
  deriving DecidableEq, Repr

/-- The configuration store: the items and the lock state (R178). -/
structure CS where
  set : Settings
  locked : Bool
  deriving DecidableEq, Repr

/-! ### Phase sequencer (chapter 1) -/

/-- The authorities, from lowest to highest rank (R97). -/
inductive Authority where
  | auto | sectionPanel | campaign
  deriving DecidableEq, Repr

/-- The mode of a run-out (R94). -/
inductive RunMode where
  | timed | toEmpty
  deriving DecidableEq, Repr

/-- Run-out data: T_rem or the length, the mode and the close-after flag (R17, R50). -/
structure RunOut where
  rem : Nat
  mode : RunMode
  closeAfter : Bool
  deriving DecidableEq, Repr

/-- The hold link (R17). -/
inductive HoldLink where
  | running
  | runOut (data : RunOut)
  deriving DecidableEq, Repr

/-- The transition kinds (R3). -/
inductive TransKind where
  | start | fill | feed | hold | bank | resume | runOut | stopRunOut | drain | endCampaign | forcedRunOut
  | closeDrain
  deriving DecidableEq, Repr

/-- The requester of a transition or of a reply (R3). -/
inductive Requester where
  | line (station : Station) (tag : Byte)
  | port (tag : Byte)
  | autoHold | autoResume | holdExpired | closeAfter
  deriving DecidableEq, Repr

/-- The stages of the slot (R3). -/
inductive Stage where
  | waitDwell | waitPrereq | waitClaim | waitHandoffSlot | waitIssue | waitAck | waitCompletion
  deriving DecidableEq, Repr

/-- What the slot knows of its own blocking handoff: the point not reached, no blocking handoff to wait for, one
under way, or one ended in SUCCESS or CONFIRMED (R14, R15, R123). -/
inductive HandoffWait where
  | notReached | notNeeded | awaiting | fulfilled
  deriving DecidableEq, Repr

/-- The transition record of the slot (R3). `settle` is the settle timer that belongs to the record (R6),
`claimReached` the AU's report recorded by the PS (R77), `handoff` the end of its handoff recorded by the PS
(R123). -/
structure SlotRec where
  target : Phase
  kind : TransKind
  requester : Requester
  authority : Authority
  stage : Stage
  deadline : Timer
  settle : Timer
  runOut : Option RunOut
  pendingSent : Bool
  claimReached : Bool
  handoff : HandoffWait
  deriving DecidableEq, Repr

/-- The waiting internal requests, at most one of each kind (R4). -/
structure Waiting where
  forced : Bool
  closeDrain : Bool
  autoHold : Bool
  autoResume : Bool
  deriving DecidableEq, Repr

/-- The phase sequencer (1.11). `missed` is the missed count of R24 (clear 0, set 1); `drainReading` is the last
holdup reading since entry to DRAINING (R15). -/
structure PS where
  phase : Phase
  phaseSince : Int
  slot : Option SlotRec
  waiting : Waiting
  link : Option HoldLink
  owner : Option Authority
  dwell : Timer
  fillMax : Timer
  drainMax : Timer
  holdMax : Timer
  turnover : Timer
  missed : Bool
  frozen : Bool
  freezeMax : Timer
  holdExpired : Bool
  drainReading : Option Nat
  deriving DecidableEq, Repr

/-! ### Peer view (chapter 2) -/

/-- The presence of a peer entry (R31). -/
inductive Presence where
  | unheard | live | silent
  deriving DecidableEq, Repr

/-- A peer entry (R30). -/
structure PeerEntry where
  presence : Presence
  phase : Option Phase
  frozen : Bool
  offer : Nat
  acceptance : Nat
  flags : Flags
  holdup : Option Nat
  holdings : PerRes (Option Nat)
  capacities : PerRes (Option Nat)
  statusPeriod : Option Nat
  phaseSince : Option Int
  rank : Option Nat
  sectionClass : Option SectionClass
  chainPosition : Option Nat
  cause : Option Cause
  lastHeard : Option Nat
  deriving DecidableEq, Repr

/-- The peer view: the entries of addresses 1 to 31 (index 0 is address 1), and the age watches of R42 as pairs of
an address and a threshold. -/
structure PV where
  peers : Vector PeerEntry 31
  watches : List (Station × Nat)
  deriving DecidableEq, Repr

/-! ### Throughput unit (chapter 3) -/

/-- The throughput unit (R50). `starveExpired` and `blockExpired` say that the timer has expired since it was last
started (R70). The published offer and acceptance are computed (R65 to R67). -/
structure TU where
  holdup : Nat
  limitC : Nat
  limitS : Nat
  interval : Timer
  runOut : Option RunOut
  train : Option Nat
  parts : PerRes Nat
  starved : Bool
  blocked : Bool
  limited : Bool
  claimWait : Bool
  runoutLate : Bool
  runoutDone : Bool
  mismatch : Bool
  starveTimer : Timer
  blockTimer : Timer
  starveExpired : Bool
  blockExpired : Bool
  good : Nat
  held : Option (Nat × Nat)
  deriving DecidableEq, Repr

/-! ### Allotment unit (chapter 4) -/

/-- The claim engine states (R81). -/
inductive Engine where
  | idle | waiting | reserved | sending | suspended
  deriving DecidableEq, Repr

/-- The tallies of one resource as the AU last took them (R80): others(r), capacity(r), and whether some LIVE
entry's holding of it is unknown. -/
structure Tally where
  others : Nat
  capacity : Nat
  unknown : Bool
  deriving DecidableEq, Repr

/-- The AU's state for one resource (R74). -/
structure Allot where
  holding : Nat
  raised : Option Nat
  engine : Engine
  claimValue : Option Nat
  announced : Nat
  heldReport : Bool
  reading : Option Nat
  longCapacity : Nat
  tally : Tally
  deriving DecidableEq, Repr

/-- The allotment unit (R74). -/
structure AU where
  res : PerRes Allot
  underStanding : Bool
  underTimer : Timer
  deriving DecidableEq, Repr

/-! ### Directive unit (chapter 5) -/

/-- The origin of a local result (R116). -/
inductive Origin where
  | directive | configuration
  deriving DecidableEq, Repr

/-- The outcomes of a reply, with the refusal code of a refused one (R114). -/
inductive Reply where
  | taken | pending | done
  | refused (code : RefusalCode)
  deriving DecidableEq, Repr

/-- The local result record (R116). -/
structure LocalResult where
  origin : Origin
  tag : Byte
  outcome : Reply
  detail : Byte
  deriving DecidableEq, Repr

/-- The directive unit: the local result and its count (R116). -/
structure DU where
  result : Option LocalResult
  count : Byte
  deriving DecidableEq, Repr

/-! ### Handoff unit (chapter 6) -/

/-- Why a record stands in a confirm wait (R118). -/
inductive WaitReason where
  | configured | failed | expired
  deriving DecidableEq, Repr

/-- The state of a requester record (R118). -/
inductive RecordState where
  | awaitDone (deadline : Timer)
  | confirmWait (reason : WaitReason)
  deriving DecidableEq, Repr

/-- The co-unit, kind and tag of a record whose point is a CO_UNIT point (R118). -/
structure HandoffCall where
  coUnit : Station
  work : Fin 16
  tag : Byte
  deriving DecidableEq, Repr

/-- The requester record (R118); its class follows from its point (R117). -/
structure HandoffRec where
  point : Point
  call : Option HandoffCall
  state : RecordState
  deriving DecidableEq, Repr

/-- The state of a service queue entry (R126). -/
inductive ServiceState where
  | waiting
  | outstanding (token : Token)
  deriving DecidableEq, Repr

/-- A service queue entry (R126). -/
structure Service where
  requester : Station
  tag : Byte
  work : Fin 16
  point : Point
  state : ServiceState
  deriving DecidableEq, Repr

/-- The handoff unit (R118, R126). -/
structure HU where
  record : Option HandoffRec
  tagCount : Byte
  counitWait : Bool
  counitLate : Bool
  queue : List Service
  deriving DecidableEq, Repr

/-! ### Trip unit (chapter 7) -/

/-- The trip record (R129). -/
structure TripRec where
  first : Cause
  later : List Cause
  overflow : Bool
  deriving DecidableEq, Repr

/-- The state of a recovery (R137). -/
inductive RecoveryState where
  | waiting
  | outstanding (token : Token)
  deriving DecidableEq, Repr

/-- The recovery record (R137); its requester is the section port with this tag. -/
structure Recovery where
  target : Phase
  tag : Byte
  state : RecoveryState
  spoil : Option Cause
  deriving DecidableEq, Repr

/-- The trip unit (R129, R131, R137). `raised` names the causes whose timer had run down when a phase change stopped it:
each has been raised and is still to be taken (R132; log 45). -/
structure TR where
  record : Option TripRec
  recovery : Option Recovery
  memory : Bool
  raised : List Cause
  deriving DecidableEq, Repr

/-! ### Section port (chapter 8) -/

/-- For which step a SET_PHASE was placed (R155). -/
inductive Purpose where
  | transition | completion | trip | recovery
  deriving DecidableEq, Repr

/-- A command to the section controller (R149); `pair` marks the SET_RATE of a start pair (R152). -/
inductive Command where
  | setPhase (phase : Phase) (purpose : Purpose)
  | setRate (rate : Nat) (pair : Bool)
  | turnover
  | handoffWork (work : Fin 16) (point : Point) (requester : Station)
  deriving DecidableEq, Repr

/-- An entry of the outstanding list (R150). -/
structure Outstanding where
  token : Token
  command : Command
  left : Timer
  superseded : Bool
  deriving DecidableEq, Repr

/-- The six flags of a report (R144). -/
structure ReportFlags where
  filled : Bool
  drained : Bool
  tripRequest : Bool
  freeze : Bool
  selfTurnover : Bool
  lookAhead : Bool
  deriving DecidableEq, Repr

/-- The exchange in progress (R143): the order record being shifted out, and the local result's presence and count
that it carries (R161). -/
structure Exchange where
  record : List Byte
  present : Bool
  count : Byte
  deriving DecidableEq, Repr

/-- The section port (8.7). The waiting requests of R149 are one field a source; the HU's are the WAITING entries of
its service queue. `pairRate` is the start pair's SET_RATE held back until the SET_PHASE RUNNING is acknowledged
(R152). `seenPresent` and `seenCount` are the local result's presence and count in the last valid exchange (R161). -/
structure SP where
  tripReq : Bool
  psReq : Option (Phase × Purpose)
  pairReq : Option Nat
  pairRate : Option Nat
  recoveryReq : Option Phase
  turnoverReq : Bool
  rateReq : Option Nat
  outstanding : List Outstanding
  tokenCount : Token
  rIss : Nat
  rAck : Nat
  rateRefused : Bool
  lookAhead : Bool
  lastReport : Option ReportFlags
  portSilence : Timer
  strayCount : Nat
  reportErrors : Nat
  page : Fin 4
  cursor : Station
  providers : PerRes (Option Station)
  exchange : Option Exchange
  seenPresent : Bool
  seenCount : Byte
  deriving DecidableEq, Repr

/-! ### Line controller (chapter 9) -/

/-- The line state (R175). -/
inductive LineState where
  | active | isolated
  deriving DecidableEq, Repr

/-- The frame of an allotment slot (R168). -/
inductive AllotFrame where
  | claim (v : Nat)
  | release (v : Nat)
  deriving DecidableEq, Repr

/-- The outcome carried by a HANDOFF_DONE (R120, 11.2). -/
inductive DoneOutcome where
  | success | notReady | busy | workFailed
  deriving DecidableEq, Repr

/-- A frame of the message FIFO (R168), with the fields of 11.2. -/
inductive MsgFrame where
  | reply (target : Station) (tag : Byte) (outcome : Reply) (detail : Byte)
  | handoff (target : Station) (tag : Byte) (work : Fin 16) (point : Point)
  | handoffDone (target : Station) (tag : Byte) (outcome : DoneOutcome)
  deriving DecidableEq, Repr

/-- A composed status notice (R172). -/
structure Notice where
  long : Bool
  phase : Phase
  offer : Nat
  acceptance : Nat
  flags : Flags
  holdup : Nat
  holdings : PerRes Nat
  provider : PerRes Bool
  capacities : PerRes Nat
  statusPeriod : Nat
  rank : Nat
  timeInPhase : Nat
  sectionClass : SectionClass
  chainPosition : Nat
  cause : Option Cause
  deriving DecidableEq, Repr

/-- A frame of the node on the line. -/
inductive Frame where
  | tripNotice (cause : Cause)
  | allot (r : Resource) (f : AllotFrame)
  | message (m : MsgFrame)
  | status (n : Notice)
  deriving DecidableEq, Repr

/-- The transmit slots (R168). -/
inductive TxSlot where
  | trip
  | allot (r : Resource)
  | fifo
  | status
  deriving DecidableEq, Repr

/-- The frame the LC has on the line (R166): offered while its arbitration field goes out, begun after it.
`afterOverflow` says that a long notice began after REPLY_OVERFLOW was last set (R171). -/
structure Tx where
  slot : TxSlot
  frame : Frame
  begun : Bool
  afterOverflow : Bool
  deriving DecidableEq, Repr

/-- The line controller (R177). `joined` says that the line has been read idle since the lock (R162); `tripAside` is
the TRIP_NOTICE kept aside while an older one is in transmission (R170); `longAgain` and `shortAgain` say that a due
mark was set while a status notice was in transmission (R172); `spacing` counts quarter seconds (R174). -/
structure LC where
  line : LineState
  joined : Bool
  failures : Nat
  lineErrors : Nat
  tripSlot : Option Cause
  tripAside : Option Cause
  allot : PerRes (Option AllotFrame)
  fifo : List MsgFrame
  longDue : Bool
  shortDue : Bool
  longAgain : Bool
  shortAgain : Bool
  statusTimer : Timer
  spacing : Timer
  lastOffer : Nat
  lastAcceptance : Nat
  replyOverflow : Bool
  attempt : Bool
  tx : Option Tx
  deriving DecidableEq, Repr

/-! ### The node -/

/-- The state of the node. `now` is the local seconds count (R184) and `quarter` the quarter seconds passed since its
last tick; `free` is the model's free-value counter; `pending` is the queue of waiting commands. -/
structure State where
  now : Nat
  quarter : Fin 4
  cs : CS
  ps : PS
  pv : PV
  tu : TU
  au : AU
  du : DU
  hu : HU
  tr : TR
  sp : SP
  lc : LC
  free : Nat
  pending : List Instr
  deriving DecidableEq, Repr

/-- Why a command could stop the machine. No meaning raises it: no rule of the manual stops the node (a trip is a
phase, a refusal is a reply, a bad frame is counted), so the type has only the case that would name such a rule.
Safe: a stop proves nothing false. -/
inductive Fault where
  /-- Raised by no meaning; it would be raised where the manual gave a command no effect at all. Safe. -/
  | unspecified
  deriving DecidableEq, Repr

/-- Why a command could be refused by the model. -/
inductive Refusal where
  /-- Raised only by an arm of `exec` whose command has no meaning yet; every arm has one. Safe. -/
  | notModelled (mnemonic : String)
  deriving DecidableEq, Repr

/-! ### Reset values -/

/-- The same value for each resource. -/
def PerRes.same {α : Type} (v : α) : PerRes α := ⟨v, v, v, v⟩

/-- No flag set. -/
def Flags.none : Flags :=
  ⟨false, false, false, false, false, false, false, false, false, false, false, false, false, false⟩

/-- The defaults of R178. An unloaded handoff point is of mode NONE, where R178 gives no co-unit and no kind; the
address 0 and the kind 0 that it holds beside the mode are the model's (DESIGN CHOICE, log 44). -/
def Settings.default : Settings where
  ownAddress := 0
  sectionClass := .yard
  chainPosition := 0
  rank := 0
  provider := .same false
  up1 := 0
  up2 := 0
  down1 := 0
  down2 := 0
  authoritySet := 0
  bitRate := 250
  statusPeriod := 5
  rMax := 1000
  rMin := 0
  q := 1
  rampUp := 50
  rampDown := 100
  maxStep := 50
  tInt := 10
  publishDeadband := 5
  hMax := 10000
  hSet := 5000
  hDr := 100
  tLevel := 600
  rCorrMax := 100
  mismatchBand := 500
  standing := .same 0
  fullRate := .same 0
  capacityDeadband := 100
  tFillMin := 300
  tDrainRest := 600
  tHoldMax := 14400
  tTurnover := 600
  tBankExit := 120
  tFreezeMax := 60
  tPrereqWait := 300
  tClaimWait := 60
  tAckPhase := 10
  tAckRate := 5
  tAckTurnover := 120
  tPortSilence := 3
  tFillMax := 7200
  tDrainMax := 7200
  tStarve := 120
  tHandoff := 600
  depth := 4
  lengths := ⟨0, 0, 0, 0, 0⟩
  entries := ⟨.replicate 10 none, .replicate 10 none, .replicate 10 none, .replicate 10 none, .replicate 10 none⟩
  points := ⟨⟨.none, 0, 0⟩, ⟨.none, 0, 0⟩, ⟨.none, 0, 0⟩, ⟨.none, 0, 0⟩⟩

/-- The store after a power-on reset: defaults, every loaded mark clear, UNLOCKED (R178). -/
def CS.reset : CS := ⟨.default, false⟩

/-- The sequencer after either reset (1.11), with phase-since the local time at which the reset ended. -/
def PS.reset (now : Nat) : PS where
  phase := .cold
  phaseSince := now
  slot := none
  waiting := ⟨false, false, false, false⟩
  link := none
  owner := none
  dwell := none
  fillMax := none
  drainMax := none
  holdMax := none
  turnover := none
  missed := false
  frozen := false
  freezeMax := none
  holdExpired := false
  drainReading := none

/-- An UNHEARD entry (R30). -/
def PeerEntry.unheard : PeerEntry where
  presence := .unheard
  phase := none
  frozen := false
  offer := 0
  acceptance := 0
  flags := .none
  holdup := none
  holdings := .same none
  capacities := .same none
  statusPeriod := none
  phaseSince := none
  rank := none
  sectionClass := none
  chainPosition := none
  cause := none
  lastHeard := none

/-- The peer view after either reset (2.7). -/
def PV.reset : PV := ⟨.replicate 31 .unheard, []⟩

/-- The throughput unit after either reset (R50, 3.13). -/
def TU.reset : TU where
  holdup := 0
  limitC := 1000
  limitS := 1000
  interval := none
  runOut := none
  train := none
  parts := .same 0
  starved := false
  blocked := false
  limited := false
  claimWait := false
  runoutLate := false
  runoutDone := false
  mismatch := false
  starveTimer := none
  blockTimer := none
  starveExpired := false
  blockExpired := false
  good := 0
  held := none

/-- The allotment state of one resource after either reset (R74, 4.10). -/
def Allot.reset : Allot where
  holding := 0
  raised := none
  engine := .idle
  claimValue := none
  announced := 0
  heldReport := false
  reading := none
  longCapacity := 0
  tally := ⟨0, 0, false⟩

/-- The allotment unit after either reset (4.10). -/
def AU.reset : AU := ⟨.same .reset, false, none⟩

/-- The directive unit after either reset (R116). -/
def DU.reset : DU := ⟨none, 0⟩

/-- The handoff unit after either reset (R118, R126). -/
def HU.reset : HU := ⟨none, 0, false, false, []⟩

/-- The trip unit after either reset (R142); no cause is left to take (log 45). -/
def TR.reset : TR := ⟨none, none, false, []⟩

/-- The section port after either reset (8.7). -/
def SP.reset : SP where
  tripReq := false
  psReq := none
  pairReq := none
  pairRate := none
  recoveryReq := none
  turnoverReq := false
  rateReq := none
  outstanding := []
  tokenCount := 0
  rIss := 0
  rAck := 0
  rateRefused := false
  lookAhead := false
  lastReport := none
  portSilence := none
  strayCount := 0
  reportErrors := 0
  page := 0
  cursor := 0
  providers := .same none
  exchange := none
  seenPresent := false
  seenCount := 0

/-- The line controller after a power-on reset (R177). -/
def LC.reset : LC where
  line := .active
  joined := false
  failures := 0
  lineErrors := 0
  tripSlot := none
  tripAside := none
  allot := .same none
  fifo := []
  longDue := false
  shortDue := false
  longAgain := false
  shortAgain := false
  statusTimer := none
  spacing := none
  lastOffer := 0
  lastAcceptance := 0
  replyOverflow := false
  attempt := false
  tx := none

/-- The node right after a power-on reset (R184). `quarter`, `free` and `pending` are the model's own fields
(DESIGN CHOICE, logs 1, 26 and 20). -/
def State.reset : State where
  now := 0
  quarter := 0
  cs := .reset
  ps := .reset 0
  pv := .reset
  tu := .reset
  au := .reset
  du := .reset
  hu := .reset
  tr := .reset
  sp := .reset
  lc := .reset
  free := 0
  pending := []

/-! ### Block updates -/

/-- The state with its configuration store replaced. -/
def State.setCs (s : State) (x : CS) : State := { s with cs := x }

/-- The state with its sequencer replaced. -/
def State.setPs (s : State) (x : PS) : State := { s with ps := x }

/-- The state with its peer view replaced. -/
def State.setPv (s : State) (x : PV) : State := { s with pv := x }

/-- The state with its throughput unit replaced. -/
def State.setTu (s : State) (x : TU) : State := { s with tu := x }

/-- The state with its allotment unit replaced. -/
def State.setAu (s : State) (x : AU) : State := { s with au := x }

/-- The state with its directive unit replaced. -/
def State.setDu (s : State) (x : DU) : State := { s with du := x }

/-- The state with its handoff unit replaced. -/
def State.setHu (s : State) (x : HU) : State := { s with hu := x }

/-- The state with its trip unit replaced. -/
def State.setTr (s : State) (x : TR) : State := { s with tr := x }

/-- The state with its section port replaced. -/
def State.setSp (s : State) (x : SP) : State := { s with sp := x }

/-- The state with its line controller replaced. -/
def State.setLc (s : State) (x : LC) : State := { s with lc := x }

/-- The state with one more free value used. -/
def State.useFree (s : State) : State := { s with free := s.free + 1 }

end Sys2Proof.Machine
end

