-- ==== Sys2Proof/Machine/Codes.lean ====
section
/-!
DEFINITION. The code tables (11.5, 1.1, R130, 00_scope 4) and the plain accessors of the indexed types.
-/

namespace Sys2Proof.Machine

/-- The value for one resource. -/
def PerRes.get {α : Type} (p : PerRes α) : Resource → α
  | .steam => p.steam
  | .power => p.power
  | .lime => p.lime
  | .water => p.water

/-- The table with the value for one resource replaced. -/
def PerRes.set {α : Type} (p : PerRes α) (r : Resource) (v : α) : PerRes α :=
  match r with
  | .steam => { p with steam := v }
  | .power => { p with power := v }
  | .lime => { p with lime := v }
  | .water => { p with water := v }

/-- A table computed resource by resource. -/
def PerRes.of {α : Type} (f : Resource → α) : PerRes α := ⟨f .steam, f .power, f .lime, f .water⟩

/-- The four resources in number order. -/
def Resource.all : List Resource := [.steam, .power, .lime, .water]

/-- The number of a resource (00_scope 4). -/
def Resource.code : Resource → Nat
  | .steam => 0 | .power => 1 | .lime => 2 | .water => 3

/-- The resource of a number, if any (R188: a resource above 3 names nothing). -/
def Resource.ofCode : Nat → Option Resource
  | 0 => some .steam | 1 => some .power | 2 => some .lime | 3 => some .water | _ => none

/-- The value for one list. -/
def PerList.get {α : Type} (p : PerList α) : ListName → α
  | .fill => p.fill | .feed => p.feed | .resume => p.resume | .drain => p.drain | .endList => p.endList

/-- The table with the value for one list replaced. -/
def PerList.set {α : Type} (p : PerList α) (l : ListName) (v : α) : PerList α :=
  match l with
  | .fill => { p with fill := v }
  | .feed => { p with feed := v }
  | .resume => { p with resume := v }
  | .drain => { p with drain := v }
  | .endList => { p with endList := v }

/-- The five lists in item order (R178). -/
def ListName.all : List ListName := [.fill, .feed, .resume, .drain, .endList]

/-- The list of index 0 to 4 in item order. -/
def ListName.ofIndex : Nat → ListName
  | 0 => .fill | 1 => .feed | 2 => .resume | 3 => .drain | _ => .endList

/-- The value for one handoff point. -/
def PerPoint.get {α : Type} (p : PerPoint α) : Point → α
  | .fill => p.fill | .feed => p.feed | .runOut => p.runOut | .drain => p.drain

/-- The table with the value for one point replaced. -/
def PerPoint.set {α : Type} (p : PerPoint α) (k : Point) (v : α) : PerPoint α :=
  match k with
  | .fill => { p with fill := v }
  | .feed => { p with feed := v }
  | .runOut => { p with runOut := v }
  | .drain => { p with drain := v }

/-- The point code of HANDOFF (11.2). -/
def Point.code : Point → Nat
  | .fill => 0 | .feed => 1 | .runOut => 2 | .drain => 3

/-- The point of a code; a code above 3 names nothing (R188). -/
def Point.ofCode : Nat → Option Point
  | 0 => some .fill | 1 => some .feed | 2 => some .runOut | 3 => some .drain | _ => none

/-- The class of a point: `true` for BLOCKING (R117). -/
def Point.blocking : Point → Bool
  | .fill => true | .drain => true | .feed => false | .runOut => false

/-- The phase codes (1.1). -/
def Phase.code : Phase → Nat
  | .cold => 0 | .primed => 1 | .filling => 2 | .filled => 3 | .running => 4 | .hold => 5 | .banked => 6
  | .runOut => 7 | .draining => 8 | .drained => 9 | .tripped => 10

/-- The phase of a code; a code above 10 names nothing (R37). -/
def Phase.ofCode : Nat → Option Phase
  | 0 => some .cold | 1 => some .primed | 2 => some .filling | 3 => some .filled | 4 => some .running
  | 5 => some .hold | 6 => some .banked | 7 => some .runOut | 8 => some .draining | 9 => some .drained
  | 10 => some .tripped | _ => none

/-- The trip cause codes (R130). -/
def Cause.code : Cause → Nat
  | .lineDirective => 0 | .localDirective => 1 | .sectionRequest => 2 | .portNoAck => 3 | .portSilent => 4
  | .phaseRefused => 5 | .fillTimeout => 6 | .drainTimeout => 7 | .stagnation => 8 | .freezeLong => 9
  | .utilityLost => 10

/-- The cause of a code, if it names one of the eleven (R188). -/
def Cause.ofCode : Nat → Option Cause
  | 0 => some .lineDirective | 1 => some .localDirective | 2 => some .sectionRequest | 3 => some .portNoAck
  | 4 => some .portSilent | 5 => some .phaseRefused | 6 => some .fillTimeout | 7 => some .drainTimeout
  | 8 => some .stagnation | 9 => some .freezeLong | 10 => some .utilityLost | _ => none

/-- The section class codes (00_scope 4). -/
def SectionClass.code : SectionClass → Nat
  | .yard => 0 | .wash => 1 | .slice => 2 | .diffuse => 3 | .pulp => 4 | .purify => 5 | .evap => 6 | .pan => 7
  | .spin => 8 | .dry => 9 | .silo => 10 | .utility => 11

/-- The class of a code; a code above 11 names nothing (R37). -/
def SectionClass.ofCode : Nat → Option SectionClass
  | 0 => some .yard | 1 => some .wash | 2 => some .slice | 3 => some .diffuse | 4 => some .pulp
  | 5 => some .purify | 6 => some .evap | 7 => some .pan | 8 => some .spin | 9 => some .dry | 10 => some .silo
  | 11 => some .utility | _ => none

/-- The refusal codes (11.5). -/
def RefusalCode.code : RefusalCode → Nat
  | .configUnlocked => 1 | .badCode => 2 | .notAuthorized => 3 | .frozen => 4 | .illegalInPhase => 5
  | .belowMin => 6 | .lockedRunout => 7 | .holdOwner => 8 | .notToEmpty => 9 | .holdupPresent => 10
  | .causeActive => 11 | .busy => 12 | .nothingPending => 13 | .tooLate => 14 | .nothingToConfirm => 15
  | .dwell => 16 | .prereqUnmet => 17 | .noBudget => 18 | .cancelled => 19 | .tripped => 20 | .configLocked => 21
  | .badItem => 22 | .inconsistent => 23

/-- The outcome codes of REPLY and of the local result (11.2, 11.4). -/
def Reply.code : Reply → Nat
  | .taken => 0 | .pending => 1 | .done => 2 | .refused _ => 3

/-- The refusal code byte: 0 unless REFUSED (11.2). -/
def Reply.refusalCode : Reply → Nat
  | .refused c => c.code
  | _ => 0

/-- The claim engine codes (11.4). -/
def Engine.code : Engine → Nat
  | .idle => 0 | .waiting => 1 | .reserved => 2 | .sending => 3 | .suspended => 4

/-- The presence codes of the neighbour slots, where 0 is NONE (11.4). -/
def Presence.code : Presence → Nat
  | .unheard => 1 | .live => 2 | .silent => 3

/-- The rank of an authority (R97). -/
def Authority.rank : Authority → Nat
  | .auto => 0 | .sectionPanel => 1 | .campaign => 2

/-- FILLING to DRAINING, codes 2 to 8: the phases in which port silence is watched (R146). -/
def Phase.watched (p : Phase) : Bool := 2 ≤ p.code && p.code ≤ 8

/-- The two phases under rate control (R65). -/
def Phase.underRate : Phase → Bool
  | .running => true | .runOut => true | _ => false

/-- HOLD and BANKED. -/
def Phase.inHold : Phase → Bool
  | .hold => true | .banked => true | _ => false

/-- The phases with a standing requirement (R89). -/
def Phase.needsStanding : Phase → Bool
  | .filling | .filled | .running | .hold | .banked | .runOut | .draining => true
  | .cold | .primed | .drained | .tripped => false

/-- A timer that is running with no tick left: its expiry is due. -/
def Timer.due (t : Timer) : Bool := t = some 0

/-- A timer started with a length; a length of 0 expires at the start and leaves it stopped (00_scope 4). -/
def startTimer (n : Nat) : Timer := if n = 0 then none else some n

end Sys2Proof.Machine
end

