-- ==== Sys2Proof/Machine/Flags.lean ====
section
/-!
DEFINITION. The published flags of the node and the flags word (11.5).
-/

namespace Sys2Proof.Machine

/-- The node's published flags, each read from the block that owns it (R41, R50, R89, R118, R156, R171, R23, R27). -/
def State.flags (s : State) : Flags where
  starved := s.tu.starved
  blocked := s.tu.blocked
  limited := s.tu.limited
  claimWait := s.tu.claimWait
  underStanding := s.au.underStanding
  runoutLate := s.tu.runoutLate
  runoutDone := s.tu.runoutDone
  holdExpired := s.ps.holdExpired
  counitWait := s.hu.counitWait
  counitLate := s.hu.counitLate
  holdupMismatch := s.tu.mismatch
  rateRefused := s.sp.rateRefused
  replyOverflow := s.lc.replyOverflow
  frozen := s.ps.frozen

/-- The flags word; bits 14 and 15 are 0 (11.5). -/
def Flags.word (f : Flags) : Nat :=
  bit f.starved + 2 * bit f.blocked + 4 * bit f.limited + 8 * bit f.claimWait + 16 * bit f.underStanding
    + 32 * bit f.runoutLate + 64 * bit f.runoutDone + 128 * bit f.holdExpired + 256 * bit f.counitWait
    + 512 * bit f.counitLate + 1024 * bit f.holdupMismatch + 2048 * bit f.rateRefused
    + 4096 * bit f.replyOverflow + 8192 * bit f.frozen

/-- The flags a word carries; bits 14 and 15 are ignored (R187, 11.5). -/
def Flags.ofWord (w : Nat) : Flags where
  starved := w.testBit 0
  blocked := w.testBit 1
  limited := w.testBit 2
  claimWait := w.testBit 3
  underStanding := w.testBit 4
  runoutLate := w.testBit 5
  runoutDone := w.testBit 6
  holdExpired := w.testBit 7
  counitWait := w.testBit 8
  counitLate := w.testBit 9
  holdupMismatch := w.testBit 10
  rateRefused := w.testBit 11
  replyOverflow := w.testBit 12
  frozen := w.testBit 13

end Sys2Proof.Machine
end

