-- ==== Sys2Proof/Machine/Views.lean ====
section
/-!
DEFINITION. What the blocks read of one another: the values the manual defines as functions of the state it gives
(published values, the own entry, the sums over the peer table, prerequisite tests). Each is stored once, in the block
that owns its inputs, and computed here (log 22).
-/

namespace Sys2Proof.Machine

/-- The modulus of the local seconds count (R184). -/
def secondsModulus : Nat := 4294967296

/-- The station addresses 1 to 31 in rising order (R29). -/
def stations : List Station := (List.range 31).map fun i => Fin.ofNat 32 (i + 1)

/-- The stored entry of an address; address 0 has none and reads as UNHEARD (R47). -/
def State.stored (s : State) (a : Station) : PeerEntry :=
  if h : 0 < a.val then s.pv.peers[a.val - 1] else .unheard

/-- The state with the entry of an address replaced. -/
def State.setPeer (s : State) (a : Station) (e : PeerEntry) : State :=
  if h : 0 < a.val then s.setPv { s.pv with peers := s.pv.peers.set (a.val - 1) e } else s

/-- Whether an address is the node's own: only once the configuration is locked (R29, R41). -/
def State.isOwn (s : State) (a : Station) : Bool := s.cs.locked && a = s.cs.set.ownAddress

/-- The time since an earlier local time, modulo the count (R184). -/
def State.elapsed (s : State) (since : Int) : Nat := (((s.now : Int) - since) % secondsModulus).toNat

/-- An age saturated to 65,535 s (R42, R172). -/
def State.age (s : State) (since : Int) : Nat := min 65535 (s.elapsed since)

/-- No upstream configured (R43). -/
def State.headSection (s : State) : Bool := s.cs.set.up1 = 0 && s.cs.set.up2 = 0

/-- No downstream configured (R44). -/
def State.tailSection (s : State) : Bool := s.cs.set.down1 = 0 && s.cs.set.down2 = 0

/-- A LIVE neighbour's value, or 0 for a role not configured, UNHEARD or SILENT (R43, R44). -/
def State.neighbour (s : State) (f : PeerEntry → Nat) (a : Station) : Nat :=
  if a ≠ 0 ∧ (s.stored a).presence = .live then f (s.stored a) else 0

/-- The sum over two roles, a station named by both counted once (R43, R44). -/
def State.overRoles (s : State) (f : PeerEntry → Nat) (a b : Station) : Nat :=
  if a = b then s.neighbour f a else s.neighbour f a + s.neighbour f b

/-- The inflow I supplied by the PV (R43). -/
def State.inflow (s : State) : Nat := s.overRoles PeerEntry.offer s.cs.set.up1 s.cs.set.up2

/-- The downstream acceptance A_dn (R44). -/
def State.downstream (s : State) : Nat :=
  min 1000 (s.overRoles PeerEntry.acceptance s.cs.set.down1 s.cs.set.down2)

/-- The inflow the TU uses: a head section takes R_ack in RUNNING and 0 in every other phase (R53). -/
def State.tuInflow (s : State) : Nat :=
  if s.headSection then (if s.ps.phase = .running then s.sp.rAck else 0) else s.inflow

/-- The room of R66. -/
def State.room (s : State) : Nat := (s.cs.set.hMax * 60 - s.tu.holdup) / s.cs.set.tLevel

/-- The acceptance of R66 by phase, before a freeze holds it. -/
def State.ownAcceptance (s : State) : Nat :=
  match s.ps.phase with
  | .filled | .running | .runOut =>
    let down := if s.tailSection then s.cs.set.rMax else s.downstream + s.room
    min 1000 (min (min s.tu.limitC s.tu.limitS) (min s.cs.set.rMax down))
  | _ => 0

/-- The published offer: the held value while frozen, else R_ack under rate control and 0 elsewhere (R65, R68). -/
def State.offer (s : State) : Nat :=
  match s.tu.held with
  | some (o, _) => o
  | none => if s.ps.phase.underRate then s.sp.rAck else 0

/-- The published acceptance (R66 to R68). -/
def State.acceptance (s : State) : Nat :=
  match s.tu.held with
  | some (_, a) => a
  | none => s.ownAcceptance

/-- The published holdup in rm (R50). -/
def State.publishedHoldup (s : State) : Nat := min 65535 (s.tu.holdup / 60)

/-- The published capacity of a resource (R78). -/
def State.publishedCapacity (s : State) (r : Resource) : Nat :=
  if s.cs.set.provider.get r && s.ps.phase = .running then (s.au.res.get r).reading.getD 0 else 0

/-- The first cause, published while TRIPPED (R41, R129). -/
def State.publishedCause (s : State) : Option Cause :=
  if s.ps.phase = .tripped then s.tr.record.map TripRec.first else none

/-- The node's own entry, mirroring its blocks (R41). -/
def State.ownEntry (s : State) : PeerEntry where
  presence := .live
  phase := some s.ps.phase
  frozen := s.ps.frozen
  offer := s.offer
  acceptance := s.acceptance
  flags := s.flags
  holdup := some s.publishedHoldup
  holdings := .of fun r => some (s.au.res.get r).holding
  capacities := .of fun r => if s.cs.set.provider.get r then some (s.publishedCapacity r) else none
  statusPeriod := some s.cs.set.statusPeriod
  phaseSince := some s.ps.phaseSince
  rank := some s.cs.set.rank
  sectionClass := some s.cs.set.sectionClass
  chainPosition := some s.cs.set.chainPosition
  cause := s.publishedCause
  lastHeard := none

/-- The entry of an address as every reader sees it (R41, R47). -/
def State.entry (s : State) (a : Station) : PeerEntry := if s.isOwn a then s.ownEntry else s.stored a

/-! ### Tallies and the shedding walk (R80, R87) -/

/-- The LIVE entries other than the own one, with their addresses (R45). -/
def State.livePeers (s : State) : List (Station × PeerEntry) :=
  (stations.filter fun a => !s.isOwn a && (s.stored a).presence = .live).map fun a => (a, s.stored a)

/-- The tallies of a resource as the record stands (R80). -/
def State.tally (s : State) (r : Resource) : Tally where
  others := (s.livePeers.map fun e => (e.2.holdings.get r).getD 0).sum
  capacity := (s.livePeers.map fun e => (e.2.capacities.get r).getD 0).sum + s.publishedCapacity r
  unknown := s.livePeers.any fun e => (e.2.holdings.get r).isNone

/-- Whether a holder stands before the own node in the shedding order: rank, an absent one counting as 16, then
address (R87). -/
def State.walksBefore (s : State) (e : Station × PeerEntry) : Bool :=
  let rank := e.2.rank.getD 16
  rank < s.cs.set.rank || (rank = s.cs.set.rank && e.1 < s.cs.set.ownAddress)

/-- The sum of the known holdings that stand before the own node in the walk (R87). -/
def State.sumBefore (s : State) (r : Resource) : Nat :=
  ((s.livePeers.filter s.walksBefore).map fun e => (e.2.holdings.get r).getD 0).sum

/-! ### Prerequisite lists (R46 to R49) -/

/-- The entries of a list: those of indices below its length item (R46, R180). -/
def Settings.list (c : Settings) (l : ListName) : List PrereqEntry :=
  ((c.entries.get l).toList.take (c.lengths.get l)).filterMap id

/-- The address a subject resolves to (R47). -/
def Settings.resolve (c : Settings) : Subject → Station
  | .up1 => c.up1 | .up2 => c.up2 | .down1 => c.down1 | .down2 => c.down2
  | .station a => a

/-- A phase in a PHASE_IN set (R48). -/
def phaseInSet (set : BitVec 11) (p : Phase) : Bool := set.getLsbD p.code

/-- The phase age of an entry (R42). -/
def State.phaseAge (s : State) (e : PeerEntry) : Option Nat := e.phaseSince.map s.age

/-- A test applied to a present subject's entry (R48). -/
def State.testMet (s : State) (e : PeerEntry) : PrereqTest → Bool
  | .phaseIn set => match e.phase with
    | some p => phaseInSet set p
    | none => false
  | .offerGe v => v ≤ e.offer
  | .acceptGe v => v ≤ e.acceptance
  | .ageGe t => match s.phaseAge e with
    | some a => t ≤ a
    | none => false
  | .capacityGe r v => v ≤ (e.capacities.get r).getD 0
  | .notFrozen => !e.frozen

/-- Whether a list entry is met (R47, R48). -/
def State.prereqMet (s : State) (p : PrereqEntry) : Bool :=
  let a := s.cs.set.resolve p.subject
  if a ≠ 0 && (s.entry a).presence = .live then s.testMet (s.entry a) p.test else p.absentIsMet

/-- The evaluation of a list: the lowest index unmet, or `none` when the list is met (R49). -/
def State.firstUnmet (s : State) (l : ListName) : Option Nat :=
  (s.cs.set.list l).findIdx? fun p => !s.prereqMet p

/-- The age watches an evaluation sets up: each AGE_GE entry whose present subject's age is below its threshold
(R42). -/
def State.watchesOf (s : State) (l : ListName) : List (Station × Nat) :=
  (s.cs.set.list l).filterMap fun p =>
    let a := s.cs.set.resolve p.subject
    match p.test, s.phaseAge (s.entry a) with
    | .ageGe t, some age => if a ≠ 0 && (s.entry a).presence = .live && age < t then some (a, t) else none
    | _, _ => none

/-- A watch whose subject's age has reached its threshold (R42). -/
def State.watchDue (s : State) (w : Station × Nat) : Bool :=
  match s.phaseAge (s.entry w.1) with
  | some age => w.2 ≤ age
  | none => false

/-- The silence limit of an entry (R38). -/
def PeerEntry.silenceLimit (e : PeerEntry) : Nat := 3 * e.statusPeriod.getD 10

/-- A LIVE entry other than the own one whose silence limit has passed (R38). -/
def State.silenceDue (s : State) (a : Station) : Bool :=
  !s.isOwn a && (s.stored a).presence = .live
    && match (s.stored a).lastHeard with
      | some t => (s.stored a).silenceLimit < s.elapsed t
      | none => false

/-! ### The trip, hold and port conditions other blocks read -/

/-- The auto-hold condition (R70). -/
def State.autoHoldStands (s : State) : Bool :=
  (s.ps.phase = .running && s.tu.starveExpired && s.tu.starved)
    || (s.ps.phase.underRate
        && ((s.tu.blockExpired && s.tu.blocked) || s.au.underStanding || s.lc.line = .isolated))

/-- The ATTN output (R161): a command is outstanding, or the local result differs from the one the last valid
exchange carried. -/
def State.attn (s : State) : Bool :=
  !s.sp.outstanding.isEmpty || s.du.count ≠ s.sp.seenCount || s.du.result.isSome ≠ s.sp.seenPresent

/-- Whether the LC delivers frames: the configuration is locked and the line has been read idle since (R162). -/
def State.receives (s : State) : Bool := s.cs.locked && s.lc.joined

end Sys2Proof.Machine
end

