-- ==== Sys2Proof/Machine/Ops.lean ====
section
/-!
DEFINITION. The operations every block uses: due marks, the message FIFO, replies and local results, and the marks and
reports that follow a change of published state.
-/

namespace Sys2Proof.Machine

/-! ### Due marks (R172 to R174) -/

/-- Whether a status notice is in transmission. -/
def LC.noticeInTransmission (l : LC) : Bool :=
  match l.tx with
  | some t => t.slot = .status && t.begun
  | none => false

/-- The long due mark set (R173); a mark set while a notice is in transmission stays after its outcome (R172). -/
def LC.markLong (l : LC) : LC :=
  { l with longDue := true, longAgain := l.longAgain || l.noticeInTransmission }

/-- The short due mark set (R174), likewise. -/
def LC.markShort (l : LC) : LC :=
  { l with shortDue := true, shortAgain := l.shortAgain || l.noticeInTransmission }

/-- The long due mark set once the configuration is locked; before the lock no mark is set (R168). -/
def State.markLong (s : State) : State := if s.cs.locked then s.setLc s.lc.markLong else s

/-- The short due mark set once the configuration is locked. -/
def State.markShort (s : State) : State := if s.cs.locked then s.setLc s.lc.markShort else s

/-! ### The message FIFO (R171) -/

/-- The frames the message FIFO holds at most (R168). -/
def fifoSize : Nat := 8

/-- REPLY_OVERFLOW set: a notice already in transmission began before this setting (R171). -/
def LC.overflow (l : LC) : LC :=
  { l with replyOverflow := true, tx := l.tx.map fun t => { t with afterOverflow := false } }

/-- A frame placed in the message FIFO, or dropped with REPLY_OVERFLOW set when the FIFO is full (R171). -/
def LC.place (l : LC) (m : MsgFrame) : LC :=
  if l.fifo.length < fifoSize then { l with fifo := l.fifo ++ [m] } else l.overflow

/-- A frame placed in the message FIFO. -/
def State.place (s : State) (m : MsgFrame) : State := s.setLc (s.lc.place m)

/-! ### Replies (R115, R116) -/

/-- The local result written; each write replaces the record and raises the count (R116). -/
def State.writeResult (s : State) (r : LocalResult) : State := s.setDu ⟨some r, s.du.count + 1⟩

/-- The configuration store's result (R179, R181, R185): origin CONFIGURATION. -/
def State.configResult (s : State) (tag : Byte) (outcome : Reply) (detail : Byte) : State :=
  s.writeResult ⟨.configuration, tag, outcome, detail⟩

/-- An outcome sent to a requester: a REPLY frame, the local result, or nothing for an internal one (R11, R114). -/
def State.replyWith (s : State) (q : Requester) (outcome : Reply) (detail : Byte) : State :=
  match q with
  | .line a tag => s.place (.reply a tag outcome detail)
  | .port tag => s.writeResult ⟨.directive, tag, outcome, detail⟩
  | .autoHold | .autoResume | .holdExpired | .closeAfter => s

/-- An outcome with detail 0 (R114). -/
def State.reply (s : State) (q : Requester) (outcome : Reply) : State := s.replyWith q outcome 0

/-- The requester that a source is (R108). -/
def Source.requester : Source → Requester
  | .line a _ _ _ tag => .line a tag
  | .port tag => .port tag

/-! ### Changes of published state (R32, R41, R174) -/

/-- Whether a published rate differs from its last published value by enough for a short notice (R174). -/
def mattersOnLine (deadband value last : Nat) : Bool :=
  value ≠ last && (value = 0 || last = 0 || deadband ≤ (value - last) + (last - value))

/-- The deadband test of the offer and acceptance as they stand (R174). -/
def State.ratesMatter (s : State) : Bool :=
  mattersOnLine s.cs.set.publishDeadband s.offer s.lc.lastOffer
    || mattersOnLine s.cs.set.publishDeadband s.acceptance s.lc.lastAcceptance

/-- The short due mark that a change between two states calls for (R174). -/
def State.shortCalled (before after : State) : Bool :=
  before.ps.phase ≠ after.ps.phase || before.flags ≠ after.flags
    || (before.offer ≠ after.offer
        && mattersOnLine after.cs.set.publishDeadband after.offer after.lc.lastOffer)
    || (before.acceptance ≠ after.acceptance
        && mattersOnLine after.cs.set.publishDeadband after.acceptance after.lc.lastAcceptance)

/-- The short due mark set where the change from `before` calls for it (log 23). -/
def State.noteChange (before after : State) : State :=
  if before.shortCalled after then after.markShort else after

/-- The own entry changed, which is a change report like any other (R41). -/
def State.ownChanged (before after : State) : Bool := before.ownEntry ≠ after.ownEntry

end Sys2Proof.Machine
end

