-- ==== Sys2Proof/Machine/Allotment.lean ====
section
/-!
DEFINITION. The allotment unit (chapter 4): targets, the claim engine, releases, tallies, shedding and UNDER_STANDING.
The work on one resource is done on its cell, the AU's state for it together with its allotment slot, so that nothing
else of the node can be touched by it.
-/

namespace Sys2Proof.Machine

/-- One resource's AU state and its allotment slot. -/
structure Cell where
  a : Allot
  slot : Option AllotFrame
  deriving DecidableEq, Repr

/-- What a cell's work reads of the rest: the holding target, whether the resource's frame is in transmission, and
whether the line state is ACTIVE. -/
structure CellView where
  target : Nat
  begun : Bool
  active : Bool
  deriving DecidableEq, Repr

/-! ### The work on one cell -/

/-- The holding lowered to the target (R76). -/
def Cell.capToTarget (v : CellView) (c : Cell) : Cell :=
  { c with a := { c.a with holding := min c.a.holding v.target } }

/-- A RESERVED claim withdrawn: removed from the slot, its value absent, the engine WAITING (R83). -/
def Cell.withdraw (c : Cell) : Cell :=
  { a := { c.a with claimValue := none, engine := .waiting }, slot := none }

/-- The withdrawal of a RESERVED claim whose value the target has fallen below (R83). -/
def Cell.withdrawBelow (v : CellView) (c : Cell) : Cell :=
  if c.a.engine = .reserved ∧ v.target < c.a.claimValue.getD 0 then c.withdraw else c

/-- The value an evaluation would claim: the smaller of target and headroom, a negative headroom giving 0, which no
holding lies below (R80, R82). -/
def Cell.claimable (v : CellView) (c : Cell) : Nat := min v.target (c.a.tally.capacity - c.a.tally.others)

/-- The evaluation of the engine, made in IDLE and WAITING (R81, R82). -/
def Cell.evaluate (v : CellView) (c : Cell) : Cell :=
  if c.a.engine = .idle ∨ c.a.engine = .waiting then
    if v.target ≤ c.a.holding then { c with a := { c.a with engine := .idle } }
    else if c.a.tally.unknown || v.begun || c.claimable v ≤ c.a.holding then
      { c with a := { c.a with engine := .waiting } }
    else
      { a := { c.a with engine := .reserved, claimValue := some (c.claimable v) }
        slot := some (.claim (c.claimable v)) }
  else c

/-- Whether a RELEASE is due (R86); while ISOLATED the AU places no frame (R91). -/
def Cell.releaseDue (v : CellView) (c : Cell) : Bool :=
  c.a.announced ≠ c.a.holding && c.a.engine ≠ .reserved && c.a.engine ≠ .sending && v.active

/-- A RELEASE that is due placed in the slot, unless a frame for the resource is in transmission (R86). -/
def Cell.judgeRelease (v : CellView) (c : Cell) : Cell :=
  if c.releaseDue v && !v.begun then { c with slot := some (.release c.a.holding) } else c

/-- Whether new tallies withdraw a RESERVED claim (R83). -/
def Tally.worsens (new old : Tally) : Bool :=
  old.others < new.others || new.capacity < old.capacity || (new.unknown && !old.unknown)

/-- The holding cut to the own allowance of R87, which the holders before the node and the capacity give (R88). -/
def Cell.shed (before : Nat) (c : Cell) : Cell :=
  if before + c.a.holding ≤ c.a.tally.capacity then c
  else { c with a := { c.a with holding := min c.a.holding (c.a.tally.capacity - before) } }

/-- A change report taken: tallies, withdrawal, shedding, evaluation, release (R80, R83, R87, R88). -/
def Cell.report (v : CellView) (new : Tally) (before : Nat) (c : Cell) : Cell :=
  let taken : Cell := { c with a := { c.a with tally := new, heldReport := false } }
  let judged := if c.a.engine = .reserved ∧ new.worsens c.a.tally then taken.withdraw else taken
  ((judged.shed before).evaluate v).judgeRelease v

/-- A change of the own holding is a PV change report for the resource, held while a frame for it is in transmission
(R41, R45, R80). The walk of a report leaves the holding at its allowance, where the change that this makes walks no
further. -/
def Cell.ownReport (v : CellView) (new : Tally) (before old : Nat) (c : Cell) : Cell :=
  if c.a.holding = old then c
  else if v.begun then { c with a := { c.a with heldReport := true } }
  else c.report v new before

/-- The work that follows a change of the target (R75, R76, R81, R83, R86). -/
def Cell.retarget (v : CellView) (c : Cell) : Cell :=
  (((c.capToTarget v).withdrawBelow v).evaluate v).judgeRelease v

/-- That work, with the change report that a lowered holding makes. -/
def Cell.refresh (v : CellView) (new : Tally) (before : Nat) (c : Cell) : Cell :=
  (c.retarget v).ownReport v new before c.a.holding

/-- What follows the outcome of a frame: the held change report, if set, then the evaluation and the release
(R85, R86). -/
def Cell.afterOutcome (v : CellView) (new : Tally) (before : Nat) (c : Cell) : Cell :=
  if c.a.heldReport then c.report v new before else (c.evaluate v).judgeRelease v

/-- The holding that a completed CLAIM gives, before the held change report is taken (R85); its change is a change
report of its own, taken with a held one (R41, R45). -/
def Cell.claimed (v : CellView) (value : Nat) (c : Cell) : Cell where
  a := { c.a with
    holding := min value v.target, announced := value, claimValue := none, engine := .waiting
    heldReport := c.a.heldReport || min value v.target ≠ c.a.holding }
  slot := none

/-- A CLAIM that failed and is not dropped (R85): RESERVED again, judged as if it had never begun. -/
def Cell.reclaimed (v : CellView) (c : Cell) : Cell :=
  Cell.withdrawBelow v { c with a := { c.a with engine := .reserved } }

/-- The value that a completed RELEASE announces (R86). -/
def Cell.released (value : Nat) (c : Cell) : Cell := { a := { c.a with announced := value }, slot := none }

/-- A RELEASE that failed and is not dropped: back in its slot with the holding as it then stands (R86). -/
def Cell.rereleased (c : Cell) : Cell := { c with slot := some (.release c.a.holding) }

/-- Line isolation (R91); of the change report of a holding given up the tallies alone are left to take. -/
def Cell.isolate (new : Tally) (c : Cell) : Cell :=
  { a := { c.a with
      holding := 0, engine := .suspended, claimValue := none, heldReport := false
      tally := if c.a.holding = 0 then c.a.tally else new }
    slot := none }

/-- The return to ACTIVE: the engine leaves SUSPENDED and evaluates against the record as it stands (R92). -/
def Cell.rejoin (v : CellView) (new : Tally) (c : Cell) : Cell :=
  if c.a.engine = .suspended then
    (Cell.evaluate v { c with a := { c.a with engine := .waiting, tally := new } }).judgeRelease v
  else c

/-- The completion of a long notice: the announced holding becomes the value carried, and a waiting RELEASE no longer
due is removed (R86); the capacity carried is recorded (R79). -/
def Cell.longDone (v : CellView) (holding capacity : Nat) (c : Cell) : Cell :=
  let c' : Cell := { c with a := { c.a with announced := holding, longCapacity := capacity } }
  match c'.slot with
  | some (.release _) => Cell.judgeRelease v (if c'.releaseDue v then c' else { c' with slot := none })
  | _ => c'.judgeRelease v

/-! ### Cells in the state -/

/-- The cell of a resource. -/
def State.cell (s : State) (r : Resource) : Cell := ⟨s.au.res.get r, s.lc.allot.get r⟩

/-- The state with a resource's cell replaced. -/
def State.setCell (s : State) (r : Resource) (c : Cell) : State :=
  { s with au := { s.au with res := s.au.res.set r c.a }, lc := { s.lc with allot := s.lc.allot.set r c.slot } }

/-- The phase target of a resource (R75). -/
def State.phaseTarget (s : State) (r : Resource) : Nat :=
  match s.ps.phase with
  | .cold | .primed | .drained | .tripped => 0
  | .filling | .filled | .hold | .banked | .draining => s.cs.set.standing.get r
  | .running | .runOut => s.cs.set.standing.get r + s.tu.parts.get r

/-- The holding target of a resource (R75). -/
def State.target (s : State) (r : Resource) : Nat :=
  min 4000 (max (s.phaseTarget r) ((s.au.res.get r).raised.getD 0))

/-- Whether the frame of a resource's allotment slot is in transmission (R166). -/
def State.allotBegun (s : State) (r : Resource) : Bool :=
  match s.lc.tx with
  | some t => t.slot = .allot r && t.begun
  | none => false

/-- What the cell's work reads of the node. -/
def State.cellView (s : State) (r : Resource) : CellView := ⟨s.target r, s.allotBegun r, s.lc.line = .active⟩

/-- The work of a target change on one resource. -/
def State.refreshCell (s : State) (r : Resource) : State :=
  s.setCell r ((s.cell r).refresh (s.cellView r) (s.tally r) (s.sumBefore r))

/-- The work of a target change on every resource. -/
def State.refreshCells (s : State) : State := Resource.all.foldl State.refreshCell s

/-- A change report for a resource: taken, or held while a frame for it is in transmission (R80, R84). -/
def State.reportCell (s : State) (r : Resource) : State :=
  let c := s.cell r
  if s.allotBegun r then s.setCell r { c with a := { c.a with heldReport := true } }
  else s.setCell r (c.report (s.cellView r) (s.tally r) (s.sumBefore r))

/-- Change reports for the resources a predicate names (R45). -/
def State.reportCells (s : State) (named : Resource → Bool) : State :=
  (Resource.all.filter named).foldl State.reportCell s

/-- The standing requirement of a resource (R89). -/
def State.required (s : State) (r : Resource) : Nat :=
  if s.ps.phase.needsStanding then s.cs.set.standing.get r else 0

/-- Some holding lies below its standing requirement (R89). -/
def State.belowStanding (s : State) : Bool :=
  Resource.all.any fun r => (s.au.res.get r).holding < s.required r

/-- UNDER_STANDING judged; its rise starts the under-standing timer and its fall stops it (R89, R90). -/
def State.judgeStanding (s : State) : State :=
  if s.belowStanding then
    if s.au.underStanding then s
    else s.setAu { s.au with underStanding := true, underTimer := some s.cs.set.tClaimWait }
  else s.setAu { s.au with underStanding := false, underTimer := none }

/-- The raised targets set (R8), saturated to 4000 (R74), or removed (R75). -/
def State.setRaised (s : State) (f : Resource → Option Nat) : State :=
  s.setAu { s.au with res := .of fun r => { s.au.res.get r with raised := (f r).map (min 4000) } }

/-- Every holding has reached its raised target, an absent one and one of 0 being reached (R77). -/
def State.claimReached (s : State) : Bool :=
  Resource.all.all fun r => (s.au.res.get r).raised.getD 0 ≤ (s.au.res.get r).holding

/-- Line isolation as the AU takes it (R91). -/
def State.isolateCells (s : State) : State :=
  (Resource.all.foldl (fun t r => t.setCell r ((t.cell r).isolate (t.tally r))) s).judgeStanding

/-- The return to ACTIVE as the AU takes it (R92). -/
def State.rejoinCells (s : State) : State :=
  Resource.all.foldl (fun t r => t.setCell r ((t.cell r).rejoin (t.cellView r) (t.tally r))) s

end Sys2Proof.Machine
end

