-- ==== Sys2Proof/Machine/Phases.lean ====
section
/-!
DEFINITION. A phase change, the one event of R2, as each block carries it out: the sequencer's timers, link, owner and
turnover (1.3, 1.5, 1.8), the throughput unit's data (R51, R69, R72), the section port's rates, requests and silence
timer (R146, R160), the allotment unit's targets (R75) and the line controller's marks (R173, R174).
-/

namespace Sys2Proof.Machine

/-- What a phase change brings with it: the hold link and owner for an entry to HOLD (R17, R18), the run-out data for
an entry to RUN_OUT (R72). -/
structure EntryInfo where
  link : Option HoldLink
  owner : Option Authority
  runOut : Option RunOut
  deriving DecidableEq, Repr

/-- An entry that brings nothing. -/
def EntryInfo.none : EntryInfo := ⟨Option.none, Option.none, Option.none⟩

/-- The dwell timer that an entry starts (R13). -/
def dwellAt (c : Settings) : Phase → Timer
  | .filled => startTimer c.tFillMin
  | .drained => startTimer c.tDrainRest
  | .cold | .primed | .filling | .running | .hold | .banked | .runOut | .draining | .tripped => none

/-- The hold maximum timer after an entry: it starts at an entry of HOLD from outside the hold and runs on within it
(R22, R23). -/
def holdMaxAt (c : Settings) (old new : Phase) (t : Timer) : Timer :=
  match new with
  | .hold => if old = .running ∨ old = .runOut ∨ old = .tripped then some c.tHoldMax else t
  | .banked => t
  | .cold | .primed | .filling | .filled | .running | .runOut | .draining | .drained | .tripped => none

/-- The turnover timer that an entry starts (R24, R25). -/
def turnoverAt (c : Settings) : Phase → Timer
  | .hold => some c.tTurnover
  | .banked => some (2 * c.tTurnover)
  | .cold | .primed | .filling | .filled | .running | .runOut | .draining | .drained | .tripped => none

/-- What a hold keeps, its link or its owner: brought by the entry of HOLD, kept in BANKED, none elsewhere (R17,
R18). -/
def heldThrough {α : Type} (new : Phase) (brought kept : Option α) : Option α :=
  match new with
  | .hold => brought
  | .banked => kept
  | .cold | .primed | .filling | .filled | .running | .runOut | .draining | .drained | .tripped => none

/-- The sequencer's part of a phase change (1.3, R17, R18, R22 to R25). -/
def PS.enter (c : Settings) (now : Nat) (new : Phase) (e : EntryInfo) (p : PS) : PS :=
  { p with
    phase := new
    phaseSince := now
    dwell := dwellAt c new
    fillMax := if new = .filling then some c.tFillMax else none
    drainMax := if new = .draining then some c.tDrainMax else none
    drainReading := if new = .draining then none else p.drainReading
    holdMax := holdMaxAt c p.phase new p.holdMax
    turnover := turnoverAt c new
    missed := false
    link := heldThrough new e.link p.link
    owner := heldThrough new e.owner p.owner
    holdExpired := (new = .hold || new = .banked || new = .runOut) && p.holdExpired }

/-- The rate interval timer at a phase change (R51). -/
def intervalAt (c : Settings) (old new : Phase) (t : Timer) : Timer :=
  match new with
  | .filled => some c.tInt
  | .hold => if old = .tripped then some c.tInt else t
  | .banked | .runOut => t
  | .cold | .primed | .filling | .running | .draining | .drained | .tripped => none

/-- A phase change that leaves RUNNING and RUN_OUT for another phase, or a trip entry (R61, R65, R160). -/
def leavesRate (old new : Phase) : Bool := (old.underRate && !new.underRate) || new = .tripped

/-- The throughput unit's part of a phase change (R51, R61, R62, R69, R71, R72, R73). -/
def TU.enter (c : Settings) (old new : Phase) (e : EntryInfo) (t : TU) : TU :=
  let leaves := leavesRate old new
  let keeps := old = .running ∧ new = .runOut
  { t with
    holdup := if new = .drained then 0 else t.holdup
    interval := intervalAt c old new t.interval
    runOut := if new = .runOut then e.runOut else none
    train := if keeps then t.train else none
    parts := if new = .running then .of fun r => ceilDiv (c.fullRate.get r * c.rMin) 1000
      else if keeps then t.parts else .same 0
    starved := t.starved && !leaves
    blocked := t.blocked && !leaves
    limited := t.limited && !leaves
    claimWait := t.claimWait && !leaves
    runoutLate := t.runoutLate && !leaves
    runoutDone := t.runoutDone && old ≠ .runOut && new ≠ .tripped
    starveTimer := none
    starveExpired := false
    blockTimer := if old.underRate && new.underRate then t.blockTimer else none
    blockExpired := t.blockExpired && old.underRate && new.underRate
    good := 0
    held := if new = .tripped then none else t.held }

/-- The section port's part of a phase change (R25, R72, R146, R153, R160). -/
def SP.enter (c : Settings) (old new : Phase) (p : SP) : SP :=
  let leaves := leavesRate old new
  { p with
    rIss := if leaves then 0 else p.rIss
    rAck := if leaves then 0 else p.rAck
    rateReq := if old = .running ∧ new = .runOut then p.rateReq else none
    turnoverReq := p.turnoverReq && new = .hold
    portSilence := if new.watched then (if old.watched then p.portSilence else some (c.tPortSilence + 1)) else none }

/-- The phase written and the blocks' own parts carried out, the notices marked (R2). -/
def State.enterPhase (s : State) (new : Phase) (e : EntryInfo) : State :=
  let old := s.ps.phase
  State.markShort (State.markLong
    { s with
      ps := s.ps.enter s.cs.set s.now new e
      tu := s.tu.enter s.cs.set old new e
      sp := s.sp.enter s.cs.set old new })

/-- The phase entered by every block: the AU sets its targets for it, takes a change of its own published capacity as a
change report, and judges UNDER_STANDING (R75, R78, R89). -/
def State.entered (s : State) (new : Phase) (e : EntryInfo) : State :=
  let t := (s.enterPhase new e).refreshCells
  (t.reportCells fun r => t.publishedCapacity r ≠ s.publishedCapacity r).judgeStanding

/-! ### Causes that a phase change overtakes (R132) -/

/-- The cause that a timer raises, where it has run down. -/
def raisedIf (due : Bool) (c : Cause) : List Cause := if due then [c] else []

/-- The causes whose timer has run down, not suspended by the freeze overlay, with the expiry still to be taken (R14,
R15, R25, R90, R146). No phase change stops the freeze maximum timer (R27), and an acknowledgement timeout that a trip
removes does not happen (R158). -/
def State.expired (s : State) : List Cause :=
  raisedIf (s.ps.fillMax.due && !s.ps.frozen) .fillTimeout
    ++ raisedIf (s.ps.drainMax.due && !s.ps.frozen) .drainTimeout
    ++ raisedIf (s.ps.phase = .banked && s.ps.turnover.due) .stagnation
    ++ raisedIf s.au.underTimer.due .utilityLost
    ++ raisedIf s.sp.portSilence.due .portSilent

/-- The causes of the timers that had run down before a phase change and were stopped by it stay raised: each is taken
after it, in the phase that then stands (R132; log 45). -/
def State.keepRaised (before after : State) : State :=
  after.setTr { after.tr with
    raised := after.tr.raised
      ++ before.expired.filter fun c => !after.expired.contains c && !after.tr.raised.contains c }

/-- A phase change (R2), with the causes that it overtakes still raised (R132). -/
def State.changePhase (s : State) (new : Phase) (e : EntryInfo) : State := s.keepRaised (s.entered new e)

end Sys2Proof.Machine
end

