-- ==== Sys2Proof/Machine/Arbiter.lean ====
section
/-!
DEFINITION. The command path of the section port up to the issue of a command: waiting requests, tokens, the arbiter
and what each owner does at an issue (8.3).
-/

namespace Sys2Proof.Machine

/-- A command is a SET_PHASE. -/
def Command.isSetPhase : Command → Bool
  | .setPhase _ _ => true
  | _ => false

/-- A command is a SET_RATE. -/
def Command.isSetRate : Command → Bool
  | .setRate _ _ => true
  | _ => false

/-- The acknowledgement timeout of a command's kind (R149). -/
def Command.timeout (c : Settings) : Command → Nat
  | .setPhase _ _ => c.tAckPhase
  | .setRate _ _ => c.tAckRate
  | .turnover => c.tAckTurnover
  | .handoffWork _ _ _ => c.tAckTurnover

/-- The room of the outstanding list (R151). -/
def SP.room (p : SP) : Nat := if p.lookAhead then 2 else 1

/-- A SET_PHASE is outstanding. -/
def SP.setPhaseOut (p : SP) : Bool := p.outstanding.any fun o => o.command.isSetPhase

/-- A token is one of a command still outstanding (R150). -/
def SP.tokenUsed (p : SP) (t : Token) : Bool := p.outstanding.any fun o => o.token = t

/-- The first token from a count that no outstanding command has, the others passed over (R150). -/
def SP.tokenFrom (p : SP) : Nat → Token → Token
  | 0, t => t
  | n + 1, t => if p.tokenUsed t then p.tokenFrom n (t + 1) else t

/-- The token the next issue takes; at most two commands are outstanding, so at most two are passed over (R150). -/
def SP.nextToken (p : SP) : Token := p.tokenFrom 2 p.tokenCount

/-- A command enters the outstanding list with its token and its timeout started (R150, R151, R158). -/
def SP.emit (p : SP) (c : Settings) (cmd : Command) : SP :=
  { p with
    outstanding := p.outstanding ++ [⟨p.nextToken, cmd, some (cmd.timeout c), false⟩]
    tokenCount := p.nextToken + 1 }

/-- The next step of the train from the last issued rate to its target, none when it has arrived (R63). -/
def nextStep (maxStep issued target : Nat) : Option Nat :=
  if target = issued then none
  else if issued = 0 ∨ target = 0 then some target
  else if issued < target then some (min (issued + maxStep) target)
  else some (max (issued - maxStep) target)

/-- A SET_RATE issues: R_iss becomes its argument (R151). -/
def State.issueRate (s : State) (rate : Nat) (pair : Bool) : State :=
  s.setSp { s.sp.emit s.cs.set (.setRate rate pair) with rIss := rate }

/-- The TU's step issues and the TU places the next one (R64). -/
def State.issueStep (s : State) (rate : Nat) : State :=
  let t := s.issueRate rate false
  t.setSp { t.sp with rateReq := t.tu.train.bind (nextStep t.cs.set.maxStep rate) }

/-- The transition in the slot is at WAIT_ACK; its requester is replied TAKEN when no PENDING was sent (R10, R11). -/
def State.slotIssued (s : State) : State :=
  match s.ps.slot with
  | some r =>
    let t := s.setPs { s.ps with slot := some { r with stage := .waitAck, deadline := none } }
    if r.pendingSent then t else t.reply r.requester .taken
  | none => s

/-- The phase change at the issue of SET_PHASE FILLED or SET_PHASE DRAINED: the transition completes, the slot is
emptied, and none of the waiting internal requests holds in the new phase (R4, R14, R15). -/
def State.completeAtIssue (s : State) (phase : Phase) : State :=
  let requester := s.ps.slot.map SlotRec.requester
  let emptied := (s.setPs { s.ps with slot := none, waiting := ⟨false, false, false, false⟩ }).setRaised fun _ => none
  let changed := emptied.changePhase phase .none
  match requester with
  | some q => changed.reply q .done
  | none => changed

/-- The PS SET_PHASE issues (R10, R14, R15). -/
def State.issuePhase (s : State) (phase : Phase) (purpose : Purpose) : State :=
  let t := s.setSp { s.sp.emit s.cs.set (.setPhase phase purpose) with psReq := none }
  match purpose with
  | .completion => t.completeAtIssue phase
  | .transition | .trip | .recovery => t.slotIssued

/-- The start pair's SET_PHASE RUNNING issues; its SET_RATE is held back (R152). -/
def State.issuePair (s : State) (rate : Nat) : State :=
  State.slotIssued (s.setSp
    { s.sp.emit s.cs.set (.setPhase .running .transition) with pairReq := none, pairRate := some rate })

/-- The recovery's SET_PHASE issues: the record is OUTSTANDING with its token, the requester is replied TAKEN
(R137). -/
def State.issueRecovery (s : State) (phase : Phase) : State :=
  let token := s.sp.nextToken
  let t := s.setSp { s.sp.emit s.cs.set (.setPhase phase .recovery) with recoveryReq := none }
  match t.tr.recovery with
  | some r => State.reply (t.setTr { t.tr with recovery := some { r with state := .outstanding token } })
      (.port r.tag) .taken
  | none => t

/-- The trip's SET_PHASE TRIPPED issues (R159). -/
def State.issueTrip (s : State) : State :=
  s.setSp { s.sp.emit s.cs.set (.setPhase .tripped .trip) with tripReq := false }

/-- The TURNOVER issues (R24). -/
def State.issueTurnover (s : State) : State :=
  s.setSp { s.sp.emit s.cs.set .turnover with turnoverReq := false }

/-- The earliest WAITING entry of the service queue, with the queue in which it is OUTSTANDING (R127, R149). -/
def takeWaiting (token : Token) : List Service → Option (Service × List Service)
  | [] => none
  | e :: rest =>
    match e.state with
    | .waiting => some (e, { e with state := .outstanding token } :: rest)
    | .outstanding _ => (takeWaiting token rest).map fun (f, q) => (f, e :: q)

/-- The earliest waiting HANDOFF_WORK, if any, issues (R127). -/
def State.issueWork? (s : State) : Option State :=
  (takeWaiting s.sp.nextToken s.hu.queue).map fun (e, q) =>
    (s.setSp (s.sp.emit s.cs.set (.handoffWork e.work e.point e.requester))).setHu { s.hu with queue := q }

/-- A request below the SET_PHASEs issues, in the order TURNOVER, HANDOFF_WORK, SET_RATE (R151). -/
def State.issueLower (s : State) : State :=
  if s.sp.turnoverReq then s.issueTurnover
  else match s.issueWork? with
    | some t => t
    | none => match s.sp.rateReq with
      | some rate => s.issueStep rate
      | none => s

/-- One turn of the arbiter: the highest-priority waiting request issues if its conditions hold (R151). A waiting
SET_PHASE, whichever, needs the list empty and holds every lower request back. -/
def State.issueNext (s : State) : State :=
  let empty := s.sp.outstanding.isEmpty
  if s.sp.tripReq then (if empty then s.issueTrip else s)
  else match s.sp.psReq with
  | some (phase, purpose) => if empty then s.issuePhase phase purpose else s
  | none => match s.sp.pairReq with
    | some rate => if empty then s.issuePair rate else s
    | none => match s.sp.recoveryReq with
      | some phase => if empty then s.issueRecovery phase else s
      | none =>
        if s.sp.outstanding.length < s.sp.room ∧ s.sp.setPhaseOut = false then s.issueLower else s

/-- A judgement of the arbiter: turns until none issues. The list has room for two, so two turns are all it can take
(R151). -/
def State.arbitrate (s : State) : State := s.issueNext.issueNext

end Sys2Proof.Machine
end

