-- ==== Sys2Proof/Machine/Slot.lean ====
section
/-!
DEFINITION. The transition slot (1.2): its stages, the completions of FILLING and DRAINING, the clean-ups, the waiting
internal requests, and the handoff points a transition passes (6.1, 6.2).
-/

namespace Sys2Proof.Machine

/-! ### What a kind passes (R5) -/

/-- The prerequisite list of a kind (R5). -/
def TransKind.list : TransKind → Option ListName
  | .fill => some .fill
  | .feed => some .feed
  | .resume => some .resume
  | .drain => some .drain
  | .endCampaign => some .endList
  | .start | .hold | .bank | .runOut | .stopRunOut | .forcedRunOut | .closeDrain => none

/-- The handoff point of a kind (R5, R117). -/
def TransKind.point : TransKind → Option Point
  | .fill => some .fill
  | .feed => some .feed
  | .runOut | .forcedRunOut => some .runOut
  | .drain | .closeDrain => some .drain
  | .start | .hold | .bank | .resume | .stopRunOut | .endCampaign => none

/-- The claim targets of a transition, if it has a claim stage (R5). -/
def SlotRec.claimTargets (c : Settings) (r : SlotRec) : Option (Resource → Nat) :=
  let atMinimum := fun x => c.standing.get x + ceilDiv (c.fullRate.get x * c.rMin) 1000
  match r.kind with
  | .fill => some c.standing.get
  | .feed => some atMinimum
  | .resume => if r.target = .running then some atMinimum else some c.standing.get
  | .start | .hold | .bank | .runOut | .stopRunOut | .drain | .endCampaign | .forcedRunOut | .closeDrain => none

/-- The state with its transition record replaced. -/
def State.setSlot (s : State) (r : SlotRec) : State := s.setPs { s.ps with slot := some r }

/-- The transition stands in a given stage. -/
def State.atStage (s : State) (g : Stage) : Bool :=
  match s.ps.slot with
  | some r => r.stage = g
  | none => false

/-- A stage before WAIT_ISSUE (R12). -/
def Stage.beforeIssue : Stage → Bool
  | .waitDwell | .waitPrereq | .waitClaim | .waitHandoffSlot => true
  | .waitIssue | .waitAck | .waitCompletion => false

/-- The PENDING reply, once, for a transition that stands in a stage before WAIT_ISSUE at the end of an event
(R11). -/
def State.notePending (s : State) : State :=
  match s.ps.slot with
  | some r =>
    if r.stage.beforeIssue && !r.pendingSent then
      (s.setSlot { r with pendingSent := true }).reply r.requester .pending
    else s
  | none => s

/-! ### The stages, from the last to the first -/

/-- WAIT_ISSUE: the SET_PHASE request, or the start pair for a target of RUNNING, is placed with the SP (R10, R16). -/
def State.toIssue (s : State) (r : SlotRec) : State :=
  let t := s.setSlot { r with stage := .waitIssue, deadline := none }
  let placed :=
    if r.target = .running then t.setSp { t.sp with pairReq := some t.cs.set.rMin }
    else t.setSp { t.sp with psReq := some (r.target, .transition) }
  placed.arbitrate

/-- A handoff point taken into the empty requester record by its mode and class (R119). -/
def State.takePoint (s : State) (k : Point) : State :=
  let p := s.cs.set.points.get k
  match p.mode with
  | .none => s
  | .confirmOnly =>
    if k.blocking then
      s.setHu { s.hu with record := some ⟨k, none, .confirmWait .configured⟩, counitWait := true }
    else s.setHu { s.hu with counitLate := true }
  | .coUnit =>
    State.place (s.setHu { s.hu with
      counitLate := false
      record := some ⟨k, some ⟨p.coUnit, p.work, s.hu.tagCount⟩, .awaitDone (some s.cs.set.tHandoff)⟩
      tagCount := s.hu.tagCount + 1 }) (.handoff p.coUnit s.hu.tagCount p.work k)

/-- What the transition waits for after a point is taken: a blocking point in a mode other than NONE is awaited
(R14, R15, R117). -/
def State.waitOf (s : State) (k : Point) : HandoffWait :=
  if k.blocking && decide ((s.cs.set.points.get k).mode ≠ .none) then .awaiting else .notNeeded

/-- Stage 4: the transition takes its handoff point, or waits in WAIT_HANDOFF_SLOT while the record is occupied
(R5, R9, R119). -/
def State.toHandoff (s : State) (r : SlotRec) : State :=
  match r.kind.point with
  | none => s.toIssue { r with handoff := .notNeeded }
  | some k =>
    if (s.cs.set.points.get k).mode ≠ .none && s.hu.record.isSome then
      s.setSlot { r with stage := .waitHandoffSlot, deadline := none }
    else (s.takePoint k).toIssue { r with handoff := s.waitOf k }

/-- Stage 3: the claim targets are handed to the AU, and the transition goes on when every holding has reached them
(R8, R77). -/
def State.toClaim (s : State) (r : SlotRec) : State :=
  match r.claimTargets s.cs.set with
  | none => s.toHandoff r
  | some f =>
    let w := { r with stage := .waitClaim, deadline := some s.cs.set.tClaimWait }
    let t := ((s.setSlot w).setRaised fun x => some (f x)).refreshCells.judgeStanding
    if t.claimReached then t.toHandoff { w with claimReached := true } else t

/-- The evaluation of the list of a transition in WAIT_PREREQ, with the age watches it sets up (R7, R42, R49). -/
def State.evaluateList (s : State) (r : SlotRec) (l : ListName) : State :=
  match s.firstUnmet l with
  | none => (s.setPv { s.pv with watches := [] }).toClaim r
  | some _ => s.setPv { s.pv with watches := s.watchesOf l }

/-- Stage 2: WAIT_PREREQ, with the stage 1 and 2 deadline started unless it runs already (R6, R7). -/
def State.toPrereq (s : State) (r : SlotRec) : State :=
  match r.kind.list with
  | none => s.toClaim r
  | some l =>
    let deadline := match r.deadline with
      | some n => some n
      | none => some s.cs.set.tPrereqWait
    let w := { r with stage := .waitPrereq, deadline := deadline }
    (s.setSlot w).evaluateList w l

/-- Stage 1 and on: WAIT_DWELL for a dwell that runs, the settle out of BANKED, or the next applicable stage
(R5, R6). -/
def State.toDwell (s : State) (r : SlotRec) : State :=
  match r.kind with
  | .fill | .feed =>
    if s.ps.dwell.isSome then
      s.setSlot { r with stage := .waitDwell, deadline := some s.cs.set.tPrereqWait }
    else s.toPrereq r
  | .resume | .forcedRunOut =>
    if s.ps.phase = .banked ∧ s.cs.set.tBankExit ≠ 0 then
      s.setSlot { r with stage := .waitDwell, settle := some s.cs.set.tBankExit }
    else s.toPrereq r
  | .start | .hold | .bank | .runOut | .stopRunOut | .drain | .endCampaign | .closeDrain => s.toPrereq r

/-- A transition request enters the empty slot and its first applicable stage begins (R4). -/
def State.enterSlot (s : State) (r : SlotRec) : State := (s.toDwell r).notePending

/-! ### Transition records -/

/-- A new transition record; its stage is set as it enters its first stage (R3, R108). -/
def SlotRec.new (target : Phase) (kind : TransKind) (q : Requester) (a : Authority) (d : Option RunOut) : SlotRec where
  target := target
  kind := kind
  requester := q
  authority := a
  stage := .waitIssue
  deadline := none
  settle := none
  runOut := d
  pendingSent := false
  claimReached := false
  handoff := .notReached

/-- The phase a resume returns to (R105). -/
def PS.linkPhase (p : PS) : Phase :=
  match p.link with
  | some (.runOut _) => .runOut
  | _ => .running

/-- The transition of an auto hold (R20). -/
def autoHoldRec : SlotRec := .new .hold .hold .autoHold .auto none

/-- The transition of an auto resume (R21). -/
def autoResumeRec (p : PS) : SlotRec := .new p.linkPhase .resume .autoResume .auto none

/-- The transition of a forced run-out: TO_EMPTY with close-after, of campaign authority (R23). -/
def forcedRec : SlotRec := .new .runOut .forcedRunOut .holdExpired .campaign (some ⟨0, .toEmpty, true⟩)

/-- The transition of a close-after drain (R26). -/
def closeDrainRec : SlotRec := .new .draining .closeDrain .closeAfter .campaign none

/-! ### The waiting internal requests (R4) -/

/-- A forced run-out is still valid: the phase is HOLD or BANKED. -/
def State.forcedValid (s : State) : Bool := s.ps.waiting.forced && s.ps.phase.inHold

/-- A close-after drain is still valid: RUN_OUT with RUNOUT_DONE set. -/
def State.closeDrainValid (s : State) : Bool := s.ps.waiting.closeDrain && s.ps.phase = .runOut && s.tu.runoutDone

/-- An auto resume is still valid: an AUTO-owned HOLD. -/
def State.autoResumeValid (s : State) : Bool :=
  s.ps.waiting.autoResume && s.ps.phase = .hold && s.ps.owner = some .auto

/-- The state with its waiting internal requests replaced. -/
def State.setWaiting (s : State) (w : Waiting) : State := s.setPs { s.ps with waiting := w }

/-- The re-examination of the waiting internal requests with the slot empty and no freeze: the slot goes to the first
still valid in the order forced run-out, close-after drain, auto hold, auto resume, and the others are discarded. An
auto hold whose condition stands is raised anew by the TU, and waits where another request takes the slot (R4, R70). -/
def State.giveSlot (s : State) : State :=
  let hold := s.autoHoldStands
  if s.forcedValid then (s.setWaiting ⟨false, false, hold, false⟩).enterSlot forcedRec
  else if s.closeDrainValid then (s.setWaiting ⟨false, false, hold, false⟩).enterSlot closeDrainRec
  else if hold then (s.setWaiting ⟨false, false, false, false⟩).enterSlot autoHoldRec
  else if s.autoResumeValid then (s.setWaiting ⟨false, false, false, false⟩).enterSlot (autoResumeRec s.ps)
  else s.setWaiting ⟨false, false, false, false⟩

/-- The transition in the slot is an auto hold (R70). -/
def PS.holdsAutoHold (p : PS) : Bool :=
  match p.slot with
  | some r => r.requester = .autoHold
  | none => false

/-- The re-examination at an occupied slot: what no longer holds is discarded, the rest waits on, and an auto hold
whose condition stands is raised anew unless it is in the slot (R4, R20, R28, R70). -/
def State.sift (s : State) : State :=
  s.setWaiting ⟨s.forcedValid, s.closeDrainValid,
    s.autoHoldStands && (s.ps.waiting.autoHold || !s.ps.holdsAutoHold), s.autoResumeValid⟩

/-- The re-examination of R4, made when the slot empties and when the overlay is cleared. While the overlay is set it
waits for the clearing (R20, R28; log 12). -/
def State.reexamine (s : State) : State :=
  if s.ps.frozen then s
  else if s.ps.slot.isSome then s.sift
  else s.giveSlot

/-- An auto hold requested by the TU (R20, R70): it enters the empty slot, or waits while the slot is occupied or the
overlay is set. -/
def State.requestAutoHold (s : State) : State :=
  if s.ps.slot.isSome || s.ps.frozen then s.setWaiting { s.ps.waiting with autoHold := true }
  else s.enterSlot autoHoldRec

/-- An auto resume requested by the TU (R21). -/
def State.requestAutoResume (s : State) : State :=
  if s.ps.slot.isSome || s.ps.frozen then s.setWaiting { s.ps.waiting with autoResume := true }
  else s.enterSlot (autoResumeRec s.ps)

/-- A close-after drain requested at run-out done (R26). -/
def State.requestCloseDrain (s : State) : State :=
  if s.ps.slot.isSome || s.ps.frozen then s.setWaiting { s.ps.waiting with closeDrain := true }
  else s.enterSlot closeDrainRec

/-- A forced run-out requested at the hold maximum's expiry (R23). -/
def State.requestForced (s : State) : State :=
  if s.ps.slot.isSome || s.ps.frozen then s.setWaiting { s.ps.waiting with forced := true }
  else s.enterSlot forcedRec

/-! ### Leaving the slot -/

/-- A PS request withdrawn from the SP; the arbiter judges again, since a SET_PHASE held lower requests back
(R12, R153). -/
def State.withdrawPhase (s : State) : State :=
  if s.sp.psReq.isSome || s.sp.pairReq.isSome then
    State.arbitrate (s.setSp { s.sp with psReq := none, pairReq := none })
  else s

/-- The transition removed before its SET_PHASE issued, with the clean-ups of R12: raised targets withdrawn, a waiting
SET_PHASE withdrawn, the settle timer gone with the record, the age watches dropped (R42). -/
def State.removeTransition (s : State) : State :=
  let emptied := (s.setPs { s.ps with slot := none }).setPv { s.pv with watches := [] }
  (((emptied.setRaised fun _ => none).refreshCells).judgeStanding).withdrawPhase

/-- The transition refused: removed, its requester replied, the waiting requests re-examined. A refused auto resume
restarts the TU's count of good expiries (R21, R71). -/
def State.refuseTransition (s : State) (r : SlotRec) (code : RefusalCode) (detail : Byte) : State :=
  let t := s.removeTransition.replyWith r.requester (.refused code) detail
  let t := if r.requester = .autoResume then t.setTu { t.tu with good := 0 } else t
  t.reexamine

/-! ### What moves a transition on -/

/-- The list evaluated again for a transition in WAIT_PREREQ: at a change report, an age watch, the clearing of the
overlay. Nothing is acted on while frozen (R7, R28, R49). -/
def State.pollList (s : State) : State :=
  match s.ps.slot with
  | some r =>
    if s.ps.frozen || r.stage ≠ .waitPrereq then s
    else match r.kind.list with
      | some l => (s.evaluateList r l).notePending
      | none => s
  | none => s

/-- The AU's report that the raised targets are reached, recorded, and acted on when the overlay is clear (R8, R77). -/
def State.pollClaim (s : State) : State :=
  match s.ps.slot with
  | some r =>
    if r.stage = .waitClaim && (r.claimReached || s.claimReached) then
      let w := { r with claimReached := true }
      if s.ps.frozen then s.setSlot w else (s.toHandoff w).notePending
    else s
  | none => s

/-- A transition waiting in WAIT_HANDOFF_SLOT takes its point when the record is empty and the overlay clear
(R9, R123). -/
def State.pollHandoff (s : State) : State :=
  match s.ps.slot with
  | some r =>
    if r.stage = .waitHandoffSlot && !s.hu.record.isSome && !s.ps.frozen then s.toHandoff r else s
  | none => s

/-- The last valid report shows a flag. -/
def State.shows (s : State) (f : ReportFlags → Bool) : Bool :=
  match s.sp.lastReport with
  | some x => f x
  | none => false

/-- The handoff condition of a completion (R14, R15, R123). -/
def HandoffWait.fulfils : HandoffWait → Bool
  | .notNeeded => true
  | .fulfilled => true
  | .awaiting => false
  | .notReached => false

/-- The completion conditions of FILLING (R14). -/
def State.fillingDone (s : State) (r : SlotRec) : Bool :=
  s.ps.phase = .filling && s.shows ReportFlags.filled && r.handoff.fulfils

/-- The completion conditions of DRAINING (R15). -/
def State.drainingDone (s : State) (r : SlotRec) : Bool :=
  s.ps.phase = .draining && s.shows ReportFlags.drained && s.ps.drainReading.getD 0 ≤ s.cs.set.hDr
    && r.handoff.fulfils

/-- The completion test: the maximum timer stops and SET_PHASE FILLED or DRAINED is requested (R14, R15). Not acted
on while frozen (R28). -/
def State.testCompletion (s : State) : State :=
  match s.ps.slot with
  | some r =>
    if r.stage ≠ .waitCompletion || s.ps.frozen then s
    else if s.fillingDone r then
      let t := s.setPs { s.ps with slot := some { r with stage := .waitIssue }, fillMax := none }
      State.arbitrate (t.setSp { t.sp with psReq := some (.filled, .completion) })
    else if s.drainingDone r then
      let t := s.setPs { s.ps with slot := some { r with stage := .waitIssue }, drainMax := none }
      State.arbitrate (t.setSp { t.sp with psReq := some (.drained, .completion) })
    else s
  | none => s

/-- The handoff condition fulfilled for the transition that awaits it (R123). -/
def State.fulfilHandoff (s : State) : State :=
  match s.ps.slot with
  | some r => if r.handoff = HandoffWait.awaiting then s.setSlot { r with handoff := .fulfilled } else s
  | none => s

/-- The end of the requester record reported to the PS: a SUCCESS or CONFIRMED of a blocking point fulfils the
handoff condition of the transition that started it, and the completion conditions are tested; a transition waiting for
the record takes it (R123). -/
def State.handoffEnded (s : State) (fulfils : Bool) : State :=
  (if fulfils then s.fulfilHandoff.testCompletion else s).pollHandoff

/-- The re-examination of the transition in the slot at the clearing of the overlay (R28). -/
def State.resumeSlot (s : State) : State := s.pollList.pollClaim.pollHandoff.testCompletion

/-! ### After an event -/

/-- What every event ends with: a change of the own entry is a change report to the PS (R41), and the changes of the
published state set the short due mark (R174). R32 has the readers take a report in no fixed order; of a change of the
own entry the model has the AU do its part within the event, before the PS evaluates its list here (DESIGN CHOICE, log
46). -/
def State.publish (before after : State) : State :=
  before.noteChange (if before.ownChanged after then after.pollList else after)

/-- A rise of UNDER_STANDING under rate control is an auto hold requested by the TU (R70, R89). -/
def State.standingRises (before after : State) : State :=
  if !before.au.underStanding && after.au.underStanding && after.ps.phase.underRate then after.requestAutoHold
  else after

/-- The AU's work is done: a rise of UNDER_STANDING is taken by the TU, and its report goes to the PS (R77). -/
def State.afterAllotment (before after : State) : State := (before.standingRises after).pollClaim

end Sys2Proof.Machine
end

