-- ==== Sys2Proof/Machine/Trips.lean ====
section
/-!
DEFINITION. The trip unit (chapter 7): taking a cause, trip entry with every block's part of it (R133), later causes,
and the recovery that CLEAR_TRIP starts.
-/

namespace Sys2Proof.Machine

/-! ### Trip entry (R133) -/

/-- The reply owed to the requester of the transition a trip ends (R11). -/
def State.replyTripped (s : State) (slot : Option SlotRec) : State :=
  match slot with
  | some r => s.reply r.requester (.refused .tripped)
  | none => s

/-- A HANDOFF_DONE FAILED NOT_READY for each entry of the service queue, in its order (R128). -/
def State.answerNotReady (s : State) (queue : List Service) : State :=
  queue.foldl (fun t e => t.place (.handoffDone e.requester e.tag .notReady)) s

/-- The frames and results a trip entry writes: the PS reply and the HU answers, in no fixed order where both place
frames (R133; log 5). -/
def State.tripAnswers (s : State) : State :=
  if s.ps.slot.isSome && !s.hu.queue.isEmpty then
    let t := s.useFree
    if Config.replyFirst s.free then (t.replyTripped s.ps.slot).answerNotReady s.hu.queue
    else (t.answerNotReady s.hu.queue).replyTripped s.ps.slot
  else (s.replyTripped s.ps.slot).answerNotReady s.hu.queue

/-- The sequencer's part of a trip entry besides the phase change (R3, R4). -/
def PS.atTrip (p : PS) : PS := { p with slot := none, waiting := ⟨false, false, false, false⟩ }

/-- The handoff unit's part of a trip entry (R125, R128). -/
def HU.atTrip (h : HU) : HU :=
  { h with record := none, counitWait := false, counitLate := false, queue := [] }

/-- The preemption of the command path: every waiting request discarded, the outstanding list emptied (R159). -/
def SP.preempt (p : SP) : SP :=
  { p with
    tripReq := false, psReq := none, pairReq := none, pairRate := none, recoveryReq := none, turnoverReq := false,
    rateReq := none, outstanding := [], rIss := 0, rAck := 0 }

/-- The TRIP_NOTICE placed in the trip slot, or kept aside while an older one is in transmission (R134, R170). -/
def LC.placeTrip (l : LC) (c : Cause) : LC :=
  match l.tx with
  | some t => if t.slot = .trip && t.begun then { l with tripAside := some c } else { l with tripSlot := some c }
  | none => { l with tripSlot := some c }

/-- Trip entry: one event, in which every block gives up its part of the section's work (R133). -/
def State.tripEntry (s : State) (c : Cause) : State :=
  let t := s.tripAnswers
  let cleared := { t with
    ps := t.ps.atTrip
    pv := { t.pv with watches := [] }
    hu := t.hu.atTrip
    tr := { t.tr with record := some ⟨c, [], false⟩ }
    sp := t.sp.preempt
    lc := t.lc.placeTrip c }
  let changed := (cleared.setRaised fun _ => none).changePhase .tripped .none
  State.arbitrate (changed.setSp { changed.sp with tripReq := true })

/-! ### Causes while tripped (R135, R139) -/

/-- A later cause added to the record (R135). -/
def TripRec.add (t : TripRec) (c : Cause) : TripRec :=
  if c = t.first || t.later.contains c then t
  else if t.later.length < 4 then { t with later := t.later ++ [c] }
  else { t with overflow := true }

/-- A later cause taken into the trip record (R135). -/
def State.laterCause (s : State) (c : Cause) : State :=
  s.setTr { s.tr with record := s.tr.record.map fun t => t.add c }

/-- What a cause does to a recovery that stands: it ends one that waits, and spoils one that is outstanding (R139). -/
def State.spoilRecovery (s : State) (c : Cause) : State :=
  match s.tr.recovery with
  | none => s
  | some r =>
    match r.state with
    | .waiting =>
      let t := (s.setTr { s.tr with recovery := none }).setSp { s.sp with recoveryReq := none }
      t.arbitrate.reply (.port r.tag) (.refused .tripped)
    | .outstanding _ =>
      s.setTr { s.tr with recovery := some { r with spoil := r.spoil.or (some c) } }

/-- A raised cause taken: not in COLD, as a later cause in TRIPPED, as a trip entry elsewhere (R132). -/
def State.raiseCause (s : State) (c : Cause) : State :=
  match s.ps.phase with
  | .cold => s
  | .tripped => (s.laterCause c).spoilRecovery c
  | .primed | .filling | .filled | .running | .hold | .banked | .runOut | .draining | .drained => s.tripEntry c

/-- A cause whose timer a phase change stopped after it had run down, taken in the phase that now stands; nothing where
none is left to take (R132; log 45). -/
def State.takeRaised (s : State) (c : Cause) : State :=
  if c ∈ s.tr.raised then
    s.publish (State.raiseCause (s.setTr { s.tr with raised := s.tr.raised.erase c }) c)
  else s

/-! ### The recovery (R137, R138) -/

/-- A taken CLEAR_TRIP fills the recovery record and places its SET_PHASE (R137). -/
def State.startRecovery (s : State) (target : Phase) (tag : Byte) : State :=
  State.arbitrate { s with
    tr := { s.tr with recovery := some ⟨target, tag, .waiting, none⟩ }
    sp := { s.sp with recoveryReq := some target } }

/-- The entry a recovery makes: into HOLD the link is RUNNING and the owner SECTION (R17, R18, R140). -/
def recoveryInfo : EntryInfo := ⟨some .running, some .sectionPanel, none⟩

/-- The recovery's SET_PHASE acknowledged DONE: the record is emptied, the phase changes, and a spoiling cause trips
the section again at once (R138, R139). -/
def State.recoveryDone (s : State) (phase : Phase) : State :=
  match s.tr.recovery with
  | none => s
  | some r =>
    let t := (s.setTr { s.tr with record := none, recovery := none }).changePhase phase recoveryInfo
    let t := t.reply (.port r.tag) .done
    match r.spoil with
    | some c => t.tripEntry c
    | none => t

/-- The recovery's SET_PHASE failed or timed out: a later cause, the phase kept, the requester refused (R138). -/
def State.recoveryFailed (s : State) (c : Cause) : State :=
  match s.tr.recovery with
  | none => s
  | some r =>
    let t := s.laterCause c
    State.reply (t.setTr { t.tr with recovery := none }) (.port r.tag) (.refused .tripped)

end Sys2Proof.Machine
end

