-- ==== Sys2Proof/Machine/Acks.lean ====
section
/-!
DEFINITION. Acknowledgements and their timeouts (8.4): an outcome is matched to its command by the token and handed to
the command's owner. The four ACK rows and the four ACK_TIMEOUT rows stand here, and COMMAND_ISSUE.
-/

namespace Sys2Proof.Machine

/-! ### SET_PHASE (R155) -/

/-- The run-out data the TU holds, or none worked off (R17). -/
def TU.data (t : TU) : RunOut := t.runOut.getD ⟨0, .toEmpty, false⟩

/-- What the phase change of a transition brings with it (R17, R18, R72). -/
def State.entryInfo (s : State) (r : SlotRec) : EntryInfo :=
  match r.kind with
  | .hold => ⟨some (if s.ps.phase = .runOut then .runOut s.tu.data else .running), some r.authority, none⟩
  | .stopRunOut => ⟨some .running, some .campaign, none⟩
  | .resume => ⟨none, none, match s.ps.link with
      | some (.runOut d) => some d
      | _ => none⟩
  | .runOut | .forcedRunOut => ⟨none, none, r.runOut⟩
  | .start | .fill | .feed | .bank | .drain | .endCampaign | .closeDrain => .none

/-- A kind that has a stage 7 (R5). -/
def TransKind.completes : TransKind → Bool
  | .fill | .drain | .closeDrain => true
  | .start | .feed | .hold | .bank | .resume | .runOut | .stopRunOut | .endCampaign | .forcedRunOut => false

/-- The start pair's held-back SET_RATE issues at once, ahead of every waiting request (R152). -/
def State.issuePairRate (s : State) : State :=
  match s.sp.pairRate with
  | some rate => State.issueRate (s.setSp { s.sp with pairRate := none }) rate true
  | none => s

/-- The SET_PHASE of a transition acknowledged DONE: the phase changes to the argument, and the transition completes
or enters WAIT_COMPLETION (R10, R16). -/
def State.transitionDone (s : State) (phase : Phase) : State :=
  match s.ps.slot with
  | none => s.changePhase phase .none
  | some r =>
    if r.kind.completes then
      (s.setSlot { r with stage := .waitCompletion }).changePhase phase (s.entryInfo r)
    else
      let emptied := (s.setPs { s.ps with slot := none }).setRaised fun _ => none
      ((emptied.changePhase phase (s.entryInfo r)).issuePairRate.reply r.requester .done).reexamine

/-- The SET_PHASE of a transition failed or timed out: a trip, but in COLD, where the START ends REFUSED TRIPPED
(R10, R130). -/
def State.transitionFailed (s : State) (c : Cause) : State :=
  if s.ps.phase = .cold then
    match s.ps.slot with
    | some r => ((s.setPs { s.ps with slot := none }).reply r.requester (.refused .tripped)).reexamine
    | none => s
  else s.raiseCause c

/-- The outcome of a SET_PHASE handed to the block that placed it (R155). -/
def State.phaseOutcome (s : State) (phase : Phase) (purpose : Purpose) (done : Bool) (c : Cause) : State :=
  match purpose, done with
  | .transition, true => s.transitionDone phase
  | .transition, false => s.transitionFailed c
  | .completion, true => s
  | .completion, false => s.raiseCause c
  | .trip, true => s
  | .trip, false => s.raiseCause c
  | .recovery, true => s.recoveryDone phase
  | .recovery, false => s.recoveryFailed c

/-! ### SET_RATE (R156) -/

/-- The start pair's SET_RATE acknowledged, DONE or FAILED, starts the rate interval in RUNNING (R51). -/
def State.startInterval (s : State) (pair : Bool) : State :=
  if pair && s.ps.phase = .running then s.setTu { s.tu with interval := some s.cs.set.tInt } else s

/-- A SET_RATE acknowledged DONE: R_ack is its argument and RATE_REFUSED is cleared (R156). -/
def State.rateDone (s : State) (rate : Nat) (pair : Bool) : State :=
  State.startInterval (s.setSp { s.sp with rAck := rate, rateRefused := false }) pair

/-- A SET_RATE acknowledged FAILED: RATE_REFUSED is set (R156). -/
def State.rateFailed (s : State) (pair : Bool) : State :=
  State.startInterval (s.setSp { s.sp with rateRefused := true }) pair

/-! ### TURNOVER and HANDOFF_WORK (R157) -/

/-- A TURNOVER acknowledged DONE, with its effect in HOLD only (R24, R25). -/
def State.turnoverDone (s : State) : State :=
  if s.ps.phase = .hold then s.setPs { s.ps with missed := false, turnover := some s.cs.set.tTurnover } else s

/-- A TURNOVER missed, with its effect in HOLD only: a second miss is STAGNATION (R24, R25). -/
def State.turnoverMissed (s : State) : State :=
  if s.ps.phase = .hold then
    if s.ps.missed then s.raiseCause .stagnation else s.setPs { s.ps with missed := true }
  else s

/-- A service queue entry is the OUTSTANDING one of a token. -/
def Service.holds (e : Service) (t : Token) : Bool :=
  match e.state with
  | .outstanding u => u = t
  | .waiting => false

/-- The end of an OUTSTANDING service entry: removed, and the requester answered (R127). -/
def State.workEnded (s : State) (t : Token) (outcome : DoneOutcome) : State :=
  match s.hu.queue.find? fun e => e.holds t with
  | some e =>
    State.place (s.setHu { s.hu with queue := s.hu.queue.filter fun e => !e.holds t })
      (.handoffDone e.requester e.tag outcome)
  | none => s

/-! ### Matching (R154, R158) -/

/-- The outstanding command of a token (R154). -/
def SP.find (p : SP) (t : Token) : Option Outstanding := p.outstanding.find? fun o => o.token = t

/-- The list without the command of a token (R154). -/
def SP.remove (p : SP) (t : Token) : SP := { p with outstanding := p.outstanding.filter fun o => o.token ≠ t }

/-- A SET_RATE receives the superseded mark (R156). -/
def Outstanding.supersede (o : Outstanding) : Outstanding :=
  if o.command.isSetRate then { o with superseded := true } else o

/-- The list without the command of a token, every SET_RATE that issued before it superseded (R156). -/
def SP.removeRate (p : SP) (t : Token) : SP :=
  { p with outstanding :=
      (p.outstanding.takeWhile fun o => o.token ≠ t).map Outstanding.supersede
        ++ (p.outstanding.dropWhile fun o => o.token ≠ t).drop 1 }

/-- The outcome of an outstanding command handed to its owner, the command already out of the list; `done` is false
for FAILED, and `c` is the cause a failed SET_PHASE raises (R155 to R157). -/
def State.outcome (s : State) (o : Outstanding) (done : Bool) (c : Cause) : State :=
  match o.command with
  | .setPhase phase purpose => s.phaseOutcome phase purpose done c
  | .setRate rate pair =>
    if o.superseded then s else if done then s.rateDone rate pair else s.rateFailed pair
  | .turnover => if done then s.turnoverDone else s.turnoverMissed
  | .handoffWork _ _ _ => s.workEnded o.token (if done then .success else .workFailed)

/-- The list once a command is acknowledged (R154, R156). -/
def SP.acknowledge (p : SP) (o : Outstanding) (done : Bool) : SP :=
  if o.command.isSetRate && done && !o.superseded then p.removeRate o.token else p.remove o.token

/-- A stray acknowledgement: counted, with no other effect (R154). -/
def State.stray (s : State) : State := s.setSp { s.sp with strayCount := min 255 (s.sp.strayCount + 1) }

/-- An acknowledgement taken: matched by its token, its outcome handed on, and the arbiter's judgement after it
(R154). -/
def State.takeAck (s : State) (t : Token) (outcome : AckOutcome) : State :=
  let done := outcome = .done
  match s.sp.find t with
  | none => s.stray
  | some o => ((s.setSp (s.sp.acknowledge o done)).outcome o done .phaseRefused).arbitrate

/-- The outcome of a timeout handed to the command's owner (R155 to R158): a SET_RATE not superseded raises
PORT_NO_ACK. -/
def State.timedOut (s : State) (o : Outstanding) : State :=
  match o.command with
  | .setRate _ _ => if o.superseded then s else s.raiseCause .portNoAck
  | .setPhase _ _ | .turnover | .handoffWork _ _ _ => s.outcome o false .portNoAck

/-- The expiry of the acknowledgement timeout of a token's command of one kind, taken when it is due (R158). -/
def State.ackTimeout (s : State) (t : Token) (kind : Command → Bool) : State :=
  match s.sp.find t with
  | none => s
  | some o =>
    if kind o.command && o.left.due then ((s.setSp (s.sp.remove t)).timedOut o).arbitrate else s

/-- A command is a TURNOVER. -/
def Command.isTurnover : Command → Bool
  | .turnover => true
  | _ => false

/-- A command is a HANDOFF_WORK. -/
def Command.isWork : Command → Bool
  | .handoffWork _ _ _ => true
  | _ => false

/-! ### The commands -/

/-- COMMAND_ISSUE (R151): a judgement of the arbiter. -/
def execCommandIssue (s : State) : Host.Outcome State Fault Refusal := .next (s.publish s.arbitrate)

/-- ACK_SET_PHASE (R155): the port carries token and outcome only, so the owner is found from the list (R154; log
11). -/
def execAckSetPhase (t : Token) (outcome : AckOutcome) (s : State) : Host.Outcome State Fault Refusal :=
  .next (s.publish (s.takeAck t outcome))

/-- ACK_SET_RATE (R156). -/
def execAckSetRate (t : Token) (outcome : AckOutcome) (s : State) : Host.Outcome State Fault Refusal :=
  .next (s.publish (s.takeAck t outcome))

/-- ACK_TURNOVER (R157, R24). -/
def execAckTurnover (t : Token) (outcome : AckOutcome) (s : State) : Host.Outcome State Fault Refusal :=
  .next (s.publish (s.takeAck t outcome))

/-- ACK_HANDOFF_WORK (R157, R127). -/
def execAckHandoffWork (t : Token) (outcome : AckOutcome) (s : State) : Host.Outcome State Fault Refusal :=
  .next (s.publish (s.takeAck t outcome))

/-- SET_PHASE_ACK_TIMEOUT (R158, R155). -/
def execSetPhaseAckTimeout (t : Token) (s : State) : Host.Outcome State Fault Refusal :=
  .next (s.publish (s.ackTimeout t Command.isSetPhase))

/-- SET_RATE_ACK_TIMEOUT (R158, R156). -/
def execSetRateAckTimeout (t : Token) (s : State) : Host.Outcome State Fault Refusal :=
  .next (s.publish (s.ackTimeout t Command.isSetRate))

/-- TURNOVER_ACK_TIMEOUT (R158, R24). -/
def execTurnoverAckTimeout (t : Token) (s : State) : Host.Outcome State Fault Refusal :=
  .next (s.publish (s.ackTimeout t Command.isTurnover))

/-- HANDOFF_WORK_ACK_TIMEOUT (R158, R127). -/
def execHandoffWorkAckTimeout (t : Token) (s : State) : Host.Outcome State Fault Refusal :=
  .next (s.publish (s.ackTimeout t Command.isWork))

end Sys2Proof.Machine
end

