-- ==== Sys2Proof/Machine/Handoffs.lean ====
section
/-!
DEFINITION. The handoff unit's traffic (chapter 6): HANDOFF as co-unit, HANDOFF_DONE as requester, and the end of a
confirm wait.
-/

namespace Sys2Proof.Machine

/-! ### Serving as co-unit (R126) -/

/-- The phases in which a co-unit serves (R126). -/
def Phase.serves : Phase → Bool
  | .filled | .running | .hold | .runOut => true
  | .cold | .primed | .filling | .banked | .draining | .drained | .tripped => false

/-- A frame's target byte is the own address (R120, R126). -/
def State.addressed (s : State) (target : Byte) : Bool := target.toNat = s.cs.set.ownAddress.val

/-- An entry appended to the service queue with its HANDOFF_WORK request placed (R126). -/
def State.serve (s : State) (e : Service) : State :=
  State.arbitrate (s.setHu { s.hu with queue := s.hu.queue ++ [e] })

/-- The kind byte of a HANDOFF as the entry keeps it; a byte above 15 is left open (log 7). -/
def State.serveWork (s : State) (a : Station) (tag kind : Byte) (k : Point) : State :=
  if kind.toNat ≤ 15 then s.serve ⟨a, tag, Fin.ofNat 16 kind.toNat, k, .waiting⟩
  else s.useFree.serve ⟨a, tag, Config.workKindAbove s.free kind, k, .waiting⟩

/-- A HANDOFF addressed to the node, judged in the order of R126. -/
def State.judgeHandoff (s : State) (a : Station) (tag kind : Byte) (k : Point) : State :=
  if s.hu.queue.any fun e => e.requester = a && e.tag = tag then s
  else if !s.ps.phase.serves then s.place (.handoffDone a tag .notReady)
  else if 2 ≤ s.hu.queue.length then s.place (.handoffDone a tag .busy)
  else s.serveWork a tag kind k

/-- A delivered HANDOFF (R126, R188). -/
def State.takeHandoff (s : State) (a : Station) (p : List Byte) : State :=
  if s.receives && p.length = 4 && s.addressed (byteAt p 0) then
    match Point.ofCode (byteAt p 3).toNat with
    | some k => s.judgeHandoff a (byteAt p 1) (byteAt p 2) k
    | none => s
  else s

/-! ### Answers (R120) -/

/-- The record is the CO_UNIT handoff that a sender and tag answer (R120). -/
def HandoffRec.answeredBy (h : HandoffRec) (a : Station) (tag : Byte) : Bool :=
  match h.call with
  | some c => c.coUnit = a && c.tag = tag
  | none => false

/-- A matching SUCCESS ends the record (R120, R123). -/
def State.answerSuccess (s : State) (h : HandoffRec) : State :=
  State.handoffEnded
    (s.setHu { s.hu with record := none, counitWait := s.hu.counitWait && !h.point.blocking }) h.point.blocking

/-- A matching FAILED: a notify record ends with COUNIT_LATE, a blocking one that awaits its answer enters the confirm
wait, and a confirm wait ignores it (R120). -/
def State.answerFailed (s : State) (h : HandoffRec) : State :=
  match h.state with
  | .awaitDone _ =>
    if h.point.blocking then
      s.setHu { s.hu with record := some { h with state := .confirmWait .failed }, counitWait := true }
    else State.handoffEnded (s.setHu { s.hu with record := none, counitLate := true }) false
  | .confirmWait _ => s

/-- A delivered HANDOFF_DONE (R120, R188). -/
def State.takeHandoffDone (s : State) (a : Station) (p : List Byte) : State :=
  if s.receives && p.length = 4 && s.addressed (byteAt p 0) then
    match s.hu.record with
    | some h =>
      if h.answeredBy a (byteAt p 1) then
        if byteAt p 2 = 0 then s.answerSuccess h else if byteAt p 2 = 1 then s.answerFailed h else s
      else s
    | none => s
  else s

/-! ### The confirm wait (R122) -/

/-- The record stands in a confirm wait (R113). -/
def HandoffRec.confirmable (h : HandoffRec) : Bool :=
  match h.state with
  | .awaitDone _ => false
  | .confirmWait _ => true

/-- The requester record stands in a confirm wait (R113). -/
def HU.confirmWait (h : HU) : Bool :=
  match h.record with
  | some x => x.confirmable
  | none => false

/-- The record ended as CONFIRMED (R122, R123). -/
def State.confirmed (s : State) : State :=
  State.handoffEnded (s.setHu { s.hu with record := none, counitWait := false }) true

/-! ### The commands -/

/-- HANDOFF (R126). -/
def execHandoff (a : Station) (p : List Byte) (s : State) : Host.Outcome State Fault Refusal :=
  .next (s.publish (s.takeHandoff a p))

/-- HANDOFF_DONE (R120). -/
def execHandoffDone (a : Station) (p : List Byte) (s : State) : Host.Outcome State Fault Refusal :=
  .next (s.publish (s.takeHandoffDone a p))

end Sys2Proof.Machine
end

