-- ==== Sys2Proof/Machine/Throughput.lean ====
section
/-!
DEFINITION. The throughput unit at its interval (chapter 3): the holdup update, the rate computation, the run-out test,
the step train, the auto resume, and the starve and block timers.
-/

namespace Sys2Proof.Machine

/-! ### The holdup (R53) -/

/-- The upper end of the holdup estimate (R50). -/
def holdupMax : Nat := 99999999

/-- The holdup after an interval: inflow less outflow, over T_int, saturated (R53). -/
def holdupAfter (holdup inflow outflow tInt : Nat) : Nat :=
  (clampInt 0 holdupMax ((holdup : Int) + ((inflow : Int) - outflow) * tInt)).toNat

/-- H lies at or below H_dr (R62). -/
def State.workedOff (s : State) : Bool := s.tu.holdup ≤ s.cs.set.hDr * 60

/-! ### The upstream term (R57, R58) -/

/-- The level correction, rounded toward zero and clamped (R57). -/
def levelCorrection (c : Settings) (holdup : Nat) : Int :=
  clampInt (-(c.rCorrMax : Int)) c.rCorrMax (((holdup : Int) - c.hSet * 60).tdiv c.tLevel)

/-- The upstream term of RUNNING (R57). -/
def State.upstreamRunning (s : State) : Nat :=
  if s.headSection then s.cs.set.rMax
  else (max 0 ((s.inflow : Int) + levelCorrection s.cs.set s.tu.holdup)).toNat

/-- The drain term of a run-out (R58). -/
def drainTerm (c : Settings) (holdup : Nat) (d : RunOut) : Nat :=
  match d.mode with
  | .toEmpty => c.rMax
  | .timed =>
    if d.rem = 0 then c.rMax
    else if c.hDr * 60 < holdup then ceilDiv (holdup - c.hDr * 60) d.rem else 0

/-- The upstream term of RUN_OUT, a head section taking inflow 0 (R58). -/
def State.upstreamRunOut (s : State) (d : RunOut) : Nat :=
  (if s.headSection then 0 else s.inflow) + drainTerm s.cs.set s.tu.holdup d

/-- RUNOUT_LATE is raised in a timed run-out whose time is up (R58). -/
def RunOut.late (d : RunOut) : Bool := d.mode = .timed && d.rem = 0

/-- The upstream term of the phase under rate control (R56). -/
def State.upstream (s : State) : Nat :=
  if s.ps.phase = .runOut then s.upstreamRunOut s.tu.data else s.upstreamRunning

/-! ### The computation (R59 to R61) -/

/-- What the downstream takes: A_dn, or R_max for a tail section (R59). -/
def State.downTerm (s : State) : Nat := if s.tailSection then s.cs.set.rMax else s.downstream

/-- The desired rate for an upstream term (R59). -/
def State.desired (s : State) (u : Nat) : Nat :=
  min (min s.tu.limitC s.tu.limitS) (min s.cs.set.rMax (min s.downTerm u))

/-- The budget of a resource, none for one without a full-rate need (R59). -/
def State.budget (s : State) (r : Resource) : Option Nat :=
  let n := s.cs.set.fullRate.get r
  let st := s.cs.set.standing.get r
  let h := (s.au.res.get r).holding
  if n = 0 then none else some (if h < st then 0 else (h - st) * 1000 / n)

/-- The budgets that bind at all (R59). -/
def State.budgets (s : State) : List Nat := Resource.all.filterMap s.budget

/-- The budgeted rate (R59). -/
def State.budgeted (s : State) (d : Nat) : Nat := s.budgets.foldl min d

/-- The requested rate part of a resource (R59); one without a full-rate need has none. -/
def State.ratePart (s : State) (d : Nat) (r : Resource) : Nat :=
  ceilDiv (s.cs.set.fullRate.get r * max d s.sp.rAck) 1000

/-- The new rate from the budgeted one: ramp, quantisation, stop jump and start jump (R60). -/
def newRate (c : Settings) (budgeted rAck : Nat) : Nat :=
  let r1 := clamp (rAck - c.rampDown) (rAck + c.rampUp) budgeted
  let r2 := r1 / c.q * c.q
  if budgeted < c.rMin then 0 else if r2 < c.rMin then c.rMin else r2

/-- The flags a computation raises (R61). -/
structure Binding where
  starved : Bool
  blocked : Bool
  limited : Bool
  claimWait : Bool
  late : Bool
  deriving DecidableEq, Repr

/-- No flag raised. -/
def Binding.clear : Binding := ⟨false, false, false, false, false⟩

/-- The binding flags of a computation (R61): CLAIM_WAIT where a budget lies below the desired rate, and the first
term in the rule's order that stopped the rate. -/
def State.binding (s : State) (u d budgeted : Nat) : Binding :=
  let stopped := decide (budgeted < s.cs.set.rMin)
  let byDown := stopped && !s.tailSection && s.downTerm = budgeted
  let byUp := stopped && !byDown && u = budgeted
  let byBudget := stopped && !byDown && !byUp && s.budgets.contains budgeted
  { starved := byUp
    blocked := byDown
    limited := stopped && !byDown && !byUp && !byBudget
      && (s.tu.limitC = budgeted || s.tu.limitS = budgeted)
    claimWait := byBudget || s.budgets.any (· < d)
    late := s.ps.phase = .runOut && s.tu.data.late }

/-- The binding flags written, and the starve and block timers started, kept or stopped with them (R61, R69). A
t_starve of 0 expires at the expiry that starts it. -/
def TU.flagged (t : TU) (c : Settings) (phase : Phase) (b : Binding) : TU :=
  let startsStarve := b.starved && !t.starved && phase = .running
  let startsBlock := b.blocked && !t.blocked
  { t with
    starved := b.starved
    blocked := b.blocked
    limited := b.limited
    claimWait := b.claimWait
    runoutLate := b.late
    starveTimer := if startsStarve then startTimer c.tStarve else if b.starved then t.starveTimer else none
    starveExpired := if startsStarve then c.tStarve = 0 else b.starved && t.starveExpired
    blockTimer := if startsBlock then startTimer c.tStarve else if b.blocked then t.blockTimer else none
    blockExpired := if startsBlock then c.tStarve = 0 else b.blocked && t.blockExpired }

/-- An expiry at which a starve or block timer of length 0 expired (R69). -/
def TU.justExpired (before after : TU) : Bool :=
  (after.starveExpired && !before.starveExpired) || (after.blockExpired && !before.blockExpired)

/-! ### The step train (R63, R64) -/

/-- The first step of a train: toward the target, or the target itself offered again when the last issued step has
been refused (R63, R64). -/
def State.firstStep (s : State) (target : Nat) : Option Nat :=
  if target = s.sp.rIss ∧ s.sp.rAck ≠ s.sp.rIss ∧ s.sp.outstanding.all (fun o => !o.command.isSetRate) then
    some target
  else nextStep s.cs.set.maxStep s.sp.rIss target

/-- The train target handed to the SP: the waiting step withdrawn, the first step of the new train placed (R64). -/
def State.formTrain (s : State) (target : Nat) : State :=
  State.arbitrate (s.setSp { s.sp with rateReq := s.firstStep target })

/-! ### The expiry (R52) -/

/-- What an expiry gives the other blocks: the train target to the SP, and its requests to the PS (R52). -/
structure Outputs where
  target : Option Nat
  closeDrain : Bool
  autoHold : Bool
  autoResume : Bool
  deriving DecidableEq, Repr

/-- Step 1 of an expiry: the timer restarts and the holdup is integrated (R51, R53). -/
def State.integrate (s : State) : State :=
  s.setTu { s.tu with
    interval := some s.cs.set.tInt
    holdup := holdupAfter s.tu.holdup s.tuInflow s.sp.rAck s.cs.set.tInt }

/-- The rate computation of R56 to R61, with its train target. -/
def State.compute (s : State) : State × Outputs :=
  let u := s.upstream
  let d := s.desired u
  let db := s.budgeted d
  let rate := newRate s.cs.set db s.sp.rAck
  let flagged := s.tu.flagged s.cs.set s.ps.phase (s.binding u d db)
  (s.setTu { flagged with train := some rate, parts := .of (s.ratePart d) },
    ⟨some rate, false, s.tu.justExpired flagged, false⟩)

/-- A run-out that is done: rate 0, no parts, the five flags clear (R61, R62). -/
def State.computeDone (s : State) (report : Bool) : State × Outputs :=
  let flagged := s.tu.flagged s.cs.set s.ps.phase .clear
  (s.setTu { flagged with train := some 0, parts := .same 0, runoutDone := true },
    ⟨some 0, report && s.tu.data.closeAfter, false, false⟩)

/-- The expiry in RUN_OUT: the completion test, then the computation unless the run-out is done (R62). -/
def State.computeRunOut (s : State) : State × Outputs :=
  if s.tu.runoutDone then
    if s.workedOff then s.computeDone false
    else State.compute (s.setTu { s.tu with runoutDone := false })
  else if s.workedOff && s.tuInflow = 0 then s.computeDone true
  else s.compute

/-- The desired rate of the resume evaluation, by the hold link's phase (R71). -/
def State.resumeRate (s : State) : Nat :=
  match s.ps.link with
  | some (.runOut d) => s.desired (s.upstreamRunOut d)
  | _ => s.desired s.upstreamRunning

/-- The resume evaluation: the second good expiry in a row requests an auto resume (R71). -/
def State.judgeResume (s : State) : State × Outputs :=
  if s.cs.set.rMin ≤ s.resumeRate && !s.au.underStanding then
    if s.tu.good = 0 then (s.setTu { s.tu with good := 1 }, ⟨none, false, false, false⟩)
    else (s.setTu { s.tu with good := 0 }, ⟨none, false, false, true⟩)
  else (s.setTu { s.tu with good := 0 }, ⟨none, false, false, false⟩)

/-- Steps 2 to 4 of an expiry (R52). -/
def State.judgeInterval (s : State) : State × Outputs :=
  match s.ps.phase with
  | .running => s.compute
  | .runOut => s.computeRunOut
  | .hold => if s.ps.owner = some .auto then s.judgeResume else (s, ⟨none, false, false, false⟩)
  | .cold | .primed | .filling | .filled | .banked | .draining | .drained | .tripped =>
    (s, ⟨none, false, false, false⟩)

/-- The train output taken by the SP. -/
def State.takeTrain (s : State) (o : Outputs) : State :=
  match o.target with
  | some target => s.formTrain target
  | none => s

/-- The requests taken by the PS (R20, R21, R26). -/
def State.takeRequests (s : State) (o : Outputs) : State :=
  let t := if o.closeDrain then s.requestCloseDrain else s
  let t := if o.autoHold then t.requestAutoHold else t
  if o.autoResume then t.requestAutoResume else t

/-- Some request goes to the PS. -/
def Outputs.requests (o : Outputs) : Bool := o.closeDrain || o.autoHold || o.autoResume

/-- The outputs handed on, the train and the requests in no fixed order (R52, R62; log 4). -/
def State.handOn (s : State) (o : Outputs) : State :=
  if o.requests && o.target.isSome then
    let t := s.useFree
    if Config.trainFirst s.free then (t.takeTrain o).takeRequests o else (t.takeRequests o).takeTrain o
  else (s.takeTrain o).takeRequests o

/-- An expiry of the rate interval timer (R52). Of its outputs, which R52 has taken in no fixed order, the AU takes the
requested parts first, and the auto hold that a rise of UNDER_STANDING then calls for reaches the PS before the train
and the requests are handed on (DESIGN CHOICE, log 47). -/
def State.rateExpiry (s : State) : State :=
  let out := s.integrate.judgeInterval
  (out.1.standingRises out.1.refreshCells.judgeStanding).handOn out.2

/-! ### The commands -/

/-- RATE_INTERVAL_EXPIRY (R52), taken when the timer is due and not suspended (R28; log 2). -/
def execRateIntervalExpiry (s : State) : Host.Outcome State Fault Refusal :=
  .next (if s.tu.interval.due && !s.ps.frozen then s.publish s.rateExpiry else s)

/-- The auto hold of a timer expiry, requested where its condition stands (R69, R70). -/
def State.holdIfStands (s : State) : State := if s.autoHoldStands then s.requestAutoHold else s

/-- STARVE_TIMER_EXPIRY (R69). -/
def execStarveTimerExpiry (s : State) : Host.Outcome State Fault Refusal :=
  .next (if s.tu.starveTimer.due && !s.ps.frozen then
    s.publish (s.setTu { s.tu with starveTimer := none, starveExpired := true }).holdIfStands else s)

/-- BLOCK_TIMER_EXPIRY (R69). -/
def execBlockTimerExpiry (s : State) : Host.Outcome State Fault Refusal :=
  .next (if s.tu.blockTimer.due && !s.ps.frozen then
    s.publish (s.setTu { s.tu with blockTimer := none, blockExpired := true }).holdIfStands else s)

end Sys2Proof.Machine
end

