-- ==== Sys2Proof/Machine/Directives.lean ====
section
/-!
DEFINITION. The directive unit (chapter 5): addressing, authority, the order of judgement, and the row of each of the
fourteen directives.
-/

namespace Sys2Proof.Machine

/-! ### Directives and their arguments (R94) -/

/-- The fourteen directives with their arguments as the DU takes them (R94). -/
inductive Directive where
  | startCampaign | fill
  | feed (limit : Nat)
  | hold | resume | bank
  | runOut (data : RunOut)
  | stopRunOut | drain | endCampaign | trip | clearTrip | confirm | cancel
  deriving DecidableEq, Repr

/-- A FEED's rate limit: above 1000 it is taken as 1000 (R94). -/
def feedLimit (w : BitVec 16) : Nat := min 1000 w.toNat

/-- A RUN_OUT's data from its length and close-after flag (R94). -/
def runOutData (length : BitVec 16) (closeAfter : Bool) : RunOut :=
  if length.toNat = 0 then ⟨0, .toEmpty, closeAfter⟩ else ⟨max 60 length.toNat, .timed, closeAfter⟩

/-- The directive of a code, with its argument and close-after bit (11.5, R94). -/
def Directive.ofCode (code : Byte) (arg : BitVec 16) (closeAfter : Bool) : Option Directive :=
  match code.toNat with
  | 1 => some .startCampaign
  | 2 => some .fill
  | 3 => some (.feed (feedLimit arg))
  | 4 => some .hold
  | 5 => some .resume
  | 6 => some .bank
  | 7 => some (.runOut (runOutData arg closeAfter))
  | 8 => some .stopRunOut
  | 9 => some .drain
  | 10 => some .endCampaign
  | 11 => some .trip
  | 12 => some .clearTrip
  | 13 => some .confirm
  | 14 => some .cancel
  | _ => none

/-! ### Addressing and authority (R95, R97, R98) -/

/-- The node is targeted by an addressing mode and its target bytes (R95). -/
def State.targeted (s : State) (mode target1 target2 : Byte) : Bool :=
  match mode.toNat with
  | 0 => s.addressed target1
  | 1 => target1.toNat = s.cs.set.sectionClass.code
  | 2 => target1.toNat ≤ s.cs.set.chainPosition && s.cs.set.chainPosition ≤ target2.toNat
  | _ => false

/-- An address is in the authority set; address 0 never is (R97, 11.3). -/
def Settings.inAuthoritySet (c : Settings) (a : Station) : Bool := a ≠ 0 && c.authoritySet.getLsbD a.val

/-- The authorities a kind allows (R98). -/
def Directive.allows (d : Directive) (a : Authority) : Bool :=
  match d with
  | .startCampaign | .fill | .runOut _ | .stopRunOut | .drain | .endCampaign => a = .campaign
  | .bank | .clearTrip | .confirm => a = .sectionPanel
  | .feed _ | .hold | .resume | .trip | .cancel => a = .campaign || a = .sectionPanel

/-- The freeze lets a directive pass to its row (R100). -/
def Directive.passesFreeze (d : Directive) (p : Phase) : Bool :=
  match d with
  | .trip | .cancel => true
  | .clearTrip => p = .tripped
  | .startCampaign | .fill | .feed _ | .hold | .resume | .bank | .runOut _ | .stopRunOut | .drain | .endCampaign
  | .confirm => false

/-! ### The rows (R102 to R113) -/

/-- A directive refused with a code and detail 0 (R114). -/
def State.refuse (s : State) (q : Requester) (c : RefusalCode) : State := s.reply q (.refused c)

/-- A directive whose row gives a transition: BUSY at an occupied slot, else its request enters (R108). -/
def State.request (s : State) (r : SlotRec) : State :=
  if s.ps.slot.isSome then s.refuse r.requester .busy else s.enterSlot r

/-- START_CAMPAIGN (R102). -/
def State.rowStart (s : State) (q : Requester) (a : Authority) : State :=
  if s.ps.phase = .cold then s.request (.new .primed .start q a none) else s.refuse q .illegalInPhase

/-- FILL (R102). -/
def State.rowFill (s : State) (q : Requester) (a : Authority) : State :=
  if s.ps.phase = .primed ∨ s.ps.phase = .drained then s.request (.new .filling .fill q a none)
  else s.refuse q .illegalInPhase

/-- BANK (R102). -/
def State.rowBank (s : State) (q : Requester) (a : Authority) : State :=
  if s.ps.phase = .hold then s.request (.new .banked .bank q a none) else s.refuse q .illegalInPhase

/-- DRAIN (R102). -/
def State.rowDrain (s : State) (q : Requester) (a : Authority) : State :=
  let r := SlotRec.new .draining .drain q a none
  match s.ps.phase with
  | .runOut => if s.tu.runoutDone then s.request r else s.refuse q .holdupPresent
  | .filled | .hold => if s.workedOff then s.request r else s.refuse q .holdupPresent
  | .cold | .primed | .filling | .running | .banked | .draining | .drained | .tripped => s.refuse q .illegalInPhase

/-- END_CAMPAIGN (R102). -/
def State.rowEnd (s : State) (q : Requester) (a : Authority) : State :=
  if s.ps.phase = .primed ∨ s.ps.phase = .drained then s.request (.new .cold .endCampaign q a none)
  else s.refuse q .illegalInPhase

/-- A rate limit stored in L_c or L_s by authority (R55, R103). -/
def State.storeLimit (s : State) (a : Authority) (limit : Nat) : State :=
  if a = .campaign then s.setTu { s.tu with limitC := limit } else s.setTu { s.tu with limitS := limit }

/-- FEED taken in FILLED with the slot empty: the limit is stored before BELOW_MIN is judged (R103). -/
def State.feedFilled (s : State) (q : Requester) (a : Authority) (limit : Nat) : State :=
  let t := s.storeLimit a limit
  if min t.tu.limitC t.tu.limitS < t.cs.set.rMin then t.refuse q .belowMin
  else t.enterSlot (.new .running .feed q a none)

/-- FEED (R103). -/
def State.rowFeed (s : State) (q : Requester) (a : Authority) (limit : Nat) : State :=
  match s.ps.phase with
  | .filled => if s.ps.slot.isSome then s.refuse q .busy else s.feedFilled q a limit
  | .running | .hold | .banked => (s.storeLimit a limit).reply q .taken
  | .runOut =>
    if s.tu.data.closeAfter then s.refuse q .lockedRunout else (s.storeLimit a limit).reply q .taken
  | .cold | .primed | .filling | .draining | .drained | .tripped => s.refuse q .illegalInPhase

/-- The rank of the hold owner; a hold always has one (R18). -/
def PS.ownerRank (p : PS) : Nat := (p.owner.map Authority.rank).getD 0

/-- A resume in the slot before WAIT_ISSUE whose authority lies below a new owner (R18). -/
def SlotRec.outranked (r : SlotRec) (owner : Authority) : Bool :=
  r.kind = .resume && r.stage.beforeIssue && r.authority.rank < owner.rank

/-- The hold owner raised to an authority that ranks higher, with the effects of R18 and R71. -/
def State.raiseOwner (s : State) (a : Authority) : State :=
  if s.ps.ownerRank < a.rank then
    let t := (s.setPs { s.ps with owner := some a }).setTu { s.tu with good := 0 }
    match t.ps.slot with
    | some r => if r.outranked a then t.refuseTransition r .holdOwner 0 else t
    | none => t
  else s

/-- HOLD (R104). -/
def State.rowHold (s : State) (q : Requester) (a : Authority) : State :=
  match s.ps.phase with
  | .running => s.request (.new .hold .hold q a none)
  | .runOut =>
    if s.tu.data.closeAfter then s.refuse q .lockedRunout else s.request (.new .hold .hold q a none)
  | .hold | .banked => (s.raiseOwner a).reply q .taken
  | .cold | .primed | .filling | .filled | .draining | .drained | .tripped => s.refuse q .illegalInPhase

/-- RESUME (R105). -/
def State.rowResume (s : State) (q : Requester) (a : Authority) : State :=
  if !s.ps.phase.inHold then s.refuse q .illegalInPhase
  else if a.rank < s.ps.ownerRank then s.refuse q .holdOwner
  else s.request (.new s.ps.linkPhase .resume q a none)

/-- The slot holds a RESUME (R106). -/
def PS.holdsResume (p : PS) : Bool :=
  match p.slot with
  | some r => r.kind = .resume
  | none => false

/-- RUN_OUT (R106). -/
def State.rowRunOut (s : State) (q : Requester) (a : Authority) (d : RunOut) : State :=
  match s.ps.phase with
  | .running => s.request (.new .runOut .runOut q a (some d))
  | .runOut =>
    if s.tu.data.closeAfter then s.refuse q .lockedRunout
    else (s.setTu { s.tu with runOut := some d }).reply q .taken
  | .hold | .banked =>
    if s.ps.holdsResume then s.refuse q .busy
    else (s.setPs { s.ps with link := some (.runOut d) }).reply q .taken
  | .cold | .primed | .filling | .filled | .draining | .drained | .tripped => s.refuse q .illegalInPhase

/-- STOP_RUN_OUT (R107). -/
def State.rowStop (s : State) (q : Requester) (a : Authority) : State :=
  if s.ps.phase ≠ .runOut then s.refuse q .illegalInPhase
  else if s.tu.data.mode ≠ .toEmpty then s.refuse q .notToEmpty
  else if s.tu.data.closeAfter then s.refuse q .lockedRunout
  else s.request (.new .hold .stopRunOut q a none)

/-- The cause of a TRIP by its source (R109). -/
def Requester.tripCause : Requester → Cause
  | .line _ _ => .lineDirective
  | .port _ | .autoHold | .autoResume | .holdExpired | .closeAfter => .localDirective

/-- TRIP (R109): its own TAKEN comes after the REFUSED TRIPPED of the slot's requester. R109 places it against no other
frame: it comes after the HU's HANDOFF_DONE NOT_READY answers of the same trip entry too (DESIGN CHOICE, log 43), and in
TRIPPED after the REFUSED TRIPPED of a recovery that it ends (DESIGN CHOICE, log 38). -/
def State.rowTrip (s : State) (q : Requester) : State :=
  if s.ps.phase = .cold then s.refuse q .illegalInPhase else (s.raiseCause q.tripCause).reply q .taken

/-- The tag of a requester that has one. -/
def Requester.tag : Requester → Byte
  | .line _ t => t
  | .port t => t
  | .autoHold | .autoResume | .holdExpired | .closeAfter => 0

/-- CLEAR_TRIP (R110, R136). -/
def State.rowClear (s : State) (q : Requester) : State :=
  if s.ps.phase ≠ .tripped then s.refuse q .illegalInPhase
  else if s.shows ReportFlags.tripRequest || s.ps.frozen then s.refuse q .causeActive
  else if s.tr.recovery.isSome then s.refuse q .busy
  else s.startRecovery (if s.workedOff then .drained else .hold) q.tag

/-- CONFIRM (R113): a DONE that its completion brings goes out before its own TAKEN (DESIGN CHOICE, log 42). -/
def State.rowConfirm (s : State) (q : Requester) : State :=
  if s.hu.confirmWait then s.confirmed.reply q .taken else s.refuse q .nothingToConfirm

/-- The requester is the section port (R111). -/
def Requester.isPort : Requester → Bool
  | .port _ => true
  | .line _ _ | .autoHold | .autoResume | .holdExpired | .closeAfter => false

/-- The transition cancelled: removed, its requester replied, then the CANCEL's own TAKEN, and the waiting requests
re-examined (R111, R12; log 33). A cancelled auto resume counts its good expiries afresh (R112, R21). -/
def State.cancelled (s : State) (r : SlotRec) (q : Requester) : State :=
  let t := s.removeTransition.reply r.requester (.refused .cancelled)
  let t := if r.requester = .autoResume then t.setTu { t.tu with good := 0 } else t
  (t.reply q .taken).reexamine

/-- The SET_PHASE of the slot's transition waits at the section port and has not issued. A transition that is back at
WAIT_ISSUE for its SET_PHASE FILLED or DRAINED has issued one before (R14, R15). -/
def State.awaitsIssue (s : State) (r : SlotRec) : Bool :=
  r.stage = .waitIssue && match s.sp.psReq with
    | some (_, .completion) => false
    | _ => true

/-- A CANCEL taken while the SET_PHASE of its transition waits at the section port: R101, and R112 with its auto hold,
have it removed, and R12, R111 and 5.8 have the CANCEL refused TOO_LATE; the manual leaves open which, and a free value
settles it (log 37). -/
def State.cancelAtIssue (s : State) (r : SlotRec) (q : Requester) : State :=
  if Config.cancelBeforeIssue s.free then s.useFree.cancelled r q else s.useFree.refuse q .tooLate

/-- CANCEL (R111, R101). -/
def State.rowCancel (s : State) (q : Requester) (a : Authority) : State :=
  match s.ps.slot with
  | none => s.refuse q .nothingPending
  | some r =>
    if a = .sectionPanel && !r.requester.isPort then s.refuse q .notAuthorized
    else if r.stage.beforeIssue then s.cancelled r q
    else if s.awaitsIssue r then s.cancelAtIssue r q
    else s.refuse q .tooLate

/-- The row of a directive (5.4 to 5.6). -/
def State.row (s : State) (q : Requester) (a : Authority) (d : Directive) : State :=
  match d with
  | .startCampaign => s.rowStart q a
  | .fill => s.rowFill q a
  | .feed limit => s.rowFeed q a limit
  | .hold => s.rowHold q a
  | .resume => s.rowResume q a
  | .bank => s.rowBank q a
  | .runOut data => s.rowRunOut q a data
  | .stopRunOut => s.rowStop q a
  | .drain => s.rowDrain q a
  | .endCampaign => s.rowEnd q a
  | .trip => s.rowTrip q
  | .clearTrip => s.rowClear q
  | .confirm => s.rowConfirm q
  | .cancel => s.rowCancel q a

/-! ### The order of judgement (R99) -/

/-- Steps 5 to 8: authority for the kind, freeze, row (R99). -/
def State.judgeKind (s : State) (q : Requester) (a : Authority) (d : Directive) : State :=
  if !d.allows a then s.refuse q .notAuthorized
  else if s.ps.frozen && !d.passesFreeze s.ps.phase then s.refuse q .frozen
  else s.row q a d

/-- A line directive that targets the node: BAD_CODE, then the authority set (R99 steps 3 and 4). -/
def State.judgeLine (s : State) (a : Station) (tag : Byte) (d : Option Directive) : State :=
  match d with
  | none => s.refuse (.line a tag) .badCode
  | some d =>
    if s.cs.set.inAuthoritySet a then s.judgeKind (.line a tag) .campaign d
    else s.refuse (.line a tag) .notAuthorized

/-- A port directive (R99 steps 2 and 3). -/
def State.judgePort (s : State) (tag : Byte) (d : Option Directive) : State :=
  if !s.cs.locked then s.refuse (.port tag) .configUnlocked
  else match d with
  | none => s.refuse (.port tag) .badCode
  | some d => s.judgeKind (.port tag) .sectionPanel d

/-- A directive taken: delivered and targeted first when it comes from the line (R95, R99). -/
def State.takeDirective (s : State) (src : Source) (d : Option Directive) : State :=
  match src with
  | .line a mode target1 target2 tag =>
    if s.receives && s.targeted mode target1 target2 then s.judgeLine a tag d else s
  | .port tag => s.judgePort tag d

/-- A directive as its bytes stand; a frame whose payload is not 8 bytes is discarded (R188). -/
def State.takeRaw (s : State) (raw : RawDirective) : State :=
  match raw with
  | .frame a p =>
    if p.length = 8 then
      s.takeDirective (.line a (byteAt p 0) (byteAt p 1) (byteAt p 2) (byteAt p 3))
        (Directive.ofCode (byteAt p 4) (byteAt p 5 ++ byteAt p 6) ((byteAt p 7).getLsbD 0))
    else s
  | .part code tag argHigh argLow closeAfter =>
    s.takeDirective (.port tag) (Directive.ofCode code (argHigh ++ argLow) (closeAfter.getLsbD 0))

/-! ### The commands -/

/-- START_CAMPAIGN (R102). -/
def execStartCampaign (src : Source) (s : State) : Host.Outcome State Fault Refusal :=
  .next (s.publish (s.takeDirective src (some .startCampaign)))

/-- FILL (R102). -/
def execFill (src : Source) (s : State) : Host.Outcome State Fault Refusal :=
  .next (s.publish (s.takeDirective src (some .fill)))

/-- FEED (R103). -/
def execFeed (src : Source) (limit : BitVec 16) (s : State) : Host.Outcome State Fault Refusal :=
  .next (s.publish (s.takeDirective src (some (.feed (feedLimit limit)))))

/-- HOLD (R104). -/
def execHold (src : Source) (s : State) : Host.Outcome State Fault Refusal :=
  .next (s.publish (s.takeDirective src (some .hold)))

/-- RESUME (R105). -/
def execResume (src : Source) (s : State) : Host.Outcome State Fault Refusal :=
  .next (s.publish (s.takeDirective src (some .resume)))

/-- BANK (R102). -/
def execBank (src : Source) (s : State) : Host.Outcome State Fault Refusal :=
  .next (s.publish (s.takeDirective src (some .bank)))

/-- RUN_OUT (R106). -/
def execRunOut (src : Source) (length : BitVec 16) (closeAfter : Bool) (s : State) :
    Host.Outcome State Fault Refusal :=
  .next (s.publish (s.takeDirective src (some (.runOut (runOutData length closeAfter)))))

/-- STOP_RUN_OUT (R107). -/
def execStopRunOut (src : Source) (s : State) : Host.Outcome State Fault Refusal :=
  .next (s.publish (s.takeDirective src (some .stopRunOut)))

/-- DRAIN (R102). -/
def execDrain (src : Source) (s : State) : Host.Outcome State Fault Refusal :=
  .next (s.publish (s.takeDirective src (some .drain)))

/-- END_CAMPAIGN (R102). -/
def execEndCampaign (src : Source) (s : State) : Host.Outcome State Fault Refusal :=
  .next (s.publish (s.takeDirective src (some .endCampaign)))

/-- TRIP (R109). -/
def execTrip (src : Source) (s : State) : Host.Outcome State Fault Refusal :=
  .next (s.publish (s.takeDirective src (some .trip)))

/-- CLEAR_TRIP (R110). -/
def execClearTrip (src : Source) (s : State) : Host.Outcome State Fault Refusal :=
  .next (s.publish (s.takeDirective src (some .clearTrip)))

/-- CONFIRM (R113). -/
def execConfirm (src : Source) (s : State) : Host.Outcome State Fault Refusal :=
  .next (s.publish (s.takeDirective src (some .confirm)))

/-- CANCEL (R111). -/
def execCancel (src : Source) (s : State) : Host.Outcome State Fault Refusal :=
  .next (s.publish (s.takeDirective src (some .cancel)))

/-- DIRECTIVE_BAD_CODE (R94): a directive judged from its bytes. -/
def execDirectiveBadCode (raw : RawDirective) (s : State) : Host.Outcome State Fault Refusal :=
  .next (s.publish (s.takeRaw raw))

end Sys2Proof.Machine
end

