-- ==== Sys2Proof/Machine/Expiries.lean ====
section
/-!
DEFINITION. The expiries of the sequencer's timers (1.3, 1.7, 1.8, 1.10), of the stage deadlines (1.2), and of the
under-standing, port silence, handoff, status period and short spacing timers. Each is taken when its timer is due and
not suspended by the freeze overlay, or when its cause stands raised (log 45), and has no effect otherwise (log 2).
-/

namespace Sys2Proof.Machine

/-! ### Dwell and settle (R6, R13) -/

/-- The dwell timer has expired: a FEED or FILL waiting for it goes on (R13). -/
def State.dwellEnds (s : State) : State :=
  let t := s.setPs { s.ps with dwell := none }
  match t.ps.slot with
  | some r =>
    if r.stage = .waitDwell && (r.kind = .fill || r.kind = .feed) then (t.toPrereq r).notePending else t
  | none => t

/-- The settle has expired: the transition goes on, and the stage 1 and 2 deadline starts with it (R6, R19). -/
def State.settleEnds (s : State) (r : SlotRec) : State := (s.toPrereq { r with settle := none }).notePending

/-! ### Stage deadlines (R6 to R8) -/

/-- The evaluation made at the expiry of the stage 1 and 2 deadline: the refusal with its index, or, where the list is
found met, what the manual leaves open (R7; log 6). -/
def State.deadlineInPrereq (s : State) (r : SlotRec) (l : ListName) : State :=
  match s.firstUnmet l with
  | some i => s.refuseTransition r .prereqUnmet (byteOf i)
  | none =>
    let t := s.useFree
    if Config.metAtDeadline s.free then ((t.setPv { t.pv with watches := [] }).toClaim r).notePending
    else t.refuseTransition r .prereqUnmet (Config.unstatedIndex s.free)

/-- The stage 1 and 2 deadline has expired (R6, R7). -/
def State.prereqDeadline (s : State) (r : SlotRec) : State :=
  match r.stage, r.kind.list with
  | .waitDwell, _ => s.refuseTransition r .dwell 0
  | .waitPrereq, some l => s.deadlineInPrereq r l
  | _, _ => s

/-! ### Hold maximum and turnover (R23 to R25) -/

/-- The hold maximum has expired (R23). -/
def State.holdMaximum (s : State) : State :=
  let t := s.setPs { s.ps with holdMax := none, holdExpired := true, waiting := { s.ps.waiting with forced := true } }
  match t.ps.slot with
  | none => t.reexamine
  | some r =>
    if r.stage.beforeIssue || r.stage = .waitIssue then
      (t.removeTransition.reply r.requester (.refused .cancelled)).reexamine
    else t

/-- A TURNOVER is waiting or outstanding at the SP (R24). -/
def SP.turnoverStands (p : SP) : Bool := p.turnoverReq || p.outstanding.any fun o => o.command.isTurnover

/-- The turnover timer has expired: a TURNOVER in HOLD, STAGNATION in BANKED (R24, R25). -/
def State.turnoverExpires (s : State) : State :=
  match s.ps.phase with
  | .hold =>
    let t := s.setPs { s.ps with turnover := some s.cs.set.tTurnover }
    if t.sp.turnoverStands then t else State.arbitrate (t.setSp { t.sp with turnoverReq := true })
  | .banked => State.raiseCause (s.setPs { s.ps with turnover := none }) .stagnation
  | .cold | .primed | .filling | .filled | .running | .runOut | .draining | .drained | .tripped => s

/-! ### The handoff deadline (R121) -/

/-- The deadline of a record in AWAIT_DONE has run down (R121). -/
def HandoffRec.due (h : HandoffRec) : Bool :=
  match h.state with
  | .awaitDone d => d.due
  | .confirmWait _ => false

/-- The t_handoff deadline has expired: a blocking record enters its confirm wait, a notify record ends EXPIRED
(R121). -/
def State.handoffExpires (s : State) (h : HandoffRec) : State :=
  if h.point.blocking then
    s.setHu { s.hu with record := some { h with state := .confirmWait .expired }, counitWait := true }
  else State.handoffEnded (s.setHu { s.hu with record := none, counitLate := true }) false

/-! ### The commands -/

/-- DWELL_EXPIRY (R13). -/
def execDwellExpiry (s : State) : Host.Outcome State Fault Refusal :=
  .next (if s.ps.dwell.due && !s.ps.frozen then s.publish s.dwellEnds else s)

/-- The settle timer of the slot's record is due (R6). -/
def SlotRec.settleDue (r : SlotRec) : Bool := r.stage = .waitDwell && r.settle.due

/-- SETTLE_EXPIRY (R6). -/
def execSettleExpiry (s : State) : Host.Outcome State Fault Refusal :=
  .next (match s.ps.slot with
    | some r => if r.settleDue && !s.ps.frozen then s.publish (s.settleEnds r) else s
    | none => s)

/-- PREREQ_DEADLINE_EXPIRY (R7, R6). -/
def execPrereqDeadlineExpiry (s : State) : Host.Outcome State Fault Refusal :=
  .next (match s.ps.slot with
    | some r => if r.deadline.due && !s.ps.frozen then s.publish (s.prereqDeadline r) else s
    | none => s)

/-- CLAIM_DEADLINE_EXPIRY (R8). -/
def execClaimDeadlineExpiry (s : State) : Host.Outcome State Fault Refusal :=
  .next (match s.ps.slot with
    | some r =>
      if r.stage = .waitClaim && r.deadline.due && !s.ps.frozen then
        s.publish (s.refuseTransition r .noBudget 0)
      else s
    | none => s)

/-- FILL_TIMEOUT (R14). -/
def execFillTimeout (s : State) : Host.Outcome State Fault Refusal :=
  .next (if s.ps.fillMax.due && !s.ps.frozen then
    s.publish (State.raiseCause (s.setPs { s.ps with fillMax := none }) .fillTimeout)
  else s.takeRaised .fillTimeout)

/-- DRAIN_TIMEOUT (R15). -/
def execDrainTimeout (s : State) : Host.Outcome State Fault Refusal :=
  .next (if s.ps.drainMax.due && !s.ps.frozen then
    s.publish (State.raiseCause (s.setPs { s.ps with drainMax := none }) .drainTimeout)
  else s.takeRaised .drainTimeout)

/-- HOLD_MAXIMUM_EXPIRY (R23). -/
def execHoldMaximumExpiry (s : State) : Host.Outcome State Fault Refusal :=
  .next (if s.ps.holdMax.due && !s.ps.frozen then s.publish s.holdMaximum else s)

/-- TURNOVER_TIMER_EXPIRY (R24, R25); the freeze overlay does not suspend it. -/
def execTurnoverTimerExpiry (s : State) : Host.Outcome State Fault Refusal :=
  .next (if s.ps.turnover.due then s.publish s.turnoverExpires else s.takeRaised .stagnation)

/-- FREEZE_LONG (R27): not taken in COLD, and the timer is not restarted. -/
def execFreezeLong (s : State) : Host.Outcome State Fault Refusal :=
  .next (if s.ps.freezeMax.due then
    s.publish (State.raiseCause (s.setPs { s.ps with freezeMax := none }) .freezeLong) else s)

/-- UNDER_STANDING_TIMEOUT (R90). -/
def execUnderStandingTimeout (s : State) : Host.Outcome State Fault Refusal :=
  .next (if s.au.underTimer.due then
    s.publish (State.raiseCause (s.setAu { s.au with underTimer := none }) .utilityLost)
  else s.takeRaised .utilityLost)

/-- PORT_SILENT (R146). -/
def execPortSilent (s : State) : Host.Outcome State Fault Refusal :=
  .next (if s.sp.portSilence.due then
    s.publish (State.raiseCause (s.setSp { s.sp with portSilence := none }) .portSilent)
  else s.takeRaised .portSilent)

/-- HANDOFF_DEADLINE_EXPIRY (R121). -/
def execHandoffDeadlineExpiry (s : State) : Host.Outcome State Fault Refusal :=
  .next (match s.hu.record with
    | some h => if h.due then s.publish (s.handoffExpires h) else s
    | none => s)

/-- The status period timer restarted, the long due mark set and, while ISOLATED, the attempt permitted
(R173, R176). -/
def State.statusPeriod (s : State) : State :=
  State.markLong (s.setLc { s.lc with
    statusTimer := some s.cs.set.statusPeriod
    attempt := s.lc.attempt || s.lc.line = .isolated })

/-- STATUS_PERIOD_EXPIRY (R173). -/
def execStatusPeriodExpiry (s : State) : Host.Outcome State Fault Refusal :=
  .next (if s.lc.statusTimer.due then s.publish s.statusPeriod else s)

/-- SHORT_SPACING_EXPIRY (R174): the spacing no longer holds a short notice back. -/
def execShortSpacingExpiry (s : State) : Host.Outcome State Fault Refusal :=
  .next (if s.lc.spacing.due then s.publish (s.setLc { s.lc with spacing := none }) else s)

end Sys2Proof.Machine
end

