-- ==== Sys2Proof/Machine/Line.lean ====
section
/-!
DEFINITION. The line controller's own transmission (9.2 to 9.5): which slot is offered, the composition of notices, the
beginning and the outcome of a frame, and isolation.
-/

namespace Sys2Proof.Machine

/-! ### The offer (R169, R172) -/

/-- A status notice composed from the node's state (R172). -/
def State.compose (s : State) (long : Bool) : Notice where
  long := long
  phase := s.ps.phase
  offer := s.offer
  acceptance := s.acceptance
  flags := s.flags
  holdup := s.publishedHoldup
  holdings := .of fun r => (s.au.res.get r).holding
  provider := s.cs.set.provider
  capacities := .of s.publishedCapacity
  statusPeriod := s.cs.set.statusPeriod
  rank := s.cs.set.rank
  timeInPhase := s.age s.ps.phaseSince
  sectionClass := s.cs.set.sectionClass
  chainPosition := s.cs.set.chainPosition
  cause := s.publishedCause

/-- The frame of a slot that has one waiting; the status slot has none of its own (R168). -/
def LC.frameIn (l : LC) : TxSlot → Option Frame
  | .trip => l.tripSlot.map .tripNotice
  | .allot r => (l.allot.get r).map (.allot r)
  | .fifo => l.fifo.head?.map .message
  | .status => none

/-- The status slot's offer: the long notice when its mark is set, else the short one when its mark is set and no
spacing runs (R169, R172, R174). -/
def State.statusOffer (s : State) : Option (TxSlot × Frame) :=
  if s.lc.longDue then some (.status, .status (s.compose true))
  else if s.lc.shortDue && s.lc.spacing.isNone then some (.status, .status (s.compose false))
  else none

/-- The slots ahead of the status slot, in the arbiter's order (R169). -/
def slotOrder : List TxSlot := [.trip, .allot .steam, .allot .power, .allot .lime, .allot .water, .fifo]

/-- What the transmit arbiter offers (R169); while ISOLATED only a permitted attempt with a long notice (R176). The
order of R169 stands at the first idle after a restart too, where R177 speaks of a long notice (DESIGN CHOICE, log
39). -/
def State.arbiterOffer (s : State) : Option (TxSlot × Frame) :=
  match s.lc.line with
  | .isolated => if s.lc.attempt then some (.status, .status (s.compose true)) else none
  | .active =>
    match slotOrder.findSome? fun k => (s.lc.frameIn k).map fun f => (k, f) with
    | some o => some o
    | none => s.statusOffer

/-- The line read idle: the LC takes part from now on, and the first ready slot is offered (R162, R166, R169; log
8). -/
def State.lineIdle (s : State) : State :=
  if !s.cs.locked then s
  else
    let t := s.setLc { s.lc with joined := true }
    match t.lc.tx with
    | some _ => t
    | none => t.setLc { t.lc with tx := t.arbiterOffer.map fun o => ⟨o.1, o.2, false, false⟩ }

/-! ### The beginning (R166, R84) -/

/-- A notice begins: the spacing starts, and marks set from now on are set again (R172, R174). -/
def LC.beginNotice (l : LC) (t : Tx) : LC :=
  { l with
    tx := some { t with begun := true, afterOverflow := true }
    spacing := some 1
    longAgain := false
    shortAgain := false }

/-- The CLAIM of a resource begins: its engine becomes SENDING (R84). -/
def State.startsSending (s : State) (r : Resource) (f : AllotFrame) : State :=
  match f with
  | .claim _ =>
    s.setAu { s.au with res := s.au.res.set r { s.au.res.get r with engine := .sending } }
  | .release _ => s

/-- The offered frame begins transmission. The frame is the one its slot then holds; a slot emptied during the
arbitration field begins nothing (R166, R170; log 9). -/
def State.beginFrame (s : State) (t : Tx) : State :=
  match t.slot with
  | .status => s.setLc (s.lc.beginNotice t)
  | .trip | .allot _ | .fifo =>
    match s.lc.frameIn t.slot with
    | none => s.setLc { s.lc with tx := none }
    | some f =>
      let u := s.setLc { s.lc with tx := some { t with frame := f, begun := true } }
      match f with
      | .allot r g => u.startsSending r g
      | .tripNotice _ | .message _ | .status _ => u

/-! ### Completion (R167, R170 to R173) -/

/-- The TRIP_NOTICE kept aside takes the trip slot (R170). -/
def LC.tripEnded (l : LC) : LC := { l with tripSlot := l.tripAside, tripAside := none }

/-- A resource's cell is replaced in the AU's work: UNDER_STANDING is judged, and the TU and the PS take what follows
(R77, R89). -/
def State.withCell (s : State) (r : Resource) (c : Cell) : State := s.afterAllotment (s.setCell r c).judgeStanding

/-- The work on a resource's cell that follows the outcome of its frame (R85, R86). -/
def State.outcomeTaken (s : State) (r : Resource) (c : Cell) : State :=
  s.withCell r (c.afterOutcome (s.cellView r) (s.tally r) (s.sumBefore r))

/-- The AU takes the completion of its frame and asks for a long notice (R85, R86). A claimed holding is judged and
reported as it stands at its rise, before the held change report is taken (R77, R89, R90). -/
def State.allotDone (s : State) (r : Resource) (f : AllotFrame) : State :=
  match f with
  | .claim v =>
    let t := s.markLong.withCell r ((s.cell r).claimed (s.cellView r) v)
    t.outcomeTaken r (t.cell r)
  | .release v => s.markLong.outcomeTaken r ((s.cell r).released v)

/-- The values a completed notice carried become the last published ones (R172). -/
def LC.published (l : LC) (n : Notice) : LC :=
  { l with lastOffer := n.offer, lastAcceptance := n.acceptance, shortDue := l.shortAgain }

/-- What the completion of a long notice does at the LC: its marks, its timer, REPLY_OVERFLOW, the return to ACTIVE
(R171 to R173, R176). -/
def LC.longPublished (l : LC) (c : Settings) (n : Notice) (afterOverflow : Bool) : LC :=
  { l.published n with
    longDue := l.longAgain
    statusTimer := some c.statusPeriod
    replyOverflow := l.replyOverflow && !afterOverflow
    line := .active
    attempt := false }

/-- The AU takes the holdings and capacities a long notice carried (R79, R86). -/
def State.allotLong (s : State) (n : Notice) : State :=
  Resource.all.foldl
    (fun t r => t.setCell r ((t.cell r).longDone (t.cellView r) (n.holdings.get r) (n.capacities.get r))) s

/-- The deadband test made again at the completion of a notice (R174). -/
def State.retest (s : State) : State := if s.ratesMatter then s.markShort else s

/-- A status notice completed (R172, R176, R92). -/
def State.noticeDone (s : State) (n : Notice) (afterOverflow : Bool) : State :=
  if n.long then
    let t := (s.setLc (s.lc.longPublished s.cs.set n afterOverflow)).allotLong n
    s.afterAllotment t.rejoinCells.judgeStanding.retest
  else State.retest (s.setLc (s.lc.published n))

/-- The frame on the line completed: it leaves its slot, the failure count is 0, its owner is told (R167). -/
def State.frameDone (s : State) (t : Tx) : State :=
  let u := s.setLc { s.lc with tx := none, failures := 0 }
  match t.slot, t.frame with
  | .trip, _ => u.setLc u.lc.tripEnded
  | .fifo, _ => u.setLc { u.lc with fifo := u.lc.fifo.tail }
  | _, .allot r f => u.allotDone r f
  | _, .status n => u.noticeDone n t.afterOverflow
  | _, _ => u

/-! ### Failure and isolation (R167, R175, R176) -/

/-- The consecutive failures that isolate (R175). -/
def failureLimit : Nat := 8

/-- The frame dropped from its slot; a status notice leaves its due marks set (R175). -/
def LC.dropFrame (l : LC) : TxSlot → LC
  | .trip => l.tripEnded
  | .allot r => { l with allot := l.allot.set r none }
  | .fifo => { l with fifo := l.fifo.tail }
  | .status => l

/-- The line state becomes ISOLATED: the AU gives everything up, the TU asks for a hold (R175, R91, R70). -/
def State.isolate (s : State) (k : TxSlot) : State :=
  let t := s.setLc { s.lc.dropFrame k with line := .isolated, failures := 0, attempt := false }
  let t := t.isolateCells
  if t.ps.phase.underRate then t.requestAutoHold else t

/-- What a failed frame that is not dropped does: the trip slot takes the notice kept aside, the AU judges its frame
again, and a short notice is ready at the next idle, the spacing that it began over (R170, R85, R86, R174; log 21). -/
def State.returned (s : State) (t : Tx) : State :=
  match t.slot, t.frame with
  | .trip, _ => if s.lc.tripAside.isSome then s.setLc s.lc.tripEnded else s
  | _, .allot r (.claim _) => s.outcomeTaken r ((s.cell r).reclaimed (s.cellView r))
  | _, .allot r (.release _) => s.outcomeTaken r (s.cell r).rereleased
  | .status, .status n => if n.long then s else s.setLc { s.lc with spacing := none }
  | _, _ => s

/-- A failed attempt while ISOLATED: the permission is cleared, the count stays 0 (R176). -/
def State.attemptFailed (s : State) : State := s.setLc { s.lc with tx := none, attempt := false }

/-- A frame failed after it had begun (R167). -/
def State.frameFailed (s : State) (t : Tx) : State :=
  if s.lc.line = .isolated then s.attemptFailed
  else
    let u := s.setLc { s.lc with tx := none, failures := s.lc.failures + 1 }
    if u.lc.failures < failureLimit then u.returned t else u.isolate t.slot

/-- A fault before a frame had begun: counted as a failure, but no outcome of the frame unless it isolates (R166). -/
def State.faulted (s : State) (t : Tx) : State :=
  if s.lc.line = .isolated then s.attemptFailed
  else
    let u := s.setLc { s.lc with tx := none, failures := s.lc.failures + 1 }
    if u.lc.failures < failureLimit then u else u.isolate t.slot

/-! ### The commands -/

/-- An event of a frame offered and not begun (R166); without one it has no effect (log 19). -/
def State.whileOffered (s : State) (f : Tx → State) : State :=
  match s.lc.tx with
  | some t => if t.begun then s else s.publish (f t)
  | none => s

/-- An event of a frame in transmission (R167); without one it has no effect (log 19). -/
def State.whileBegun (s : State) (f : Tx → State) : State :=
  match s.lc.tx with
  | some t => if t.begun then s.publish (f t) else s
  | none => s

/-- LINE_IDLE (R169). -/
def execLineIdle (s : State) : Host.Outcome State Fault Refusal := .next s.lineIdle

/-- ARBITRATION_LOST (R166): the frame stays in its slot, the failure count as it stands. -/
def execArbitrationLost (s : State) : Host.Outcome State Fault Refusal :=
  .next (s.whileOffered fun _ => s.setLc { s.lc with tx := none })

/-- TRANSMIT_FAULT (R166). -/
def execTransmitFault (s : State) : Host.Outcome State Fault Refusal := .next (s.whileOffered s.faulted)

/-- TRANSMISSION_BEGIN (R166). -/
def execTransmissionBegin (s : State) : Host.Outcome State Fault Refusal := .next (s.whileOffered s.beginFrame)

/-- FRAME_COMPLETION (R167). -/
def execFrameCompletion (s : State) : Host.Outcome State Fault Refusal := .next (s.whileBegun s.frameDone)

/-- FRAME_FAILURE (R167). -/
def execFrameFailure (s : State) : Host.Outcome State Fault Refusal := .next (s.whileBegun s.frameFailed)

end Sys2Proof.Machine
end

