-- ==== Sys2Proof/Machine/OrderRecord.lean ====
section
/-!
DEFINITION. The order record (8.2, 11.4): its fixed part, its four pages, and the snapshot at the start of an exchange.
-/

namespace Sys2Proof.Machine

/-! ### The fixed part (R147) -/

/-- The two argument bytes of a presented command, with its kind code (11.4). -/
def Command.fields : Command → Nat × List Byte
  | .setPhase p _ => (0, [0, byteOf p.code])
  | .setRate v _ => (1, bytes16 v)
  | .turnover => (2, [0, 0])
  | .handoffWork k p a => (3, [byteOf (k.val + 16 * p.code), byteOf a.val])

/-- A presented command: token and kind, then the argument bytes (11.4). -/
def Outstanding.bytes (o : Outstanding) : List Byte :=
  nibbles o.token.val o.command.fields.1 :: o.command.fields.2

/-- The presented commands in issue order, an entry beyond the count all 0 (11.4). -/
def presentedBytes (l : List Outstanding) : List Byte :=
  byteOf (min 2 l.length) :: ((l.flatMap Outstanding.bytes) ++ List.replicate 6 0).take 6

/-- The origin bit of the local result header (11.4). -/
def Origin.code : Origin → Nat
  | .directive => 0
  | .configuration => 1

/-- The local result, all 0 when absent, with the result count (R116, 11.4). -/
def DU.bytes (d : DU) : List Byte :=
  (match d.result with
    | some r => [byteOf (128 + 64 * r.origin.code + r.outcome.code), r.tag, byteOf r.outcome.refusalCode, r.detail]
    | none => [0, 0, 0, 0]) ++ [d.count]

/-- The nibble of the later cause in a place, Fh for an unused one (11.4). -/
def laterNibble (l : List Cause) (k : Nat) : Nat := (l[k]?.map Cause.code).getD 15

/-- The trip record (R129, 11.4). -/
def tripBytes : Option TripRec → List Byte
  | none => [0xF0#8, 0xFF#8, 0xFF#8]
  | some t =>
    [byteOf (16 * t.first.code + 8 * bit t.overflow + min 4 t.later.length),
      nibbles (laterNibble t.later 0) (laterNibble t.later 1),
      nibbles (laterNibble t.later 2) (laterNibble t.later 3)]

/-- The states byte: LOCKED, ISOLATED and the page number (11.4). -/
def State.statesByte (s : State) : Byte :=
  byteOf (bit s.cs.locked + 2 * bit (s.lc.line = .isolated) + 4 * s.sp.page.val)

/-- Bytes 0 to 22 of the order record (R147, 11.4). -/
def State.fixedPart (s : State) : List Byte :=
  [byteOf s.ps.phase.code, s.statesByte] ++ bytes16 s.flags.word ++ bytes16 s.sp.rIss ++ bytes16 s.sp.rAck
    ++ presentedBytes s.sp.outstanding ++ s.du.bytes ++ tripBytes s.tr.record

/-! ### The pages (R148) -/

/-- Page 0: claim engine state and holding of each resource (R148, 11.4). -/
def State.pageHoldings (s : State) : List Byte :=
  Resource.all.flatMap fun r =>
    bytes16 (4096 * (s.au.res.get r).engine.code + (s.au.res.get r).holding)

/-- The requester record's state as page 1 shows it (11.4). -/
def HU.recordCode (h : HU) : Nat :=
  match h.record with
  | none => 0
  | some r => match r.state with
    | .awaitDone _ => 1
    | .confirmWait _ => 2

/-- Page 1: the counts, the published holdup and the HU byte (R148, 11.4). -/
def State.pageCounts (s : State) : List Byte :=
  [byteOf s.lc.lineErrors, byteOf s.sp.strayCount, byteOf s.sp.reportErrors] ++ bytes16 s.publishedHoldup
    ++ [byteOf (s.hu.recordCode + 16 * min 2 s.hu.queue.length), 0, 0]

/-- The phase nibble of a neighbour slot, Fh when absent (11.4). -/
def phaseNibble (p : Option Phase) : Nat := (p.map Phase.code).getD 15

/-- A summary slot: presence and phase of the entry named, NONE for address 0 (R148, 11.4). -/
def State.summarySlot (s : State) (a : Station) : Byte :=
  if a = 0 then nibbles 0 15 else nibbles (s.entry a).presence.code (phaseNibble (s.entry a).phase)

/-- The address of a neighbour role, none before the lock, as no setting is read earlier (R178, 2.7). -/
def State.role (s : State) (a : Station) : Station := if s.cs.locked then a else 0

/-- Page 2: the four neighbours and the four providers (R148, 11.4). -/
def State.pageNeighbours (s : State) : List Byte :=
  [s.summarySlot (s.role s.cs.set.up1), s.summarySlot (s.role s.cs.set.up2), s.summarySlot (s.role s.cs.set.down1),
    s.summarySlot (s.role s.cs.set.down2)]
    ++ Resource.all.map fun r => s.summarySlot ((s.sp.providers.get r).getD 0)

/-- The addresses the detail page goes round: LIVE or SILENT and not the own one (R148). -/
def State.detailStations (s : State) : List Station :=
  stations.filter fun a => !s.isOwn a && (s.stored a).presence ≠ .unheard

/-- The address after the cursor, in rising order and wrapping (R148). -/
def State.nextDetail (s : State) : Option Station :=
  match s.detailStations.find? fun a => s.sp.cursor < a with
  | some a => some a
  | none => s.detailStations.head?

/-- Page 3: one entry in full, or address 0 and no entry (R148, 11.4). The holdup bytes and the chain position bits of
an absent field, whose form the tables give by the clear presence bit alone, are sent 0 (DESIGN CHOICE, log 41). -/
def State.pageDetail (s : State) (a : Option Station) : List Byte :=
  match a with
  | none => List.replicate 8 0
  | some a =>
    let e := s.stored a
    [byteOf a.val, s.summarySlot a] ++ bytes16 e.flags.word ++ bytes16 (e.holdup.getD 0)
      ++ [nibbles ((e.sectionClass.map SectionClass.code).getD 15) ((e.cause.map Cause.code).getD 15),
        byteOf (e.chainPosition.getD 0 + 64 * bit e.chainPosition.isSome + 128 * bit e.holdup.isSome)]

/-- The page of the snapshot (R148). -/
def State.pageBytes (s : State) : List Byte :=
  match s.sp.page with
  | 0 => s.pageHoldings
  | 1 => s.pageCounts
  | 2 => s.pageNeighbours
  | 3 => s.pageDetail s.nextDetail

/-! ### The snapshot (R143) -/

/-- The order record as the state stands: 31 bytes and their CRC-8 (R147, 11.4). -/
def State.orderRecord (s : State) : List Byte :=
  let body := s.fixedPart ++ s.pageBytes
  body ++ [crc8 body]

/-- The detail cursor after a snapshot: moved on at page 3, if there is an entry to show (R148). -/
def State.cursorAfter (s : State) : Station :=
  if s.sp.page = 3 then s.nextDetail.getD s.sp.cursor else s.sp.cursor

/-- SSEL falls: the snapshot is taken (R143). An exchange that runs already has taken its own (log 10). -/
def State.startExchange (s : State) : State :=
  match s.sp.exchange with
  | some _ => s
  | none =>
    s.setSp { s.sp with
      cursor := s.cursorAfter
      exchange := some ⟨s.orderRecord, s.du.result.isSome, s.du.count⟩ }

/-- SDO after the falling edge of SCLK that follows `k` others in the exchange: the snapshot, byte 0 first and each byte
most significant bit first, then zeros; not driven while SSEL is high (R143, R187). -/
def State.sdo (s : State) (k : Nat) : Option Bool :=
  s.sp.exchange.map fun e => (e.record.flatMap bitsOfByte).getD k false

/-- EXCHANGE_START (R143). -/
def execExchangeStart (s : State) : Host.Outcome State Fault Refusal := .next s.startExchange

end Sys2Proof.Machine
end

