-- ==== Sys2Proof/Machine/PeerFrames.lean ====
section
/-!
DEFINITION. The frames the peer view takes (2.2, 2.3): what each writes into its sender's entry, and the change report
that follows.
-/

namespace Sys2Proof.Machine

/-! ### What a frame writes (R33 to R37) -/

/-- The fields the two status notices share: phase, frozen state, offer, acceptance, flags (11.2). -/
def PeerEntry.withStatus (e : PeerEntry) (phase : Phase) (p : List Byte) (now : Nat) : PeerEntry :=
  { e with
    presence := .live
    phase := some phase
    frozen := (Flags.ofWord (wordAt p 5)).frozen
    offer := min 1000 (wordAt p 1)
    acceptance := min 1000 (wordAt p 3)
    flags := Flags.ofWord (wordAt p 5)
    lastHeard := some now }

/-- The trip cause a long notice writes: judged when the phase is TRIPPED, absent otherwise (R33, R37). `none` is a
code that names no cause. -/
def longCause (phase : Phase) (p : List Byte) : Option (Option Cause) :=
  if phase = .tripped then (Cause.ofCode (byteAt p 31).toNat).map some else some none

/-- What a STATUS_LONG writes (R33, R37, 11.2); `none` when the frame is discarded (R37, R188). -/
def PeerEntry.takeLong (e : PeerEntry) (now : Nat) (p : List Byte) : Option PeerEntry :=
  if p.length ≠ 32 then none
  else
    match Phase.ofCode (byteAt p 0).toNat, SectionClass.ofCode (byteAt p 29).toNat with
    | some phase, some cls =>
      (longCause phase p).map fun cause =>
        { e.withStatus phase p now with
          holdup := some (wordAt p 7)
          holdings := .of fun r => some (min 4000 (wordAt p (9 + 2 * r.code)))
          capacities := .of fun r =>
            if bitsOf (byteAt p 17) r.code 1 = 1 then some (min 4000 (wordAt p (18 + 2 * r.code))) else none
          statusPeriod := some (clamp 1 10 (bitsOf (byteAt p 26) 4 4))
          rank := some (bitsOf (byteAt p 26) 0 4)
          phaseSince := some ((now : Int) - wordAt p 27)
          sectionClass := some cls
          chainPosition := some (bitsOf (byteAt p 30) 0 6)
          cause := cause }
    | _, _ => none

/-- What a STATUS_SHORT writes (R34, R37). -/
def PeerEntry.takeShort (e : PeerEntry) (now : Nat) (p : List Byte) : Option PeerEntry :=
  if p.length ≠ 7 then none
  else (Phase.ofCode (byteAt p 0).toNat).map fun phase =>
    { e.withStatus phase p now with
      phaseSince := if e.phase = some phase ∧ e.presence = .live then e.phaseSince else some (now : Int)
      cause := if phase = .tripped ∧ e.phase = some .tripped then e.cause else none }

/-- What a CLAIM or a RELEASE writes (R35, R37). -/
def PeerEntry.takeHolding (e : PeerEntry) (now : Nat) (p : List Byte) : Option PeerEntry :=
  if p.length ≠ 3 then none
  else (Resource.ofCode (byteAt p 0).toNat).map fun r =>
    { e with
      presence := .live
      holdings := e.holdings.set r (some (min 4000 (wordAt p 1)))
      lastHeard := some now }

/-- What a TRIP_NOTICE writes (R36, R37). -/
def PeerEntry.takeTrip (e : PeerEntry) (now : Nat) (p : List Byte) : Option PeerEntry :=
  if p.length ≠ 1 then none
  else (Cause.ofCode (byteAt p 0).toNat).map fun c =>
    { e with
      presence := .live
      phase := some .tripped
      phaseSince := some (now : Int)
      cause := some c
      lastHeard := some now }

/-- What silence does to an entry (R39). -/
def PeerEntry.silence (e : PeerEntry) : PeerEntry :=
  { e with
    presence := .silent
    offer := 0
    acceptance := 0
    holdings := .same none
    capacities := .same none }

/-! ### The change report (R32, R45, R148) -/

/-- The entry changed in a field other than last-heard (R32). -/
def PeerEntry.altered (old new : PeerEntry) : Bool := { new with lastHeard := old.lastHeard } ≠ old

/-- The resources a change report names: all four at a change of presence to or from LIVE, else those whose holding or
capacity changed (R45). -/
def PeerEntry.names (old new : PeerEntry) (r : Resource) : Bool :=
  (decide (old.presence = .live) != decide (new.presence = .live))
    || old.holdings.get r ≠ new.holdings.get r || old.capacities.get r ≠ new.capacities.get r

/-- The provider address after a capacity of the resource has become present at an address: the lowest heard (R148). -/
def providerAfter (a : Station) : Option Station → Station
  | none => a
  | some b => if a < b then a else b

/-- The provider address of a resource after a change of an entry (R148). -/
def State.providerFor (s : State) (a : Station) (old new : PeerEntry) (r : Resource) : Option Station :=
  if (old.capacities.get r).isNone && (new.capacities.get r).isSome then
    some (providerAfter a (s.sp.providers.get r))
  else s.sp.providers.get r

/-- The SP's provider addresses after a change of an entry (R148). -/
def State.noteProviders (s : State) (a : Station) (old new : PeerEntry) : State :=
  s.setSp { s.sp with providers := .of (s.providerFor a old new) }

/-- The AU takes a change report for the resources named (R80, R87, R89). -/
def State.allotReport (s : State) (named : Resource → Bool) : State :=
  s.afterAllotment (s.reportCells named).judgeStanding

/-- A change report taken by its readers. The AU and the PS meet where a transition waits on its list, and are then
taken in no fixed order (R32; log 32). The TU reads the table at each use, so a list that tests the own acceptance sees
it as the report leaves it: the TU is taken first (DESIGN CHOICE, log 32). -/
def State.takeReport (s : State) (named : Resource → Bool) : State :=
  if s.atStage .waitPrereq && Resource.all.any named then
    let t := s.useFree
    if Config.allotFirst s.free then (t.allotReport named).pollList else t.pollList.allotReport named
  else (s.allotReport named).pollList

/-- An entry written, and the change reported when the writing alters it (R32). -/
def State.writePeer (s : State) (a : Station) (new : PeerEntry) : State :=
  let old := s.stored a
  if old.altered new then ((s.setPeer a new).noteProviders a old new).takeReport (old.names new)
  else s.setPeer a new

/-- A frame delivered to the peer view: discarded from address 0 and from the own address (R32), and before the line
controller takes part (R162). -/
def State.deliverPeer (s : State) (a : Station) (take : PeerEntry → Option PeerEntry) : State :=
  if s.receives && a ≠ 0 && !s.isOwn a then
    match take (s.stored a) with
    | some e => s.writePeer a e
    | none => s
  else s

/-! ### The commands -/

/-- STATUS_LONG (R33). -/
def execStatusLong (a : Station) (p : List Byte) (s : State) : Host.Outcome State Fault Refusal :=
  .next (s.publish (s.deliverPeer a fun e => e.takeLong s.now p))

/-- STATUS_SHORT (R34). -/
def execStatusShort (a : Station) (p : List Byte) (s : State) : Host.Outcome State Fault Refusal :=
  .next (s.publish (s.deliverPeer a fun e => e.takeShort s.now p))

/-- CLAIM (R35). -/
def execClaim (a : Station) (p : List Byte) (s : State) : Host.Outcome State Fault Refusal :=
  .next (s.publish (s.deliverPeer a fun e => e.takeHolding s.now p))

/-- RELEASE (R35), taken as a CLAIM is. -/
def execRelease (a : Station) (p : List Byte) (s : State) : Host.Outcome State Fault Refusal :=
  .next (s.publish (s.deliverPeer a fun e => e.takeHolding s.now p))

/-- TRIP_NOTICE (R36). -/
def execTripNotice (a : Station) (p : List Byte) (s : State) : Host.Outcome State Fault Refusal :=
  .next (s.publish (s.deliverPeer a fun e => e.takeTrip s.now p))

/-- REPLY_RECEIVED (R165, R115): a section node discards the frame after acknowledgement. -/
def execReplyReceived (_a : Station) (_p : List Byte) (s : State) : Host.Outcome State Fault Refusal := .next s

/-- PEER_SILENCE (R39), taken when the entry's silence limit has passed (R38; log 2). -/
def execPeerSilence (a : Station) (s : State) : Host.Outcome State Fault Refusal :=
  .next (if s.silenceDue a then s.publish (s.writePeer a (s.stored a).silence) else s)

/-- AGE_WATCH_EXPIRY (R42): a watched subject's age has reached its threshold, and the list is evaluated again. -/
def execAgeWatchExpiry (a : Station) (s : State) : Host.Outcome State Fault Refusal :=
  .next (if s.pv.watches.any (fun w => w.1 = a && s.watchDue w) then s.publish s.pollList else s)

end Sys2Proof.Machine
end

