-- ==== Sys2Proof/Machine/Store.lean ====
section
/-!
DEFINITION. The configuration store (chapter 10): loading an item, the lock, the restart and the power-on reset.
-/

namespace Sys2Proof.Machine

/-! ### Saturation of an item (R179, R180) -/

/-- An address, saturated to 0 to 31 (R178). -/
def addressOf (n : Nat) : Station := Fin.ofNat 32 (min 31 n)

/-- The member of a set of allowed values that a value is stored as: the largest not above it, or the smallest when it
lies below every member (R179). The members are given in rising order. -/
def memberOf (members : List Nat) (n : Nat) : Nat :=
  ((members.filter (· ≤ n)).getLast?).getD (members.headD 0)

/-- A scalar item stored, saturated to its range (R178, R179). -/
def Settings.storeScalar (c : Settings) (item n : Nat) : Settings :=
  match item with
  | 1 => { c with ownAddress := addressOf n }
  | 2 => { c with sectionClass := (SectionClass.ofCode (min 11 n)).getD .utility }
  | 3 => { c with chainPosition := min 63 n }
  | 4 => { c with rank := min 15 n }
  | 6 => { c with up1 := addressOf n }
  | 7 => { c with up2 := addressOf n }
  | 8 => { c with down1 := addressOf n }
  | 9 => { c with down2 := addressOf n }
  | 11 => { c with bitRate := memberOf [125, 250, 500] n }
  | 12 => { c with statusPeriod := clamp 1 10 n }
  | 13 => { c with rMax := clamp 1 1000 n }
  | 14 => { c with rMin := min 1000 n }
  | 15 => { c with q := memberOf [1, 2, 5, 10, 20, 25, 50] n }
  | 16 => { c with rampUp := clamp 1 1000 n }
  | 17 => { c with rampDown := clamp 1 1000 n }
  | 18 => { c with maxStep := clamp 1 1000 n }
  | 19 => { c with tInt := clamp 1 60 n }
  | 20 => { c with publishDeadband := min 50 n }
  | 21 => { c with hMax := n }
  | 22 => { c with hSet := n }
  | 23 => { c with hDr := n }
  | 24 => { c with tLevel := clamp 10 3600 n }
  | 25 => { c with rCorrMax := min 500 n }
  | 26 => { c with mismatchBand := n }
  | 27 => { c with standing := c.standing.set .steam (min 4000 n) }
  | 28 => { c with standing := c.standing.set .power (min 4000 n) }
  | 29 => { c with standing := c.standing.set .lime (min 4000 n) }
  | 30 => { c with standing := c.standing.set .water (min 4000 n) }
  | 31 => { c with fullRate := c.fullRate.set .steam (min 4000 n) }
  | 32 => { c with fullRate := c.fullRate.set .power (min 4000 n) }
  | 33 => { c with fullRate := c.fullRate.set .lime (min 4000 n) }
  | 34 => { c with fullRate := c.fullRate.set .water (min 4000 n) }
  | 35 => { c with capacityDeadband := min 4000 n }
  | 36 => { c with tFillMin := clamp 0 3600 n }
  | 37 => { c with tDrainRest := clamp 0 3600 n }
  | 38 => { c with tHoldMax := clamp 600 43200 n }
  | 39 => { c with tTurnover := clamp 30 3600 n }
  | 40 => { c with tBankExit := clamp 0 1800 n }
  | 41 => { c with tFreezeMax := clamp 1 600 n }
  | 42 => { c with tPrereqWait := clamp 1 3600 n }
  | 43 => { c with tClaimWait := clamp 1 600 n }
  | 44 => { c with tAckPhase := clamp 1 60 n }
  | 45 => { c with tAckRate := clamp 1 60 n }
  | 46 => { c with tAckTurnover := clamp 1 600 n }
  | 47 => { c with tPortSilence := clamp 1 30 n }
  | 48 => { c with tFillMax := clamp 60 43200 n }
  | 49 => { c with tDrainMax := clamp 60 43200 n }
  | 50 => { c with tStarve := clamp 0 3600 n }
  | 51 => { c with tHandoff := clamp 1 3600 n }
  | 52 => { c with depth := memberOf [4, 6, 8, 10] n }
  | 53 => { c with lengths := c.lengths.set .fill (min 10 n) }
  | 54 => { c with lengths := c.lengths.set .feed (min 10 n) }
  | 55 => { c with lengths := c.lengths.set .resume (min 10 n) }
  | 56 => { c with lengths := c.lengths.set .drain (min 10 n) }
  | 57 => { c with lengths := c.lengths.set .endList (min 10 n) }
  | _ => c

/-- The provider set of a byte (11.3). -/
def providerOf (v0 : Byte) : PerRes Bool := .of fun r => v0.getLsbD r.code

/-- The authority set of a mask, bit 0 ignored (11.3). -/
def authorityOf (v0 v1 v2 v3 : Byte) : BitVec 32 := (v0 ++ v1 ++ v2 ++ v3) &&& 0xFFFFFFFE#32

/-- The subject of a code; codes beyond the last are stored as station address 31 (R180, 11.3). -/
def subjectOf (code : Nat) : Subject :=
  match code with
  | 0 => .up1
  | 1 => .up2
  | 2 => .down1
  | 3 => .down2
  | n => .station (addressOf (n - 4))

/-- The test of a code with its argument; codes beyond the last are stored as NOT_FROZEN (R180, 11.3). -/
def testOf (code resource arg : Nat) : PrereqTest :=
  match code with
  | 0 => .phaseIn (BitVec.ofNat 11 arg)
  | 1 => .offerGe (min 1000 arg)
  | 2 => .acceptGe (min 1000 arg)
  | 3 => .ageGe arg
  | 4 => .capacityGe ((Resource.ofCode (min 3 resource)).getD .water) (min 4000 arg)
  | _ => .notFrozen

/-- A prerequisite list entry of its value bytes (R180, 11.3). -/
def entryOf (v0 v1 v2 v3 v4 : Byte) : PrereqEntry :=
  ⟨subjectOf v0.toNat, testOf (bitsOf v1 0 7) v2.toNat (word16 v3 v4), v1.getLsbD 7⟩

/-- A handoff point mode, codes beyond the last stored as the last (R179, 11.3). -/
def pointModeOf (n : Nat) : PointMode :=
  match n with
  | 0 => .none
  | 1 => .confirmOnly
  | _ => .coUnit

/-- A handoff point item of its value bytes (R180, 11.3). -/
def pointOf (v0 v1 v2 : Byte) : PointSetting :=
  ⟨pointModeOf v0.toNat, addressOf v1.toNat, Fin.ofNat 16 (min 15 v2.toNat)⟩

/-- A list entry stored; taking it sets its loaded mark (R180). -/
def Settings.storeEntry (c : Settings) (l : ListName) (index : Nat) (e : PrereqEntry) : Settings :=
  { c with entries := c.entries.set l ((c.entries.get l).setIfInBounds index (some e)) }

/-- An item stored in place of the one before (R179). -/
def Settings.store (c : Settings) (item : Nat) (v0 v1 v2 v3 v4 : Byte) : Settings :=
  if item = 5 then { c with provider := providerOf v0 }
  else if item = 10 then { c with authoritySet := authorityOf v0 v1 v2 v3 }
  else if item < 58 then c.storeScalar item (word16 v0 v1)
  else if item < 108 then
    c.storeEntry (.ofIndex ((item - 58) / 10)) ((item - 58) % 10) (entryOf v0 v1 v2 v3 v4)
  else { c with points := c.points.set ((Point.ofCode (item - 108)).getD .drain) (pointOf v0 v1 v2) }

/-- A configuration item taken (R179). -/
def State.takeItem (s : State) (item v0 v1 v2 v3 v4 : Byte) : State :=
  if s.cs.locked then s.configResult item (.refused .configLocked) 0
  else if item.toNat = 0 || 111 < item.toNat then s.configResult item (.refused .badItem) 0
  else
    State.configResult (s.setCs { s.cs with set := s.cs.set.store item.toNat v0 v1 v2 v3 v4 }) item .taken 0

/-! ### The lock (R181, R182) -/

/-- The failing items among the entries of one list: those of an index below the length never loaded (R181). -/
def Settings.entryFailures (c : Settings) (base : Nat) (l : ListName) : List Nat :=
  ((List.range 10).filter fun i =>
    decide (i < c.lengths.get l) && ((c.entries.get l).toList.getD i none).isNone).map (base + ·)

/-- The items the failing checks name, in rising order (R181). -/
def Settings.failures (c : Settings) : List Nat :=
  let named := fun (item : Nat) (ok : Bool) => if ok then [] else [item]
  let own := c.ownAddress
  let point := fun (item : Nat) (p : PointSetting) => named item (p.mode ≠ .coUnit || p.coUnit ≠ own)
  named 1 (own ≠ 0) ++ named 6 (c.up1 ≠ own) ++ named 7 (c.up2 ≠ own) ++ named 8 (c.down1 ≠ own)
    ++ named 9 (c.down2 ≠ own) ++ named 13 (c.rMax % c.q = 0) ++ named 14 (c.rMin ≤ c.rMax && c.rMin % c.q = 0)
    ++ named 18 (c.maxStep % c.q = 0) ++ named 22 (c.hSet ≤ c.hMax) ++ named 23 (c.hDr < c.hSet)
    ++ named 53 (c.lengths.fill ≤ c.depth) ++ named 54 (c.lengths.feed ≤ c.depth)
    ++ named 55 (c.lengths.resume ≤ c.depth) ++ named 56 (c.lengths.drain ≤ c.depth)
    ++ named 57 (c.lengths.endList ≤ c.depth)
    ++ c.entryFailures 58 .fill ++ c.entryFailures 68 .feed ++ c.entryFailures 78 .resume
    ++ c.entryFailures 88 .drain ++ c.entryFailures 98 .endList
    ++ point 108 c.points.fill ++ point 109 c.points.feed ++ point 110 c.points.runOut ++ point 111 c.points.drain

/-- The node's start at the lock: the LC waits for the line idle, starts the status period timer and sets the long due
mark; the own entry mirrors the node from here on (R177, R182). -/
def State.locks (s : State) : State :=
  { s with
    cs := { s.cs with locked := true }
    lc := { s.lc with joined := false, statusTimer := some s.cs.set.statusPeriod, longDue := true } }

/-- LOCK_CONFIG taken (R181). -/
def State.takeLock (s : State) : State :=
  if s.cs.locked then s.configResult 0 (.refused .configLocked) 0
  else
    match s.cs.set.failures with
    | item :: _ => s.configResult 0 (.refused .inconsistent) (byteOf item)
    | [] => s.locks.configResult 0 .taken 0

/-! ### The resets (R184 to R186) -/

/-- The line controller after a RESTART_NODE taken while locked (R177, R186; log 15). -/
def State.restartedLc (s : State) : LC :=
  { LC.reset with joined := s.lc.joined, longDue := true, statusTimer := some s.cs.set.statusPeriod }

/-- The REFUSED CANCELLED owed to a line station whose transition the restart removes (R186). -/
def State.replyCancelled (s : State) (slot : Option SlotRec) : State :=
  match slot with
  | some r =>
    match r.requester with
    | .line a tag => s.reply (.line a tag) (.refused .cancelled)
    | .port _ | .autoHold | .autoResume | .holdExpired | .closeAfter => s
  | none => s

/-- Every block at its reset state but for the configuration, the clock and the line controller, which the restarts
treat apart (R185, R186). -/
def State.cleared (s : State) (cs : CS) (lc : LC) : State :=
  { s with
    cs := cs, ps := .reset s.now, pv := .reset, tu := .reset, au := .reset, du := .reset, hu := .reset
    tr := .reset, sp := .reset, lc := lc }

/-- A RESTART_NODE taken while LOCKED (R186). -/
def State.restartLocked (s : State) : State :=
  State.configResult ((s.cleared s.cs s.restartedLc).replyCancelled s.ps.slot) 0 .taken 0

/-- A RESTART_NODE taken while UNLOCKED: the store goes back to its defaults too (R185). -/
def State.restartUnlocked (s : State) : State := State.configResult (s.cleared .reset .reset) 0 .taken 0

/-- The phases in which a RESTART_NODE is taken (R185; log 30 for the unlocked node). -/
def State.restartable (s : State) : Bool :=
  match s.ps.phase with
  | .cold => true
  | .drained | .tripped => s.cs.locked
  | .primed | .filling | .filled | .running | .hold | .banked | .runOut | .draining => false

/-- RESTART_NODE taken (R185, R186). -/
def State.takeRestart (s : State) : State :=
  if !s.restartable then s.configResult 0 (.refused .illegalInPhase) 0
  else if s.cs.locked then s.restartLocked
  else s.restartUnlocked

/-- The power-on reset: every field at its reset value, but for the model's own queue and free-value counter (R184;
log 16). -/
def State.powerOn (s : State) : State := { State.reset with free := s.free, pending := s.pending }

/-! ### The commands -/

/-- CONFIG_ITEM (R179). -/
def execConfigItem (item v0 v1 v2 v3 v4 : Byte) (s : State) : Host.Outcome State Fault Refusal :=
  .next (s.takeItem item v0 v1 v2 v3 v4)

/-- LOCK_CONFIG (R181). -/
def execLockConfig (s : State) : Host.Outcome State Fault Refusal := .next s.takeLock

/-- RESTART_NODE (R185, R186). -/
def execRestartNode (s : State) : Host.Outcome State Fault Refusal := .next s.takeRestart

/-- POWER_ON_RESET (R184). -/
def execPowerOnReset (s : State) : Host.Outcome State Fault Refusal := .next s.powerOn

end Sys2Proof.Machine
end

