-- ==== Sys2Proof/Machine/Report.lean ====
section
/-!
DEFINITION. The section report (8.1, 11.3): its judgement, and its parts handed on in the order of R145.
-/

namespace Sys2Proof.Machine

/-! ### The report's fields (R144, 11.3) -/

/-- A configuration part (R144). -/
inductive ConfigPart where
  | item (number v0 v1 v2 v3 v4 : Byte)
  | lock
  | restart
  deriving DecidableEq, Repr

/-- A report's contents (R144). -/
structure Report where
  flags : ReportFlags
  acks : List (Token × AckOutcome)
  holdup : Option Nat
  capacity : Option (Byte × Nat)
  directive : Option RawDirective
  config : Option ConfigPart
  deriving DecidableEq, Repr

/-- The first `n` bytes and the rest, where there are as many. -/
def splitBytes (n : Nat) (l : List Byte) : Option (List Byte × List Byte) :=
  if l.length < n then none else some (l.take n, l.drop n)

/-- A field of `n` bytes present or absent (11.3). -/
def optionalField {α : Type} (present : Bool) (n : Nat) (read : List Byte → α) (l : List Byte) :
    Option (Option α × List Byte) :=
  if present then (splitBytes n l).map fun (f, rest) => (some (read f), rest) else some (none, l)

/-- The flags byte (11.3). -/
def reportFlags (b : Byte) : ReportFlags where
  filled := b.getLsbD 0
  drained := b.getLsbD 1
  tripRequest := b.getLsbD 2
  freeze := b.getLsbD 3
  selfTurnover := b.getLsbD 4
  lookAhead := b.getLsbD 5

/-- An acknowledgement byte; an outcome code other than DONE or FAILED makes the report invalid (11.3). -/
def ackOf (b : Byte) : Option (Token × AckOutcome) :=
  match bitsOf b 4 2 with
  | 0 => some (Fin.ofNat 16 (bitsOf b 0 4), .done)
  | 1 => some (Fin.ofNat 16 (bitsOf b 0 4), .failed)
  | _ => none

/-- The acknowledgement list (11.3). -/
def acksOf : List Byte → Option (List (Token × AckOutcome))
  | [] => some []
  | b :: rest =>
    match ackOf b, acksOf rest with
    | some a, some l => some (a :: l)
    | _, _ => none

/-- The local directive's five bytes (11.3). -/
def directiveOf (f : List Byte) : RawDirective :=
  .part (byteAt f 0) (byteAt f 1) (byteAt f 2) (byteAt f 3) (byteAt f 4)

/-- The configuration part by its header code: an item takes six bytes, the others none (11.3). -/
def configOf (code : Nat) (l : List Byte) : Option (Option ConfigPart × List Byte) :=
  match code with
  | 0 => some (none, l)
  | 1 => optionalField true 6
      (fun f => .item (byteAt f 0) (byteAt f 1) (byteAt f 2) (byteAt f 3) (byteAt f 4) (byteAt f 5)) l
  | 2 => some (some .lock, l)
  | _ => some (some .restart, l)

/-- The fields that a header announces, which must fill the bytes exactly (R144, 11.3). -/
def fieldsOf (flags header : Byte) (l : List Byte) : Option Report := do
  let count := bitsOf header 0 2
  if 2 < count then none
  else
    let (ackBytes, l) ← splitBytes count l
    let acks ← acksOf ackBytes
    let (holdup, l) ← optionalField (header.getLsbD 2) 2 (fun f => wordAt f 0) l
    let (capacity, l) ← optionalField (header.getLsbD 3) 3 (fun f => (byteAt f 0, wordAt f 1)) l
    let (directive, l) ← optionalField (header.getLsbD 4) 5 directiveOf l
    let (config, l) ← configOf (bitsOf header 5 2) l
    if l.isEmpty then some ⟨reportFlags flags, acks, holdup, capacity, directive, config⟩ else none

/-- The report that the clocked bytes are, by the four tests of R144, or `none` for an invalid one. At most 64 bytes
are kept (R143). -/
def parseReport (bytes : List Byte) : Option Report :=
  let kept := bytes.take 64
  let length := (byteAt kept 0).toNat
  if kept.length < length || length < 4 || 64 < length then none
  else if crc8 (kept.take (length - 1)) ≠ byteAt kept (length - 1) then none
  else fieldsOf (byteAt kept 1) (byteAt kept 2) ((kept.take (length - 1)).drop 3)

/-! ### The parts (R145) -/

/-- Part 1: the look-ahead permission (R151). -/
def State.takeLookAhead (s : State) (permitted : Bool) : State :=
  let t := s.setSp { s.sp with lookAhead := permitted }
  if permitted then t.arbitrate else t

/-- Part 2: the acknowledgements, each an event with its own effects on the published state (R154). -/
def State.takeAcks (s : State) (acks : List (Token × AckOutcome)) : State :=
  acks.foldl (fun t a => t.publish (t.takeAck a.1 a.2)) s

/-- The overlay set: the maximum timer starts, the published rates are held, the age watches dropped
(R27, R42, R68). Before the lock the timer takes the t_freeze_max stored so far (DESIGN CHOICE, log 40). -/
def State.freezes (s : State) : State :=
  { s with
    ps := { s.ps with frozen := true, freezeMax := some s.cs.set.tFreezeMax }
    tu := { s.tu with held := some (s.offer, s.acceptance) }
    pv := { s.pv with watches := [] } }

/-- The overlay cleared: the maximum timer is discarded, the held rates are, and the slot and the waiting requests are
re-examined (R27, R28, R68). -/
def State.thaws (s : State) : State :=
  let t := { s with
    ps := { s.ps with frozen := false, freezeMax := none }
    tu := { s.tu with held := none } }
  t.resumeSlot.reexamine

/-- Part 3: the freeze flag (R27). -/
def State.takeFreeze (s : State) (flag : Bool) : State :=
  if flag && !s.ps.frozen then s.freezes else if !flag && s.ps.frozen then s.thaws else s

/-- A report showing self-turnover (R24, R25). -/
def State.takeSelfTurnover (s : State) (flag : Bool) : State :=
  if flag then
    match s.ps.phase with
    | .hold => s.setPs { s.ps with missed := false, turnover := some s.cs.set.tTurnover }
    | .banked => s.setPs { s.ps with turnover := some (2 * s.cs.set.tTurnover) }
    | .cold | .primed | .filling | .filled | .running | .runOut | .draining | .drained | .tripped => s
  else s

/-- Part 5: the edge of the trip request flag against the memory (R131). -/
def State.takeTripRequest (s : State) (flag : Bool) : State :=
  let t := s.setTr { s.tr with memory := flag }
  if flag && !s.tr.memory then t.raiseCause .sectionRequest else t

/-- The mismatch of a reading with the estimate (R54). -/
def mismatches (c : Settings) (holdup reading : Nat) : Bool :=
  c.mismatchBand * 60 < (reading * 60 - holdup) + (holdup - reading * 60)

/-- Part 6: a holdup reading replaces the estimate (R54, R62), and counts for the DRAINING completion (R15). -/
def State.takeHoldup (s : State) (reading : Nat) : State :=
  let raised := s.ps.phase = .runOut && s.cs.set.hDr * 60 < reading * 60
  { s with
    tu := { s.tu with
      holdup := reading * 60
      mismatch := mismatches s.cs.set s.tu.holdup reading
      runoutDone := s.tu.runoutDone && !raised }
    ps := { s.ps with drainReading := if s.ps.phase = .draining then some reading else s.ps.drainReading } }

/-- The published capacity differs from the one in the last long notice by more than the deadband (R79). -/
def State.capacityCalls (s : State) (r : Resource) : Bool :=
  let new := s.publishedCapacity r
  let old := (s.au.res.get r).longCapacity
  s.cs.set.capacityDeadband < (new - old) + (old - new)

/-- A change of the published capacity of a resource, a change report like any other (R79, R80, R87; log 13). -/
def State.capacityChanged (s : State) (r : Resource) : State :=
  let t := if s.capacityCalls r then s.markLong else s
  t.allotReport fun x => x = r

/-- Part 7: a capacity reading of a provider resource (R78; log 36 for a resource byte above 3). -/
def State.takeCapacity (s : State) (resource : Byte) (amount : Nat) : State :=
  match Resource.ofCode resource.toNat with
  | some r =>
    if s.cs.set.provider.get r then
      let a := { s.au.res.get r with reading := some (min 4000 amount) }
      let t := s.setAu { s.au with res := s.au.res.set r a }
      if t.publishedCapacity r = s.publishedCapacity r then t else t.capacityChanged r
    else s
  | none => s

/-- Part 9: the configuration part (R179, R181, R185). -/
def State.takeConfig (s : State) (c : ConfigPart) : State :=
  match c with
  | .item number v0 v1 v2 v3 v4 => s.takeItem number v0 v1 v2 v3 v4
  | .lock => s.takeLock
  | .restart => s.takeRestart

/-- An optional part taken as an event of its own. -/
def State.part {α : Type} (s : State) (f : State → α → State) : Option α → State
  | some x => s.publish (f s x)
  | none => s

/-- A valid report's last-report record and port silence restart (R145, R146). -/
def State.noteReport (s : State) (f : ReportFlags) : State :=
  s.setSp { s.sp with
    lastReport := some f
    portSilence := if s.ps.phase.watched then some (s.cs.set.tPortSilence + 1) else s.sp.portSilence }

/-- Parts 1 to 5, the flags and acknowledgements (R145). -/
def State.takeFlags (s : State) (r : Report) : State :=
  let s1 := s.publish ((s.noteReport r.flags).takeLookAhead r.flags.lookAhead)
  let s2 := s1.takeAcks r.acks
  let s3 := s2.publish (s2.takeFreeze r.flags.freeze)
  let s4 := s3.publish (s3.testCompletion.takeSelfTurnover r.flags.selfTurnover)
  s4.publish (s4.takeTripRequest r.flags.tripRequest)

/-- Parts 6 and 7, taken once the configuration is locked (R145, R183). -/
def State.takeReadings (s : State) (r : Report) : State :=
  if s.cs.locked then
    (s.part State.takeHoldup r.holdup).part (fun t c => t.takeCapacity c.1 c.2) r.capacity
  else s

/-- A valid report's parts, each taken whole before the next (R145). A configuration part is the last. -/
def State.takeParts (s : State) (r : Report) : State :=
  let s8 := ((s.takeFlags r).takeReadings r).part State.takeRaw r.directive
  match r.config with
  | some c => s8.takeConfig c
  | none => s8

/-! ### The arrival (R143 to R145) -/

/-- The exchange ends: the page advances and the snapshot is done with (R143, R148). -/
def State.endExchange (s : State) : State := s.setSp { s.sp with page := s.sp.page + 1, exchange := none }

/-- The local result a valid exchange carried (R161). -/
def State.noteSeen (s : State) (x : Option Exchange) : State :=
  match x with
  | some e => s.setSp { s.sp with seenPresent := e.present, seenCount := e.count }
  | none => s

/-- SSEL rises: the exchange ends, and the kept report is judged (R143 to R145). -/
def State.arrival (s : State) (bytes : List Byte) : State :=
  let t := s.endExchange
  match parseReport bytes with
  | none => t.setSp { t.sp with reportErrors := min 255 (t.sp.reportErrors + 1) }
  | some r => (t.noteSeen s.sp.exchange).takeParts r

/-- REPORT_ARRIVAL (R145), with the bits sampled on SDI in the exchange (R143); an arrival with no exchange open starts
one in the same instant (log 10). -/
def execReportArrival (sdi : List Bool) (s : State) : Host.Outcome State Fault Refusal :=
  .next (s.startExchange.arrival (bytesOfBits sdi))

end Sys2Proof.Machine
end

