-- ==== Sys2Proof/Machine/Wire.lean ====
section
/-!
DEFINITION. Frames as bits (R163, R164) and payloads as bytes (11.2): what the node drives on LTXD for a frame, and how
a receiving line controller judges the bits of one.
-/

namespace Sys2Proof.Machine

/-! ### Payloads (11.2) -/

/-- The status notices' common bytes, then those of the long one (11.2). -/
def Notice.bytes (n : Notice) : List Byte :=
  let short := byteOf n.phase.code :: (bytes16 n.offer ++ bytes16 n.acceptance ++ bytes16 n.flags.word)
  if n.long then
    short ++ bytes16 n.holdup
      ++ Resource.all.flatMap (fun r => bytes16 (n.holdings.get r))
      ++ [byteOf ((Resource.all.map fun r => 2 ^ r.code * bit (n.provider.get r)).sum)]
      ++ Resource.all.flatMap (fun r => bytes16 (if n.provider.get r then n.capacities.get r else 0))
      ++ [nibbles n.statusPeriod n.rank] ++ bytes16 n.timeInPhase
      ++ [byteOf n.sectionClass.code, byteOf n.chainPosition,
          match n.cause with
          | some c => byteOf c.code
          | none => 0xFF#8]
  else short

/-- The outcome and reason bytes of HANDOFF_DONE (11.2). -/
def DoneOutcome.bytes : DoneOutcome → List Byte
  | .success => [0, 0]
  | .notReady => [1, 1]
  | .busy => [1, 2]
  | .workFailed => [1, 3]

/-- The payload of a message frame (11.2). -/
def MsgFrame.bytes : MsgFrame → List Byte
  | .reply target tag outcome detail =>
    [byteOf target.val, tag, byteOf outcome.code, byteOf outcome.refusalCode, detail]
  | .handoff target tag work point => [byteOf target.val, tag, byteOf work.val, byteOf point.code]
  | .handoffDone target tag outcome => byteOf target.val :: tag :: outcome.bytes

/-- The payload of a frame (11.2). -/
def Frame.bytes : Frame → List Byte
  | .tripNotice c => [byteOf c.code]
  | .allot r (.claim v) => byteOf r.code :: bytes16 v
  | .allot r (.release v) => byteOf r.code :: bytes16 v
  | .message m => m.bytes
  | .status n => n.bytes

/-- The kind code of a frame (11.2). -/
def Frame.kindCode : Frame → Nat
  | .tripNotice _ => 0
  | .allot _ (.claim _) => 1
  | .allot _ (.release _) => 2
  | .message (.reply _ _ _ _) => 4
  | .message (.handoff _ _ _ _) => 5
  | .message (.handoffDone _ _ _) => 6
  | .status n => if n.long then 8 else 7

/-- The class a kind belongs to; codes 9 to 15 name no kind (R163, 11.2). -/
def kindClass : Nat → Option Nat
  | 0 => some 0
  | 1 => some 1
  | 2 => some 1
  | 3 => some 2
  | 4 => some 3
  | 5 => some 3
  | 6 => some 3
  | 7 => some 4
  | 8 => some 4
  | _ => none

/-! ### The bits sent (R163) -/

/-- The bits from the arbitration field to the payload's end, before stuffing; 1 is recessive (R163). -/
def contentBits (cls : Nat) (sender : Station) (kind : Nat) (payload : List Byte) : List Bool :=
  bitsOfNat 3 cls ++ bitsOfNat 5 sender.val ++ bitsOfNat 4 kind ++ bitsOfNat 6 payload.length
    ++ payload.flatMap bitsOfByte

/-- Bit stuffing: after every run of 6 equal bits one of the opposite level, which counts in the run that follows
(R163; log 34 for a run that ends with the last bit). -/
def stuff (last : Bool) (run : Nat) : List Bool → List Bool
  | [] => if run = 6 then [!last] else []
  | b :: rest =>
    if run = 6 then
      (!last) :: b :: (if b = !last then stuff b 2 rest else stuff b 1 rest)
    else b :: (if b = last then stuff b (run + 1) rest else stuff b 1 rest)

/-- The whole frame: dominant start bit, stuffed content and CRC, acknowledgement slot sent recessive, end field
(R163, R167). -/
def frameBits (cls : Nat) (sender : Station) (kind : Nat) (payload : List Byte) : List Bool :=
  let content := contentBits cls sender kind payload
  let crc := bitsOfNat 16 (crc16 content).toNat
  false :: stuff false 1 (content ++ crc) ++ List.replicate 9 true

/-- What LTXD carries for a frame of the node. -/
def Frame.bits (f : Frame) (sender : Station) : List Bool :=
  frameBits ((kindClass f.kindCode).getD 0) sender f.kindCode f.bytes

/-- The frame bits the node drives, from its offer to its outcome. -/
def State.lineOut (s : State) : Option (List Bool) := s.lc.tx.map fun t => t.frame.bits s.cs.set.ownAddress

/-! ### The bits received (R164) -/

/-- A receiver's judgement so far: reading, with the level and length of the present run and the unstuffed bits, last
first; or the frame found good or in error. -/
inductive Reader where
  | reading (last : Bool) (run : Nat) (data : List Bool)
  | good
  | error
  deriving DecidableEq, Repr

/-- The field of `width` bits from bit `start` of the unstuffed bits in order. -/
def fieldOf (data : List Bool) (start width : Nat) : Nat := natOfBits ((data.drop start).take width)

/-- The unstuffed bits of a frame up to its length field: start bit, arbitration field, kind and length (R163). -/
def headerBits : Nat := 19

/-- The kind names a kind of the class in the arbitration field (R164). -/
def kindFits (data : List Bool) : Bool := kindClass (fieldOf data 9 4) = some (fieldOf data 1 3)

/-- The CRC read equals the CRC computed (R164). -/
def crcFits (data : List Bool) : Bool :=
  let content := (data.drop 1).take (data.length - 17)
  (crc16 content).toNat = natOfBits (data.drop (data.length - 16))

/-- The judgement once a further bit has joined the unstuffed bits (R164). -/
def judgeData (last : Bool) (run : Nat) (data : List Bool) : Reader :=
  let bits := data.reverse
  let n := bits.length
  if n = 13 && !kindFits bits then .error
  else if n = headerBits && 32 < fieldOf bits 13 6 then .error
  else if headerBits < n && n = headerBits + 8 * fieldOf bits 13 6 + 16 then
    if crcFits bits then .good else .error
  else .reading last run data

/-- One bit read (R163, R164): a stuffed bit removed, a run of 7 equal bits found in error. -/
def Reader.read (r : Reader) (b : Bool) : Reader :=
  match r with
  | .reading last run data =>
    if run = 6 then (if b = last then .error else .reading b 1 data)
    else judgeData b (if b = last then run + 1 else 1) (b :: data)
  | .good => .good
  | .error => .error

/-- A frame's bits judged from its start bit on (R164). -/
def judgeBits : List Bool → Reader
  | [] => .reading false 0 []
  | b :: rest => rest.foldl Reader.read (.reading b 1 [b])

/-- Whether the node's own frame is in transmission. -/
def LC.sends (l : LC) : Bool :=
  match l.tx with
  | some t => t.begun
  | none => false

/-- The level on LTXD in the acknowledgement slot of a frame on the line: dominant (`false`) where the LC takes part as
a receiver and has found the frame good, ACTIVE or ISOLATED, else recessive (R162, R164, R167, R176). -/
def State.ackSlot (s : State) (bits : List Bool) : Bool := !(s.receives && !s.lc.sends && judgeBits bits = .good)

/-! ### The command -/

/-- The line error count risen by 1, saturating at 255; the LC stops reading and waits for the line to be idle
(R164). -/
def State.lineError (s : State) : State :=
  s.setLc { s.lc with lineErrors := min 255 (s.lc.lineErrors + 1), joined := false }

/-- LINE_FRAME_ERROR (R164): the bits are judged; bits that no check finds in error are none (log 18). -/
def execLineFrameError (bits : List Bool) (s : State) : Host.Outcome State Fault Refusal :=
  .next (if s.receives && judgeBits bits = .error then s.lineError else s)

end Sys2Proof.Machine
end

