-- ==== Sys2Proof/Machine/Dispatch.lean ====
section
/-!
DEFINITION. One arm per command of the opcode table, each a direct call of its meaning.
-/

namespace Sys2Proof.Machine

def exec (i : Instr) (s : State) : Host.Outcome State Fault Refusal :=
  match i with
  | .powerOnReset => Sys2Proof.Machine.execPowerOnReset s
  | .exchangeStart => Sys2Proof.Machine.execExchangeStart s
  | .reportArrival sdi => Sys2Proof.Machine.execReportArrival sdi s
  | .startCampaign src => Sys2Proof.Machine.execStartCampaign src s
  | .fill src => Sys2Proof.Machine.execFill src s
  | .feed src limit => Sys2Proof.Machine.execFeed src limit s
  | .hold src => Sys2Proof.Machine.execHold src s
  | .resume src => Sys2Proof.Machine.execResume src s
  | .bank src => Sys2Proof.Machine.execBank src s
  | .runOut src length closeAfter => Sys2Proof.Machine.execRunOut src length closeAfter s
  | .stopRunOut src => Sys2Proof.Machine.execStopRunOut src s
  | .drain src => Sys2Proof.Machine.execDrain src s
  | .endCampaign src => Sys2Proof.Machine.execEndCampaign src s
  | .trip src => Sys2Proof.Machine.execTrip src s
  | .clearTrip src => Sys2Proof.Machine.execClearTrip src s
  | .confirm src => Sys2Proof.Machine.execConfirm src s
  | .cancel src => Sys2Proof.Machine.execCancel src s
  | .directiveBadCode raw => Sys2Proof.Machine.execDirectiveBadCode raw s
  | .configItem item v0 v1 v2 v3 v4 => Sys2Proof.Machine.execConfigItem item v0 v1 v2 v3 v4 s
  | .lockConfig => Sys2Proof.Machine.execLockConfig s
  | .restartNode => Sys2Proof.Machine.execRestartNode s
  | .commandIssue => Sys2Proof.Machine.execCommandIssue s
  | .ackSetPhase token outcome => Sys2Proof.Machine.execAckSetPhase token outcome s
  | .ackSetRate token outcome => Sys2Proof.Machine.execAckSetRate token outcome s
  | .ackTurnover token outcome => Sys2Proof.Machine.execAckTurnover token outcome s
  | .ackHandoffWork token outcome => Sys2Proof.Machine.execAckHandoffWork token outcome s
  | .setPhaseAckTimeout token => Sys2Proof.Machine.execSetPhaseAckTimeout token s
  | .setRateAckTimeout token => Sys2Proof.Machine.execSetRateAckTimeout token s
  | .turnoverAckTimeout token => Sys2Proof.Machine.execTurnoverAckTimeout token s
  | .handoffWorkAckTimeout token => Sys2Proof.Machine.execHandoffWorkAckTimeout token s
  | .rateIntervalExpiry => Sys2Proof.Machine.execRateIntervalExpiry s
  | .starveTimerExpiry => Sys2Proof.Machine.execStarveTimerExpiry s
  | .blockTimerExpiry => Sys2Proof.Machine.execBlockTimerExpiry s
  | .dwellExpiry => Sys2Proof.Machine.execDwellExpiry s
  | .settleExpiry => Sys2Proof.Machine.execSettleExpiry s
  | .prereqDeadlineExpiry => Sys2Proof.Machine.execPrereqDeadlineExpiry s
  | .claimDeadlineExpiry => Sys2Proof.Machine.execClaimDeadlineExpiry s
  | .fillTimeout => Sys2Proof.Machine.execFillTimeout s
  | .drainTimeout => Sys2Proof.Machine.execDrainTimeout s
  | .holdMaximumExpiry => Sys2Proof.Machine.execHoldMaximumExpiry s
  | .turnoverTimerExpiry => Sys2Proof.Machine.execTurnoverTimerExpiry s
  | .freezeLong => Sys2Proof.Machine.execFreezeLong s
  | .underStandingTimeout => Sys2Proof.Machine.execUnderStandingTimeout s
  | .portSilent => Sys2Proof.Machine.execPortSilent s
  | .handoffDeadlineExpiry => Sys2Proof.Machine.execHandoffDeadlineExpiry s
  | .statusPeriodExpiry => Sys2Proof.Machine.execStatusPeriodExpiry s
  | .shortSpacingExpiry => Sys2Proof.Machine.execShortSpacingExpiry s
  | .peerSilence station => Sys2Proof.Machine.execPeerSilence station s
  | .ageWatchExpiry station => Sys2Proof.Machine.execAgeWatchExpiry station s
  | .statusLong sender payload => Sys2Proof.Machine.execStatusLong sender payload s
  | .statusShort sender payload => Sys2Proof.Machine.execStatusShort sender payload s
  | .claim sender payload => Sys2Proof.Machine.execClaim sender payload s
  | .release sender payload => Sys2Proof.Machine.execRelease sender payload s
  | .tripNotice sender payload => Sys2Proof.Machine.execTripNotice sender payload s
  | .handoff sender payload => Sys2Proof.Machine.execHandoff sender payload s
  | .handoffDone sender payload => Sys2Proof.Machine.execHandoffDone sender payload s
  | .replyReceived sender payload => Sys2Proof.Machine.execReplyReceived sender payload s
  | .lineFrameError bits => Sys2Proof.Machine.execLineFrameError bits s
  | .lineIdle => Sys2Proof.Machine.execLineIdle s
  | .arbitrationLost => Sys2Proof.Machine.execArbitrationLost s
  | .transmitFault => Sys2Proof.Machine.execTransmitFault s
  | .transmissionBegin => Sys2Proof.Machine.execTransmissionBegin s
  | .frameCompletion => Sys2Proof.Machine.execFrameCompletion s
  | .frameFailure => Sys2Proof.Machine.execFrameFailure s

end Sys2Proof.Machine
end

