-- ==== Sys2Proof/Machine/Step.lean ====
section
/-!
DEFINITION. One step of the block: the command at the front of the queue, or, on an empty queue, a quarter second of
the clock (log 1).
-/

namespace Sys2Proof.Machine

/-! ### The clock (00_scope 4, R184) -/

/-- A timer at a tick: one less when it runs and is not suspended, 0 when it has run down already. -/
def Timer.tick (t : Timer) (runs : Bool) : Timer := if runs then t.map (· - 1) else t

/-- The slot's deadline and settle at a tick, suspended while frozen (R28). -/
def SlotRec.tick (r : SlotRec) (runs : Bool) : SlotRec :=
  { r with deadline := r.deadline.tick runs, settle := r.settle.tick runs }

/-- The sequencer's timers at a tick of the seconds count (1.3). -/
def PS.tick (p : PS) : PS :=
  let runs := !p.frozen
  { p with
    slot := p.slot.map fun r => r.tick runs
    dwell := p.dwell.tick runs
    fillMax := p.fillMax.tick runs
    drainMax := p.drainMax.tick runs
    holdMax := p.holdMax.tick runs
    turnover := p.turnover.tick true
    freezeMax := p.freezeMax.tick true }

/-- T_rem at a tick: it counts down in RUN_OUT, TIMED and not frozen, and stops at 0 (R72). -/
def RunOut.tick (d : RunOut) (runs : Bool) : RunOut :=
  if runs && d.mode = .timed then { d with rem := d.rem - 1 } else d

/-- The throughput unit's timers at a tick (R28, R51, R69, R72). -/
def TU.tick (t : TU) (phase : Phase) (frozen : Bool) : TU :=
  let runs := !frozen
  { t with
    interval := t.interval.tick runs
    starveTimer := t.starveTimer.tick runs
    blockTimer := t.blockTimer.tick runs
    runOut := t.runOut.map fun d => d.tick (runs && phase = .runOut) }

/-- The handoff deadline at a tick (R121). -/
def HandoffRec.tick (h : HandoffRec) : HandoffRec :=
  match h.state with
  | .awaitDone d => { h with state := .awaitDone (d.tick true) }
  | .confirmWait _ => h

/-- The acknowledgement timeouts and the port silence timer at a tick (R146, R158). -/
def SP.tick (p : SP) : SP :=
  { p with
    outstanding := p.outstanding.map fun o => { o with left := o.left.tick true }
    portSilence := p.portSilence.tick true }

/-- A tick of the local seconds count, which wraps (R184). Every timer and T_rem count the second down before any expiry
that falls due at it is taken, so that a rate interval expiry reads T_rem as counted down (DESIGN CHOICE, log 48). -/
def State.second (s : State) : State :=
  { s with
    now := (s.now + 1) % secondsModulus
    ps := s.ps.tick
    tu := s.tu.tick s.ps.phase s.ps.frozen
    au := { s.au with underTimer := s.au.underTimer.tick true }
    hu := { s.hu with record := s.hu.record.map HandoffRec.tick }
    sp := s.sp.tick
    lc := { s.lc with statusTimer := s.lc.statusTimer.tick true } }

/-- A quarter second passes; the fourth is a tick of the seconds count (log 1). -/
def State.quarterSecond (s : State) : State :=
  let t := { s with quarter := s.quarter + 1, lc := { s.lc with spacing := s.lc.spacing.tick true } }
  if t.quarter = 0 then t.second else t

/-! ### The expiries that fall due (log 3) -/

/-- A command where its condition holds. -/
def dueIf (c : Bool) (i : Instr) : List Instr := if c then [i] else []

/-- The acknowledgement timeout of an outstanding command. -/
def Outstanding.expiry (o : Outstanding) : Instr :=
  match o.command with
  | .setPhase _ _ => .setPhaseAckTimeout o.token
  | .setRate _ _ => .setRateAckTimeout o.token
  | .turnover => .turnoverAckTimeout o.token
  | .handoffWork _ _ _ => .handoffWorkAckTimeout o.token

/-- The expiries of the slot's deadline and settle. -/
def SlotRec.expiries (r : SlotRec) : List Instr :=
  dueIf r.settleDue .settleExpiry
    ++ dueIf (r.deadline.due && (r.stage = .waitDwell || r.stage = .waitPrereq)) .prereqDeadlineExpiry
    ++ dueIf (r.deadline.due && r.stage = .waitClaim) .claimDeadlineExpiry

/-- The expiries of the timers that the freeze suspends (R28). -/
def State.suspendable (s : State) : List Instr :=
  dueIf s.tu.interval.due .rateIntervalExpiry
    ++ dueIf s.tu.starveTimer.due .starveTimerExpiry
    ++ dueIf s.tu.blockTimer.due .blockTimerExpiry
    ++ dueIf s.ps.dwell.due .dwellExpiry
    ++ (match s.ps.slot with
      | some r => r.expiries
      | none => [])
    ++ dueIf s.ps.fillMax.due .fillTimeout
    ++ dueIf s.ps.drainMax.due .drainTimeout
    ++ dueIf s.ps.holdMax.due .holdMaximumExpiry
    ++ (s.pv.watches.filter s.watchDue).map fun w => .ageWatchExpiry w.1

/-- The row that takes a cause that stands raised (R132; log 45). -/
def Cause.row : Cause → Option Instr
  | .fillTimeout => some .fillTimeout
  | .drainTimeout => some .drainTimeout
  | .stagnation => some .turnoverTimerExpiry
  | .utilityLost => some .underStandingTimeout
  | .portSilent => some .portSilent
  | .lineDirective | .localDirective | .sectionRequest | .portNoAck | .phaseRefused | .freezeLong => none

/-- The expiries of the timers that run through a freeze, and the causes that stand raised. -/
def State.unsuspended (s : State) : List Instr :=
  dueIf s.ps.turnover.due .turnoverTimerExpiry
    ++ dueIf s.ps.freezeMax.due .freezeLong
    ++ dueIf s.au.underTimer.due .underStandingTimeout
    ++ dueIf s.sp.portSilence.due .portSilent
    ++ dueIf (match s.hu.record with
      | some h => h.due
      | none => false) .handoffDeadlineExpiry
    ++ dueIf s.lc.statusTimer.due .statusPeriodExpiry
    ++ dueIf s.lc.spacing.due .shortSpacingExpiry
    ++ (s.sp.outstanding.filter fun o => o.left.due).map Outstanding.expiry
    ++ (stations.filter s.silenceDue).map .peerSilence
    ++ s.tr.raised.filterMap Cause.row

/-- The expiries due as the state stands. -/
def State.dueCommands (s : State) : List Instr := (if s.ps.frozen then [] else s.suspendable) ++ s.unsuspended

/-- An expiry put into the queue among those of the same tick, at a place left open (log 3). -/
def State.enqueue (s : State) (i : Instr) : State :=
  match s.pending with
  | [] => { s with pending := [i] }
  | _ :: _ =>
    { s with
      pending := s.pending.insertIdx (Config.expiryOrder s.free % (s.pending.length + 1)) i
      free := s.free + 1 }

/-- The block at an empty queue: a quarter second passes, and the expiries it makes due enter the queue (logs 1,
3). -/
def State.idle (s : State) : State :=
  let t := s.quarterSecond
  t.dueCommands.foldl State.enqueue t

/-! ### The step -/

/-- One step: the command at the front of the queue with the queue's rest, or a quarter second (log 1). -/
def step (s : State) : Host.Outcome State Fault Refusal :=
  match s.pending with
  | [] => .next s.idle
  | c :: rest => exec c { s with pending := rest }

/-- The state with a command put at the front of its queue. -/
def State.push (s : State) (c : Instr) : State := { s with pending := c :: s.pending }

/-- The state with the command that a table word spells at the front of its queue; no row has bits, so no word spells
one (log 20). -/
def State.withFetchWord (s : State) (nbits w : Nat) : State :=
  match decodeTableWord nbits w with
  | some c => s.push c
  | none => s

end Sys2Proof.Machine
end

