-- ==== Sys2Proof/Safety.lean ====
section
/-!
DEFINITION. What statements about the node say in common: an outcome delivered to a requester and the frame it leaves,
trip entry as R133 gives it, a transition that has issued or waits, and the invariants every step keeps.
-/

namespace Sys2Proof.Machine

/-! ### Sources (R95, R97) -/

/-- The authority of a source whose directive passes the authority set (R97). -/
def Source.authority : Source → Authority
  | .line _ _ _ _ _ => .campaign
  | .port _ => .sectionPanel

/-- A directive from a source reaches step 5 of the judgement: it is delivered, targets the node and comes from the
authority set, or it comes from the port with the configuration locked (R99, steps 1 to 4). -/
def State.hears (s : State) : Source → Bool
  | .line a mode target1 target2 _ => s.receives && s.targeted mode target1 target2 && s.cs.set.inAuthoritySet a
  | .port _ => s.cs.locked

/-! ### Outcomes and their frame (R114 to R116, R171, R174) -/

/-- A frame placed in the message FIFO, or dropped with REPLY_OVERFLOW set (R171). -/
def Placed (l l' : LC) (m : MsgFrame) : Prop :=
  if l.fifo.length < 8 then l'.fifo = l.fifo ++ [m] ∧ l'.replyOverflow = l.replyOverflow
  else l'.fifo = l.fifo ∧ l'.replyOverflow = true

/-- Nothing placed in the message FIFO. -/
def NothingPlaced (l l' : LC) : Prop := l'.fifo = l.fifo ∧ l'.replyOverflow = l.replyOverflow

/-- What is on the line, without the note of when REPLY_OVERFLOW was last set. -/
def Tx.onLine (t : Tx) : TxSlot × Frame × Bool := (t.slot, t.frame, t.begun)

/-- The line controller is unchanged but for its message FIFO, REPLY_OVERFLOW and short due mark. -/
def LineKept (l l' : LC) : Prop :=
  l' = { l with
    fifo := l'.fifo, replyOverflow := l'.replyOverflow, shortDue := l'.shortDue, shortAgain := l'.shortAgain
    tx := l'.tx } ∧ l'.tx.map Tx.onLine = l.tx.map Tx.onLine

/-- The short due mark is set on the changes of published state that R174 names, and otherwise kept. The model finds
them by comparing the states before and after the event (DEDUCED, log 23). -/
def ShortMarked (s t : State) : Prop := t.lc.shortDue = (s.lc.shortDue || (s.cs.locked && s.shortCalled t))

/-- One outcome delivered to a requester: a REPLY frame, the local result with its count raised, or nothing for an
internal request (R114 to R116). The directive unit goes from `d` to `d'`, the line controller from `l` to `l'`. -/
def Delivered (d : DU) (l : LC) (d' : DU) (l' : LC) (q : Requester) (o : Reply) (detail : Byte) : Prop :=
  match q with
  | .line a tag => d' = d ∧ Placed l l' (.reply a tag o detail)
  | .port tag => d' = ⟨some ⟨.directive, tag, o, detail⟩, d.count + 1⟩ ∧ NothingPlaced l l'
  | .autoHold | .autoResume | .holdExpired | .closeAfter => d' = d ∧ NothingPlaced l l'

/-- One outcome is delivered and the rest of the line controller stands, but for the short due mark of R174. -/
def Answered (s t : State) (q : Requester) (o : Reply) (detail : Byte) : Prop :=
  Delivered s.du s.lc t.du t.lc q o detail ∧ LineKept s.lc t.lc ∧ ShortMarked s t

/-- A refusal changes nothing but what its reply touches. -/
def Refused (s t : State) (q : Requester) (c : RefusalCode) : Prop :=
  t = { s with du := t.du, lc := t.lc } ∧ Answered s t q (.refused c) 0

/-! ### The section port -/

/-- No request waits at the section port (R149). -/
structure SP.Quiet (p : SP) : Prop where
  trip : p.tripReq = false
  phase : p.psReq = none
  pair : p.pairReq = none
  recovery : p.recoveryReq = none
  turnover : p.turnoverReq = false
  rate : p.rateReq = none

/-- No HANDOFF_WORK waits in the service queue (R149). -/
def HU.NoneWaiting (h : HU) : Prop := h.queue.all (fun e => e.state ≠ .waiting) = true

/-- The list with one command more: the entry takes the token count, and the count rises (R150). -/
def SP.issued (p : SP) (c : Settings) (cmd : Command) : SP :=
  { p with
    outstanding := [⟨p.tokenCount, cmd, some (cmd.timeout c), false⟩]
    tokenCount := p.tokenCount + 1 }

/-! ### Directives (R94, R108) -/

/-- The directive that a command is, with its source (R94). -/
def directiveOfCommand : Instr → Option (Source × Directive)
  | .startCampaign src => some (src, .startCampaign)
  | .fill src => some (src, .fill)
  | .feed src limit => some (src, .feed (feedLimit limit))
  | .hold src => some (src, .hold)
  | .resume src => some (src, .resume)
  | .bank src => some (src, .bank)
  | .runOut src length closeAfter => some (src, .runOut (runOutData length closeAfter))
  | .stopRunOut src => some (src, .stopRunOut)
  | .drain src => some (src, .drain)
  | .endCampaign src => some (src, .endCampaign)
  | .trip src => some (src, .trip)
  | .clearTrip src => some (src, .clearTrip)
  | .confirm src => some (src, .confirm)
  | .cancel src => some (src, .cancel)
  | _ => none

/-- A directive of a kind reaches its row: it is heard, its authority is allowed for the kind and the freeze lets it
pass (R99, steps 1 to 6). -/
def State.admits (s : State) (src : Source) (d : Directive) : Bool :=
  s.hears src && d.allows (Source.authority src) && (!s.ps.frozen || d.passesFreeze s.ps.phase)

/-- A set REPLY_OVERFLOW would be a change of the own entry, on which a waiting list is evaluated again (R41, R7): no
list waits, or the message FIFO has room. -/
def State.calm (s : State) : Bool := !s.atStage .waitPrereq || s.lc.fifo.length < 8

/-- A transition has gone straight to its SET_PHASE. With nothing outstanding the SET_PHASE issues, the transition
waits for its acknowledgement and the requester is replied TAKEN; otherwise the request waits at the section port
(R10, R11, R151). `u` is the state the transition starts from. -/
def Started (s u t : State) (r : SlotRec) : Prop :=
  if s.sp.outstanding = [] then
    t = { u with
      ps := { u.ps with slot := some { r with stage := .waitAck } }
      sp := u.sp.issued u.cs.set (.setPhase r.target .transition)
      du := t.du, lc := t.lc } ∧ Answered s t r.requester .taken 0
  else
    t = { u with
      ps := { u.ps with slot := some { r with stage := .waitIssue } }
      sp := { u.sp with psReq := some (r.target, .transition) }
      lc := t.lc } ∧ LineKept s.lc t.lc ∧ NothingPlaced s.lc t.lc ∧ ShortMarked s t

/-- A transition has entered the slot and waits on its unmet list: the stage 1 and 2 deadline runs, the age watches of
the evaluation are set up and the requester is replied PENDING (R6, R7, R11, R42). -/
def WaitsOnList (s u t : State) (r : SlotRec) (l : ListName) : Prop :=
  t = { u with
    ps := { u.ps with slot := some { r with
      stage := .waitPrereq, deadline := some u.cs.set.tPrereqWait, pendingSent := true } }
    pv := { u.pv with watches := u.watchesOf l }
    du := t.du, lc := t.lc } ∧ Answered s t r.requester .pending 0

/-- A transition has entered the slot and waits out its dwell, the stage 1 and 2 deadline running (R6, R11). -/
def WaitsOutDwell (s u t : State) (r : SlotRec) : Prop :=
  t = { u with
    ps := { u.ps with slot := some { r with
      stage := .waitDwell, deadline := some u.cs.set.tPrereqWait, pendingSent := true } }
    du := t.du, lc := t.lc } ∧ Answered s t r.requester .pending 0

/-- A transition has entered the slot and waits out its settle out of BANKED (R6, R11, R19). -/
def WaitsOutSettle (s u t : State) (r : SlotRec) : Prop :=
  t = { u with
    ps := { u.ps with slot := some { r with
      stage := .waitDwell, settle := some u.cs.set.tBankExit, pendingSent := true } }
    du := t.du, lc := t.lc } ∧ Answered s t r.requester .pending 0

/-- The state with no age watch set up. -/
def State.unwatched (s : State) : State := { s with pv := { s.pv with watches := [] } }

/-! ### Claims of a transition (R5, R8, R77) -/

/-- UNDER_STANDING stands as the holdings and the phase make it, and its timer starts at its rise, runs on while it
stands and stops at its fall (R89, R90). -/
def StandingJudged (s t : State) : Prop :=
  t.au.underStanding = t.belowStanding
    ∧ t.au.underTimer = if t.au.underStanding then
        (if s.au.underStanding then s.au.underTimer else some s.cs.set.tClaimWait) else none

/-- The raised targets `f` are set, saturated to 4000, and each resource's cell has taken the change of its target (R8,
R74 to R76, R81, R86); UNDER_STANDING is judged. `u` is the state before. -/
def TargetsRaised (u t : State) (f : Resource → Nat) : Prop :=
  (∀ x, t.cell x
      = Cell.refresh ⟨min 4000 (max (u.phaseTarget x) (f x)), u.allotBegun x, u.lc.line = .active⟩
          (u.tally x) (u.sumBefore x) ⟨{ u.au.res.get x with raised := some (min 4000 (f x)) }, u.lc.allot.get x⟩)
    ∧ StandingJudged u t

/-- Every holding has reached its raised target `f`, and keeps it: it lies no higher than the new target, so that the
change of target lowers nothing, or the walk of the lowering's report leaves it that much (R75 to R77, R87). -/
def State.ClaimsHeld (s : State) (f : Resource → Nat) : Prop :=
  ∀ x, f x ≤ (s.au.res.get x).holding
    ∧ ((s.au.res.get x).holding ≤ min 4000 (max (s.phaseTarget x) (f x)) ∨ f x = 0
      ∨ s.sumBefore x + f x ≤ (s.tally x).capacity)

/-- The line controller is unchanged but for its message FIFO, REPLY_OVERFLOW, short due mark and allotment slots. -/
def LineKeptButAllot (l l' : LC) : Prop :=
  l' = { l with
    fifo := l'.fifo, replyOverflow := l'.replyOverflow, shortDue := l'.shortDue, shortAgain := l'.shortAgain
    tx := l'.tx, allot := l'.allot } ∧ l'.tx.map Tx.onLine = l.tx.map Tx.onLine

/-- A transition has raised its targets and waits in WAIT_CLAIM, its deadline running and PENDING replied (R8, R11). -/
def WaitsOnClaims (s u t : State) (r : SlotRec) (f : Resource → Nat) : Prop :=
  t = { u with
    ps := { u.ps with slot := some { r with
      stage := .waitClaim, deadline := some u.cs.set.tClaimWait, pendingSent := true } }
    pv := { u.pv with watches := [] }
    au := t.au, du := t.du, lc := t.lc }
  ∧ TargetsRaised u t f ∧ Delivered s.du s.lc t.du t.lc r.requester .pending 0 ∧ LineKeptButAllot s.lc t.lc
  ∧ ShortMarked s t

/-- The request of a transition for its SET_PHASE, the start pair for a target of RUNNING (R10, R16). -/
def SP.asked (p : SP) (c : Settings) (r : SlotRec) : SP :=
  if r.target = .running then { p with pairReq := some c.rMin }
  else { p with psReq := some (r.target, .transition) }

/-- That request issued at once: the SET_PHASE alone in the list, a start pair's SET_RATE held back (R151, R152). -/
def SP.begun (p : SP) (c : Settings) (r : SlotRec) : SP :=
  if r.target = .running then { p.issued c (.setPhase .running .transition) with pairRate := some c.rMin }
  else p.issued c (.setPhase r.target .transition)

/-- A transition whose claims are held already has raised its targets and gone on to its SET_PHASE (R8, R77, R10). -/
def StartedOnClaims (s u t : State) (r : SlotRec) (f : Resource → Nat) : Prop :=
  t = { u with
    ps := { u.ps with slot := some { r with
      stage := if s.sp.outstanding = [] then .waitAck else .waitIssue, claimReached := true, handoff := .notNeeded } }
    sp := if s.sp.outstanding = [] then u.sp.begun u.cs.set r else u.sp.asked u.cs.set r
    pv := { u.pv with watches := [] }
    au := t.au, du := t.du, lc := t.lc }
  ∧ TargetsRaised u t f ∧ LineKeptButAllot s.lc t.lc ∧ ShortMarked s t
  ∧ (if s.sp.outstanding = [] then Delivered s.du s.lc t.du t.lc r.requester .taken 0
      else t.du = s.du ∧ NothingPlaced s.lc t.lc)

/-- The claim targets of a FEED or of a RESUME into RUNNING: the standing need and the need at R_min (R5). -/
def atMinimumRate (c : Settings) (x : Resource) : Nat := c.standing.get x + (c.fullRate.get x * c.rMin + 999) / 1000

/-- The arbiter would let a SET_PHASE of the sequencer through: no trip's waits and no earlier one of its own
(R149, R151). -/
def State.phaseFree (s : State) : Prop := s.ps.slot = none ∧ s.sp.psReq = none ∧ s.sp.tripReq = false

/-! ### Events (R41, R174) -/

/-- An event does its work, `u`, and places no reply; the changes of the published state set the short due mark of
R174, and nothing else differs. `s` is the state before the event. -/
def Noted (s u t : State) : Prop :=
  t = { u with lc := t.lc } ∧ LineKept u.lc t.lc ∧ NothingPlaced u.lc t.lc
    ∧ t.lc.shortDue = (u.lc.shortDue || (u.cs.locked && s.shortCalled t))

/-- An event does its work, `u`, and delivers one outcome; nothing else differs but the short due mark of R174. -/
def Replied (s u t : State) (q : Requester) (o : Reply) (detail : Byte) : Prop :=
  t = { u with du := t.du, lc := t.lc } ∧ Answered s t q o detail

/-- The handoff condition of the slot's transition is fulfilled where it is awaited (R123). -/
def SlotRec.fulfil (r : SlotRec) : SlotRec :=
  { r with handoff := if r.handoff = .awaiting then .fulfilled else r.handoff }

/-- The transition in the slot, if any, neither waits on its list or for the requester record, nor completes when its
handoff condition is fulfilled. -/
def State.slotStays (s : State) : Prop :=
  ∀ r, s.ps.slot = some r → r.stage ≠ .waitPrereq ∧ r.stage ≠ .waitHandoffSlot
    ∧ (r.stage = .waitCompletion → s.fillingDone r.fulfil = false ∧ s.drainingDone r.fulfil = false)

/-! ### Handoff points (R117 to R119) -/

/-- A handoff point is taken with the requester record empty, by its mode and class: the handoff unit goes from `h` to
`h'`, a HANDOFF is placed for a CO_UNIT point alone, and the transition's handoff condition becomes `w`. -/
def PointTaken (c : Settings) (k : Point) (h h' : HU) (l l' : LC) (w : HandoffWait) : Prop :=
  match (c.points.get k).mode with
  | .none => h' = h ∧ NothingPlaced l l' ∧ w = .notNeeded
  | .confirmOnly =>
    NothingPlaced l l'
      ∧ if k.blocking then
          h' = { h with record := some ⟨k, none, .confirmWait .configured⟩, counitWait := true } ∧ w = .awaiting
        else h' = { h with counitLate := true } ∧ w = .notNeeded
  | .coUnit =>
    let p := c.points.get k
    h' = { h with
      counitLate := false, tagCount := h.tagCount + 1
      record := some ⟨k, some ⟨p.coUnit, p.work, h.tagCount⟩, .awaitDone (some c.tHandoff)⟩ }
    ∧ Placed l l' (.handoff p.coUnit h.tagCount p.work k)
    ∧ w = if k.blocking then .awaiting else .notNeeded

/-- A transition has taken its handoff point into the empty record and gone on to its SET_PHASE (R119, R10, R11). `u` is
the state it starts from. -/
def StartedAtPoint (s u t : State) (r : SlotRec) (k : Point) : Prop :=
  ∃ h l w, PointTaken s.cs.set k s.hu h s.lc l w ∧ LineKept s.lc t.lc ∧ ShortMarked s t
    ∧ if s.sp.outstanding = [] then
        t = { u with
          hu := h, ps := { u.ps with slot := some { r with stage := .waitAck, handoff := w } }
          sp := u.sp.issued u.cs.set (.setPhase r.target .transition), du := t.du, lc := t.lc }
        ∧ Delivered s.du l t.du t.lc r.requester .taken 0
      else
        t = { u with
          hu := h, ps := { u.ps with slot := some { r with stage := .waitIssue, handoff := w } }
          sp := { u.sp with psReq := some (r.target, .transition) }, lc := t.lc } ∧ NothingPlaced l t.lc

/-- A transition has entered the slot and waits for the requester record, PENDING replied (R9, R11, R119). -/
def WaitsForTheRecord (s u t : State) (r : SlotRec) : Prop :=
  t = { u with
    ps := { u.ps with slot := some { r with stage := .waitHandoffSlot, pendingSent := true } }
    du := t.du, lc := t.lc } ∧ Answered s t r.requester .pending 0

/-! ### Removals (R11, R12) -/

/-- The raised targets are withdrawn and each resource's cell has taken the change of its target; UNDER_STANDING is
judged (R12, R75, R76, R83, R86). `u` is the state before. -/
def TargetsWithdrawn (u t : State) : Prop :=
  (∀ x, t.cell x
      = Cell.refresh ⟨min 4000 (u.phaseTarget x), u.allotBegun x, u.lc.line = .active⟩
          (u.tally x) (u.sumBefore x) ⟨{ u.au.res.get x with raised := none }, u.lc.allot.get x⟩)
    ∧ StandingJudged u t

/-- The good expiries of an auto resume's evaluation are counted afresh after its transition has been removed
(R21, R112). -/
def TU.recount (t : TU) (q : Requester) : TU := if q = .autoResume then { t with good := 0 } else t

/-- The transition of a requester is out of the slot with its clean-ups, and the replies stand in the directive unit and
the message FIFO; `u` is the state it is removed from. -/
def Removed (s u t : State) (q : Requester) : Prop :=
  t = { u with
    ps := { u.ps with slot := none }, pv := { u.pv with watches := [] }, tu := u.tu.recount q
    au := t.au, du := t.du, lc := t.lc }
  ∧ TargetsWithdrawn u t ∧ LineKeptButAllot s.lc t.lc ∧ ShortMarked s t

/-- The transition of a requester has left the slot with its clean-ups, and the slot is still to be given again. -/
def TakenOut (s m : State) (q : Requester) : Prop :=
  m = { s with
    ps := { s.ps with slot := none }, pv := { s.pv with watches := [] }, tu := s.tu.recount q
    au := m.au, du := m.du, lc := m.lc }
  ∧ TargetsWithdrawn s m ∧ LineKeptButAllot s.lc m.lc ∧ m.lc.shortDue = s.lc.shortDue

/-- Two outcomes delivered, one after the other. -/
def DeliveredTwice (s t : State) (q1 : Requester) (o1 : Reply) (q2 : Requester) (o2 : Reply) : Prop :=
  ∃ d l, Delivered s.du s.lc d l q1 o1 0 ∧ Delivered d l t.du t.lc q2 o2 0

/-- Every holding covers its standing requirement, and the holders before the node leave it that much (R87, R89). -/
def State.standsCovered (s : State) : Prop :=
  ∀ x, s.cs.set.standing.get x ≤ (s.au.res.get x).holding ∧ s.cs.set.standing.get x ≤ 4000
    ∧ (s.cs.set.standing.get x = 0 ∨ s.sumBefore x + s.cs.set.standing.get x ≤ (s.tally x).capacity)

/-- No internal request waits for the slot, and none arises when it empties: no auto-hold condition stands, and under
rate control every holding covers its standing requirement (R4, R70, R89). -/
def State.noneArises (s : State) : Prop :=
  s.ps.waiting = ⟨false, false, false, false⟩ ∧ s.autoHoldStands = false
    ∧ (s.ps.phase.underRate = true → s.standsCovered)

/-- No SET_PHASE of the sequencer waits at the section port. -/
def SP.NoPhaseWaits (p : SP) : Prop := p.psReq = none ∧ p.pairReq = none

/-- The expiry of a stage deadline refuses the transition `r` of the slot with a code and a detail (R6 to R8). -/
def DeadlineRefuses (s : State) (r : SlotRec) (c : Instr) (code : RefusalCode) (detail : Byte) : Prop :=
  match r.stage with
  | .waitDwell => c = .prereqDeadlineExpiry ∧ code = .dwell ∧ detail = 0
  | .waitPrereq =>
    c = .prereqDeadlineExpiry ∧ code = .prereqUnmet
      ∧ ∃ l i, r.kind.list = some l ∧ s.firstUnmet l = some i ∧ detail = byteOf i
  | .waitClaim => c = .claimDeadlineExpiry ∧ code = .noBudget ∧ detail = 0
  | .waitHandoffSlot | .waitIssue | .waitAck | .waitCompletion => False

/-! ### The refusals of the rows (R102 to R113) -/

/-- A row whose phase and guard hold refuses BUSY at an occupied slot (R108). -/
def BusyWhen (s : State) (legal : Prop) (c : RefusalCode) : Prop := legal ∧ s.ps.slot ≠ none ∧ c = .busy

/-- The row of a directive refuses it with a code, from the tables and rules of 5.5 and 5.6. -/
def RowRefuses (s : State) (a : Authority) (d : Directive) (c : RefusalCode) : Prop :=
  match d with
  | .startCampaign => (s.ps.phase ≠ .cold ∧ c = .illegalInPhase) ∨ BusyWhen s (s.ps.phase = .cold) c
  | .fill | .endCampaign =>
    (s.ps.phase ≠ .primed ∧ s.ps.phase ≠ .drained ∧ c = .illegalInPhase)
      ∨ BusyWhen s (s.ps.phase = .primed ∨ s.ps.phase = .drained) c
  | .bank => (s.ps.phase ≠ .hold ∧ c = .illegalInPhase) ∨ BusyWhen s (s.ps.phase = .hold) c
  | .feed _ =>
    (s.ps.phase ∉ [.filled, .running, .hold, .banked, .runOut] ∧ c = .illegalInPhase)
      ∨ (s.ps.phase = .runOut ∧ s.tu.data.closeAfter = true ∧ c = .lockedRunout)
      ∨ BusyWhen s (s.ps.phase = .filled) c
  | .hold =>
    (s.ps.phase ∉ [.running, .hold, .banked, .runOut] ∧ c = .illegalInPhase)
      ∨ (s.ps.phase = .runOut ∧ s.tu.data.closeAfter = true ∧ c = .lockedRunout)
      ∨ BusyWhen s (s.ps.phase = .running ∨ s.ps.phase = .runOut ∧ s.tu.data.closeAfter = false) c
  | .resume =>
    (s.ps.phase ∉ [.hold, .banked] ∧ c = .illegalInPhase)
      ∨ (s.ps.phase ∈ [.hold, .banked] ∧ a.rank < s.ps.ownerRank ∧ c = .holdOwner)
      ∨ BusyWhen s (s.ps.phase ∈ [.hold, .banked] ∧ s.ps.ownerRank ≤ a.rank) c
  | .runOut _ =>
    (s.ps.phase ∉ [.running, .hold, .banked, .runOut] ∧ c = .illegalInPhase)
      ∨ (s.ps.phase = .runOut ∧ s.tu.data.closeAfter = true ∧ c = .lockedRunout)
      ∨ (s.ps.phase ∈ [.hold, .banked] ∧ s.ps.holdsResume = true ∧ c = .busy)
      ∨ BusyWhen s (s.ps.phase = .running) c
  | .stopRunOut =>
    (s.ps.phase ≠ .runOut ∧ c = .illegalInPhase)
      ∨ (s.ps.phase = .runOut ∧ s.tu.data.mode ≠ .toEmpty ∧ c = .notToEmpty)
      ∨ (s.ps.phase = .runOut ∧ s.tu.data.mode = .toEmpty ∧ s.tu.data.closeAfter = true ∧ c = .lockedRunout)
      ∨ BusyWhen s (s.ps.phase = .runOut ∧ s.tu.data.mode = .toEmpty ∧ s.tu.data.closeAfter = false) c
  | .drain =>
    (s.ps.phase ∉ [.filled, .hold, .runOut] ∧ c = .illegalInPhase)
      ∨ (s.ps.phase = .runOut ∧ s.tu.runoutDone = false ∧ c = .holdupPresent)
      ∨ (s.ps.phase ∈ [.filled, .hold] ∧ s.cs.set.hDr * 60 < s.tu.holdup ∧ c = .holdupPresent)
      ∨ BusyWhen s (s.ps.phase = .runOut ∧ s.tu.runoutDone = true
          ∨ s.ps.phase ∈ [.filled, .hold] ∧ s.tu.holdup ≤ s.cs.set.hDr * 60) c
  | .trip => s.ps.phase = .cold ∧ c = .illegalInPhase
  | .clearTrip =>
    (s.ps.phase ≠ .tripped ∧ c = .illegalInPhase)
      ∨ (s.ps.phase = .tripped ∧ (s.shows ReportFlags.tripRequest = true ∨ s.ps.frozen = true) ∧ c = .causeActive)
      ∨ (s.ps.phase = .tripped ∧ s.shows ReportFlags.tripRequest = false ∧ s.ps.frozen = false
          ∧ s.tr.recovery ≠ none ∧ c = .busy)
  | .confirm => s.hu.confirmWait = false ∧ c = .nothingToConfirm
  | .cancel =>
    (s.ps.slot = none ∧ c = .nothingPending)
      ∨ ∃ r, s.ps.slot = some r
        ∧ ((a = .sectionPanel ∧ r.requester.isPort = false ∧ c = .notAuthorized)
          ∨ ((a = .campaign ∨ r.requester.isPort = true) ∧ r.stage.beforeIssue = false
            ∧ (r.stage = .waitIssue → ∃ p, s.sp.psReq = some (p, .completion)) ∧ c = .tooLate))

/-! ### Trips (chapter 7) -/

/-- The timer that raises a cause has run down, nothing suspends it, and its expiry is still to be taken (R14, R15, R25,
R28, R90, R146). -/
def State.CauseDue (s : State) : Cause → Prop
  | .fillTimeout => s.ps.frozen = false ∧ s.ps.fillMax = some 0
  | .drainTimeout => s.ps.frozen = false ∧ s.ps.drainMax = some 0
  | .stagnation => s.ps.phase = .banked ∧ s.ps.turnover = some 0
  | .utilityLost => s.au.underTimer = some 0
  | .portSilent => s.sp.portSilence = some 0
  | _ => False

/-- Frames placed in the message FIFO, one after the other. -/
def PlacedAll (l l' : LC) : List MsgFrame → Prop
  | [] => NothingPlaced l l'
  | m :: rest => ∃ k, Placed l k m ∧ PlacedAll k l' rest

/-- What the TU keeps of its data at a trip entry: H, the two limits, the mismatch flag (R73). -/
def TU.tripped (t : TU) : TU :=
  { TU.reset with holdup := t.holdup, limitC := t.limitC, limitS := t.limitS, mismatch := t.mismatch }

/-- What the PS keeps at a trip entry: the freeze overlay with its timer, and the last reading in DRAINING
(R133). -/
def PS.tripped (p : PS) (now : Nat) : PS :=
  { PS.reset now with
    phase := .tripped, frozen := p.frozen, freezeMax := p.freezeMax, drainReading := p.drainReading }

/-- The command path preempted: every waiting request and the outstanding list are gone, and SET_PHASE TRIPPED alone is
outstanding; both rates are 0 and port silence is no longer watched (R133, R146, R159). -/
def SP.tripped (p : SP) (c : Settings) : SP :=
  { p with
    tripReq := false, psReq := none, pairReq := none, pairRate := none, recoveryReq := none, turnoverReq := false
    rateReq := none, rIss := 0, rAck := 0, portSilence := none
    outstanding := [⟨p.tokenCount, .setPhase .tripped .trip, some c.tAckPhase, false⟩]
    tokenCount := p.tokenCount + 1 }

/-- A TRIP_NOTICE of the node is in transmission (R166). -/
def LC.tripBegun (l : LC) : Bool :=
  match l.tx with
  | some t => t.slot = .trip && t.begun
  | none => false

/-- A trip has been entered from `u` with a first cause: what each block of R133 does. -/
structure TripEntered (u t : State) (c : Cause) : Prop where
  /-- Nothing but the blocks named below changes. -/
  kept : t = { u with
    ps := t.ps, pv := t.pv, tu := t.tu, au := t.au, du := t.du, hu := t.hu, tr := t.tr, sp := t.sp, lc := t.lc
    free := t.free }
  /-- The slot, the waiting requests, the hold's data and the phase's timers are gone (PS). -/
  sequencer : t.ps = u.ps.tripped u.now
  /-- The age watches are gone with the slot's transition (R42). -/
  peers : t.pv = { u.pv with watches := [] }
  /-- The TU keeps its estimate and its limits alone (R73). -/
  throughput : t.tu = u.tu.tripped
  /-- The requester record and the service queue are empty, both co-unit flags clear (R125, R128). -/
  handoffs : t.hu = { u.hu with record := none, counitWait := false, counitLate := false, queue := [] }
  /-- The trip record holds the first cause alone (R133). -/
  record : t.tr = { u.tr with record := some ⟨c, [], false⟩, raised := t.tr.raised }
  /-- The other causes raised with it, of timers that had run down too, stay to be taken (R132; log 45). -/
  causes : ∀ x, x ∈ t.tr.raised ↔ x ∈ u.tr.raised ∨ u.CauseDue x
  /-- The command path is preempted (R159). -/
  port : t.sp = u.sp.tripped u.cs.set
  /-- Every holding is 0 and every raised target gone; an engine with a claim to make or waiting has none left
  (R93). -/
  holdings : ∀ x, (t.au.res.get x).holding = 0 ∧ (t.au.res.get x).raised = none
    ∧ ((u.au.res.get x).engine = .waiting ∨ (u.au.res.get x).engine = .idle
        ∨ (u.au.res.get x).engine = .reserved ∧ 0 < (u.au.res.get x).claimValue.getD 0 →
      (t.au.res.get x).engine = .idle
        ∧ (u.lc.line = .active → u.allotBegun x = false → (u.au.res.get x).announced ≠ 0 →
            t.lc.allot.get x = some (.release 0)))
  /-- UNDER_STANDING is clear and its timer stopped (R93). -/
  standing : t.au.underStanding = false ∧ t.au.underTimer = none
  /-- The line controller keeps all but its slots, marks and message FIFO. -/
  line : t.lc = { u.lc with
      tripSlot := t.lc.tripSlot, tripAside := t.lc.tripAside, allot := t.lc.allot, fifo := t.lc.fifo
      replyOverflow := t.lc.replyOverflow, longDue := t.lc.longDue, longAgain := t.lc.longAgain
      shortDue := t.lc.shortDue, shortAgain := t.lc.shortAgain, tx := t.lc.tx }
    ∧ t.lc.tx.map Tx.onLine = u.lc.tx.map Tx.onLine
  /-- The TRIP_NOTICE stands in the trip slot, or is kept aside while an older one is in transmission (R134, R170). -/
  notice : if u.lc.tripBegun then t.lc.tripAside = some c ∧ t.lc.tripSlot = u.lc.tripSlot
    else t.lc.tripSlot = some c ∧ t.lc.tripAside = u.lc.tripAside
  /-- Both status notices are due (R133). -/
  marks : u.cs.locked = true → t.lc.longDue = true ∧ t.lc.shortDue = true

/-- The replies of a trip entry: REFUSED TRIPPED to the slot's requester and FAILED NOT_READY to each entry of the
service queue, in either order (R11, R128, R133). -/
def TripReplies (u : State) (d : DU) (l : LC) : Prop :=
  let answers := u.hu.queue.map fun e => MsgFrame.handoffDone e.requester e.tag .notReady
  match u.ps.slot with
  | none => d = u.du ∧ PlacedAll u.lc l answers
  | some r =>
    ∃ k, (Delivered u.du u.lc d k r.requester (.refused .tripped) 0 ∧ PlacedAll k l answers)
      ∨ (PlacedAll u.lc k answers ∧ Delivered u.du k d l r.requester (.refused .tripped) 0)

/-- The outstanding SET_PHASE of a token was placed for the transition, the completion or the trip: its failure raises
a cause. -/
def SP.holdsPhase (p : SP) (k : Token) (o : Outstanding) : Prop :=
  p.find k = some o ∧ ∃ x w, o.command = .setPhase x w ∧ w ≠ .recovery

/-- The cause of a timer stands raised and the timer is not due anew: the state `u` in which the cause is taken
(R132; log 45). -/
def State.StillRaised (s u : State) (x : Cause) : Prop :=
  x ∈ s.tr.raised ∧ u = { s with tr := { s.tr with raised := s.tr.raised.erase x } }

/-- A command raises a cause (R130): the timer, the acknowledgement or the deadline that it is about, the cause, and
the state `u` in which the cause is taken. A timer's cause may have been raised already, before a phase change stopped
the timer (R132; log 45). -/
def Raises (c : Instr) (s u : State) (x : Cause) : Prop :=
  match c with
  | .fillTimeout =>
    x = .fillTimeout
      ∧ if s.ps.fillMax = some 0 ∧ s.ps.frozen = false then u = { s with ps := { s.ps with fillMax := none } }
        else s.StillRaised u x
  | .drainTimeout =>
    x = .drainTimeout
      ∧ if s.ps.drainMax = some 0 ∧ s.ps.frozen = false then u = { s with ps := { s.ps with drainMax := none } }
        else s.StillRaised u x
  | .freezeLong => s.ps.freezeMax = some 0 ∧ u = { s with ps := { s.ps with freezeMax := none } } ∧ x = .freezeLong
  | .underStandingTimeout =>
    x = .utilityLost
      ∧ if s.au.underTimer = some 0 then u = { s with au := { s.au with underTimer := none } }
        else s.StillRaised u x
  | .portSilent =>
    x = .portSilent
      ∧ if s.sp.portSilence = some 0 then u = { s with sp := { s.sp with portSilence := none } }
        else s.StillRaised u x
  | .turnoverTimerExpiry =>
    x = .stagnation
      ∧ if s.ps.turnover = some 0 then s.ps.phase = .banked ∧ u = { s with ps := { s.ps with turnover := none } }
        else s.StillRaised u x
  | .setPhaseAckTimeout k =>
    ∃ o, s.sp.holdsPhase k o ∧ o.left = some 0 ∧ u = { s with sp := s.sp.remove k } ∧ x = .portNoAck
  | .ackSetPhase k .failed => ∃ o, s.sp.holdsPhase k o ∧ u = { s with sp := s.sp.remove k } ∧ x = .phaseRefused
  | .setRateAckTimeout k =>
    ∃ o v pair, s.sp.find k = some o ∧ o.command = .setRate v pair ∧ o.superseded = false ∧ o.left = some 0
      ∧ u = { s with sp := s.sp.remove k } ∧ x = .portNoAck
  | .ackTurnover k .failed =>
    ∃ o, s.sp.find k = some o ∧ o.command = .turnover ∧ s.ps.phase = .hold ∧ s.ps.missed = true
      ∧ u = { s with sp := s.sp.remove k } ∧ x = .stagnation
  | .turnoverAckTimeout k =>
    ∃ o, s.sp.find k = some o ∧ o.command = .turnover ∧ o.left = some 0 ∧ s.ps.phase = .hold ∧ s.ps.missed = true
      ∧ u = { s with sp := s.sp.remove k } ∧ x = .stagnation
  | _ => False

/-- The cause of a TRIP by its source (R109). -/
def Source.cause : Source → Cause
  | .line _ _ _ _ _ => .lineDirective
  | .port _ => .localDirective

/-- A trip record with one more cause: unchanged by one it holds, the cause kept while fewer than 4 are, the overflow
flag set beyond (R135). -/
def TripRec.with (r : TripRec) (x : Cause) : TripRec :=
  if x = r.first ∨ x ∈ r.later then r
  else if r.later.length < 4 then { r with later := r.later ++ [x] } else { r with overflow := true }

/-! ### Phase changes (R2) -/

/-- The line controller is unchanged but for its message FIFO, REPLY_OVERFLOW, due marks and allotment slots. -/
def LineKeptButMarks (l l' : LC) : Prop :=
  l' = { l with
    fifo := l'.fifo, replyOverflow := l'.replyOverflow, longDue := l'.longDue, longAgain := l'.longAgain
    shortDue := l'.shortDue, shortAgain := l'.shortAgain, tx := l'.tx, allot := l'.allot }
  ∧ l'.tx.map Tx.onLine = l.tx.map Tx.onLine

/-- The phase has changed from the state `u`: the sequencer and the throughput unit took their entry actions, the
section port has come to `sp`, each resource took the new target and, where the published capacity changed, the change
report; both status notices are due (R2, R51, R75, R78, R89, R173, R174). -/
structure PhaseEntered (u t : State) (p : Phase) (e : EntryInfo) (sp : SP) : Prop where
  /-- The blocks a phase change writes. -/
  kept : t = { u with
    ps := u.ps.enter u.cs.set u.now p e, tu := u.tu.enter u.cs.set u.ps.phase p e, sp := sp
    tr := { u.tr with raised := t.tr.raised }, au := t.au, du := t.du, lc := t.lc }
  /-- The causes of timers that had run down and that the change stops stay to be taken in the new phase (R132; log
  45). -/
  causes : ∀ x, x ∈ t.tr.raised ↔ x ∈ u.tr.raised ∨ u.CauseDue x ∧ ¬ t.CauseDue x
  /-- The AU's work on each resource; a change of the published capacity is a change report, held while the resource's
  frame is in transmission (DEDUCED, log 13). -/
  cells : ∀ x, t.cell x =
    let v : CellView := ⟨t.target x, u.allotBegun x, u.lc.line = .active⟩
    let c := Cell.refresh v (t.tally x) (t.sumBefore x) (u.cell x)
    if t.publishedCapacity x = u.publishedCapacity x then c
    else if u.allotBegun x then { c with a := { c.a with heldReport := true } }
    else c.report v (t.tally x) (t.sumBefore x)
  /-- UNDER_STANDING as the new phase and the holdings make it. -/
  standing : StandingJudged u t
  /-- The rest of the line controller. -/
  line : LineKeptButMarks u.lc t.lc
  /-- Both notices are due. -/
  marks : u.cs.locked = true → t.lc.longDue = true ∧ t.lc.shortDue = true

/-! ### Acknowledgements (chapter 8) -/

/-- The acknowledged SET_PHASE is out of the list, the slot is empty and the raised targets are withdrawn: the state
from which a transition's phase is entered (R10, R75). -/
def State.afterAck (s : State) (k : Token) : State :=
  { s with
    sp := s.sp.remove k
    ps := { s.ps with slot := none }
    au := { s.au with res := .of fun x => { s.au.res.get x with raised := none } } }

/-- The start pair's SET_RATE, if one is held back, issues ahead of everything that waits (R152). -/
def SP.pairIssued (p : SP) (c : Settings) : SP :=
  match p.pairRate with
  | none => p
  | some v =>
    { p with
      pairRate := none, rIss := v, tokenCount := p.nextToken + 1
      outstanding := p.outstanding ++ [⟨p.nextToken, .setRate v true, some c.tAckRate, false⟩] }

/-- Under rate control no auto hold arises from an entry: the line is ACTIVE, no block timer has expired, the section
publishes no capacity and every holding covers its standing requirement (R70, R78, R89). -/
def State.ratesFreely (s : State) : Prop :=
  s.lc.line = .active ∧ s.tu.blockExpired = false ∧ s.standsCovered
    ∧ ∀ x, s.cs.set.provider.get x = false ∨ (s.au.res.get x).reading.getD 0 = 0

/-- No internal request waits for the slot. -/
def PS.NoneWaits (p : PS) : Prop := p.waiting = ⟨false, false, false, false⟩

/-- Nothing waits to be issued once the command of a token is out of the list. -/
def State.idleAfter (s : State) (k : Token) : Prop := (s.sp.remove k).Quiet ∧ s.hu.NoneWaiting

/-- A frame is placed in the message FIFO at the end of an event whose work is `u`; nothing else differs but the short
due mark of R174. -/
def Sent (s u t : State) (m : MsgFrame) : Prop :=
  t = { u with lc := t.lc } ∧ LineKept u.lc t.lc ∧ Placed u.lc t.lc m
    ∧ t.lc.shortDue = (u.lc.shortDue || (u.cs.locked && s.shortCalled t))

/-! ### Issues (R10, R11) -/

/-- A SET_PHASE of the sequencer has issued from the state `u`: its transition waits for the acknowledgement, and its
requester is replied TAKEN where no PENDING was sent. -/
def Issued (s u t : State) (r : SlotRec) : Prop :=
  let v : State := { u with ps := { u.ps with slot := some { r with stage := .waitAck, deadline := none } } }
  if r.pendingSent then Noted s v t else Replied s v t r.requester .taken 0

/-- A transition that has been replied PENDING goes on to its SET_PHASE, which issues into an empty list and waits
otherwise (R10, R11, R151). -/
def State.goesOn (s : State) (r : SlotRec) : State :=
  { s with
    ps := { s.ps with slot := some { r with
      stage := if s.sp.outstanding = [] then .waitAck else .waitIssue, deadline := none } }
    sp := if s.sp.outstanding = [] then s.sp.begun s.cs.set r else s.sp.asked s.cs.set r }

/-! ### The slot examined again and given again (R4, R28) -/

/-- A transition has reached its handoff point in `u`: it waits for the requester record where another handoff occupies
it, and else takes its point and goes on to its SET_PHASE (R9, R10, R119). -/
def PointReached (u w : State) (r : SlotRec) : Prop :=
  match r.kind.point with
  | none => w = u.goesOn { r with handoff := .notNeeded }
  | some k =>
    if (u.cs.set.points.get k).mode ≠ .none ∧ u.hu.record ≠ none then
      w = { u with ps := { u.ps with
        slot := some { r with stage := .waitHandoffSlot, deadline := none, pendingSent := true } } }
    else
      ∃ x, PointTaken u.cs.set k u.hu w.hu u.lc w.lc x ∧ LineKept u.lc w.lc ∧ w.lc.shortDue = u.lc.shortDue
        ∧ w = { u.goesOn { r with handoff := x } with hu := w.hu, lc := w.lc }

/-- Every holding has reached its raised target (R77). -/
def State.TargetsMet (s : State) : Prop := ∀ x, (s.au.res.get x).raised.getD 0 ≤ (s.au.res.get x).holding

/-- A transition in WAIT_PREREQ has its list evaluated in `u`: unmet, it waits with its age watches set up; met, it
reaches its handoff point, or where it claims it has raised its targets, in `m`, and waits in WAIT_CLAIM until every
holding has reached its target (R7, R8, R42, R77). -/
def ListExamined (u w : State) (r : SlotRec) (l : ListName) : Prop :=
  (u.firstUnmet l ≠ none →
    w = { u with
      ps := { u.ps with slot := some { r with stage := .waitPrereq, pendingSent := true } }
      pv := { u.pv with watches := u.watchesOf l } })
  ∧ (u.firstUnmet l = none → r.claimTargets u.cs.set = none → PointReached u.unwatched w r)
  ∧ ∀ f, u.firstUnmet l = none → r.claimTargets u.cs.set = some f →
    ∃ m v, v = { r with stage := .waitClaim, deadline := some u.cs.set.tClaimWait }
      ∧ m = { u with
        ps := { u.ps with slot := some v }
        pv := { u.pv with watches := [] }
        au := m.au, lc := { u.lc with allot := m.lc.allot } }
      ∧ TargetsRaised u m f
      ∧ (m.TargetsMet → PointReached m w { v with claimReached := true })
      ∧ (¬ m.TargetsMet → w = { m with ps := { m.ps with slot := some { v with pendingSent := true } } })

/-- The transition in the slot is examined again at the clearing of the overlay, in `u`: its list, its claims, the
requester record that it waits for; the completion conditions are not met (R28). -/
def SlotExamined (u w : State) (r : SlotRec) : Prop :=
  match r.stage with
  | .waitPrereq => ∀ l, r.kind.list = some l → ListExamined u w r l
  | .waitClaim =>
    let reached := r.claimReached = true ∨ u.TargetsMet
    (reached → PointReached u w { r with claimReached := true }) ∧ (¬ reached → w = u)
  | .waitHandoffSlot => if u.hu.record = none then PointReached u w r else w = u
  | .waitDwell | .waitIssue | .waitAck | .waitCompletion => w = u

/-- The slot, empty in `u`, is given to the first waiting request that is still valid, in the order forced run-out,
close-after drain, auto hold, auto resume, and the others are discarded; an auto hold whose condition stands is raised
again by the TU, and waits behind a request ahead of it (R4, R23, R26, R20, R21, R70). -/
def SlotGiven (u w : State) : Prop :=
  let left (hold : Bool) : State := { u with ps := { u.ps with waiting := ⟨false, false, hold, false⟩ } }
  if u.ps.waiting.forced = true ∧ (u.ps.phase = .hold ∨ u.ps.phase = .banked) then
    let r := SlotRec.new .runOut .forcedRunOut .holdExpired .campaign (some ⟨0, .toEmpty, true⟩)
    if u.ps.phase = .banked ∧ u.cs.set.tBankExit ≠ 0 then
      w = { u with ps := { u.ps with
        waiting := ⟨false, false, false, false⟩
        slot := some { r with stage := .waitDwell, settle := some u.cs.set.tBankExit, pendingSent := true } } }
    else PointReached (left false) w r
  else if u.ps.waiting.closeDrain = true ∧ u.ps.phase = .runOut ∧ u.tu.runoutDone = true then
    PointReached (left u.autoHoldStands) w (.new .draining .closeDrain .closeAfter .campaign none)
  else if u.autoHoldStands = true then PointReached (left false) w (.new .hold .hold .autoHold .auto none)
  else if u.ps.waiting.autoResume = true ∧ u.ps.phase = .hold ∧ u.ps.owner = some .auto then
    ListExamined (left false) w
      { SlotRec.new u.ps.linkPhase .resume .autoResume .auto none with deadline := some u.cs.set.tPrereqWait } .resume
  else w = left false

/-- The waiting requests that stay behind an occupied slot: those still valid, and an auto hold whose condition stands
unless it is in the slot already (R4, R20, R28, R70). -/
def State.waitsOn (s : State) (r : SlotRec) : Waiting where
  forced := s.ps.waiting.forced && (s.ps.phase = .hold || s.ps.phase = .banked)
  closeDrain := s.ps.waiting.closeDrain && s.ps.phase = .runOut && s.tu.runoutDone
  autoHold := s.autoHoldStands && (s.ps.waiting.autoHold || r.requester ≠ .autoHold)
  autoResume := s.ps.waiting.autoResume && s.ps.phase = .hold && s.ps.owner = some .auto

/-! ### The rate interval (R52, R75, R89) -/

/-- An expiry of the rate interval has left the blocks as in `u`, and the AU has taken the targets that follow: each
cell, UNDER_STANDING, and the marks. -/
def Reckoned (s u t : State) : Prop :=
  t = { u with au := t.au, lc := t.lc }
    ∧ (∀ x, t.cell x = Cell.refresh ⟨t.target x, s.allotBegun x, s.lc.line = .active⟩ (s.tally x) (s.sumBefore x)
        (s.cell x))
    ∧ StandingJudged s t ∧ LineKeptButAllot s.lc t.lc ∧ NothingPlaced s.lc t.lc ∧ ShortMarked s t

/-- The AU has taken the targets that follow an expiry, and nothing else differs from `u`: the state `m` in which a
request of the expiry reaches the sequencer. -/
def Retargeted (s u m : State) : Prop :=
  m = { u with au := m.au, lc := { u.lc with allot := m.lc.allot } }
    ∧ (∀ x, m.cell x = Cell.refresh ⟨u.target x, s.allotBegun x, s.lc.line = .active⟩ (s.tally x) (s.sumBefore x)
        (s.cell x))
    ∧ StandingJudged s m

/-! ### The peer table (chapter 2) -/

/-- A change report moves no transition and calls for no auto hold: none waits on its list or its claims, and
UNDER_STANDING cannot rise under rate control (R7, R8, R70, R77). -/
def State.peerCalm (s : State) : Prop :=
  s.atStage .waitPrereq = false ∧ s.atStage .waitClaim = false
    ∧ (s.ps.phase.underRate = false ∨ s.au.underStanding = true)

/-- The entry of an address has become `e` and no other entry has changed. -/
def EntryWritten (s t : State) (a : Station) (e : PeerEntry) : Prop :=
  t.stored a = e ∧ ∀ b, b ≠ a → t.stored b = s.stored b

/-- The TU has asked for an auto hold: it enters the empty slot and goes straight to its SET_PHASE, or waits while the
slot is occupied or the overlay is set (R20, R70). -/
def HoldAsked (s u : State) : Prop :=
  (s.ps.slot ≠ none ∨ s.ps.frozen = true)
      ∧ u = { s with ps := { s.ps with waiting := { s.ps.waiting with autoHold := true } } }
    ∨ s.phaseFree ∧ s.ps.frozen = false
      ∧ u = { s with
          ps := { s.ps with slot := some { SlotRec.new .hold .hold .autoHold .auto none with
            stage := if s.sp.outstanding = [] then .waitAck else .waitIssue, handoff := .notNeeded } }
          sp := if s.sp.outstanding = [] then s.sp.issued s.cs.set (.setPhase .hold .transition)
            else { s.sp with psReq := some (.hold, .transition) } }

/-- A transition that a change report can move, or an auto hold that it can call for, finds the command path clear: no
trip's or sequencer's SET_PHASE waits at the section port, and PENDING has been sent (R11, R149). -/
def State.ReportReady (s : State) : Prop :=
  (s.ps.slot = none ∨ s.atStage .waitPrereq = true ∨ s.atStage .waitClaim = true →
    s.sp.tripReq = false ∧ s.sp.NoPhaseWaits)
  ∧ ∀ r, s.ps.slot = some r → r.stage = .waitPrereq ∨ r.stage = .waitClaim → r.pendingSent = true

/-- The PS's part of a change report, taken in `u`: the list of a transition in WAIT_PREREQ is examined again, unless
the overlay is set (R7, R28). -/
def ListPolled (u w : State) : Prop :=
  (∀ r l, u.ps.slot = some r → r.stage = .waitPrereq → u.ps.frozen = false → r.kind.list = some l →
    ListExamined u w r l)
  ∧ ((∀ r, u.ps.slot = some r → r.stage ≠ .waitPrereq ∨ u.ps.frozen = true ∨ r.kind.list = none) → w = u)

/-- The AU's report on the claims, taken in `u`: a transition in WAIT_CLAIM whose claims are reached goes on to its
handoff point, or keeps the report while the overlay is set (R8, R28, R77). -/
def ClaimPolled (u w : State) : Prop :=
  (∀ r, u.ps.slot = some r → r.stage = .waitClaim → r.claimReached = true ∨ u.TargetsMet →
    (u.ps.frozen = false → PointReached u w { r with claimReached := true })
    ∧ (u.ps.frozen = true → w = { u with ps := { u.ps with slot := some { r with claimReached := true } } }))
  ∧ ((∀ r, u.ps.slot = some r → r.stage ≠ .waitClaim ∨ r.claimReached = false ∧ ¬ u.TargetsMet) → w = u)

/-- The AU's part of a change report, taken in `u`: the cells of the resources it names, each at once or held while its
frame is in transmission, and UNDER_STANDING, in `j`; a rise of UNDER_STANDING under rate control calls for an auto
hold, in `h`; a transition in WAIT_CLAIM hears of its claims (R70, R77, R80, R83, R84, R87 to R89). -/
def AllotTaken (u w : State) (named : Resource → Prop) : Prop :=
  ∃ j h, j = { u with au := j.au, lc := { u.lc with allot := j.lc.allot } }
    ∧ (∀ x, named x → j.cell x =
        if u.allotBegun x then { u.cell x with a := { u.au.res.get x with heldReport := true } }
        else Cell.report (u.cellView x) (u.tally x) (u.sumBefore x) (u.cell x))
    ∧ (∀ x, ¬ named x → j.cell x = u.cell x)
    ∧ StandingJudged u j
    ∧ (if u.au.underStanding = false ∧ j.au.underStanding = true ∧ u.ps.phase.underRate = true then HoldAsked j h
      else h = j)
    ∧ ClaimPolled h w

/-- The entry of an address has become `e`, and the provider address of a resource whose capacity has become present is
the lowest heard (R32, R148). -/
def EntryHeard (s m : State) (a : Station) (e : PeerEntry) : Prop :=
  m = { s with
    pv := { s.pv with peers := m.pv.peers }, sp := { s.sp with providers := m.sp.providers } }
  ∧ EntryWritten s m a e
  ∧ ∀ x, m.sp.providers.get x =
      if (s.stored a).capacities.get x = none ∧ e.capacities.get x ≠ none then
        some (match s.sp.providers.get x with
          | none => a
          | some b => min a b)
      else s.sp.providers.get x

/-- A change report is taken by the AU and the PS, one after the other: in either order where a transition waits on its
list and a resource is named (R32; DESIGN CHOICE of a free value, log 32). -/
def ReportTaken (u w : State) (named : Resource → Prop) : Prop :=
  ∃ n, n = { u with free := n.free }
    ∧ ((∃ j, AllotTaken n j named ∧ ListPolled j w)
      ∨ u.atStage .waitPrereq = true ∧ (∃ x, named x) ∧ ∃ j, ListPolled n j ∧ AllotTaken j w named)

/-- An event of `s` has done its work, `w`: a change of the own entry is a change report, on which the list of a waiting
transition is examined (R41, R7); `v` is the state after it. -/
def OwnReported (s w v : State) : Prop := if s.ownEntry = w.ownEntry then v = w else ListPolled w v

/-- A frame has written an entry. Where it alters no field but last-heard nothing else happens. Otherwise its change
report is taken, naming all four resources at a change of presence to or from LIVE and otherwise those whose holding or
capacity changed; a change of the own entry that follows has the list examined once more (R32, R41, R45). -/
def Told (s t : State) (a : Station) (e : PeerEntry) : Prop :=
  ∃ m, EntryHeard s m a e
    ∧ (if { e with lastHeard := (s.stored a).lastHeard } = s.stored a then t = m
      else ∃ w v, ReportTaken m w (fun x =>
          ¬ ((s.stored a).presence = .live ↔ e.presence = .live)
            ∨ (s.stored a).holdings.get x ≠ e.holdings.get x ∨ (s.stored a).capacities.get x ≠ e.capacities.get x)
        ∧ OwnReported s w v ∧ Noted s v t)

/-- A frame reaches the peer table: the line controller delivers it, and its sender is neither 0 nor the node
(R32, R162). -/
def State.listens (s : State) (a : Station) : Prop := s.receives = true ∧ a ≠ 0 ∧ s.isOwn a = false

/-! ### The line (chapter 9) -/

/-- An outcome on the line has left the line controller as `l`, but for the allotment slots; the AU has done its work,
UNDER_STANDING is judged and the changes of the published state set the short due mark (R89, R167, R174). -/
def LineAfter (s t : State) (l : LC) : Prop :=
  t = { s with au := t.au, lc := t.lc }
    ∧ t.lc = { l with allot := t.lc.allot, shortDue := l.shortDue || (s.cs.locked && s.shortCalled t) }
    ∧ StandingJudged s t

/-- The outcome of a resource's frame has brought its cell to `c`; a change report held meanwhile is taken, else the
engine evaluates; then a RELEASE is judged. The other cells stand (R85, R86). -/
def CellAfter (s t : State) (r : Resource) (c : Cell) : Prop :=
  t.cell r = Cell.afterOutcome ⟨s.target r, false, s.lc.line = .active⟩ (t.tally r) (t.sumBefore r) c
    ∧ ∀ x, x ≠ r → t.cell x = s.cell x

/-- A completed CLAIM has made its value the holding, within the target, and nothing held back is taken yet (R85). The
change of the holding is a change report of its own (R41, R45). -/
def State.claimed (s : State) (r : Resource) (v : Nat) : State :=
  { s with
    au := { s.au with res := s.au.res.set r { s.au.res.get r with
      holding := min v (s.target r), announced := v, claimValue := none, engine := .waiting
      heldReport := (s.au.res.get r).heldReport || decide (min v (s.target r) ≠ (s.au.res.get r).holding) } }
    lc := { s.lc with allot := s.lc.allot.set r none } }

/-- UNDER_STANDING is judged at the rise of a holding, in `m`, and again after the held change report: its timer runs
on where it stood throughout, and starts anew where the rise cleared it and the report's cut set it again (R89, R90). -/
def StandingJudgedTwice (s m t : State) : Prop :=
  t.au.underStanding = t.belowStanding
    ∧ t.au.underTimer = if t.au.underStanding then
        (if s.au.underStanding && m.belowStanding then s.au.underTimer else some s.cs.set.tClaimWait) else none

/-- The transition that waits for its claims takes the AU's report of the rise in `m`: it waits on where a raised target
is not reached, records the report while frozen, and else goes on to its SET_PHASE, its point of mode NONE (R8, R28,
R77). -/
def RiseReported (s m u : State) (q : SlotRec) : Prop :=
  (∃ x, (m.au.res.get x).holding < (m.au.res.get x).raised.getD 0) ∧ q.claimReached = false ∧ u = s
    ∨ (∀ x, (m.au.res.get x).raised.getD 0 ≤ (m.au.res.get x).holding)
      ∧ (s.ps.frozen = true ∧ u = { s with ps := { s.ps with slot := some { q with claimReached := true } } }
        ∨ s.ps.frozen = false ∧ s.sp.tripReq = false ∧ s.sp.psReq = none ∧ s.sp.pairReq = none
          ∧ (q.kind = .resume ∨ q.kind = .fill ∧ s.cs.set.points.fill.mode = .none
            ∨ q.kind = .feed ∧ s.cs.set.points.feed.mode = .none)
          ∧ u = s.goesOn { q with claimReached := true, handoff := .notNeeded })

/-- What the TU and the PS do when a CLAIM has completed, `m` being the state at the rise of its holding: a transition
in WAIT_CLAIM takes the report of the rise, the held change report's cut under rate control calls for an auto hold, and
otherwise they do nothing (R70, R77, R89). -/
def ClaimFollowed (s m u : State) (r : Resource) : Prop :=
  (∃ q, s.ps.slot = some q ∧ q.stage = .waitClaim ∧ q.pendingSent = true ∧ s.ps.phase.underRate = false
      ∧ RiseReported s m u q)
    ∨ s.atStage .waitClaim = false
      ∧ ((s.ps.phase.underRate = false ∨ s.au.underStanding = true ∧ m.belowStanding = true ∨ m.standsCovered) ∧ u = s
        ∨ s.ps.phase.underRate = true ∧ m.belowStanding = false ∧ (m.au.res.get r).heldReport = true
          ∧ 0 < s.cs.set.standing.get r ∧ (s.tally r).capacity < s.sumBefore r + s.cs.set.standing.get r
          ∧ HoldAsked s u)

/-- The AU after an isolation: nothing held, every engine SUSPENDED, no frame in a slot (R91). -/
def CellsGivenUp (s t : State) : Prop :=
  ∀ x, t.cell x = ⟨{ s.au.res.get x with
    holding := 0, engine := .suspended, claimValue := none, heldReport := false
    tally := if (s.au.res.get x).holding = 0 then (s.au.res.get x).tally else s.tally x }, none⟩

/-- The line read idle is offered the frame of a slot. -/
def Offers (s : State) (k : TxSlot) (f : Frame) : Prop :=
  exec .lineIdle s = .next { s with lc := { s.lc with joined := true, tx := some ⟨k, f, false, false⟩ } }

/-- The line read idle is offered nothing. -/
def OffersNothing (s : State) : Prop := exec .lineIdle s = .next { s with lc := { s.lc with joined := true } }

/-- What the downstreams take: the acceptances of the configured ones that are LIVE, a station named twice counted once,
clamped to 1000 (R44). -/
def State.takenBelow (s : State) : Nat :=
  let take (a : Station) : Nat := if a ≠ 0 ∧ (s.stored a).presence = .live then (s.stored a).acceptance else 0
  let a := s.cs.set.down1
  let b := s.cs.set.down2
  min 1000 (if a = b then take a else take a + take b)

/-- The fields of a status notice, from the node's state (R172, with R44, R50, R65, R66, R68, R78 and R129). A capacity
stands for a resource of the provider set alone. -/
structure State.NoticeShows (s : State) (long : Bool) (n : Notice) : Prop where
  long : n.long = long
  phase : n.phase = s.ps.phase
  /-- The held value while frozen, else R_ack in RUNNING and RUN_OUT. -/
  offer : n.offer = match s.tu.held with
    | some (o, _) => o
    | none => if s.ps.phase = .running ∨ s.ps.phase = .runOut then s.sp.rAck else 0
  /-- The held value while frozen, else by the limits and the room in FILLED, RUNNING and RUN_OUT. -/
  acceptance : n.acceptance = match s.tu.held with
    | some (_, a) => a
    | none =>
      if s.ps.phase = .filled ∨ s.ps.phase = .running ∨ s.ps.phase = .runOut then
        min 1000 (min (min s.tu.limitC s.tu.limitS) (min s.cs.set.rMax
          (if s.cs.set.down1 = 0 ∧ s.cs.set.down2 = 0 then s.cs.set.rMax
            else s.takenBelow + (s.cs.set.hMax * 60 - s.tu.holdup) / s.cs.set.tLevel)))
      else 0
  flags : n.flags = ⟨s.tu.starved, s.tu.blocked, s.tu.limited, s.tu.claimWait, s.au.underStanding, s.tu.runoutLate,
    s.tu.runoutDone, s.ps.holdExpired, s.hu.counitWait, s.hu.counitLate, s.tu.mismatch, s.sp.rateRefused,
    s.lc.replyOverflow, s.ps.frozen⟩
  holdup : n.holdup = min 65535 (s.tu.holdup / 60)
  holdings : ∀ r, n.holdings.get r = (s.au.res.get r).holding
  provider : n.provider = s.cs.set.provider
  capacities : ∀ r, s.cs.set.provider.get r = true →
    n.capacities.get r = if s.ps.phase = .running then (s.au.res.get r).reading.getD 0 else 0
  configured : n.statusPeriod = s.cs.set.statusPeriod ∧ n.rank = s.cs.set.rank
    ∧ n.sectionClass = s.cs.set.sectionClass ∧ n.chainPosition = s.cs.set.chainPosition
  timeInPhase : n.timeInPhase = min 65535 (((s.now : Int) - s.ps.phaseSince) % 4294967296).toNat
  cause : n.cause = if s.ps.phase = .tripped then s.tr.record.map TripRec.first else none

/-! ### The allotment unit (chapter 4) -/

/-- The RELEASE judged for a cell whose engine is neither RESERVED nor SENDING: the holding stands in the slot where it
is not the announced one, on an ACTIVE line with no frame of the resource in transmission (R86). -/
def Cell.ReleaseJudged (v : CellView) (c d : Cell) : Prop :=
  d = { c with slot :=
    (if v.active = true ∧ v.begun = false ∧ c.a.announced ≠ c.a.holding then some (.release c.a.holding) else c.slot) }

/-- The evaluation of an engine found IDLE or WAITING in `c`: it is IDLE where the holding covers the target, it claims
the smaller of target and headroom where that lies above the holding, no holding is unknown and no frame of the resource
is in transmission, and it waits otherwise (R81, R82). -/
def Cell.Evaluated (v : CellView) (c d : Cell) : Prop :=
  let most := min v.target (c.a.tally.capacity - c.a.tally.others)
  if v.target ≤ c.a.holding then Cell.ReleaseJudged v { c with a := { c.a with engine := .idle } } d
  else if c.a.tally.unknown = false ∧ v.begun = false ∧ c.a.holding < most then
    d = { a := { c.a with engine := .reserved, claimValue := some most }, slot := some (.claim most) }
  else Cell.ReleaseJudged v { c with a := { c.a with engine := .waiting } } d

/-- A cell with a RESERVED claim withdrawn (R83). -/
def Cell.givenBack (c : Cell) : Cell :=
  if c.a.engine = .reserved then { a := { c.a with claimValue := none, engine := .waiting }, slot := none } else c

/-- A change report withdraws a RESERVED claim: it raises the others' holdings, lowers the capacity or makes a holding
unknown (R83). -/
def Cell.overtaken (c : Cell) (n : Tally) : Prop :=
  c.a.tally.others < n.others ∨ n.capacity < c.a.tally.capacity ∨ n.unknown = true ∧ c.a.tally.unknown = false

/-- What a change report, an outcome of the resource's frame and a change of the target leave of a cell, from the
target, the tallies and the holding: `n` holds the new tallies, `b` the holdings before the node in the walk (R76, R80
to R83, R85 to R88). -/
structure Cell.Worked (v : CellView) (n : Tally) (b : Nat) (c : Cell) : Prop where
  /-- A change report: the tallies, the cut to the allowance, the withdrawal, the evaluation. -/
  report : ∀ h e, h = (if b + c.a.holding ≤ n.capacity then c.a.holding else min c.a.holding (n.capacity - b)) →
    e = ({ c with a := { c.a with holding := h, tally := n, heldReport := false } } : Cell) →
    (c.a.engine = .idle ∨ c.a.engine = .waiting ∨ c.a.engine = .reserved ∧ c.overtaken n →
      Cell.Evaluated v e.givenBack (c.report v n b))
    ∧ (c.a.engine = .reserved → ¬ c.overtaken n → c.report v n b = e)
  /-- An outcome: the held change report, or the evaluation alone. -/
  outcome : (c.a.heldReport = true → c.afterOutcome v n b = c.report v n b)
    ∧ (c.a.heldReport = false → c.a.engine = .idle ∨ c.a.engine = .waiting →
      Cell.Evaluated v c (c.afterOutcome v n b))
  /-- A change of the target that leaves the holding: the evaluation, a RESERVED claim above the target withdrawn. -/
  target : c.a.holding ≤ v.target →
    (c.a.engine = .idle ∨ c.a.engine = .waiting ∨ c.a.engine = .reserved ∧ v.target < c.a.claimValue.getD 0 →
      Cell.Evaluated v c.givenBack (c.refresh v n b))
    ∧ (c.a.engine = .reserved → c.a.claimValue.getD 0 ≤ v.target → c.refresh v n b = c)
  /-- A fall of the target below the holding lowers the holding at once; its change report is held while a frame of the
  resource is in transmission, and otherwise the lowered holding goes out as a RELEASE. -/
  fall : v.target < c.a.holding →
    (v.begun = true → c.a.engine ≠ .reserved →
      (c.refresh v n b).a.holding = v.target ∧ (c.refresh v n b).a.heldReport = true
      ∧ (c.refresh v n b).slot = c.slot)
    ∧ (v.begun = false → b + v.target ≤ n.capacity →
      c.a.engine = .idle ∨ c.a.engine = .waiting ∨ c.a.engine = .reserved ∧ v.target < c.a.claimValue.getD 0 →
      Cell.ReleaseJudged v
        { c.givenBack with a := { c.givenBack.a with
          holding := v.target, tally := n, heldReport := false, engine := .idle } }
        (c.refresh v n b))

/-! ### Payloads (11.2) -/

/-- The bits of the flags word, from bit 0 (11.5). -/
def Flags.bits (f : Flags) : List Bool :=
  [f.starved, f.blocked, f.limited, f.claimWait, f.underStanding, f.runoutLate, f.runoutDone, f.holdExpired,
    f.counitWait, f.counitLate, f.holdupMismatch, f.rateRefused, f.replyOverflow, f.frozen]

/-- The payload of a status notice, byte by byte (11.2). -/
structure Notice.Carries (n : Notice) (p : List Byte) : Prop where
  /-- The seven bytes that both notices share. -/
  head : (byteAt p 0).toNat = n.phase.code ∧ wordAt p 1 = n.offer % 65536 ∧ wordAt p 3 = n.acceptance % 65536
    ∧ ∀ i, (wordAt p 5).testBit i = n.flags.bits.getD i false
  short : n.long = false → p.length = 7
  long : n.long = true → p.length = 32 ∧ wordAt p 7 = n.holdup % 65536
    ∧ (∀ r : Resource, wordAt p (9 + 2 * r.code) = n.holdings.get r % 65536
      ∧ wordAt p (18 + 2 * r.code) = if n.provider.get r then n.capacities.get r % 65536 else 0)
    ∧ (∀ i < 8, (byteAt p 17).getLsbD i = true ↔ ∃ r : Resource, r.code = i ∧ n.provider.get r = true)
    ∧ (byteAt p 26).toNat = (16 * n.statusPeriod + n.rank) % 256 ∧ wordAt p 27 = n.timeInPhase % 65536
    ∧ (byteAt p 29).toNat = n.sectionClass.code ∧ (byteAt p 30).toNat = n.chainPosition % 256
    ∧ (byteAt p 31).toNat = match n.cause with
      | some c => c.code
      | none => 255

/-- The payload of a message frame, byte by byte (11.2). -/
def MsgFrame.Carries (m : MsgFrame) (kind : Nat) (p : List Byte) : Prop :=
  match m with
  | .reply a tag o detail =>
    kind = 4 ∧ p.length = 5 ∧ (byteAt p 0).toNat = a.val ∧ byteAt p 1 = tag ∧ byteAt p 4 = detail
      ∧ match o with
        | .taken => byteAt p 2 = 0 ∧ byteAt p 3 = 0
        | .pending => byteAt p 2 = 1 ∧ byteAt p 3 = 0
        | .done => byteAt p 2 = 2 ∧ byteAt p 3 = 0
        | .refused c => byteAt p 2 = 3 ∧ (byteAt p 3).toNat = c.code
  | .handoff a tag work k =>
    kind = 5 ∧ p.length = 4 ∧ (byteAt p 0).toNat = a.val ∧ byteAt p 1 = tag ∧ (byteAt p 2).toNat = work.val
      ∧ (byteAt p 3).toNat = k.code
  | .handoffDone a tag o =>
    kind = 6 ∧ p.length = 4 ∧ (byteAt p 0).toNat = a.val ∧ byteAt p 1 = tag
      ∧ match o with
        | .success => byteAt p 2 = 0 ∧ byteAt p 3 = 0
        | .notReady => byteAt p 2 = 1 ∧ byteAt p 3 = 1
        | .busy => byteAt p 2 = 1 ∧ byteAt p 3 = 2
        | .workFailed => byteAt p 2 = 1 ∧ byteAt p 3 = 3

/-- The class, the kind code and the payload of a frame (R163, 11.2). -/
def Frame.Carries (f : Frame) (cls kind : Nat) (p : List Byte) : Prop :=
  match f with
  | .tripNotice c => cls = 0 ∧ kind = 0 ∧ p.length = 1 ∧ (byteAt p 0).toNat = c.code
  | .allot r (.claim v) => cls = 1 ∧ kind = 1 ∧ p.length = 3 ∧ (byteAt p 0).toNat = r.code ∧ wordAt p 1 = v % 65536
  | .allot r (.release v) => cls = 1 ∧ kind = 2 ∧ p.length = 3 ∧ (byteAt p 0).toNat = r.code ∧ wordAt p 1 = v % 65536
  | .message m => cls = 3 ∧ m.Carries kind p
  | .status n => cls = 4 ∧ kind = (if n.long then 8 else 7) ∧ n.Carries p

/-! ### The configuration items (chapter 10) -/

/-- What an item holds: a number, a set of resources, a set of addresses, a prerequisite entry or a handoff point. -/
inductive ItemValue where
  | number (n : Nat)
  | resources (f : PerRes Bool)
  | addresses (m : BitVec 32)
  | entry (e : Option PrereqEntry)
  | point (p : PointSetting)
  deriving DecidableEq, Repr

/-- The stored value of an item by its number (R178). -/
def Settings.item (c : Settings) : Nat → ItemValue
  | 1 => .number c.ownAddress.val
  | 2 => .number c.sectionClass.code
  | 3 => .number c.chainPosition
  | 4 => .number c.rank
  | 5 => .resources c.provider
  | 6 => .number c.up1.val
  | 7 => .number c.up2.val
  | 8 => .number c.down1.val
  | 9 => .number c.down2.val
  | 10 => .addresses c.authoritySet
  | 11 => .number c.bitRate
  | 12 => .number c.statusPeriod
  | 13 => .number c.rMax
  | 14 => .number c.rMin
  | 15 => .number c.q
  | 16 => .number c.rampUp
  | 17 => .number c.rampDown
  | 18 => .number c.maxStep
  | 19 => .number c.tInt
  | 20 => .number c.publishDeadband
  | 21 => .number c.hMax
  | 22 => .number c.hSet
  | 23 => .number c.hDr
  | 24 => .number c.tLevel
  | 25 => .number c.rCorrMax
  | 26 => .number c.mismatchBand
  | 27 => .number c.standing.steam
  | 28 => .number c.standing.power
  | 29 => .number c.standing.lime
  | 30 => .number c.standing.water
  | 31 => .number c.fullRate.steam
  | 32 => .number c.fullRate.power
  | 33 => .number c.fullRate.lime
  | 34 => .number c.fullRate.water
  | 35 => .number c.capacityDeadband
  | 36 => .number c.tFillMin
  | 37 => .number c.tDrainRest
  | 38 => .number c.tHoldMax
  | 39 => .number c.tTurnover
  | 40 => .number c.tBankExit
  | 41 => .number c.tFreezeMax
  | 42 => .number c.tPrereqWait
  | 43 => .number c.tClaimWait
  | 44 => .number c.tAckPhase
  | 45 => .number c.tAckRate
  | 46 => .number c.tAckTurnover
  | 47 => .number c.tPortSilence
  | 48 => .number c.tFillMax
  | 49 => .number c.tDrainMax
  | 50 => .number c.tStarve
  | 51 => .number c.tHandoff
  | 52 => .number c.depth
  | 53 => .number c.lengths.fill
  | 54 => .number c.lengths.feed
  | 55 => .number c.lengths.resume
  | 56 => .number c.lengths.drain
  | 57 => .number c.lengths.endList
  | 108 => .point c.points.fill
  | 109 => .point c.points.feed
  | 110 => .point c.points.runOut
  | 111 => .point c.points.drain
  | n =>
    let list := if n < 68 then c.entries.fill else if n < 78 then c.entries.feed
      else if n < 88 then c.entries.resume else if n < 98 then c.entries.drain else c.entries.endList
    .entry (list.toList.getD ((n - 58) % 10) none)

/-- The range of an item that holds a number out of a range (R178). -/
def numberRange : Nat → Option (Nat × Nat)
  | 1 | 6 | 7 | 8 | 9 => some (0, 31)
  | 2 => some (0, 11)
  | 3 => some (0, 63)
  | 4 => some (0, 15)
  | 12 => some (1, 10)
  | 53 | 54 | 55 | 56 | 57 => some (0, 10)
  | 13 | 16 | 17 | 18 => some (1, 1000)
  | 14 => some (0, 1000)
  | 19 | 44 | 45 => some (1, 60)
  | 20 => some (0, 50)
  | 21 | 22 | 23 | 26 => some (0, 65535)
  | 24 => some (10, 3600)
  | 25 => some (0, 500)
  | 27 | 28 | 29 | 30 | 31 | 32 | 33 | 34 | 35 => some (0, 4000)
  | 36 | 37 | 50 => some (0, 3600)
  | 38 => some (600, 43200)
  | 39 => some (30, 3600)
  | 40 => some (0, 1800)
  | 41 | 43 | 46 => some (1, 600)
  | 42 | 51 => some (1, 3600)
  | 47 => some (1, 30)
  | 48 | 49 => some (60, 43200)
  | _ => none

/-- The allowed values of an item that holds one out of a set; the bit rate in units of 0.5 kbit/s (R178, 11.3). -/
def numberSet : Nat → Option (List Nat)
  | 11 => some [125, 250, 500]
  | 15 => some [1, 2, 5, 10, 20, 25, 50]
  | 52 => some [4, 6, 8, 10]
  | _ => none

/-- The subject of a prerequisite entry by its code (R180, 11.3). -/
def SubjectOfCode (n : Nat) (x : Subject) : Prop :=
  match x with
  | .up1 => n = 0
  | .up2 => n = 1
  | .down1 => n = 2
  | .down2 => n = 3
  | .station a => 4 ≤ n ∧ a.val = min 31 (n - 4)

/-- The test of a prerequisite entry by its code, resource byte and argument (R180, 11.3). -/
def TestOfCode (n resource arg : Nat) (x : PrereqTest) : Prop :=
  match x with
  | .phaseIn set => n = 0 ∧ ∀ i < 11, set.getLsbD i = arg.testBit i
  | .offerGe v => n = 1 ∧ v = min 1000 arg
  | .acceptGe v => n = 2 ∧ v = min 1000 arg
  | .ageGe v => n = 3 ∧ v = arg
  | .capacityGe r v => n = 4 ∧ r.code = min 3 resource ∧ v = min 4000 arg
  | .notFrozen => 5 ≤ n

/-- What an item holds once its value bytes are taken (R179, R180, 11.3). -/
def Loads (item : Nat) (v0 v1 v2 v3 v4 : Byte) (x : ItemValue) : Prop :=
  let word := 256 * v0.toNat + v1.toNat
  match x with
  | .number n =>
    (∃ lo hi, numberRange item = some (lo, hi) ∧ n = max lo (min hi word))
      ∨ ∃ set, numberSet item = some set ∧ n ∈ set
          ∧ (n ≤ word ∧ (∀ m ∈ set, m ≤ word → m ≤ n) ∨ ∀ m ∈ set, word < m ∧ n ≤ m)
  | .resources f => item = 5 ∧ ∀ r : Resource, f.get r = v0.getLsbD r.code
  | .addresses m =>
    item = 10 ∧ m.getLsbD 0 = false ∧ ∀ i < 32, i ≠ 0 → m.getLsbD i = (v0 ++ v1 ++ v2 ++ v3).getLsbD i
  | .entry none => False
  | .entry (some e) =>
    58 ≤ item ∧ item ≤ 107 ∧ SubjectOfCode v0.toNat e.subject
      ∧ TestOfCode (v1.toNat % 128) v2.toNat (256 * v3.toNat + v4.toNat) e.test
      ∧ e.absentIsMet = decide (128 ≤ v1.toNat)
  | .point p =>
    108 ≤ item ∧ item ≤ 111
      ∧ p.mode = (if v0 = 0 then .none else if v0 = 1 then .confirmOnly else .coUnit)
      ∧ p.coUnit.val = min 31 v1.toNat ∧ p.work.val = min 15 v2.toNat

/-- The number an item holds is in its range or set (R178). -/
def Settings.InRange (c : Settings) : Prop :=
  ∀ item n, c.item item = .number n →
    (∀ lo hi, numberRange item = some (lo, hi) → lo ≤ n ∧ n ≤ hi) ∧ ∀ set, numberSet item = some set → n ∈ set

/-- A check of the lock that fails, by the item it names (R181). -/
def Settings.LockFails (c : Settings) : Nat → Prop
  | 1 => c.ownAddress = 0
  | 6 => c.up1 = c.ownAddress
  | 7 => c.up2 = c.ownAddress
  | 8 => c.down1 = c.ownAddress
  | 9 => c.down2 = c.ownAddress
  | 13 => ¬ c.q ∣ c.rMax
  | 14 => ¬ (c.rMin ≤ c.rMax ∧ c.q ∣ c.rMin)
  | 18 => ¬ c.q ∣ c.maxStep
  | 22 => ¬ c.hSet ≤ c.hMax
  | 23 => ¬ c.hDr < c.hSet
  | 53 => ¬ c.lengths.fill ≤ c.depth
  | 54 => ¬ c.lengths.feed ≤ c.depth
  | 55 => ¬ c.lengths.resume ≤ c.depth
  | 56 => ¬ c.lengths.drain ≤ c.depth
  | 57 => ¬ c.lengths.endList ≤ c.depth
  | 108 => c.points.fill.mode = .coUnit ∧ c.points.fill.coUnit = c.ownAddress
  | 109 => c.points.feed.mode = .coUnit ∧ c.points.feed.coUnit = c.ownAddress
  | 110 => c.points.runOut.mode = .coUnit ∧ c.points.runOut.coUnit = c.ownAddress
  | 111 => c.points.drain.mode = .coUnit ∧ c.points.drain.coUnit = c.ownAddress
  | n =>
    58 ≤ n ∧ n ≤ 107 ∧ c.item n = .entry none
      ∧ (n - 58) % 10 < (if n < 68 then c.lengths.fill else if n < 78 then c.lengths.feed
          else if n < 88 then c.lengths.resume else if n < 98 then c.lengths.drain else c.lengths.endList)

/-- The local result that the configuration store writes (R116, R179). -/
def State.withResult (s : State) (tag : Byte) (o : Reply) (detail : Byte) : State :=
  { s with du := ⟨some ⟨.configuration, tag, o, detail⟩, s.du.count + 1⟩ }

/-! ### The section port's records (chapters 8 and 11) -/

/-- A summary slot's byte (R148, 11.4): NONE for address 0, else presence and phase, Fh for an absent one. -/
def State.slotCode (s : State) (a : Station) : Nat :=
  if a = 0 then 15
  else 16 * (s.entry a).presence.code + (match (s.entry a).phase with
    | some p => p.code
    | none => 15)

/-- The four neighbours and the four providers, in the order of page 2 (R148). -/
def State.slotStations (s : State) : List Station :=
  (if s.cs.locked then [s.cs.set.up1, s.cs.set.up2, s.cs.set.down1, s.cs.set.down2] else [0, 0, 0, 0])
    ++ Resource.all.map fun r => (s.sp.providers.get r).getD 0

/-- The addresses the detail page goes round (R148). -/
def State.onRound (s : State) (a : Station) : Prop :=
  a ≠ 0 ∧ s.isOwn a = false ∧ (s.stored a).presence ≠ .unheard

/-- The three bytes of a presented command (11.4). -/
def CommandShown (o : Outstanding) (b0 b1 b2 : Byte) : Prop :=
  match o.command with
  | .setPhase p _ => b0.toNat = 16 * o.token.val ∧ b1 = 0 ∧ b2.toNat = p.code
  | .setRate v _ => b0.toNat = 16 * o.token.val + 1 ∧ word16 b1 b2 = v % 65536
  | .turnover => b0.toNat = 16 * o.token.val + 2 ∧ b1 = 0 ∧ b2 = 0
  | .handoffWork k p a => b0.toNat = 16 * o.token.val + 3 ∧ b1.toNat = k.val + 16 * p.code ∧ b2.toNat = a.val

/-- The order record of a state, byte by byte (R147, R148, 11.4). -/
structure RecordShows (s : State) (b : List Byte) : Prop where
  /-- 32 bytes, the last the CRC-8 of those before. -/
  whole : b.length = 32 ∧ byteAt b 31 = crc8 (b.take 31)
  /-- Phase, lock, line state and page. -/
  states : (byteAt b 0).toNat = s.ps.phase.code
    ∧ (byteAt b 1).toNat = (if s.cs.locked then 1 else 0) + (if s.lc.line = .isolated then 2 else 0) + 4 * s.sp.page.val
  /-- The flags word and the two rates. -/
  rates : wordAt b 2 = s.flags.word ∧ wordAt b 4 = s.sp.rIss % 65536 ∧ wordAt b 6 = s.sp.rAck % 65536
  /-- The presented commands, in issue order. -/
  commands : (byteAt b 8).toNat = min 2 s.sp.outstanding.length
    ∧ (∀ k o, k < 2 → s.sp.outstanding[k]? = some o →
        CommandShown o (byteAt b (9 + 3 * k)) (byteAt b (10 + 3 * k)) (byteAt b (11 + 3 * k)))
    ∧ ∀ k, k < 2 → s.sp.outstanding[k]? = none →
        byteAt b (9 + 3 * k) = 0 ∧ byteAt b (10 + 3 * k) = 0 ∧ byteAt b (11 + 3 * k) = 0
  /-- The local result, all 0 when absent, and the result count. -/
  result : (∀ r, s.du.result = some r →
      (byteAt b 15).toNat = 128 + 64 * r.origin.code + r.outcome.code ∧ byteAt b 16 = r.tag
        ∧ (byteAt b 17).toNat = r.outcome.refusalCode ∧ byteAt b 18 = r.detail)
    ∧ (s.du.result = none → byteAt b 15 = 0 ∧ byteAt b 16 = 0 ∧ byteAt b 17 = 0 ∧ byteAt b 18 = 0)
    ∧ byteAt b 19 = s.du.count
  /-- The trip record's first cause, later causes and overflow flag; Fh for none. -/
  trip : (∀ r, s.tr.record = some r → r.later.length ≤ 4 →
      (byteAt b 20).toNat = 16 * r.first.code + (if r.overflow then 8 else 0) + r.later.length
        ∧ ∀ k < 4, (byteAt b (21 + k / 2)).toNat / (if k % 2 = 0 then 16 else 1) % 16
            = (match r.later[k]? with
              | some x => x.code
              | none => 15))
    ∧ (s.tr.record = none → byteAt b 20 = 0xF0#8 ∧ byteAt b 21 = 0xFF#8 ∧ byteAt b 22 = 0xFF#8)
  /-- Page 0: engine state and holding of each resource. -/
  holdings : s.sp.page = 0 → ∀ r : Resource, (s.au.res.get r).holding ≤ 4000 →
    wordAt b (23 + 2 * r.code) = 4096 * (s.au.res.get r).engine.code + (s.au.res.get r).holding
  /-- Page 1: the counts, the published holdup and the HU byte. -/
  counts : s.sp.page = 1 →
    (byteAt b 23).toNat = s.lc.lineErrors % 256 ∧ (byteAt b 24).toNat = s.sp.strayCount % 256
      ∧ (byteAt b 25).toNat = s.sp.reportErrors % 256 ∧ wordAt b 26 = min 65535 (s.tu.holdup / 60)
      ∧ (byteAt b 28).toNat = (match s.hu.record with
          | none => 0
          | some h => match h.state with
            | .awaitDone _ => 1
            | .confirmWait _ => 2) + 16 * min 2 s.hu.queue.length
      ∧ byteAt b 29 = 0 ∧ byteAt b 30 = 0
  /-- Page 2: the neighbours and the providers. -/
  neighbours : s.sp.page = 2 → ∀ k < 8, (byteAt b (23 + k)).toNat = s.slotCode (s.slotStations.getD k 0)
  /-- Page 3 with nothing to show. -/
  nobody : s.sp.page = 3 → (∀ a, ¬ s.onRound a) → ∀ k < 8, byteAt b (23 + k) = 0

/-- Page 3 shows one entry in full; its holdup and chain position lie in their ranges (R30, R148, 11.4). The value bits
of an absent holdup or chain position are sent 0 (DESIGN CHOICE, log 41). -/
def DetailShown (s : State) (b : List Byte) (a : Station) : Prop :=
  let e := s.stored a
  (∀ h, e.holdup = some h → h < 65536) → (∀ n, e.chainPosition = some n → n < 64) →
    (byteAt b 23).toNat = a.val ∧ (byteAt b 24).toNat = s.slotCode a ∧ wordAt b 25 = e.flags.word
    ∧ wordAt b 27 = e.holdup.getD 0
    ∧ (byteAt b 29).toNat
        = 16 * (match e.sectionClass with
          | some c => c.code
          | none => 15) + (match e.cause with
          | some c => c.code
          | none => 15)
    ∧ (byteAt b 30).toNat
        = (match e.chainPosition with
          | some n => n + 64
          | none => 0) + (if e.holdup = none then 0 else 128)

/-- The bytes of an acknowledgement (11.3). -/
def ackByte (a : Token × AckOutcome) : Byte :=
  BitVec.ofNat 8 (a.1.val + match a.2 with
    | .done => 0
    | .failed => 16)

/-- The two bytes of a 16-bit field of a report. -/
def fieldBytes (n : Nat) : List Byte := [BitVec.ofNat 8 (n / 256), BitVec.ofNat 8 n]

/-- A set or clear bit's weight. -/
def weight (b : Bool) (n : Nat) : Nat := if b then n else 0

/-- The flags byte of a report (11.3). -/
def ReportFlags.byte (f : ReportFlags) : Byte :=
  BitVec.ofNat 8 (weight f.filled 1 + weight f.drained 2 + weight f.tripRequest 4 + weight f.freeze 8
    + weight f.selfTurnover 16 + weight f.lookAhead 32)

/-- The header byte of a report (11.3). -/
def Report.header (r : Report) : Byte :=
  BitVec.ofNat 8 (r.acks.length + weight r.holdup.isSome 4 + weight r.capacity.isSome 8 + weight r.directive.isSome 16
    + match r.config with
      | none => 0
      | some (.item _ _ _ _ _ _) => 32
      | some .lock => 64
      | some .restart => 96)

/-- The bytes between header and CRC (11.3). -/
def Report.fields (r : Report) : List Byte :=
  r.acks.map ackByte
    ++ (match r.holdup with
      | some h => fieldBytes h
      | none => [])
    ++ (match r.capacity with
      | some (x, n) => x :: fieldBytes n
      | none => [])
    ++ (match r.directive with
      | some (.part c g h l x) => [c, g, h, l, x]
      | _ => [])
    ++ (match r.config with
      | some (.item i v0 v1 v2 v3 v4) => [i, v0, v1, v2, v3, v4]
      | _ => [])

/-- A report as the controller clocks it in (11.3, R144). -/
def Report.bytes (r : Report) : List Byte :=
  let body := BitVec.ofNat 8 (r.fields.length + 4) :: r.flags.byte :: r.header :: r.fields
  body ++ [crc8 body]

/-- A report that the format can carry (R144, 11.3). -/
def Report.carried (r : Report) : Prop :=
  r.acks.length ≤ 2 ∧ (∀ h, r.holdup = some h → h < 65536) ∧ (∀ x n, r.capacity = some (x, n) → n < 65536)
    ∧ ∀ a p, r.directive ≠ some (.frame a p)

/-- How many bytes the fields that a header announces take (11.3). -/
def announced (header : Byte) : Nat :=
  let n := header.toNat
  n % 4 + (if n / 4 % 2 = 1 then 2 else 0) + (if n / 8 % 2 = 1 then 3 else 0) + (if n / 16 % 2 = 1 then 5 else 0)
    + (if n / 32 % 4 = 1 then 6 else 0)

/-- The four tests of a report, on the bytes kept of it (R143, R144). -/
def ReportValid (k : List Byte) : Prop :=
  let n := (byteAt k 0).toNat
  n ≤ k.length ∧ 4 ≤ n ∧ n ≤ 64 ∧ n = 4 + announced (byteAt k 2) ∧ (byteAt k 2).toNat % 4 ≠ 3
    ∧ (∀ i < (byteAt k 2).toNat % 4, (byteAt k (3 + i)).toNat / 16 % 4 ≤ 1)
    ∧ byteAt k (n - 1) = crc8 (k.take (n - 1))

/-- The bits of a byte, most significant first (R187). -/
def msbFirst (b : Byte) : List Bool := (List.range 8).map fun i => b.getLsbD (7 - i)

/-- Bits sampled on SDI in an exchange are the bits of some bytes, followed by less than one byte more (R143, R187). -/
def Spells (sdi : List Bool) (bytes : List Byte) : Prop :=
  ∃ rest : List Bool, rest.length < 8 ∧ sdi = bytes.flatMap msbFirst ++ rest

/-- The detail cursor after the start of an exchange: on page 3 it has moved to the next address that the page goes
round, after the highest to the lowest, and otherwise it stands (R148). -/
def State.CursorMoves (s : State) (c : Station) : Prop :=
  (s.sp.page ≠ 3 ∨ (∀ a, ¬ s.onRound a) → c = s.sp.cursor)
    ∧ ∀ a, s.sp.page = 3 → s.onRound a →
        (s.sp.cursor < a ∧ (∀ x, s.onRound x → s.sp.cursor < x → a ≤ x)
          ∨ (∀ x, s.onRound x → x ≤ s.sp.cursor) ∧ ∀ x, s.onRound x → a ≤ x) → c = a

/-- The exchange that a report ends, by the local result it carried, and the cursor it leaves: the exchange open, or
with none open one that starts in the same instant (DESIGN CHOICE, log 10). -/
def State.Ends (s : State) (e : Exchange) (c : Station) : Prop :=
  s.sp.exchange = some e ∧ c = s.sp.cursor
    ∨ s.sp.exchange = none ∧ e.present = s.du.result.isSome ∧ e.count = s.du.count ∧ s.CursorMoves c

/-- A valid report is in and the exchange is over: page, seen local result, last report, port silence and look-ahead
(R143, R145, R146, R148, R151, R161). `e` is what the exchange carried, `c` the cursor it leaves. -/
def State.afterReport (s : State) (e : Exchange) (c : Station) (f : ReportFlags) : State :=
  { s with sp := { s.sp with
    page := s.sp.page + 1, exchange := none, cursor := c, seenPresent := e.present, seenCount := e.count
    lastReport := some f, lookAhead := f.lookAhead
    portSilence := if s.ps.phase ∈ [.filling, .filled, .running, .hold, .banked, .runOut, .draining] then
      some (s.cs.set.tPortSilence + 1) else s.sp.portSilence } }

/-- The state with the trip request memory set (R131). -/
def State.remembers (s : State) (flag : Bool) : State := { s with tr := { s.tr with memory := flag } }

/-- The flags of a report meet the completion conditions of the transition `r` (R14, R15). -/
def State.CompletionMet (s : State) (f : ReportFlags) (r : SlotRec) : Prop :=
  (r.handoff = .notNeeded ∨ r.handoff = .fulfilled)
    ∧ (s.ps.phase = .filling ∧ f.filled = true
      ∨ s.ps.phase = .draining ∧ f.drained = true ∧ s.ps.drainReading.getD 0 ≤ s.cs.set.hDr)

/-- A report of flags alone. -/
def Report.bare (f : ReportFlags) : Report := ⟨f, [], none, none, none, none⟩

/-- A command whose event can bring the last condition of FILLING or DRAINING, the state `u` that the event leaves ahead
of the completion, and the requester that is replied TAKEN with it: a CONFIRM, the HANDOFF_DONE that answers a blocking
handoff with SUCCESS, a report of flags alone with the overlay clear, or the report that clears it (R14, R15, R28,
R120, R122, R145). -/
def State.LastCondition (s : State) (c : Instr) (u : State) (also : Option Requester) : Prop :=
  let ended : State := { s with
    hu := { s.hu with record := none, counitWait := false }
    ps := { s.ps with slot := s.ps.slot.map SlotRec.fulfil } }
  (∃ src h w, c = .confirm src ∧ s.admits src .confirm = true ∧ s.hu.record = some h ∧ h.state = .confirmWait w
      ∧ u = ended ∧ also = some (Source.requester src))
  ∨ (∃ a p h x, c = .handoffDone a p ∧ s.receives = true ∧ p.length = 4
      ∧ (byteAt p 0).toNat = s.cs.set.ownAddress.val ∧ byteAt p 2 = 0 ∧ s.hu.record = some h ∧ h.call = some x
      ∧ x.coUnit = a ∧ x.tag = byteAt p 1 ∧ h.point.blocking = true ∧ s.ps.frozen = false ∧ u = ended ∧ also = none)
  ∨ ∃ sdi bytes f e k v, c = .reportArrival sdi ∧ Spells sdi bytes ∧ s.Ends e k 
      ∧ parseReport bytes = some (.bare f)
      ∧ f.freeze = false ∧ (f.tripRequest = true → s.tr.memory = true) ∧ (f.lookAhead = true → s.hu.NoneWaiting)
      ∧ v = (s.afterReport e k f).remembers f.tripRequest
      ∧ (s.ps.frozen = false ∧ u = v
        ∨ s.ps.frozen = true ∧ u = { v with
            ps := { v.ps with frozen := false, freezeMax := none, waiting := ⟨false, false, false, false⟩ }
            tu := { v.tu with held := none } })
      ∧ also = none

/-- The last condition of FILLING or DRAINING holds in `u`, and the transition's SET_PHASE FILLED or DRAINED issues
where nothing is outstanding: the phase changes at its issue and the requester is replied DONE; otherwise the SET_PHASE
waits. A requester beside it is replied TAKEN, after the DONE (R14, R15; DESIGN CHOICE, log 42). `q` is the sequencer
with the phase's maximum timer stopped. -/
def Completed (s u t : State) (r : SlotRec) (p : Phase) (q : PS) (also : Option Requester) : Prop :=
  (u.sp.outstanding = [] →
    PhaseEntered { u with
        ps := { q with slot := none, waiting := ⟨false, false, false, false⟩ }
        au := { u.au with res := .of fun x => { u.au.res.get x with raised := none } }
        sp := u.sp.issued u.cs.set (.setPhase p .completion) } t p .none
      ((u.sp.issued u.cs.set (.setPhase p .completion)).enter u.cs.set u.ps.phase p)
    ∧ match also with
      | none => Delivered s.du s.lc t.du t.lc r.requester .done 0
      | some y => DeliveredTwice s t r.requester .done y .taken)
  ∧ (u.sp.outstanding ≠ [] →
    let v : State := { u with
      ps := { q with slot := some { r with stage := .waitIssue } }, sp := { u.sp with psReq := some (p, .completion) } }
    match also with
    | none => Noted s v t
    | some y => Replied s v t y .taken 0)

/-- The flags of a report move nothing: the freeze flag is as the overlay, the trip request is remembered already, no
self-turnover counts, no completion is met or the overlay holds it back, and a look-ahead permission releases
nothing. -/
structure State.Unmoved (s : State) (f : ReportFlags) : Prop where
  freeze : f.freeze = s.ps.frozen
  request : f.tripRequest = true → s.tr.memory = true
  turnover : f.selfTurnover = true → s.ps.phase ≠ .hold ∧ s.ps.phase ≠ .banked
  slot : ∀ x, s.ps.slot = some x → x.stage = .waitCompletion → s.ps.frozen = true ∨ ¬ s.CompletionMet f x
  lookAhead : f.lookAhead = true → s.sp.Quiet ∧ s.hu.NoneWaiting

/-- The row that a report's local directive is (R94, R96, 11.5). -/
def portCommand (d : RawDirective) : Instr :=
  match d with
  | .frame _ _ => .directiveBadCode d
  | .part code tag h l x =>
    match code.toNat with
    | 1 => .startCampaign (.port tag)
    | 2 => .fill (.port tag)
    | 3 => .feed (.port tag) (h ++ l)
    | 4 => .hold (.port tag)
    | 5 => .resume (.port tag)
    | 6 => .bank (.port tag)
    | 7 => .runOut (.port tag) (h ++ l) (x.getLsbD 0)
    | 8 => .stopRunOut (.port tag)
    | 9 => .drain (.port tag)
    | 10 => .endCampaign (.port tag)
    | 11 => .trip (.port tag)
    | 12 => .clearTrip (.port tag)
    | 13 => .confirm (.port tag)
    | 14 => .cancel (.port tag)
    | _ => .directiveBadCode d

/-- The row that a report's configuration part is (R179, R181, R185). -/
def configCommand : ConfigPart → Instr
  | .item i v0 v1 v2 v3 v4 => .configItem i v0 v1 v2 v3 v4
  | .lock => .lockConfig
  | .restart => .restartNode

/-! ### Time (logs 1 and 3) -/

/-- A timer a second on: one less when it runs and nothing suspends it. -/
def aSecondOn (runs : Bool) (x : Timer) : Timer := if runs then x.map (· - 1) else x

/-- The expiries that are due in a state (1.3, R6, R42, R51, R69, R90, R121, R146, R158, R173, R174, R38). Those of the
timers that a freeze suspends wait for its end (R28). A cause that stands raised is due until it is taken (R132; log
45). -/
def State.ExpiryDue (s : State) : Instr → Prop
  | .rateIntervalExpiry => s.ps.frozen = false ∧ s.tu.interval = some 0
  | .starveTimerExpiry => s.ps.frozen = false ∧ s.tu.starveTimer = some 0
  | .blockTimerExpiry => s.ps.frozen = false ∧ s.tu.blockTimer = some 0
  | .dwellExpiry => s.ps.frozen = false ∧ s.ps.dwell = some 0
  | .settleExpiry => s.ps.frozen = false ∧ ∃ r, s.ps.slot = some r ∧ r.stage = .waitDwell ∧ r.settle = some 0
  | .prereqDeadlineExpiry =>
    s.ps.frozen = false ∧ ∃ r, s.ps.slot = some r ∧ (r.stage = .waitDwell ∨ r.stage = .waitPrereq)
      ∧ r.deadline = some 0
  | .claimDeadlineExpiry =>
    s.ps.frozen = false ∧ ∃ r, s.ps.slot = some r ∧ r.stage = .waitClaim ∧ r.deadline = some 0
  | .fillTimeout => s.ps.frozen = false ∧ s.ps.fillMax = some 0 ∨ .fillTimeout ∈ s.tr.raised
  | .drainTimeout => s.ps.frozen = false ∧ s.ps.drainMax = some 0 ∨ .drainTimeout ∈ s.tr.raised
  | .holdMaximumExpiry => s.ps.frozen = false ∧ s.ps.holdMax = some 0
  | .ageWatchExpiry a =>
    s.ps.frozen = false ∧ ∃ n since, (a, n) ∈ s.pv.watches ∧ (s.entry a).phaseSince = some since ∧ n ≤ s.age since
  | .turnoverTimerExpiry => s.ps.turnover = some 0 ∨ .stagnation ∈ s.tr.raised
  | .freezeLong => s.ps.freezeMax = some 0
  | .underStandingTimeout => s.au.underTimer = some 0 ∨ .utilityLost ∈ s.tr.raised
  | .portSilent => s.sp.portSilence = some 0 ∨ .portSilent ∈ s.tr.raised
  | .handoffDeadlineExpiry => ∃ h, s.hu.record = some h ∧ h.state = .awaitDone (some 0)
  | .statusPeriodExpiry => s.lc.statusTimer = some 0
  | .shortSpacingExpiry => s.lc.spacing = some 0
  | .setPhaseAckTimeout k =>
    ∃ o ∈ s.sp.outstanding, o.token = k ∧ o.left = some 0 ∧ ∃ p w, o.command = .setPhase p w
  | .setRateAckTimeout k =>
    ∃ o ∈ s.sp.outstanding, o.token = k ∧ o.left = some 0 ∧ ∃ v b, o.command = .setRate v b
  | .turnoverAckTimeout k => ∃ o ∈ s.sp.outstanding, o.token = k ∧ o.left = some 0 ∧ o.command = .turnover
  | .handoffWorkAckTimeout k =>
    ∃ o ∈ s.sp.outstanding, o.token = k ∧ o.left = some 0 ∧ ∃ w p a, o.command = .handoffWork w p a
  | .peerSilence a =>
    a ≠ 0 ∧ s.isOwn a = false ∧ (s.stored a).presence = .live
      ∧ ∃ h, (s.stored a).lastHeard = some h ∧ 3 * (s.stored a).statusPeriod.getD 10 < s.elapsed h
  | _ => False

/-- A second has passed: the count and every timer that runs (R184, 1.3, R28, R72). -/
def State.aSecondLater (s : State) : State :=
  let runs := !s.ps.frozen
  { s with
    now := (s.now + 1) % 4294967296
    ps := { s.ps with
      slot := s.ps.slot.map fun r => { r with deadline := aSecondOn runs r.deadline, settle := aSecondOn runs r.settle }
      dwell := aSecondOn runs s.ps.dwell, fillMax := aSecondOn runs s.ps.fillMax
      drainMax := aSecondOn runs s.ps.drainMax, holdMax := aSecondOn runs s.ps.holdMax
      turnover := aSecondOn true s.ps.turnover, freezeMax := aSecondOn true s.ps.freezeMax }
    tu := { s.tu with
      interval := aSecondOn runs s.tu.interval, starveTimer := aSecondOn runs s.tu.starveTimer
      blockTimer := aSecondOn runs s.tu.blockTimer
      runOut := s.tu.runOut.map fun d =>
        if runs && s.ps.phase = .runOut && d.mode = .timed then { d with rem := d.rem - 1 } else d }
    au := { s.au with underTimer := aSecondOn true s.au.underTimer }
    hu := { s.hu with record := s.hu.record.map fun h => { h with state := match h.state with
      | .awaitDone d => .awaitDone (aSecondOn true d)
      | .confirmWait w => .confirmWait w } }
    sp := { s.sp with
      outstanding := s.sp.outstanding.map fun o => { o with left := aSecondOn true o.left }
      portSilence := aSecondOn true s.sp.portSilence }
    lc := { s.lc with statusTimer := aSecondOn true s.lc.statusTimer } }

/-! ### Invariants -/

/-- These values are in the ranges that the spec gives them: the seconds count (R184), the stored items (R178), the
TU's data (R50) with the run-out times wherever they are kept (R3, R17), the rates of the section port and what is to
become one (R63, R149, R160), the published rates (R65 to R68, R172), the message FIFO (R171), the counts (R144, R154,
R164, R175), the service queue (R126), the outstanding list with its tokens (R150, R151), the trip record (R135), the
AU's amounts (R74, R78), those the line controller has in its slots and on the line (R168, R172), and the peer entries
(R30). -/
structure State.InBounds (s : State) : Prop where
  clock : s.now < 4294967296
  items : s.cs.set.InRange
  throughput : s.tu.holdup ≤ 99999999 ∧ s.tu.limitC ≤ 1000 ∧ s.tu.limitS ≤ 1000 ∧ s.tu.good ≤ 2
    ∧ (∀ n, s.tu.interval = some n → n ≤ 60) ∧ ∀ x, s.tu.parts.get x ≤ 4000
  runOuts : ∀ d, s.tu.runOut = some d ∨ s.ps.link = some (.runOut d)
      ∨ (∃ r, s.ps.slot = some r ∧ r.runOut = some d) → d.rem ≤ 65535
  rates : s.sp.rIss ≤ 1000 ∧ s.sp.rAck ≤ 1000
    ∧ ∀ v, s.tu.train = some v ∨ s.sp.rateReq = some v ∨ s.sp.pairReq = some v ∨ s.sp.pairRate = some v
        ∨ (∃ o ∈ s.sp.outstanding, ∃ b, o.command = .setRate v b) → v ≤ 1000
  published : s.offer ≤ 1000 ∧ s.acceptance ≤ 1000 ∧ s.lc.lastOffer ≤ 1000 ∧ s.lc.lastAcceptance ≤ 1000
    ∧ ∀ o a, s.tu.held = some (o, a) → o ≤ 1000 ∧ a ≤ 1000
  fifo : s.lc.fifo.length ≤ 8
  counts : s.lc.failures < 8 ∧ s.lc.lineErrors ≤ 255 ∧ s.sp.strayCount ≤ 255 ∧ s.sp.reportErrors ≤ 255
  services : s.hu.queue.length ≤ 2
  outstanding : s.sp.outstanding.length ≤ 2 ∧ (s.sp.outstanding.map Outstanding.token).Nodup
    ∧ ((∃ o ∈ s.sp.outstanding, ∃ p w, o.command = .setPhase p w) → s.sp.outstanding.length = 1)
  trip : ∀ r, s.tr.record = some r → r.later.length ≤ 4
  amounts : ∀ x, (s.au.res.get x).holding ≤ 4000 ∧ (s.au.res.get x).announced ≤ 4000
    ∧ (s.au.res.get x).longCapacity ≤ 4000
    ∧ ∀ n, (s.au.res.get x).raised = some n ∨ (s.au.res.get x).claimValue = some n
        ∨ (s.au.res.get x).reading = some n ∨ s.lc.allot.get x = some (.claim n)
        ∨ s.lc.allot.get x = some (.release n) → n ≤ 4000
  line : ∀ y, s.lc.tx = some y →
    (∀ x n, y.frame = .allot x (.claim n) ∨ y.frame = .allot x (.release n) → n ≤ 4000)
      ∧ ∀ n, y.frame = .status n →
        n.offer ≤ 1000 ∧ n.acceptance ≤ 1000 ∧ ∀ x, n.holdings.get x ≤ 4000 ∧ n.capacities.get x ≤ 4000
  peers : ∀ a, (s.stored a).offer ≤ 1000 ∧ (s.stored a).acceptance ≤ 1000
    ∧ (∀ n, (s.stored a).holdup = some n → n ≤ 65535) ∧ (∀ n, (s.stored a).chainPosition = some n → n ≤ 63)
    ∧ (∀ n, (s.stored a).rank = some n → n ≤ 15)
    ∧ (∀ n, (s.stored a).statusPeriod = some n → 1 ≤ n ∧ n ≤ 10)
    ∧ ∀ x n, (s.stored a).holdings.get x = some n ∨ (s.stored a).capacities.get x = some n → n ≤ 4000

/-- The claim of a resource stands in its slot while the engine is RESERVED or SENDING and nowhere else, the line
carries it while SENDING, and its value fits the headroom of the tallies it was judged against, with no holding
unknown (R80 to R85). -/
structure State.ClaimsFit (s : State) : Prop where
  /-- A claim waits in its slot exactly while the engine is RESERVED or SENDING. -/
  slot : ∀ x v, s.lc.allot.get x = some (.claim v) →
    ((s.au.res.get x).engine = .reserved ∨ (s.au.res.get x).engine = .sending)
      ∧ (s.au.res.get x).claimValue = some v
  engine : ∀ x, (s.au.res.get x).engine = .reserved ∨ (s.au.res.get x).engine = .sending →
    ∃ v, s.lc.allot.get x = some (.claim v)
  /-- The claim's value and the tallies. -/
  fits : ∀ x v, (s.au.res.get x).claimValue = some v →
    ((s.au.res.get x).engine = .reserved ∨ (s.au.res.get x).engine = .sending)
      ∧ v ≤ 4000 ∧ (s.au.res.get x).tally.others + v ≤ (s.au.res.get x).tally.capacity
      ∧ (s.au.res.get x).tally.unknown = false
  /-- The engine is SENDING exactly while the line carries the claim. -/
  sending : ∀ x, (s.au.res.get x).engine = .sending ↔
    ∃ y v, s.lc.tx = some y ∧ y.begun = true ∧ y.frame = .allot x (.claim v)
  /-- A frame of an allotment slot on the line is that slot's. -/
  line : ∀ y x, s.lc.tx = some y → (y.slot = .allot x ↔ ∃ f, y.frame = .allot x f)
  begun : ∀ y x f, s.lc.tx = some y → y.begun = true → y.frame = .allot x f → s.lc.allot.get x = some f
  /-- While ISOLATED every engine is SUSPENDED and no frame waits (R91). -/
  isolated : s.lc.line = .isolated → ∀ x, (s.au.res.get x).engine = .suspended ∧ s.lc.allot.get x = none

/-- Where a RELEASE is due it stands in its slot (R86): on an ACTIVE line, no frame of the resource in transmission, the
engine neither RESERVED nor SENDING, and the announced holding not the holding. -/
def State.ReleasesPlaced (s : State) : Prop :=
  ∀ x, s.lc.line = .active → s.allotBegun x = false → (s.au.res.get x).engine ≠ .reserved →
    (s.au.res.get x).engine ≠ .sending → (s.au.res.get x).announced ≠ (s.au.res.get x).holding →
    s.lc.allot.get x = some (.release (s.au.res.get x).holding)

end Sys2Proof.Machine
end

