-- ==== Sys2Proof/Certificates/Slice0/Obligations.lean ====
section
/-!
DEFINITION. The statements for the provers.

Conventions of the model that are no rule of the manual enter many of them, and each docstring names the logs that its
statement rests on. Log 23 (DEDUCED): the short due mark is found by comparing the states before and after an event.
Log 13 (DEDUCED): a change of the own published capacity is a change report, held while the resource's frame is in
transmission. Log 17 (DESIGN CHOICE): a row that is one part of a report is that part taken alone. Log 11 (DEDUCED): an
acknowledgement finds its owner by its token. Log 10 (DESIGN CHOICE): a report that arrives with no exchange open starts
one in the same instant.
-/

open Sys2Proof Sys2Proof.Machine

/-! ### The directives (chapter 5) -/

/-- R97 to R100, for each of the fourteen directives: who sent it, whether the node is locked, whether its authority
is allowed for its kind and whether the freeze lets it pass, in the order of R99's steps 1 to 6. Conventions of the
model: logs 23 and 17. -/
def Obligations.DirectivesAreJudgedInOrder : Prop :=
  ∀ (c : Instr) (src : Source) (d : Directive) (s : State), directiveOfCommand c = some (src, d) → s.calm = true →
    (∀ a m t1 t2 tag, src = .line a m t1 t2 tag →
      ((s.receives && s.targeted m t1 t2) = false → exec c s = .next s)
      ∧ ((s.receives && s.targeted m t1 t2) = true → s.cs.set.inAuthoritySet a = false →
          ∃ t, exec c s = .next t ∧ Refused s t (.line a tag) .notAuthorized))
    ∧ (∀ tag, src = .port tag → s.cs.locked = false →
        ∃ t, exec c s = .next t ∧ Refused s t (.port tag) .configUnlocked)
    ∧ (s.hears src = true → d.allows (Source.authority src) = false →
        ∃ t, exec c s = .next t ∧ Refused s t (Source.requester src) .notAuthorized)
    ∧ (s.hears src = true → d.allows (Source.authority src) = true → s.ps.frozen = true →
        d.passesFreeze s.ps.phase = false →
        ∃ t, exec c s = .next t ∧ Refused s t (Source.requester src) .frozen)

/-- R102, R104, R106 and R107 with R5, R7, R10 and R11: the five directives whose kinds have no prerequisite list and
no claim stage start their transition, and so do DRAIN, at a point of mode NONE, and END_CAMPAIGN with their list met.
Conventions of the model: logs 23 and 17. -/
def Obligations.DirectivesStartTheirTransition : Prop :=
  ∀ (src : Source) (s : State), s.phaseFree →
    (s.admits src .startCampaign = true → s.ps.phase = .cold →
      ∃ t, exec (.startCampaign src) s = .next t
        ∧ Started s s t { SlotRec.new .primed .start (Source.requester src) (Source.authority src) none with
            handoff := .notNeeded })
    ∧ (s.admits src .hold = true → (s.ps.phase = .running ∨ s.ps.phase = .runOut ∧ s.tu.data.closeAfter = false) →
      ∃ t, exec (.hold src) s = .next t
        ∧ Started s s t { SlotRec.new .hold .hold (Source.requester src) (Source.authority src) none with
            handoff := .notNeeded })
    ∧ (s.admits src .bank = true → s.ps.phase = .hold →
      ∃ t, exec (.bank src) s = .next t
        ∧ Started s s t { SlotRec.new .banked .bank (Source.requester src) (Source.authority src) none with
            handoff := .notNeeded })
    ∧ (s.admits src .stopRunOut = true → s.ps.phase = .runOut → s.tu.data.mode = .toEmpty →
        s.tu.data.closeAfter = false →
      ∃ t, exec (.stopRunOut src) s = .next t
        ∧ Started s s t { SlotRec.new .hold .stopRunOut (Source.requester src) (Source.authority src) none with
            handoff := .notNeeded })
    ∧ (∀ length closeAfter, s.admits src (.runOut (runOutData length closeAfter)) = true → s.ps.phase = .running →
        s.cs.set.points.runOut.mode = .none →
      ∃ t, exec (.runOut src length closeAfter) s = .next t
        ∧ Started s s t { SlotRec.new .runOut .runOut (Source.requester src) (Source.authority src)
            (some (runOutData length closeAfter)) with handoff := .notNeeded })
    ∧ (s.admits src .drain = true →
        (s.ps.phase = .runOut ∧ s.tu.runoutDone = true
          ∨ (s.ps.phase = .filled ∨ s.ps.phase = .hold) ∧ s.tu.holdup ≤ s.cs.set.hDr * 60) →
        s.firstUnmet .drain = none → s.cs.set.points.drain.mode = .none →
      ∃ t, exec (.drain src) s = .next t
        ∧ Started s s.unwatched t
            { SlotRec.new .draining .drain (Source.requester src) (Source.authority src) none with
              handoff := .notNeeded })
    ∧ (s.admits src .endCampaign = true → (s.ps.phase = .primed ∨ s.ps.phase = .drained) →
        s.firstUnmet .endList = none →
      ∃ t, exec (.endCampaign src) s = .next t
        ∧ Started s s.unwatched t
            { SlotRec.new .cold .endCampaign (Source.requester src) (Source.authority src) none with
              handoff := .notNeeded })

/-- R5, R7 and R11 with R102, R103 and R105: a directive whose list is unmet holds its transition in WAIT_PREREQ.
Conventions of the model: logs 23 and 17. -/
def Obligations.UnmetListHoldsTheTransition : Prop :=
  ∀ (src : Source) (s : State), s.ps.slot = none →
    (s.admits src .fill = true → (s.ps.phase = .primed ∨ s.ps.phase = .drained) → s.ps.dwell = none →
        s.firstUnmet .fill ≠ none →
      ∃ t, exec (.fill src) s = .next t
        ∧ WaitsOnList s s t (.new .filling .fill (Source.requester src) (Source.authority src) none) .fill)
    ∧ (∀ limit u, s.admits src (.feed (feedLimit limit)) = true → s.ps.phase = .filled → s.ps.dwell = none →
        u = s.storeLimit (Source.authority src) (min 1000 limit.toNat) →
        u.cs.set.rMin ≤ min u.tu.limitC u.tu.limitS → u.firstUnmet .feed ≠ none →
      ∃ t, exec (.feed src limit) s = .next t
        ∧ WaitsOnList s u t (.new .running .feed (Source.requester src) (Source.authority src) none) .feed)
    ∧ (s.admits src .resume = true →
        (s.ps.phase = .hold ∨ s.ps.phase = .banked ∧ s.cs.set.tBankExit = 0) →
        s.ps.ownerRank ≤ (Source.authority src).rank → s.firstUnmet .resume ≠ none →
      ∃ t, exec (.resume src) s = .next t
        ∧ WaitsOnList s s t (.new s.ps.linkPhase .resume (Source.requester src) (Source.authority src) none) .resume)
    ∧ (s.admits src .drain = true →
        (s.ps.phase = .runOut ∧ s.tu.runoutDone = true
          ∨ (s.ps.phase = .filled ∨ s.ps.phase = .hold) ∧ s.tu.holdup ≤ s.cs.set.hDr * 60) →
        s.firstUnmet .drain ≠ none →
      ∃ t, exec (.drain src) s = .next t
        ∧ WaitsOnList s s t (.new .draining .drain (Source.requester src) (Source.authority src) none) .drain)
    ∧ (s.admits src .endCampaign = true → (s.ps.phase = .primed ∨ s.ps.phase = .drained) →
        s.firstUnmet .endList ≠ none →
      ∃ t, exec (.endCampaign src) s = .next t
        ∧ WaitsOnList s s t (.new .cold .endCampaign (Source.requester src) (Source.authority src) none) .endList)

/-- R6 and R13 with R102, R103 and R105: FILL and FEED wait out a dwell that runs, a RESUME out of BANKED its settle.
Conventions of the model: logs 23 and 17. -/
def Obligations.DwellAndSettleHoldTheTransition : Prop :=
  ∀ (src : Source) (s : State), s.ps.slot = none →
    (s.admits src .fill = true → (s.ps.phase = .primed ∨ s.ps.phase = .drained) → s.ps.dwell ≠ none →
      ∃ t, exec (.fill src) s = .next t
        ∧ WaitsOutDwell s s t (.new .filling .fill (Source.requester src) (Source.authority src) none))
    ∧ (∀ limit u, s.admits src (.feed (feedLimit limit)) = true → s.ps.phase = .filled → s.ps.dwell ≠ none →
        u = s.storeLimit (Source.authority src) (min 1000 limit.toNat) →
        u.cs.set.rMin ≤ min u.tu.limitC u.tu.limitS →
      ∃ t, exec (.feed src limit) s = .next t
        ∧ WaitsOutDwell s u t (.new .running .feed (Source.requester src) (Source.authority src) none))
    ∧ (s.admits src .resume = true → s.ps.phase = .banked → s.cs.set.tBankExit ≠ 0 →
        s.ps.ownerRank ≤ (Source.authority src).rank →
      ∃ t, exec (.resume src) s = .next t
        ∧ WaitsOutSettle s s t
            (.new s.ps.linkPhase .resume (Source.requester src) (Source.authority src) none))

/-- R5, R8 and R11 with R102, R103 and R105: FILL, FEED and RESUME with their list met and a claim still to make wait
in WAIT_CLAIM with their targets raised. Conventions of the model: logs 23 and 17. -/
def Obligations.ClaimStageHoldsTheTransition : Prop :=
  ∀ (src : Source) (s : State), s.ps.slot = none →
    (s.admits src .fill = true → (s.ps.phase = .primed ∨ s.ps.phase = .drained) → s.ps.dwell = none →
        s.firstUnmet .fill = none → (∃ x, (s.au.res.get x).holding < min 4000 (s.cs.set.standing.get x)) →
      ∃ t, exec (.fill src) s = .next t
        ∧ WaitsOnClaims s s t (.new .filling .fill (Source.requester src) (Source.authority src) none)
            s.cs.set.standing.get)
    ∧ (∀ limit u, s.admits src (.feed (feedLimit limit)) = true → s.ps.phase = .filled → s.ps.dwell = none →
        u = s.storeLimit (Source.authority src) (min 1000 limit.toNat) →
        u.cs.set.rMin ≤ min u.tu.limitC u.tu.limitS → u.firstUnmet .feed = none →
        (∃ x, (s.au.res.get x).holding < min 4000 (atMinimumRate s.cs.set x)) →
      ∃ t, exec (.feed src limit) s = .next t
        ∧ WaitsOnClaims s u t (.new .running .feed (Source.requester src) (Source.authority src) none)
            (atMinimumRate s.cs.set))
    ∧ (∀ f, s.admits src .resume = true → (s.ps.phase = .hold ∨ s.ps.phase = .banked ∧ s.cs.set.tBankExit = 0) →
        s.ps.ownerRank ≤ (Source.authority src).rank → s.firstUnmet .resume = none →
        f = (if s.ps.linkPhase = .running then atMinimumRate s.cs.set else s.cs.set.standing.get) →
        (∃ x, (s.au.res.get x).holding < min 4000 (f x)) →
      ∃ t, exec (.resume src) s = .next t
        ∧ WaitsOnClaims s s t (.new s.ps.linkPhase .resume (Source.requester src) (Source.authority src) none) f)

/-- R5, R8, R10, R16 and R77 with R102, R103 and R105: FILL, FEED and RESUME with their list met and their claims held
already go on to their SET_PHASE or start pair, the point having mode NONE.
Conventions of the model: logs 23 and 17. -/
def Obligations.ClaimsHeldStartTheTransition : Prop :=
  ∀ (src : Source) (s : State), s.phaseFree → s.sp.pairReq = none →
    (s.admits src .fill = true → (s.ps.phase = .primed ∨ s.ps.phase = .drained) → s.ps.dwell = none →
        s.firstUnmet .fill = none → s.cs.set.points.fill.mode = .none →
        s.ClaimsHeld s.cs.set.standing.get →
      ∃ t, exec (.fill src) s = .next t
        ∧ StartedOnClaims s s t (.new .filling .fill (Source.requester src) (Source.authority src) none)
            s.cs.set.standing.get)
    ∧ (∀ limit u, s.admits src (.feed (feedLimit limit)) = true → s.ps.phase = .filled → s.ps.dwell = none →
        u = s.storeLimit (Source.authority src) (min 1000 limit.toNat) →
        u.cs.set.rMin ≤ min u.tu.limitC u.tu.limitS → u.firstUnmet .feed = none →
        s.cs.set.points.feed.mode = .none →
        s.ClaimsHeld (atMinimumRate s.cs.set) →
      ∃ t, exec (.feed src limit) s = .next t
        ∧ StartedOnClaims s u t (.new .running .feed (Source.requester src) (Source.authority src) none)
            (atMinimumRate s.cs.set))
    ∧ (∀ f, s.admits src .resume = true → (s.ps.phase = .hold ∨ s.ps.phase = .banked ∧ s.cs.set.tBankExit = 0) →
        s.ps.ownerRank ≤ (Source.authority src).rank → s.firstUnmet .resume = none →
        f = (if s.ps.linkPhase = .running then atMinimumRate s.cs.set else s.cs.set.standing.get) →
        s.ClaimsHeld f →
      ∃ t, exec (.resume src) s = .next t
        ∧ StartedOnClaims s s t (.new s.ps.linkPhase .resume (Source.requester src) (Source.authority src) none) f)

/-- R55, R103, R104, R106 and R18: FEED under rate control or in a hold, HOLD in a hold, and RUN_OUT in RUN_OUT or in
a hold act at once and are replied TAKEN. Conventions of the model: logs 23 and 17. -/
def Obligations.ImmediateDirectivesActAtOnce : Prop :=
  ∀ (src : Source) (s : State), s.atStage .waitPrereq = false →
    (∀ limit, s.admits src (.feed (feedLimit limit)) = true →
        (s.ps.phase = .running ∨ s.ps.phase.inHold = true ∨ s.ps.phase = .runOut ∧ s.tu.data.closeAfter = false) →
      ∃ t, exec (.feed src limit) s = .next t
        ∧ Replied s { s with tu := if Source.authority src = .campaign
              then { s.tu with limitC := min 1000 limit.toNat } else { s.tu with limitS := min 1000 limit.toNat } }
            t (Source.requester src) .taken 0)
    ∧ (s.admits src .hold = true → s.ps.phase.inHold = true →
        (∀ r, s.ps.slot = some r → r.outranked (Source.authority src) = false) →
      ∃ t, exec (.hold src) s = .next t
        ∧ Replied s (if s.ps.ownerRank < (Source.authority src).rank then
              { s with ps := { s.ps with owner := some (Source.authority src) }, tu := { s.tu with good := 0 } }
            else s) t (Source.requester src) .taken 0)
    ∧ (∀ length closeAfter, s.admits src (.runOut (runOutData length closeAfter)) = true → s.ps.phase = .runOut →
        s.tu.data.closeAfter = false →
      ∃ t, exec (.runOut src length closeAfter) s = .next t
        ∧ Replied s { s with tu := { s.tu with runOut := some (runOutData length closeAfter) } } t
            (Source.requester src) .taken 0)
    ∧ (∀ length closeAfter, s.admits src (.runOut (runOutData length closeAfter)) = true →
        s.ps.phase.inHold = true → s.ps.holdsResume = false →
      ∃ t, exec (.runOut src length closeAfter) s = .next t
        ∧ Replied s { s with ps := { s.ps with link := some (.runOut (runOutData length closeAfter)) } } t
            (Source.requester src) .taken 0)

/-- R9, R113, R117 to R119, R122 and R123: handoff points and CONFIRM. A RUN_OUT and a DRAIN take their point into the
empty requester record by its mode and class, a HANDOFF going out for a CO_UNIT point alone, and wait in
WAIT_HANDOFF_SLOT while the record is occupied. A CONFIRM ends the record in its confirm wait: it fulfils the handoff
condition that waits on it, and a transition waiting for the record takes its own point. Conventions of the model:
logs 23 and 17. -/
def Obligations.ConfirmEndsTheWait : Prop :=
  ∀ (src : Source) (s : State),
    (∀ length closeAfter r, s.phaseFree → s.admits src (.runOut (runOutData length closeAfter)) = true →
        s.ps.phase = .running →
        r = SlotRec.new .runOut .runOut (Source.requester src) (Source.authority src)
          (some (runOutData length closeAfter)) →
      (s.hu.record = none →
        ∃ t, exec (.runOut src length closeAfter) s = .next t ∧ StartedAtPoint s s t r .runOut)
      ∧ (s.hu.record ≠ none → s.cs.set.points.runOut.mode ≠ .none →
        ∃ t, exec (.runOut src length closeAfter) s = .next t ∧ WaitsForTheRecord s s t r))
    ∧ (∀ r, s.phaseFree → s.admits src .drain = true →
        (s.ps.phase = .runOut ∧ s.tu.runoutDone = true
          ∨ (s.ps.phase = .filled ∨ s.ps.phase = .hold) ∧ s.tu.holdup ≤ s.cs.set.hDr * 60) →
        s.firstUnmet .drain = none →
        r = SlotRec.new .draining .drain (Source.requester src) (Source.authority src) none →
      (s.hu.record = none → ∃ t, exec (.drain src) s = .next t ∧ StartedAtPoint s s.unwatched t r .drain)
      ∧ (s.hu.record ≠ none → s.cs.set.points.drain.mode ≠ .none →
        ∃ t, exec (.drain src) s = .next t ∧ WaitsForTheRecord s s.unwatched t r))
    ∧ (∀ (h : HandoffRec) (w : WaitReason), s.admits src .confirm = true → s.hu.record = some h →
        h.state = .confirmWait w →
      (s.slotStays →
        ∃ t, exec (.confirm src) s = .next t
          ∧ Replied s { s with
              hu := { s.hu with record := none, counitWait := false }
              ps := { s.ps with slot := s.ps.slot.map SlotRec.fulfil } } t (Source.requester src) .taken 0)
      ∧ (∀ r k, s.ps.slot = some r → r.stage = .waitHandoffSlot → r.kind.point = some k → r.pendingSent = true →
          s.ps.frozen = false → s.sp.tripReq = false → s.sp.psReq = none → s.sp.pairReq = none →
        ∃ t h l w, exec (.confirm src) s = .next t
          ∧ PointTaken s.cs.set k { s.hu with record := none, counitWait := false } h s.lc l w
          ∧ t = { s.goesOn { r with handoff := w } with hu := h, du := t.du, lc := t.lc }
          ∧ Delivered s.du l t.du t.lc (Source.requester src) .taken 0 ∧ LineKept s.lc t.lc ∧ ShortMarked s t))

/-- R110, R136, R137 and R151: CLEAR_TRIP with no cause standing fills the recovery record, and its SET_PHASE issues
at once or waits. Conventions of the model: logs 23 and 17. -/
def Obligations.ClearTripStartsTheRecovery : Prop :=
  ∀ (tag : Byte) (s : State) (p : Phase), s.cs.locked = true → s.ps.phase = .tripped → s.ps.slot = none →
    s.shows ReportFlags.tripRequest = false → s.ps.frozen = false → s.tr.recovery = none →
    s.sp.tripReq = false → s.sp.psReq = none → s.sp.pairReq = none →
    p = (if s.tu.holdup ≤ s.cs.set.hDr * 60 then .drained else .hold) →
    ∃ t, exec (.clearTrip (.port tag)) s = .next t
      ∧ (s.sp.outstanding = [] →
          Replied s { s with
            tr := { s.tr with recovery := some ⟨p, tag, .outstanding s.sp.tokenCount, none⟩ }
            sp := { s.sp.issued s.cs.set (.setPhase p .recovery) with recoveryReq := none } } t (.port tag) .taken 0)
      ∧ (s.sp.outstanding ≠ [] →
          Noted s { s with
            tr := { s.tr with recovery := some ⟨p, tag, .waiting, none⟩ }
            sp := { s.sp with recoveryReq := some p } } t)

/-- R101, R111, R112, R12, R11 and R18: a CANCEL of a transition before stage 5, and a HOLD whose owner outranks a
waiting resume, remove the transition with its clean-ups. A CANCEL taken while the SET_PHASE waits at the section port
either removes the transition too and withdraws the SET_PHASE, as R101 has it, or is refused TOO_LATE, as R111 has it: a
free value chooses (DESIGN CHOICE, log 37). The requester is told before the sender is (DEDUCED, log 33). Conventions of
the model: logs 23, 26 and 17. -/
def Obligations.CancelAndOwnerRemoveTheTransition : Prop :=
  ∀ (src : Source) (s : State) (r : SlotRec), s.ps.slot = some r → s.noneArises →
    (s.sp.NoPhaseWaits → s.admits src .cancel = true → r.stage.beforeIssue = true →
        (Source.authority src = .campaign ∨ r.requester.isPort = true) →
      ∃ t, exec (.cancel src) s = .next t ∧ Removed s s t r.requester
        ∧ DeliveredTwice s t r.requester (.refused .cancelled) (Source.requester src) .taken)
    ∧ (∀ u, s.admits src .cancel = true → r.stage = .waitIssue → (∀ p, s.sp.psReq ≠ some (p, .completion)) →
        (Source.authority src = .campaign ∨ r.requester.isPort = true) → s.sp.outstanding ≠ [] →
        s.sp.lookAhead = false → u = { s with free := s.free + 1 } →
      ∃ t, exec (.cancel src) s = .next t
        ∧ (Removed s { u with sp := { u.sp with psReq := none, pairReq := none } } t r.requester
            ∧ DeliveredTwice s t r.requester (.refused .cancelled) (Source.requester src) .taken
          ∨ Replied s u t (Source.requester src) (.refused .tooLate) 0))
    ∧ (s.sp.NoPhaseWaits → s.admits src .hold = true → s.ps.phase.inHold = true →
        s.ps.ownerRank < (Source.authority src).rank →
        r.kind = .resume → r.stage.beforeIssue = true → r.authority.rank < (Source.authority src).rank →
      ∃ t, exec (.hold src) s = .next t
        ∧ Removed s { s with
            ps := { s.ps with owner := some (Source.authority src) }, tu := { s.tu with good := 0 } } t r.requester
        ∧ DeliveredTwice s t r.requester (.refused .holdOwner) (Source.requester src) .taken)

/-- R6, R7, R8, R12 and R4: a stage deadline refuses the transition with DWELL, with PREREQ_UNMET and the lowest unmet
index, or with NO_BUDGET. The slot is empty then, and goes to the first of the waiting internal requests that is still
valid: a forced run-out, a close-after drain, an auto hold, an auto resume; the others are discarded. The requester is
told before the slot is given again (DEDUCED, log 33). Conventions of the model: log 23. -/
def Obligations.StageDeadlinesRefuseTheTransition : Prop :=
  ∀ (s : State) (r : SlotRec) (c : Instr) (code : RefusalCode) (detail : Byte), s.ps.slot = some r →
    s.sp.NoPhaseWaits → s.ps.frozen = false → r.deadline = some 0 → DeadlineRefuses s r c code detail →
    (s.noneArises →
      ∃ t, exec c s = .next t ∧ Removed s s t r.requester
        ∧ Delivered s.du s.lc t.du t.lc r.requester (.refused code) detail)
    ∧ (s.sp.tripReq = false →
      ∃ m w t, exec c s = .next t ∧ TakenOut s m r.requester
        ∧ Delivered s.du s.lc m.du m.lc r.requester (.refused code) detail ∧ SlotGiven m w ∧ Noted s w t)

/-- R102 to R113: an admitted directive that its row refuses changes nothing, but that a FEED in FILLED stores its
limit before BELOW_MIN is judged. A CANCEL is TOO_LATE once the SET_PHASE has issued; while it waits R101 and R111
differ, and CancelAndOwnerRemoveTheTransition says what then happens (DESIGN CHOICE, log 37). Conventions of the model:
logs 23 and 17. -/
def Obligations.RowsRefuse : Prop :=
  ∀ (src : Source) (s : State),
    (∀ (c : Instr) (d : Directive) (code : RefusalCode), directiveOfCommand c = some (src, d) →
        s.admits src d = true → s.calm = true → RowRefuses s (Source.authority src) d code →
      ∃ t, exec c s = .next t ∧ Refused s t (Source.requester src) code)
    ∧ (∀ limit u, s.admits src (.feed (feedLimit limit)) = true → s.ps.phase = .filled → s.ps.slot = none →
        u = s.storeLimit (Source.authority src) (min 1000 limit.toNat) →
        min u.tu.limitC u.tu.limitS < u.cs.set.rMin →
      ∃ t, exec (.feed src limit) s = .next t ∧ Replied s u t (Source.requester src) (.refused .belowMin) 0)

/-- R94, R95, R99 and R188: a directive whose code names none is refused BAD_CODE by a node it targets, or
CONFIG_UNLOCKED at the port of an unlocked node; a DIRECTIVE frame not of 8 bytes, or one that targets another node,
changes nothing. Conventions of the model: log 23. -/
def Obligations.BadCodesAreRefused : Prop :=
  ∀ (s : State), s.calm = true →
    (∀ a p, ((byteAt p 4).toNat = 0 ∨ 14 < (byteAt p 4).toNat) → p.length = 8 →
        s.receives = true → s.targeted (byteAt p 0) (byteAt p 1) (byteAt p 2) = true →
      ∃ t, exec (.directiveBadCode (.frame a p)) s = .next t ∧ Refused s t (.line a (byteAt p 3)) .badCode)
    ∧ (∀ a p, (p.length ≠ 8 ∨ s.receives = false ∨ s.targeted (byteAt p 0) (byteAt p 1) (byteAt p 2) = false) →
      exec (.directiveBadCode (.frame a p)) s = .next s)
    ∧ (∀ code tag h l x, (code.toNat = 0 ∨ 14 < code.toNat) →
      ∃ t, exec (.directiveBadCode (.part code tag h l x)) s = .next t
        ∧ Refused s t (.port tag) (if s.cs.locked then .badCode else .configUnlocked))

/-! ### Trips (chapter 7) -/

/-- R10, R14, R15, R23 to R25, R27, R90, R109, R130, R132 to R134, R146 and R155 to R158: a cause raised outside COLD
and TRIPPED trips the section, and every block gives up its part at once. A timer's cause raised before a phase change
stopped the timer trips the section from the phase that then stands, and at a trip entry the causes of the other timers
that had run down stay raised: a list of the trip unit keeps both, which R132 asks for and no rule describes (DESIGN
CHOICE, log 45). The TAKEN of a TRIP goes out after every reply of the trip entry, the handoff answers included: the
model's choice (DESIGN CHOICE, logs 38 and 43). Conventions of the model: log 17. -/
def Obligations.RaisedCausesTripTheSection : Prop :=
  ∀ (s : State), s.ps.phase ≠ .cold → s.ps.phase ≠ .tripped →
    (∀ c u x, Raises c s u x →
      ∃ t, exec c s = .next t ∧ TripEntered u t x ∧ TripReplies u t.du t.lc)
    ∧ (∀ src, s.admits src .trip = true →
      ∃ t, exec (.trip src) s = .next t ∧ TripEntered s t (Source.cause src)
        ∧ ∃ d l, TripReplies s d l ∧ Delivered d l t.du t.lc (Source.requester src) .taken 0)

/-- R130, R132, R135 and R139: a cause taken in TRIPPED joins the record, one that a timer raised before the trip
stopped it among them (the list that keeps it is the model's, DESIGN CHOICE, log 45); it ends a recovery that waits and
spoils one that is outstanding. In COLD no cause is taken, and a START whose SET_PHASE PRIMED fails ends REFUSED
TRIPPED with the phase kept. Conventions of the model: logs 23, 11 and 17. -/
def Obligations.CausesInTrippedAndInCold : Prop :=
  ∀ (s : State),
    (∀ r : TripRec, s.ps.phase = .tripped → s.ps.slot = none → s.tr.record = some r →
      (∀ src, s.admits src .trip = true → s.tr.recovery = none →
        ∃ t, exec (.trip src) s = .next t
          ∧ Replied s { s with tr := { s.tr with record := some (r.with (Source.cause src)) } } t
              (Source.requester src) .taken 0)
      ∧ (∀ c u x, Raises c s u x → ({ u.sp with recoveryReq := none } : SP).Quiet → u.hu.NoneWaiting →
          (s.tr.recovery = none → u.sp.recoveryReq = none →
            ∃ t, exec c s = .next t ∧ Noted s { u with tr := { u.tr with record := some (r.with x) } } t)
          ∧ (∀ y k, s.tr.recovery = some y → y.state = .outstanding k → u.sp.recoveryReq = none →
            ∃ t, exec c s = .next t
              ∧ Noted s { u with tr := { u.tr with
                  record := some (r.with x)
                  recovery := some { y with spoil := if y.spoil = none then some x else y.spoil } } } t)
          ∧ (∀ y, s.tr.recovery = some y → y.state = .waiting →
            ∃ t, exec c s = .next t
              ∧ Replied s { u with
                  tr := { u.tr with record := some (r.with x), recovery := none }
                  sp := { u.sp with recoveryReq := none } } t (.port y.tag) (.refused .tripped) 0)))
    ∧ (∀ c u x, s.ps.phase = .cold → Raises c s u x → u.sp.Quiet → u.hu.NoneWaiting →
        s.ps.waiting = ⟨false, false, false, false⟩ →
      (s.ps.slot = none → ∃ t, exec c s = .next t ∧ Noted s u t)
      ∧ (∀ r k o p, s.ps.slot = some r → (c = .ackSetPhase k .failed ∨ c = .setPhaseAckTimeout k) →
          s.sp.find k = some o → o.command = .setPhase p .transition →
        ∃ t, exec c s = .next t
          ∧ Replied s { u with ps := { s.ps with slot := none } } t r.requester (.refused .tripped) 0))

/-! ### The section port's commands (chapter 8) -/

/-- R10, R16, R17, R18, R51, R72 and R152: the DONE of a transition's SET_PHASE enters its phase and ends the
transition DONE, the start pair's SET_RATE issuing at once. Conventions of the model: logs 13, 11, 17 and 45. -/
def Obligations.AcknowledgedTransitionsEnterTheirPhase : Prop :=
  ∀ (s : State) (k : Token) (o : Outstanding) (p : Phase) (r : SlotRec), s.sp.find k = some o →
    o.command = .setPhase p .transition → s.ps.slot = some r → r.kind.completes = false → s.ps.NoneWaits →
    s.idleAfter k → (p.underRate = true → s.ratesFreely) →
    ∃ t, exec (.ackSetPhase k .done) s = .next t
      ∧ PhaseEntered (s.afterAck k) t p (s.entryInfo r)
          (SP.pairIssued ((s.sp.remove k).enter s.cs.set s.ps.phase p) s.cs.set)
      ∧ Delivered s.du s.lc t.du t.lc r.requester .done 0

/-- R5, R10 and R11: the DONE of a SET_PHASE FILLING or DRAINING enters the phase and leaves the transition in
WAIT_COMPLETION, with no reply. Conventions of the model: logs 13, 11, 17 and 45. -/
def Obligations.FillAndDrainWaitForCompletion : Prop :=
  ∀ (s : State) (k : Token) (o : Outstanding) (p : Phase) (r : SlotRec), s.sp.find k = some o →
    o.command = .setPhase p .transition → s.ps.slot = some r → r.kind.completes = true → s.idleAfter k →
    ∃ t, exec (.ackSetPhase k .done) s = .next t
      ∧ PhaseEntered { s with
            sp := s.sp.remove k, ps := { s.ps with slot := some { r with stage := .waitCompletion } } } t p .none
          ((s.sp.remove k).enter s.cs.set s.ps.phase p)
      ∧ t.du = s.du ∧ NothingPlaced s.lc t.lc

/-- R17, R18, R20, R23, R50 and R72: the link, the owner and the run-out data that a transition's entry brings with
it, by its kind; a run-out's data come from its slot record. -/
def Obligations.EntriesBringLinkOwnerAndRunOutData : Prop :=
  ∀ (s : State) (r : SlotRec),
    (r.kind = .hold →
      s.entryInfo r = ⟨some (if s.ps.phase = .runOut then .runOut s.tu.data else .running), some r.authority, none⟩)
    ∧ (r.kind = .stopRunOut → s.entryInfo r = ⟨some .running, some .campaign, none⟩)
    ∧ (r.kind = .runOut ∨ r.kind = .forcedRunOut → s.entryInfo r = ⟨none, none, r.runOut⟩)
    ∧ (∀ d, r.kind = .resume → s.ps.link = some (.runOut d) → s.entryInfo r = ⟨none, none, some d⟩)
    ∧ (r.kind ∈ [.start, .fill, .feed, .bank, .drain, .endCampaign, .closeDrain]
        ∨ r.kind = .resume ∧ s.ps.link = some .running → s.entryInfo r = ⟨none, none, none⟩)

/-- R13 to R15, R17, R18, R22 to R25, R50, R51, R59, R61, R62, R64, R69, R71 to R73, R146, R153 and R160: the entry
actions of the sequencer, the throughput unit and the section port, phase by phase, with what each unit keeps. -/
def Obligations.EntryActionsFollowTheirRules : Prop :=
  ∀ (c : Settings) (now : Nat) (p : PS) (u : TU) (q : SP) (old new : Phase) (e : EntryInfo), p.phase = old →
    (∀ x y z, x = p.enter c now new e → y = u.enter c old new e → z = q.enter c old new →
      -- Nothing but these changes.
      x = { p with
        phase := new, phaseSince := now, missed := false, dwell := x.dwell, fillMax := x.fillMax
        drainMax := x.drainMax, holdMax := x.holdMax, turnover := x.turnover, link := x.link, owner := x.owner
        drainReading := if new = .draining then none else p.drainReading
        holdExpired := p.holdExpired && (new = .hold || new = .banked || new = .runOut) }
      ∧ y = { u with
        holdup := if new = .drained then 0 else u.holdup, interval := y.interval
        runOut := if new = .runOut then e.runOut else none, train := y.train, parts := y.parts
        starved := y.starved, blocked := y.blocked, limited := y.limited, claimWait := y.claimWait
        runoutLate := y.runoutLate
        runoutDone := u.runoutDone && !(old = .runOut || new = .tripped)
        starveTimer := none, starveExpired := false
        blockTimer := if old.underRate && new.underRate then u.blockTimer else none
        blockExpired := u.blockExpired && (old.underRate && new.underRate)
        good := 0, held := if new = .tripped then none else u.held }
      ∧ z = { q with
        rIss := z.rIss, rAck := z.rAck, portSilence := z.portSilence
        turnoverReq := q.turnoverReq && new = .hold
        rateReq := if old = .running ∧ new = .runOut then q.rateReq else none })
    ∧ ((p.enter c now .filled e).dwell = startTimer c.tFillMin
      ∧ (p.enter c now .drained e).dwell = startTimer c.tDrainRest
      ∧ (new ≠ .filled → new ≠ .drained → (p.enter c now new e).dwell = none))
    ∧ ((p.enter c now .filling e).fillMax = some c.tFillMax ∧ (p.enter c now .draining e).drainMax = some c.tDrainMax
      ∧ (new ≠ .filling → (p.enter c now new e).fillMax = none)
      ∧ (new ≠ .draining → (p.enter c now new e).drainMax = none))
    ∧ ((p.enter c now .hold e).link = e.link ∧ (p.enter c now .hold e).owner = e.owner
      ∧ (p.enter c now .banked e).link = p.link ∧ (p.enter c now .banked e).owner = p.owner
      ∧ (new ≠ .hold → new ≠ .banked → (p.enter c now new e).link = none ∧ (p.enter c now new e).owner = none))
    ∧ ((p.enter c now .hold e).turnover = some c.tTurnover ∧ (p.enter c now .banked e).turnover = some (2 * c.tTurnover)
      ∧ (new ≠ .hold → new ≠ .banked → (p.enter c now new e).turnover = none))
    ∧ ((old ∈ [.running, .runOut, .tripped] → (p.enter c now .hold e).holdMax = some c.tHoldMax)
      ∧ (p.enter c now .banked e).holdMax = p.holdMax
      ∧ (new ≠ .hold → new ≠ .banked → (p.enter c now new e).holdMax = none))
    ∧ ((u.enter c old .filled e).interval = some c.tInt ∧ (u.enter c old .running e).interval = none
      ∧ (u.enter c .tripped .hold e).interval = some c.tInt
      ∧ (old ≠ .tripped → (u.enter c old .hold e).interval = u.interval)
      ∧ (u.enter c old .banked e).interval = u.interval ∧ (u.enter c old .runOut e).interval = u.interval
      ∧ (new ∈ [.cold, .primed, .filling, .draining, .drained, .tripped] → (u.enter c old new e).interval = none))
    ∧ ((∀ x, (u.enter c old .running e).parts.get x = ceilDiv (c.fullRate.get x * c.rMin) 1000)
      ∧ (u.enter c .running .runOut e).parts = u.parts ∧ (u.enter c .running .runOut e).train = u.train
      ∧ (¬ (old = .running ∧ new = .runOut) → (u.enter c old new e).train = none
        ∧ (new ≠ .running → (u.enter c old new e).parts = .same 0)))
    ∧ ((old.underRate = true ∧ new.underRate = false ∨ new = .tripped →
        (u.enter c old new e).starved = false ∧ (u.enter c old new e).blocked = false
        ∧ (u.enter c old new e).limited = false ∧ (u.enter c old new e).claimWait = false
        ∧ (u.enter c old new e).runoutLate = false
        ∧ (q.enter c old new).rIss = 0 ∧ (q.enter c old new).rAck = 0)
      ∧ (¬ (old.underRate = true ∧ new.underRate = false ∨ new = .tripped) →
        (u.enter c old new e).starved = u.starved ∧ (u.enter c old new e).blocked = u.blocked
        ∧ (u.enter c old new e).limited = u.limited ∧ (u.enter c old new e).claimWait = u.claimWait
        ∧ (u.enter c old new e).runoutLate = u.runoutLate
        ∧ (q.enter c old new).rIss = q.rIss ∧ (q.enter c old new).rAck = q.rAck))
    ∧ ((old.watched = false → new.watched = true → (q.enter c old new).portSilence = some (c.tPortSilence + 1))
      ∧ (old.watched = true → new.watched = true → (q.enter c old new).portSilence = q.portSilence)
      ∧ (new.watched = false → (q.enter c old new).portSilence = none))

/-- R14, R15, R28, R120, R122, R123 and R145: the event that brings the last condition of FILLING or DRAINING completes
it: a CONFIRM, the HANDOFF_DONE that answers a blocking handoff with SUCCESS, a valid report whose flags show the
condition, and the report that clears the freeze overlay under which it was met. With nothing outstanding the SET_PHASE
FILLED or DRAINED issues, the phase changes at its issue, and DONE goes out, and the CONFIRM's TAKEN; otherwise the
SET_PHASE waits. That DONE goes out ahead of TAKEN is the model's choice (DESIGN CHOICE, log 42). Conventions of the
model: logs 23, 13, 17, 10 and 45. -/
def Obligations.TheLastConditionCompletesThePhase : Prop :=
  ∀ (c : Instr) (s u : State) (also : Option Requester) (r : SlotRec) (p : Phase) (q : PS),
    s.LastCondition c u also → s.sp.Quiet → u.ps.slot = some r → r.stage = .waitCompletion →
    r.handoff = .notNeeded ∨ r.handoff = .fulfilled →
    (p = .filled ∧ u.ps.phase = .filling ∧ u.shows ReportFlags.filled = true ∧ q = { u.ps with fillMax := none }
      ∨ p = .drained ∧ u.ps.phase = .draining ∧ u.shows ReportFlags.drained = true
        ∧ u.ps.drainReading.getD 0 ≤ u.cs.set.hDr ∧ q = { u.ps with drainMax := none }) →
    ∃ t, exec c s = .next t ∧ Completed s u t r p q also

/-- R138 to R140: the outcome of a recovery's SET_PHASE. DONE empties both records and enters the target, and a
spoiling cause trips the section again at once; a failure or a timeout is a later cause and leaves the phase.
Conventions of the model: logs 23, 13, 11, 17 and 45. -/
def Obligations.RecoveriesEndAtTheirOutcome : Prop :=
  ∀ (s : State) (k : Token) (o : Outstanding) (p : Phase) (y : Recovery) (r : TripRec), s.sp.find k = some o →
    o.command = .setPhase p .recovery → s.tr.recovery = some y → s.tr.record = some r → s.ps.slot = none →
    s.idleAfter k →
    (y.spoil = none →
      ∃ t, exec (.ackSetPhase k .done) s = .next t
        ∧ PhaseEntered { s with sp := s.sp.remove k, tr := { s.tr with record := none, recovery := none } } t p
            ⟨some .running, some .sectionPanel, none⟩ ((s.sp.remove k).enter s.cs.set s.ps.phase p)
        ∧ Delivered s.du s.lc t.du t.lc (.port y.tag) .done 0)
    ∧ (∀ c, y.spoil = some c →
      ∃ t m, exec (.ackSetPhase k .done) s = .next t
        ∧ PhaseEntered { s with sp := s.sp.remove k, tr := { s.tr with record := none, recovery := none } } m p
            ⟨some .running, some .sectionPanel, none⟩ ((s.sp.remove k).enter s.cs.set s.ps.phase p)
        ∧ Delivered s.du s.lc m.du m.lc (.port y.tag) .done 0
        ∧ TripEntered m t c ∧ TripReplies m t.du t.lc)
    ∧ (∃ t, exec (.ackSetPhase k .failed) s = .next t
        ∧ Replied s { s with
            sp := s.sp.remove k
            tr := { s.tr with record := some (r.with .phaseRefused), recovery := none } } t (.port y.tag)
            (.refused .tripped) 0)
    ∧ (o.left = some 0 →
      ∃ t, exec (.setPhaseAckTimeout k) s = .next t
        ∧ Replied s { s with
            sp := s.sp.remove k
            tr := { s.tr with record := some (r.with .portNoAck), recovery := none } } t (.port y.tag)
            (.refused .tripped) 0)

/-- R154 and R155: an acknowledgement whose token no outstanding command has is counted and does nothing else, and the
DONE of a SET_PHASE placed for a completion or a trip takes its command out of the list and does nothing else. The
four rows act alike, as the token alone tells the owner (DEDUCED, log 11). Conventions of the model: log 17. -/
def Obligations.StrayAndLateAcksChangeNothingElse : Prop :=
  ∀ (s : State) (k : Token),
    (s.sp.find k = none → ∀ x,
      exec (.ackSetPhase k x) s = .next { s with sp := { s.sp with strayCount := min 255 (s.sp.strayCount + 1) } }
      ∧ exec (.ackSetRate k x) s = exec (.ackSetPhase k x) s
      ∧ exec (.ackTurnover k x) s = exec (.ackSetPhase k x) s
      ∧ exec (.ackHandoffWork k x) s = exec (.ackSetPhase k x) s)
    ∧ (∀ o p w, s.sp.find k = some o → o.command = .setPhase p w → w = .completion ∨ w = .trip → s.idleAfter k →
      exec (.ackSetPhase k .done) s = .next { s with sp := s.sp.remove k })

/-- R51, R156 and R158: a SET_RATE's outcome. DONE makes its argument R_ack, clears RATE_REFUSED and supersedes the
SET_RATEs issued before it; FAILED sets RATE_REFUSED; either starts the rate interval in RUNNING for a start pair; a
superseded one only leaves the list, at its acknowledgement or its timeout. Conventions of the model: logs 23, 11 and
17. -/
def Obligations.RateOutcomesAreTaken : Prop :=
  ∀ (s : State) (k : Token) (o : Outstanding) (v : Nat) (pair : Bool), s.sp.find k = some o →
    o.command = .setRate v pair → s.atStage .waitPrereq = false → s.sp.Quiet → s.hu.NoneWaiting →
    (o.superseded = false →
      (∃ t, exec (.ackSetRate k .done) s = .next t
        ∧ Noted s { s with
            sp := { s.sp.removeRate k with rAck := v, rateRefused := false }
            tu := if pair = true ∧ s.ps.phase = .running then { s.tu with interval := some s.cs.set.tInt } else s.tu }
            t)
      ∧ (∃ t, exec (.ackSetRate k .failed) s = .next t
        ∧ Noted s { s with
            sp := { s.sp.remove k with rateRefused := true }
            tu := if pair = true ∧ s.ps.phase = .running then { s.tu with interval := some s.cs.set.tInt } else s.tu }
            t))
    ∧ (o.superseded = true →
      (∀ x, exec (.ackSetRate k x) s = .next { s with sp := s.sp.remove k })
      ∧ (o.left = some 0 → exec (.setRateAckTimeout k) s = .next { s with sp := s.sp.remove k }))

/-- R24, R25 and R157: a TURNOVER's outcome. In HOLD, DONE clears the missed count and restarts the timer, and a first
FAILED or timeout sets the count; elsewhere the command only leaves the list. Conventions of the model: logs 11 and
17. -/
def Obligations.TurnoverOutcomesAreTaken : Prop :=
  ∀ (s : State) (k : Token) (o : Outstanding), s.sp.find k = some o → o.command = .turnover → s.idleAfter k →
    (s.ps.phase = .hold →
      exec (.ackTurnover k .done) s = .next { s with
          sp := s.sp.remove k, ps := { s.ps with missed := false, turnover := some s.cs.set.tTurnover } }
      ∧ (s.ps.missed = false →
          exec (.ackTurnover k .failed) s = .next { s with sp := s.sp.remove k, ps := { s.ps with missed := true } }
          ∧ (o.left = some 0 →
            exec (.turnoverAckTimeout k) s
              = .next { s with sp := s.sp.remove k, ps := { s.ps with missed := true } })))
    ∧ (s.ps.phase ≠ .hold →
      (∀ x, exec (.ackTurnover k x) s = .next { s with sp := s.sp.remove k })
      ∧ (o.left = some 0 → exec (.turnoverAckTimeout k) s = .next { s with sp := s.sp.remove k }))

/-- R127, R157 and R158: a HANDOFF_WORK's outcome removes its entry from the service queue and answers the requester
SUCCESS, or FAILED WORK_FAILED at a failure or a timeout. Conventions of the model: logs 23, 11 and 17. -/
def Obligations.WorkOutcomesAnswerTheRequester : Prop :=
  ∀ (s : State) (k : Token) (o : Outstanding) (before after : List Service) (e : Service), s.sp.find k = some o →
    (∃ w p a, o.command = .handoffWork w p a) → s.hu.queue = before ++ e :: after → e.state = .outstanding k →
    (∀ x ∈ before ++ after, x.state ≠ .outstanding k) → s.idleAfter k → s.atStage .waitPrereq = false →
    (∀ x, ∃ t, exec (.ackHandoffWork k x) s = .next t
      ∧ Sent s { s with sp := s.sp.remove k, hu := { s.hu with queue := before ++ after } } t
          (.handoffDone e.requester e.tag (if x = .done then .success else .workFailed)))
    ∧ (o.left = some 0 →
      ∃ t, exec (.handoffWorkAckTimeout k) s = .next t
        ∧ Sent s { s with sp := s.sp.remove k, hu := { s.hu with queue := before ++ after } } t
            (.handoffDone e.requester e.tag .workFailed))

/-- R14, R15, R24, R127, R137, R149 to R152: the arbiter. Into an empty list it issues the waiting request of the
highest priority; at the issue of a SET_PHASE FILLED or DRAINED the phase changes and DONE goes out; a waiting SET_PHASE
holds everything back while a command is outstanding; with the look-ahead permission a SET_RATE goes out beside the
TURNOVER ahead of it. That the phase request issues ahead of the start pair, and both ahead of the recovery, is the
model's choice (DESIGN CHOICE, log 24). Conventions of the model: log 23. -/
def Obligations.TheArbiterIssuesByPriority : Prop :=
  ∀ (s : State),
    (s.sp.outstanding ≠ [] → s.sp.lookAhead = false ∨ s.sp.tripReq = true ∨ s.sp.psReq ≠ none ∨ s.sp.pairReq ≠ none
        ∨ s.sp.recoveryReq ≠ none ∨ (∃ o ∈ s.sp.outstanding, o.command.isSetPhase = true) →
      exec .commandIssue s = .next s)
    ∧ (s.sp.outstanding = [] → s.sp.tripReq = true →
      exec .commandIssue s
        = .next { s with sp := { s.sp.issued s.cs.set (.setPhase .tripped .trip) with tripReq := false } })
    ∧ (∀ p r, s.sp.outstanding = [] → s.sp.tripReq = false → s.sp.psReq = some (p, .transition) →
        s.ps.slot = some r →
      ∃ t, exec .commandIssue s = .next t
        ∧ Issued s { s with sp := { s.sp.issued s.cs.set (.setPhase p .transition) with psReq := none } } t r)
    ∧ (∀ p r, s.sp.outstanding = [] → s.sp.tripReq = false → s.sp.psReq = some (p, .completion) →
        p = .filled ∨ p = .drained → s.ps.slot = some r →
      ∃ t, exec .commandIssue s = .next t
        ∧ Completed s { s with sp := { s.sp with psReq := none } } t r p s.ps none)
    ∧ (∀ v r, s.sp.outstanding = [] → s.sp.tripReq = false → s.sp.psReq = none → s.sp.pairReq = some v →
        s.ps.slot = some r →
      ∃ t, exec .commandIssue s = .next t
        ∧ Issued s { s with sp := { s.sp.issued s.cs.set (.setPhase .running .transition) with
            pairReq := none, pairRate := some v } } t r)
    ∧ (∀ p y, s.sp.outstanding = [] → s.sp.tripReq = false → s.sp.psReq = none → s.sp.pairReq = none →
        s.sp.recoveryReq = some p → s.tr.recovery = some y → s.atStage .waitPrereq = false →
      ∃ t, exec .commandIssue s = .next t
        ∧ Replied s { s with
            sp := { s.sp.issued s.cs.set (.setPhase p .recovery) with recoveryReq := none }
            tr := { s.tr with recovery := some { y with state := .outstanding s.sp.tokenCount } } } t (.port y.tag)
            .taken 0)
    ∧ (s.sp.outstanding = [] → s.sp.tripReq = false → s.sp.psReq = none → s.sp.pairReq = none →
        s.sp.recoveryReq = none →
      (s.sp.turnoverReq = true → s.sp.lookAhead = false →
        exec .commandIssue s = .next { s with sp := { s.sp.issued s.cs.set .turnover with turnoverReq := false } })
      ∧ (∀ before e after, s.sp.turnoverReq = false → s.hu.queue = before ++ e :: after →
          (∀ x ∈ before, x.state ≠ .waiting) → e.state = .waiting → s.sp.lookAhead = false →
        exec .commandIssue s = .next { s with
          sp := s.sp.issued s.cs.set (.handoffWork e.work e.point e.requester)
          hu := { s.hu with queue := before ++ { e with state := .outstanding s.sp.tokenCount } :: after } })
      ∧ (∀ v, s.sp.turnoverReq = false → s.hu.NoneWaiting → s.sp.rateReq = some v → s.sp.lookAhead = false →
        exec .commandIssue s = .next { s with
          sp := { s.sp.issued s.cs.set (.setRate v false) with
            rIss := v, rateReq := s.tu.train.bind (nextStep s.cs.set.maxStep v) } })
      ∧ (∀ v, s.sp.turnoverReq = true → s.hu.NoneWaiting → s.sp.rateReq = some v → s.sp.lookAhead = true →
        exec .commandIssue s = .next { s with
          sp := { s.sp with
            turnoverReq := false, rIss := v, rateReq := s.tu.train.bind (nextStep s.cs.set.maxStep v)
            tokenCount := s.sp.tokenCount + 1 + 1
            outstanding := [⟨s.sp.tokenCount, .turnover, some s.cs.set.tAckTurnover, false⟩,
              ⟨s.sp.tokenCount + 1, .setRate v false, some s.cs.set.tAckRate, false⟩] } }))

/-! ### Timers -/

/-- R24, R121, R173, R174 and R176: the turnover timer's expiry in HOLD restarts it and places a TURNOVER unless one
stands; the handoff deadline's expiry puts a blocking record in its confirm wait and ends a notify record with
COUNIT_LATE; the status period restarts, marks a long notice due and permits the attempt while ISOLATED; the spacing's
end lets the next short notice out. Conventions of the model: log 23. -/
def Obligations.TurnoverHandoffAndLineTimersExpire : Prop :=
  ∀ (s : State),
    (s.ps.phase = .hold → s.ps.turnover = some 0 →
      ((s.sp.turnoverReq = true ∨ ∃ o ∈ s.sp.outstanding, o.command = .turnover) →
        exec .turnoverTimerExpiry s = .next { s with ps := { s.ps with turnover := some s.cs.set.tTurnover } })
      ∧ (s.sp.Quiet → s.sp.outstanding = [] → s.hu.NoneWaiting →
        exec .turnoverTimerExpiry s = .next { s with
          ps := { s.ps with turnover := some s.cs.set.tTurnover }, sp := s.sp.issued s.cs.set .turnover })
      ∧ (s.sp.turnoverReq = false → (∀ o ∈ s.sp.outstanding, o.command ≠ .turnover) → s.sp.outstanding ≠ [] →
          s.sp.lookAhead = false →
        exec .turnoverTimerExpiry s = .next { s with
          ps := { s.ps with turnover := some s.cs.set.tTurnover }, sp := { s.sp with turnoverReq := true } }))
    ∧ (∀ h, s.hu.record = some h → h.state = .awaitDone (some 0) → s.slotStays →
      (h.point.blocking = true →
        ∃ t, exec .handoffDeadlineExpiry s = .next t
          ∧ Noted s { s with hu := { s.hu with
              record := some { h with state := .confirmWait .expired }, counitWait := true } } t)
      ∧ (h.point.blocking = false →
        ∃ t, exec .handoffDeadlineExpiry s = .next t
          ∧ Noted s { s with hu := { s.hu with record := none, counitLate := true } } t))
    ∧ (s.lc.statusTimer = some 0 → s.cs.locked = true →
      exec .statusPeriodExpiry s = .next { s with lc := { s.lc with
        statusTimer := some s.cs.set.statusPeriod, longDue := true
        longAgain := s.lc.longAgain || s.lc.noticeInTransmission
        attempt := s.lc.attempt || s.lc.line = .isolated } })
    ∧ (s.lc.spacing = some 0 →
      exec .shortSpacingExpiry s = .next { s with lc := { s.lc with spacing := none } })

/-- R20, R69 and R70: the expiry of the starve timer in RUNNING, or of the block timer under rate control, with its
flag still set is an auto hold: it enters the empty slot and goes straight to its SET_PHASE, or waits at an occupied
one. Conventions of the model: log 23. -/
def Obligations.StarveAndBlockTimersCallForAHold : Prop :=
  ∀ (c : Instr) (s u : State), s.ps.frozen = false →
    (c = .starveTimerExpiry ∧ s.tu.starveTimer = some 0 ∧ s.ps.phase = .running ∧ s.tu.starved = true
        ∧ u = { s with tu := { s.tu with starveTimer := none, starveExpired := true } }
      ∨ c = .blockTimerExpiry ∧ s.tu.blockTimer = some 0 ∧ s.ps.phase.underRate = true ∧ s.tu.blocked = true
        ∧ u = { s with tu := { s.tu with blockTimer := none, blockExpired := true } }) →
    (s.phaseFree →
      ∃ t, exec c s = .next t
        ∧ Started s u t { SlotRec.new .hold .hold .autoHold .auto none with handoff := .notNeeded })
    ∧ (s.ps.slot ≠ none →
      exec c s = .next { u with ps := { s.ps with waiting := { s.ps.waiting with autoHold := true } } })

/-- R6, R7, R13 and R19: at the end of a dwell or a settle the transition that waits for it goes on to its list, which
holds it while unmet, and a forced run-out to its SET_PHASE; a dwell that no transition waits for ends alone. -/
def Obligations.DwellAndSettleEnd : Prop :=
  ∀ (s : State), s.ps.frozen = false →
    (s.ps.dwell = some 0 → s.atStage .waitDwell = false →
      exec .dwellExpiry s = .next { s with ps := { s.ps with dwell := none } })
    ∧ (∀ r l, s.ps.dwell = some 0 → s.ps.slot = some r → r.stage = .waitDwell → r.pendingSent = true →
        r.deadline ≠ none → (r.kind = .fill ∧ l = .fill ∨ r.kind = .feed ∧ l = .feed) → s.firstUnmet l ≠ none →
      exec .dwellExpiry s = .next { s with
        ps := { s.ps with dwell := none, slot := some { r with stage := .waitPrereq } }
        pv := { s.pv with watches := s.watchesOf l } })
    ∧ (∀ r, s.ps.slot = some r → r.stage = .waitDwell → r.settle = some 0 → r.pendingSent = true →
      (r.kind = .resume → r.deadline = none → s.firstUnmet .resume ≠ none →
        exec .settleExpiry s = .next { s with
          ps := { s.ps with slot := some { r with
            stage := .waitPrereq, settle := none, deadline := some s.cs.set.tPrereqWait } }
          pv := { s.pv with watches := s.watchesOf .resume } })
      ∧ (r.kind = .forcedRunOut → r.target = .runOut → s.sp.psReq = none → s.sp.pairReq = none →
          s.sp.tripReq = false → s.cs.set.points.runOut.mode = .none →
        exec .settleExpiry s = .next (s.goesOn { r with settle := none, handoff := .notNeeded })))

/-- R23 and R12: the hold maximum's expiry sets HOLD_EXPIRED and forces a run-out. It starts at once in HOLD with the
slot empty, waits out its settle in BANKED, takes the place of a transition whose SET_PHASE has not issued, a SET_PHASE
that waits being withdrawn, and waits behind one whose SET_PHASE has. Conventions of the model: log 23. -/
def Obligations.HoldMaximumForcesARunOut : Prop :=
  ∀ (s u : State) (f : SlotRec), s.ps.frozen = false → s.ps.holdMax = some 0 →
    u = { s with ps := { s.ps with
      holdMax := none, holdExpired := true, waiting := ⟨false, false, false, false⟩ } } →
    f = SlotRec.new .runOut .forcedRunOut .holdExpired .campaign (some ⟨0, .toEmpty, true⟩) →
    s.cs.set.points.runOut.mode = .none →
    (s.phaseFree → (s.ps.phase = .hold ∨ s.ps.phase = .banked ∧ s.cs.set.tBankExit = 0) →
      ∃ t, exec .holdMaximumExpiry s = .next t ∧ Started s u t { f with handoff := .notNeeded })
    ∧ (s.ps.slot = none → s.ps.phase = .banked → s.cs.set.tBankExit ≠ 0 →
      ∃ t, exec .holdMaximumExpiry s = .next t ∧ WaitsOutSettle s u t f)
    ∧ (∀ r, s.ps.slot = some r → r.stage = .waitAck ∨ r.stage = .waitCompletion →
      ∃ t, exec .holdMaximumExpiry s = .next t
        ∧ Noted s { u with ps := { u.ps with waiting := { s.ps.waiting with forced := true } } } t)
    ∧ (∀ r, s.ps.slot = some r →
        (r.stage.beforeIssue = true ∧ s.sp.NoPhaseWaits
          ∨ r.stage = .waitIssue ∧ s.sp.outstanding ≠ [] ∧ s.sp.lookAhead = false) → s.sp.tripReq = false →
      (s.ps.phase = .hold ∨ s.ps.phase = .banked ∧ s.cs.set.tBankExit = 0 →
        ∃ t, exec .holdMaximumExpiry s = .next t
          ∧ t = { u with
              ps := { u.ps with slot := some { f with
                stage := if s.sp.outstanding = [] then .waitAck else .waitIssue, handoff := .notNeeded } }
              sp := if s.sp.outstanding = [] then u.sp.issued u.cs.set (.setPhase .runOut .transition)
                else { u.sp with psReq := some (.runOut, .transition), pairReq := none }
              pv := { u.pv with watches := [] }, au := t.au, du := t.du, lc := t.lc }
          ∧ TargetsWithdrawn s t ∧ LineKeptButAllot s.lc t.lc ∧ ShortMarked s t
          ∧ Delivered s.du s.lc t.du t.lc r.requester (.refused .cancelled) 0)
      ∧ (s.ps.phase = .banked → s.cs.set.tBankExit ≠ 0 →
        ∃ t, exec .holdMaximumExpiry s = .next t
          ∧ t = { u with
              ps := { u.ps with slot := some { f with
                stage := .waitDwell, settle := some s.cs.set.tBankExit, pendingSent := true } }
              sp := { u.sp with psReq := none, pairReq := none }
              pv := { u.pv with watches := [] }, au := t.au, du := t.du, lc := t.lc }
          ∧ TargetsWithdrawn s t ∧ LineKeptButAllot s.lc t.lc ∧ ShortMarked s t
          ∧ Delivered s.du s.lc t.du t.lc r.requester (.refused .cancelled) 0))

/-! ### The rate interval (chapter 3) -/

/-- R51 to R53, R71, R21 and R4 to R8: outside rate control an expiry restarts the interval and adds the inflow less
R_ack over T_int to the holdup, within 0 to 99,999,999. In a HOLD of owner AUTO a good expiry is counted and any other
sets the count to 0; the second good one requests the auto resume, which waits at an occupied slot, waits on its list
while that is unmet, and else waits on its claims. Conventions of the model: log 23. -/
def Obligations.TheHoldupIsIntegrated : Prop :=
  ∀ (s t : State) (h : Nat), s.tu.interval = some 0 → s.ps.frozen = false → s.atStage .waitPrereq = false →
    (h : Int) = clampInt 0 99999999 (s.tu.holdup
      + ((if s.headSection then 0 else s.inflow : Nat) - (s.sp.rAck : Int)) * s.cs.set.tInt) →
    t = { s with tu := { s.tu with interval := some s.cs.set.tInt, holdup := h } } →
    ((s.ps.phase ∈ [.filled, .banked] ∨ s.ps.phase = .hold ∧ s.ps.owner ≠ some .auto) →
      ∃ v, exec .rateIntervalExpiry s = .next v ∧ Reckoned s t v)
    ∧ (s.ps.phase = .hold → s.ps.owner = some .auto →
      (s.au.underStanding = true ∨ t.resumeRate < s.cs.set.rMin →
        ∃ v, exec .rateIntervalExpiry s = .next v ∧ Reckoned s { t with tu := { t.tu with good := 0 } } v)
      ∧ (s.au.underStanding = false → s.cs.set.rMin ≤ t.resumeRate → s.tu.good = 0 →
        ∃ v, exec .rateIntervalExpiry s = .next v ∧ Reckoned s { t with tu := { t.tu with good := 1 } } v)
      ∧ (∀ u r, s.au.underStanding = false → s.cs.set.rMin ≤ t.resumeRate → s.tu.good ≠ 0 →
          u = { t with tu := { t.tu with good := 0 } } →
          r = SlotRec.new s.ps.linkPhase .resume .autoResume .auto none →
        (s.ps.slot ≠ none →
          ∃ v, exec .rateIntervalExpiry s = .next v
            ∧ Reckoned s { u with ps := { s.ps with waiting := { s.ps.waiting with autoResume := true } } } v)
        ∧ (s.ps.slot = none → u.firstUnmet .resume ≠ none →
          ∃ v, exec .rateIntervalExpiry s = .next v
            ∧ Reckoned s { u with
                ps := { s.ps with slot := some { r with
                  stage := .waitPrereq, deadline := some s.cs.set.tPrereqWait, pendingSent := true } }
                pv := { s.pv with watches := u.watchesOf .resume } } v)
        ∧ (∀ f, s.ps.slot = none → u.firstUnmet .resume = none →
            f = (if s.ps.linkPhase = .running then atMinimumRate s.cs.set else s.cs.set.standing.get) →
            (∃ x, (s.au.res.get x).holding < min 4000 (f x)) →
          ∃ m v, Retargeted s u m ∧ exec .rateIntervalExpiry s = .next v ∧ WaitsOnClaims s m v r f)))

/-- R51 to R53, R56 to R64 and R69: the expiry under rate control, in RUNNING and in a RUN_OUT that is not done. The
holdup is integrated; the upstream term, with its level correction in RUNNING and its drain term in RUN_OUT, the desired
and the budgeted rate give the new rate, the requested parts and the flags, RUNOUT_LATE among them; the starve and block
timers follow their flags; the train's first step is placed, and issues into an empty list. UNDER_STANDING stands
already or cannot rise. Conventions of the model: log 23. -/
def Obligations.RunningComputesItsRate : Prop :=
  ∀ (s t : State) (h drain d b rate : Nat) (up : Nat) (runOut stopped starved blocked budget late : Bool),
    s.tu.interval = some 0 → s.ps.frozen = false → s.ps.phase.underRate = true → s.atStage .waitPrereq = false →
    s.sp.tripReq = false → s.sp.psReq = none → s.sp.pairReq = none → s.sp.recoveryReq = none →
    s.sp.turnoverReq = false → s.hu.NoneWaiting → s.sp.lookAhead = false → s.cs.set.tStarve ≠ 0 →
    (s.au.underStanding = true ∨ s.standsCovered) → runOut = decide (s.ps.phase = .runOut) →
    (h : Int) = clampInt 0 99999999 (s.tu.holdup
      + ((if s.headSection then (if runOut then 0 else s.sp.rAck) else s.inflow : Nat) - (s.sp.rAck : Int))
        * s.cs.set.tInt) →
    (runOut = true → s.cs.set.hDr * 60 < h
      ∨ s.tu.runoutDone = false ∧ s.headSection = false ∧ s.inflow ≠ 0) →
    drain = (if s.tu.data.mode = .toEmpty ∨ s.tu.data.rem = 0 then s.cs.set.rMax
      else if s.cs.set.hDr * 60 < h then ceilDiv (h - s.cs.set.hDr * 60) s.tu.data.rem else 0) →
    late = (runOut && s.tu.data.mode = .timed && s.tu.data.rem = 0) →
    (up : Int) = (if runOut then ((if s.headSection then 0 else s.inflow : Nat) : Int) + drain
      else if s.headSection then (s.cs.set.rMax : Int)
      else max 0 (s.inflow + clampInt (-s.cs.set.rCorrMax) s.cs.set.rCorrMax
        (((h : Int) - s.cs.set.hSet * 60).tdiv s.cs.set.tLevel))) →
    d = min (min s.tu.limitC s.tu.limitS)
      (min s.cs.set.rMax (min (if s.tailSection then s.cs.set.rMax else s.downstream) up)) →
    b = s.budgets.foldl min d →
    rate = (if b < s.cs.set.rMin then 0
      else max s.cs.set.rMin
        (clamp (s.sp.rAck - s.cs.set.rampDown) (s.sp.rAck + s.cs.set.rampUp) b / s.cs.set.q * s.cs.set.q)) →
    stopped = decide (b < s.cs.set.rMin) →
    blocked = (stopped && !s.tailSection && decide (s.downstream = b)) →
    starved = (stopped && !blocked && decide (up = b)) →
    budget = (stopped && !blocked && !starved && decide (b ∈ s.budgets)) →
    t = { s with
      tu := { s.tu with
        interval := some s.cs.set.tInt, holdup := h, train := some rate
        parts := .of fun x => ceilDiv (s.cs.set.fullRate.get x * max d s.sp.rAck) 1000
        starved := starved, blocked := blocked
        limited := stopped && !blocked && !starved && !budget && (s.tu.limitC = b || s.tu.limitS = b)
        claimWait := budget || s.budgets.any (· < d), runoutLate := late
        runoutDone := s.tu.runoutDone && !runOut
        starveTimer := if !starved then none
          else if s.tu.starved || runOut then s.tu.starveTimer else some s.cs.set.tStarve
        starveExpired := starved && (s.tu.starved || runOut) && s.tu.starveExpired
        blockTimer := if !blocked then none else if s.tu.blocked then s.tu.blockTimer else some s.cs.set.tStarve
        blockExpired := blocked && s.tu.blocked && s.tu.blockExpired } } →
    (s.sp.outstanding = [] → ∀ v, t.firstStep rate = some v →
      ∃ w, exec .rateIntervalExpiry s = .next w
        ∧ Reckoned s { t with sp := { s.sp.issued s.cs.set (.setRate v false) with
            rIss := v, rateReq := nextStep s.cs.set.maxStep v rate } } w)
    ∧ (s.sp.outstanding ≠ [] ∨ t.firstStep rate = none →
      ∃ w, exec .rateIntervalExpiry s = .next w
        ∧ Reckoned s { t with sp := { s.sp with rateReq := t.firstStep rate } } w)

/-- R53, R58, R62 and R26: the expiry in RUN_OUT. Worked off with no inflow, or done before and still worked off, the
run-out is done: rate 0, no parts, no flag, and a closing one requests its drain. Which of the drain and the rate the
section port takes first is left open (R52), the model using one free value there (logs 4 and 26). UNDER_STANDING
stands already or cannot rise. Conventions of the model: log 23. -/
def Obligations.ARunOutEndsWhenWorkedOff : Prop :=
  ∀ (s t : State) (h : Nat),
    s.tu.interval = some 0 → s.ps.frozen = false → s.ps.phase = .runOut → s.atStage .waitPrereq = false →
    s.sp.tripReq = false → s.sp.psReq = none → s.sp.pairReq = none → s.sp.recoveryReq = none →
    s.sp.turnoverReq = false → s.hu.NoneWaiting → s.sp.lookAhead = false →
    (s.au.underStanding = true ∨ s.standsCovered) →
    (h : Int) = clampInt 0 99999999 (s.tu.holdup
      + ((if s.headSection then 0 else s.inflow : Nat) - (s.sp.rAck : Int)) * s.cs.set.tInt) →
    h ≤ s.cs.set.hDr * 60 → (s.tu.runoutDone = true ∨ s.headSection = true ∨ s.inflow = 0) →
    t = { s with
      tu := { s.tu with
        interval := some s.cs.set.tInt, holdup := h, train := some 0, parts := .same 0, runoutDone := true
        starved := false, blocked := false, limited := false, claimWait := false, runoutLate := false
        starveTimer := none, starveExpired := false, blockTimer := none, blockExpired := false } } →
    (s.tu.runoutDone = true ∨ s.tu.data.closeAfter = false →
      (s.sp.outstanding = [] → s.sp.rIss ≠ 0 →
        ∃ w, exec .rateIntervalExpiry s = .next w
          ∧ Reckoned s { t with sp := { s.sp.issued s.cs.set (.setRate 0 false) with rIss := 0, rateReq := none } } w)
      ∧ (s.sp.outstanding ≠ [] ∨ s.sp.rIss = 0 ∧ s.sp.rAck = 0 →
        ∃ w, exec .rateIntervalExpiry s = .next w
          ∧ Reckoned s { t with sp := { s.sp with rateReq := t.firstStep 0 } } w))
    ∧ (s.tu.runoutDone = false → s.tu.data.closeAfter = true → s.ps.slot ≠ none → s.sp.outstanding ≠ [] →
      ∃ w, exec .rateIntervalExpiry s = .next w
        ∧ Reckoned s { t with
            sp := { s.sp with rateReq := t.firstStep 0 }
            ps := { s.ps with waiting := { s.ps.waiting with closeDrain := true } }, free := s.free + 1 } w)
    ∧ (s.tu.runoutDone = false → s.tu.data.closeAfter = true → s.ps.slot = none → s.sp.outstanding = [] →
        s.sp.rIss = 0 → s.sp.rAck = 0 → s.cs.set.points.drain.mode = .none →
      ∃ w, exec .rateIntervalExpiry s = .next w
        ∧ Reckoned s { t with
            sp := { s.sp.issued s.cs.set (.setPhase .draining .transition) with rateReq := none }
            ps := { s.ps with slot := some { SlotRec.new .draining .closeDrain .closeAfter .campaign none with
              stage := .waitAck, handoff := .notNeeded } }, free := s.free + 1 } w)

/-! ### The line (chapter 9) -/

/-- R162, R166, R168, R169, R172, R174 and R176: at an idle line with nothing under way the arbiter offers the first
ready slot, in the order trip, steam, power, lime, water, messages, long notice, short notice; while ISOLATED only a
long notice once permitted. A notice carries phase, rates, flags, holdup, holdings, capacities and the rest of the
node's state (R44, R50, R65, R66, R68, R78, R129). The row stands for a bit boundary at which the line reads idle, so it
has no effect on a frame under way (DESIGN CHOICE, log 8); that a message goes ahead of the long notice of a restart too
is the model's choice (DESIGN CHOICE, log 39). -/
def Obligations.TheIdleLineIsOfferedTheFirstSlot : Prop :=
  ∀ (s : State),
    (s.cs.locked = false → exec .lineIdle s = .next s)
    ∧ (s.cs.locked = true → s.lc.tx ≠ none → exec .lineIdle s = .next { s with lc := { s.lc with joined := true } })
    ∧ (s.cs.locked = true → s.lc.tx = none →
      (s.lc.line = .isolated → s.lc.attempt = true →
        ∃ n, s.NoticeShows true n ∧ Offers s .status (.status n))
      ∧ (s.lc.line = .isolated → s.lc.attempt = false → OffersNothing s)
      ∧ (s.lc.line = .active →
        (∀ c, s.lc.tripSlot = some c → Offers s .trip (.tripNotice c))
        ∧ (s.lc.tripSlot = none →
          (∀ r f, s.lc.allot.get r = some f → (∀ x, x.code < r.code → s.lc.allot.get x = none) →
            Offers s (.allot r) (.allot r f))
          ∧ ((∀ x, s.lc.allot.get x = none) →
            (∀ m rest, s.lc.fifo = m :: rest → Offers s .fifo (.message m))
            ∧ (s.lc.fifo = [] →
              (s.lc.longDue = true → ∃ n, s.NoticeShows true n ∧ Offers s .status (.status n))
              ∧ (s.lc.longDue = false → s.lc.shortDue = true → s.lc.spacing = none →
                ∃ n, s.NoticeShows false n ∧ Offers s .status (.status n))
              ∧ (s.lc.longDue = false → s.lc.shortDue = false ∨ s.lc.spacing ≠ none → OffersNothing s))))))

/-- R84, R166, R170, R172, R174 and R176: what becomes of an offered frame. Lost, it stays in its slot with the failure
count as it stands; at a fault the count rises, and an attempt's permission goes; won, the frame its slot then holds is
in transmission, a CLAIM's engine SENDING and a notice's spacing started. A slot emptied meanwhile begins nothing
(DEDUCED, log 9). -/
def Obligations.OfferedFramesAreLostFaultedOrBegun : Prop :=
  ∀ (s : State) (x : Tx), s.lc.tx = some x → x.begun = false →
    exec .arbitrationLost s = .next { s with lc := { s.lc with tx := none } }
    ∧ (s.lc.line = .active → s.lc.failures < 7 →
      exec .transmitFault s = .next { s with lc := { s.lc with tx := none, failures := s.lc.failures + 1 } })
    ∧ (s.lc.line = .isolated →
      exec .transmitFault s = .next { s with lc := { s.lc with tx := none, attempt := false } })
    ∧ (x.slot = .status →
      exec .transmissionBegin s = .next { s with lc := { s.lc with
        tx := some { x with begun := true, afterOverflow := true }
        spacing := some 1, longAgain := false, shortAgain := false } })
    ∧ (∀ c, x.slot = .trip → s.lc.tripSlot = some c →
      exec .transmissionBegin s
        = .next { s with lc := { s.lc with tx := some { x with frame := .tripNotice c, begun := true } } })
    ∧ (∀ m rest, x.slot = .fifo → s.lc.fifo = m :: rest →
      exec .transmissionBegin s
        = .next { s with lc := { s.lc with tx := some { x with frame := .message m, begun := true } } })
    ∧ (∀ r v, x.slot = .allot r → s.lc.allot.get r = some (.release v) →
      exec .transmissionBegin s
        = .next { s with lc := { s.lc with tx := some { x with frame := .allot r (.release v), begun := true } } })
    ∧ (∀ r v, x.slot = .allot r → s.lc.allot.get r = some (.claim v) →
      exec .transmissionBegin s = .next { s with
        lc := { s.lc with tx := some { x with frame := .allot r (.claim v), begun := true } }
        au := { s.au with res := s.au.res.set r { s.au.res.get r with engine := .sending } } })
    ∧ (∀ r, x.slot = .allot r → s.lc.allot.get r = none →
      exec .transmissionBegin s = .next { s with lc := { s.lc with tx := none } })

/-- R70, R77, R79, R85, R86, R89, R90, R92, R167, R170 to R174 and R176: the completion of each frame. A TRIP_NOTICE
and a message leave their slot; a CLAIM makes its value the holding, within the target, and a RELEASE makes its value
the announced one, and either marks a long notice due. At the rise of the holding, before the held change report is
taken, UNDER_STANDING is judged and the claim of a transition is reported; a cut by that report sets UNDER_STANDING
with its timer from the full value, and under rate control it calls for an auto hold. A notice's rates become the last
published ones and its marks stay only where set again, a long one restarting the status period, bringing the line back
to ACTIVE and the engines out of SUSPENDED. Conventions of the model: log 23. -/
def Obligations.CompletedFramesTakeEffect : Prop :=
  ∀ (s : State) (x : Tx) (l : LC), s.lc.tx = some x → x.begun = true → l = { s.lc with tx := none, failures := 0 } →
    (∀ c, x.slot = .trip → x.frame = .tripNotice c →
      exec .frameCompletion s = .next { s with lc := { l with tripSlot := s.lc.tripAside, tripAside := none } })
    ∧ (∀ m rest, x.slot = .fifo → x.frame = .message m → s.lc.fifo = m :: rest →
      exec .frameCompletion s = .next { s with lc := { l with fifo := rest } })
    ∧ (∀ n, x.slot = .status → x.frame = .status n → n.long = false →
      exec .frameCompletion s = .next { s with lc := { l with
        lastOffer := n.offer, lastAcceptance := n.acceptance
        shortDue := s.lc.shortAgain
          || (s.cs.locked && (mattersOnLine s.cs.set.publishDeadband s.offer n.offer
              || mattersOnLine s.cs.set.publishDeadband s.acceptance n.acceptance)) } })
    ∧ (∀ r v m u, s.atStage .waitPrereq = false → x.slot = .allot r → x.frame = .allot r (.claim v) →
        m = s.claimed r v → ClaimFollowed s m u r →
      ∃ t, exec .frameCompletion s = .next t
        ∧ t = { u with au := t.au, lc := t.lc }
        ∧ t.lc = { l with
            longDue := s.lc.longDue || s.cs.locked, allot := t.lc.allot
            shortDue := s.lc.shortDue || (s.cs.locked && s.shortCalled t) }
        ∧ StandingJudgedTwice s m t ∧ CellAfter s t r (m.cell r))
    ∧ (s.peerCalm →
      (∀ r v, x.slot = .allot r → x.frame = .allot r (.release v) →
        ∃ t, exec .frameCompletion s = .next t
          ∧ LineAfter s t { l with longDue := s.lc.longDue || s.cs.locked }
          ∧ CellAfter s t r ⟨{ s.au.res.get r with announced := v }, none⟩)
      ∧ (∀ n, x.slot = .status → x.frame = .status n → n.long = true →
        ∃ t, exec .frameCompletion s = .next t
          ∧ LineAfter s t { l with
              lastOffer := n.offer, lastAcceptance := n.acceptance
              shortDue := s.lc.shortAgain
                || (s.cs.locked && (mattersOnLine s.cs.set.publishDeadband s.offer n.offer
                    || mattersOnLine s.cs.set.publishDeadband s.acceptance n.acceptance))
              longDue := s.lc.longAgain, statusTimer := some s.cs.set.statusPeriod
              replyOverflow := s.lc.replyOverflow && !x.afterOverflow, line := .active, attempt := false }
          ∧ ∀ y, t.cell y = Cell.rejoin ⟨s.target y, false, true⟩ (t.tally y)
              (Cell.longDone ⟨s.target y, false, true⟩ (n.holdings.get y) (n.capacities.get y) (s.cell y))))

/-- R20, R70, R85, R86, R91, R166, R167, R170, R174 to R176: the failure of a frame. Below the eighth in a row it
returns to its slot, the trip slot taking the notice kept aside and the AU judging its frame anew; the eighth isolates
the node, which drops the frame and gives up every holding, and under rate control the auto hold enters the empty slot
or waits; an attempt while ISOLATED loses its permission. A failed short notice leaves no spacing (R174); that a long
one keeps the spacing it started is the model's (DEDUCED, log 21). Conventions of the model: log 23. -/
def Obligations.FailedFramesReturnOrIsolate : Prop :=
  ∀ (s : State) (x : Tx), s.lc.tx = some x →
    (x.begun = true → s.lc.line = .isolated →
      exec .frameFailure s = .next { s with lc := { s.lc with tx := none, attempt := false } })
    ∧ (∀ l, x.begun = true → s.lc.line = .active → s.lc.failures < 7 →
        l = { s.lc with tx := none, failures := s.lc.failures + 1 } →
      ((∃ m, x.slot = .fifo ∧ x.frame = .message m) ∨ (∃ n, x.slot = .status ∧ x.frame = .status n ∧ n.long = true)
          ∨ x.slot = .trip ∧ s.lc.tripAside = none →
        exec .frameFailure s = .next { s with lc := l })
      ∧ (∀ n, x.slot = .status → x.frame = .status n → n.long = false →
        exec .frameFailure s = .next { s with lc := { l with spacing := none } })
      ∧ (∀ c, x.slot = .trip → s.lc.tripAside = some c →
        exec .frameFailure s = .next { s with lc := { l with tripSlot := some c, tripAside := none } })
      ∧ (∀ r v, s.peerCalm → x.slot = .allot r → x.frame = .allot r (.claim v) →
        ∃ t, exec .frameFailure s = .next t ∧ LineAfter s t l
          ∧ CellAfter s t r
              (if s.target r < (s.au.res.get r).claimValue.getD 0 then
                ⟨{ s.au.res.get r with engine := .waiting, claimValue := none }, none⟩
              else ⟨{ s.au.res.get r with engine := .reserved }, s.lc.allot.get r⟩))
      ∧ (∀ r v, s.peerCalm → x.slot = .allot r → x.frame = .allot r (.release v) →
        ∃ t, exec .frameFailure s = .next t ∧ LineAfter s t l
          ∧ CellAfter s t r ⟨s.au.res.get r, some (.release (s.au.res.get r).holding)⟩))
    ∧ (∀ c l, (c = .frameFailure ∧ x.begun = true ∨ c = .transmitFault ∧ x.begun = false) →
        s.lc.line = .active → s.lc.failures = 7 → s.atStage .waitPrereq = false →
        l = { s.lc.dropFrame x.slot with tx := none, line := .isolated, failures := 0, attempt := false } →
      (s.ps.phase.underRate = false →
        ∃ t, exec c s = .next t ∧ LineAfter s t l ∧ CellsGivenUp s t)
      ∧ (∀ u, s.ps.phase.underRate = true → HoldAsked s u →
        ∃ t, exec c s = .next t
          ∧ t = { u with au := t.au, lc := t.lc }
          ∧ t.lc = { l with
              allot := t.lc.allot, shortDue := l.shortDue || (s.cs.locked && s.shortCalled t) }
          ∧ StandingJudged s t ∧ CellsGivenUp s t))

/-! ### The peer table (chapter 2) -/

/-- R7, R32, R33, R34, R37, R45, R70 and R89: what the two status notices write into their sender's entry, and the
change report that follows: the AU's work on each resource and UNDER_STANDING, whose rise under rate control calls for
an auto hold, and the list of a transition in WAIT_PREREQ, which goes on where it is met; a change of the own entry that
follows has the list examined once more (R41). Conventions of the model: logs 23, 32 and 46. -/
def Obligations.StatusNoticesWriteTheEntry : Prop :=
  ∀ (s : State) (a : Station) (p : List Byte) (ph : Phase) (e b : PeerEntry), s.listens a → s.ReportReady →
    ph.code = (byteAt p 0).toNat →
    b = { s.stored a with
      presence := .live, phase := some ph, frozen := (Flags.ofWord (wordAt p 5)).frozen
      offer := min 1000 (wordAt p 1), acceptance := min 1000 (wordAt p 3), flags := Flags.ofWord (wordAt p 5)
      lastHeard := some s.now } →
    (∀ (c : SectionClass) (k : Option Cause), p.length = 32 → c.code = (byteAt p 29).toNat →
        (ph = .tripped → ∃ x : Cause, k = some x ∧ x.code = (byteAt p 31).toNat) → (ph ≠ .tripped → k = none) →
        e = { b with
          holdup := some (wordAt p 7)
          holdings := .of fun r => some (min 4000 (wordAt p (9 + 2 * r.code)))
          capacities := .of fun r =>
            if (byteAt p 17).getLsbD r.code then some (min 4000 (wordAt p (18 + 2 * r.code))) else none
          statusPeriod := some (max 1 (min 10 ((byteAt p 26).toNat / 16)))
          rank := some ((byteAt p 26).toNat % 16)
          phaseSince := some ((s.now : Int) - wordAt p 27)
          sectionClass := some c, chainPosition := some ((byteAt p 30).toNat % 64), cause := k } →
      ∃ t, exec (.statusLong a p) s = .next t ∧ Told s t a e)
    ∧ (p.length = 7 →
        e = { b with
          phaseSince := if (s.stored a).phase = some ph ∧ (s.stored a).presence = .live then (s.stored a).phaseSince
            else some (s.now : Int)
          cause := if ph = .tripped ∧ (s.stored a).phase = some .tripped then (s.stored a).cause else none } →
      ∃ t, exec (.statusShort a p) s = .next t ∧ Told s t a e)

/-- R7, R32, R35 to R39, R45, R70 and R89: what a CLAIM, a RELEASE, a TRIP_NOTICE and a silence write into the entry,
and the change report that follows, on the AU, the auto hold and the list of a waiting transition. Conventions of the
model: logs 23, 32 and 46. -/
def Obligations.HoldingsTripsAndSilenceWriteTheEntry : Prop :=
  ∀ (s : State) (a : Station) (p : List Byte), s.ReportReady →
    (∀ r : Resource, s.listens a → p.length = 3 → r.code = (byteAt p 0).toNat → ∀ c,
        c = .claim a p ∨ c = .release a p →
      ∃ t, exec c s = .next t
        ∧ Told s t a { s.stored a with
            presence := .live, lastHeard := some s.now
            holdings := (s.stored a).holdings.set r (some (min 4000 (wordAt p 1))) })
    ∧ (∀ c : Cause, s.listens a → p.length = 1 → c.code = (byteAt p 0).toNat →
      ∃ t, exec (.tripNotice a p) s = .next t
        ∧ Told s t a { s.stored a with
            presence := .live, phase := some .tripped, phaseSince := some (s.now : Int), cause := some c
            lastHeard := some s.now })
    ∧ (∀ h, a ≠ 0 → s.isOwn a = false → (s.stored a).presence = .live → (s.stored a).lastHeard = some h →
        3 * (s.stored a).statusPeriod.getD 10 < s.elapsed h →
      ∃ t, exec (.peerSilence a) s = .next t
        ∧ Told s t a { s.stored a with
            presence := .silent, offer := 0, acceptance := 0, holdings := .same none, capacities := .same none })

/-- R32, R37, R162, R164, R165 and R188: frames that change nothing. A frame from address 0 or the own address, one
before the line controller takes part, one of another length or with a code that names nothing, and any REPLY are
discarded; bits found in error are counted, up to 255, and nothing is delivered until the line has been idle. That
LINE_FRAME_ERROR carries the bits and has no effect where no check finds them in error is the model's choice (DESIGN
CHOICE, log 18), and so is that the check of a payload against its kind is no error of the bits (log 29). -/
def Obligations.DiscardedFramesChangeNothing : Prop :=
  ∀ (s : State) (a : Station) (p : List Byte),
    (¬ s.listens a → ∀ c ∈ [Instr.statusLong a p, .statusShort a p, .claim a p, .release a p, .tripNotice a p],
      exec c s = .next s)
    ∧ ((p.length ≠ 32 ∨ (∀ x : Phase, x.code ≠ (byteAt p 0).toNat)
          ∨ (∀ x : SectionClass, x.code ≠ (byteAt p 29).toNat)
          ∨ Phase.tripped.code = (byteAt p 0).toNat ∧ ∀ x : Cause, x.code ≠ (byteAt p 31).toNat) →
      exec (.statusLong a p) s = .next s)
    ∧ ((p.length ≠ 7 ∨ ∀ x : Phase, x.code ≠ (byteAt p 0).toNat) → exec (.statusShort a p) s = .next s)
    ∧ ((p.length ≠ 3 ∨ ∀ x : Resource, x.code ≠ (byteAt p 0).toNat) →
      exec (.claim a p) s = .next s ∧ exec (.release a p) s = .next s)
    ∧ ((p.length ≠ 1 ∨ ∀ x : Cause, x.code ≠ (byteAt p 0).toNat) → exec (.tripNotice a p) s = .next s)
    ∧ exec (.replyReceived a p) s = .next s
    ∧ (∀ bits, s.receives = true → judgeBits bits = .error →
      exec (.lineFrameError bits) s
        = .next { s with lc := { s.lc with lineErrors := min 255 (s.lc.lineErrors + 1), joined := false } })
    ∧ (∀ bits, s.receives = false ∨ judgeBits bits ≠ .error → exec (.lineFrameError bits) s = .next s)

/-- R7, R42 and R49: an age watch whose threshold is reached has the list evaluated again: unmet, it holds the
transition with its watches set anew; met, a DRAIN or an END_CAMPAIGN goes on to its SET_PHASE. -/
def Obligations.AgeWatchesEvaluateTheList : Prop :=
  ∀ (s : State) (a : Station) (r : SlotRec) (n : Nat) (since : Int), s.ps.frozen = false → s.ps.slot = some r →
    r.stage = .waitPrereq → r.pendingSent = true → (a, n) ∈ s.pv.watches →
    (s.entry a).phaseSince = some since → n ≤ s.age since →
    (∀ l, (r.kind, l) ∈ [(.fill, .fill), (.feed, .feed), (.resume, .resume), (.drain, .drain),
        (TransKind.endCampaign, ListName.endList)] → s.firstUnmet l ≠ none →
      exec (.ageWatchExpiry a) s = .next { s with pv := { s.pv with watches := s.watchesOf l } })
    ∧ (s.sp.tripReq = false → s.sp.psReq = none → s.sp.pairReq = none →
      (r.kind = .drain → s.firstUnmet .drain = none → s.cs.set.points.drain.mode = .none →
        exec (.ageWatchExpiry a) s = .next (s.unwatched.goesOn { r with handoff := .notNeeded }))
      ∧ (r.kind = .endCampaign → s.firstUnmet .endList = none →
        exec (.ageWatchExpiry a) s = .next (s.unwatched.goesOn { r with handoff := .notNeeded })))

/-! ### Shedding (chapter 4) -/

/-- R76, R80 to R83 and R85 to R88: what the AU does for a resource at a change report, at an outcome of its frame and
at a change of the target, from the target, the tallies and the holding: a claim takes the smaller of target and
headroom, and only above the holding; a fall of the target lowers the holding at once, and the lower holding goes out as
a RELEASE. At a change report a holding that the walk leaves within the capacity stands; one at which the walk exceeds
it is cut to what the holders before the node leave, a RESERVED claim gives way, no new one is placed, and the lower
holding goes out as a RELEASE. -/
def Obligations.AChangeReportShedsToTheAllowance : Prop :=
  (∀ (v : CellView) (n : Tally) (b : Nat) (c : Cell), c.Worked v n b)
  ∧ ∀ (s t : State) (r : Resource) (h c : Nat), s.allotBegun r = false → t = s.reportCell r →
    h = (s.au.res.get r).holding → c = (s.tally r).capacity → (s.au.res.get r).engine ≠ .sending →
    ((s.au.res.get r).engine = .reserved →
      (s.au.res.get r).tally.others + h ≤ (s.au.res.get r).tally.capacity) →
    (s.sumBefore r + h ≤ c → (t.au.res.get r).holding = h)
    ∧ (c < s.sumBefore r + h →
      (t.au.res.get r).holding = c - s.sumBefore r
      ∧ ((s.au.res.get r).engine ≠ .suspended →
        (t.au.res.get r).engine = (if s.target r ≤ c - s.sumBefore r then .idle else .waiting))
      ∧ (s.lc.line = .active → (t.au.res.get r).announced ≠ c - s.sumBefore r →
        t.lc.allot.get r = some (.release (c - s.sumBefore r))))

/-! ### Handoffs (chapter 6) -/

/-- R126, R127 and R188: a HANDOFF addressed to the node. A repeat is ignored; outside FILLED, RUNNING, HOLD and
RUN_OUT the answer is NOT_READY, at a full queue BUSY; otherwise an entry joins the queue and its HANDOFF_WORK issues
or waits. A kind byte above 15 is kept as a kind the manual leaves open (log 7). Conventions of the model: log 23. -/
def Obligations.HandoffsAreServedOrAnswered : Prop :=
  ∀ (s : State) (a : Station) (p : List Byte),
    ((s.receives = false ∨ p.length ≠ 4 ∨ (byteAt p 0).toNat ≠ s.cs.set.ownAddress.val ∨ 3 < (byteAt p 3).toNat) →
      exec (.handoff a p) s = .next s)
    ∧ (∀ k : Point, s.receives = true → p.length = 4 → (byteAt p 0).toNat = s.cs.set.ownAddress.val →
        (byteAt p 3).toNat = k.code →
      ((∃ e ∈ s.hu.queue, e.requester = a ∧ e.tag = byteAt p 1) → exec (.handoff a p) s = .next s)
      ∧ ((∀ e ∈ s.hu.queue, ¬ (e.requester = a ∧ e.tag = byteAt p 1)) →
        (s.ps.phase ∉ [.filled, .running, .hold, .runOut] → s.atStage .waitPrereq = false →
          ∃ t, exec (.handoff a p) s = .next t ∧ Sent s s t (.handoffDone a (byteAt p 1) .notReady))
        ∧ (s.ps.phase ∈ [.filled, .running, .hold, .runOut] →
          (2 ≤ s.hu.queue.length → s.atStage .waitPrereq = false →
            ∃ t, exec (.handoff a p) s = .next t ∧ Sent s s t (.handoffDone a (byteAt p 1) .busy))
          ∧ (∀ e : Service, s.hu.queue.length < 2 → e.requester = a → e.tag = byteAt p 1 → e.point = k →
              e.state = .waiting → s.sp.lookAhead = false →
            (e.work.val = (byteAt p 2).toNat →
              (s.sp.outstanding ≠ [] →
                exec (.handoff a p) s = .next { s with hu := { s.hu with queue := s.hu.queue ++ [e] } })
              ∧ (s.sp.outstanding = [] → s.sp.Quiet → s.hu.NoneWaiting →
                exec (.handoff a p) s = .next { s with
                  hu := { s.hu with queue := s.hu.queue ++ [{ e with state := .outstanding s.sp.tokenCount }] }
                  sp := s.sp.issued s.cs.set (.handoffWork e.work k a) }))
            ∧ (15 < (byteAt p 2).toNat → s.sp.outstanding ≠ [] →
              ∃ w, exec (.handoff a p) s = .next { s with
                hu := { s.hu with queue := s.hu.queue ++ [{ e with work := w }] }, free := s.free + 1 })))))

/-- R120, R123 and R188: a HANDOFF_DONE that answers the requester record. SUCCESS ends it and fulfils the handoff
condition of a blocking point; FAILED puts a blocking record in its confirm wait and ends a notify one with
COUNIT_LATE; in a confirm wait a FAILED is ignored, and so is every answer that matches no record. Conventions of the
model: log 23. -/
def Obligations.HandoffAnswersEndTheRecord : Prop :=
  ∀ (s : State) (a : Station) (p : List Byte),
    ((s.receives = false ∨ p.length ≠ 4 ∨ (byteAt p 0).toNat ≠ s.cs.set.ownAddress.val ∨ 1 < (byteAt p 2).toNat
        ∨ ∀ h x, s.hu.record = some h → h.call = some x → x.coUnit ≠ a ∨ x.tag ≠ byteAt p 1) →
      exec (.handoffDone a p) s = .next s)
    ∧ (∀ h x, s.receives = true → p.length = 4 → (byteAt p 0).toNat = s.cs.set.ownAddress.val →
        s.hu.record = some h → h.call = some x → x.coUnit = a → x.tag = byteAt p 1 → s.slotStays →
      (byteAt p 2 = 0 → h.point.blocking = true →
        ∃ t, exec (.handoffDone a p) s = .next t
          ∧ Noted s { s with
              hu := { s.hu with record := none, counitWait := false }
              ps := { s.ps with slot := s.ps.slot.map SlotRec.fulfil } } t)
      ∧ (byteAt p 2 = 0 → h.point.blocking = false →
        exec (.handoffDone a p) s = .next { s with hu := { s.hu with record := none } })
      ∧ (∀ d, byteAt p 2 = 1 → h.state = .awaitDone d →
        (h.point.blocking = true →
          ∃ t, exec (.handoffDone a p) s = .next t
            ∧ Noted s { s with hu := { s.hu with
                record := some { h with state := .confirmWait .failed }, counitWait := true } } t)
        ∧ (h.point.blocking = false →
          ∃ t, exec (.handoffDone a p) s = .next t
            ∧ Noted s { s with hu := { s.hu with record := none, counitLate := true } } t))
      ∧ (∀ w, byteAt p 2 = 1 → h.state = .confirmWait w → exec (.handoffDone a p) s = .next s))

/-! ### Configuration and start-up (chapter 10) -/

/-- R179 and R180 with R116 and 11.3: a configuration item is refused while LOCKED or where its number names none, and
otherwise stored, saturated to its range, with every other item left; TAKEN or the refusal is the local result.
Conventions of the model: log 17. -/
def Obligations.ConfigurationItemsAreStoredSaturated : Prop :=
  ∀ (item v0 v1 v2 v3 v4 : Byte) (s : State),
    (s.cs.locked = true →
      exec (.configItem item v0 v1 v2 v3 v4) s = .next (s.withResult item (.refused .configLocked) 0))
    ∧ (s.cs.locked = false → item.toNat = 0 ∨ 111 < item.toNat →
      exec (.configItem item v0 v1 v2 v3 v4) s = .next (s.withResult item (.refused .badItem) 0))
    ∧ (s.cs.locked = false → 1 ≤ item.toNat → item.toNat ≤ 111 →
      ∃ c, exec (.configItem item v0 v1 v2 v3 v4) s
          = .next ({ s with cs := { s.cs with set := c } }.withResult item .taken 0)
        ∧ Loads item.toNat v0 v1 v2 v3 v4 (c.item item.toNat)
        ∧ ∀ k, 1 ≤ k → k ≤ 111 → k ≠ item.toNat → c.item k = s.cs.set.item k)

/-- R181 with R177 and R182: LOCK_CONFIG is refused while LOCKED; it locks where every check holds, the line
controller waiting for the line idle with its timer started and a long notice due; otherwise it is refused
INCONSISTENT with the lowest item that a failing check names. Once locked, the configuration does not change until a
power-on reset. Conventions of the model: log 17. -/
def Obligations.TheLockChecksTheItems : Prop :=
  ∀ (s : State),
    (s.cs.locked = true → exec .lockConfig s = .next (s.withResult 0 (.refused .configLocked) 0))
    ∧ (s.cs.locked = false → (∀ k, ¬ s.cs.set.LockFails k) →
      exec .lockConfig s = .next ({ s with
        cs := { s.cs with locked := true }
        lc := { s.lc with
          joined := false, statusTimer := some s.cs.set.statusPeriod, longDue := true } }.withResult 0 .taken 0))
    ∧ (∀ k, s.cs.locked = false → s.cs.set.LockFails k → (∀ m < k, ¬ s.cs.set.LockFails m) →
      exec .lockConfig s = .next (s.withResult 0 (.refused .inconsistent) (BitVec.ofNat 8 k)))
    ∧ (∀ t, s.cs.locked = true → (∀ rest, s.pending ≠ .powerOnReset :: rest) → step s = .next t → t.cs = s.cs)

/-- R184 to R186 with R177: the power-on reset, and a RESTART_NODE refused, taken while UNLOCKED and taken while LOCKED.
The clock runs on through a restart, and a line requester whose transition it removes is replied REFUSED CANCELLED. The
queue, the free counter and the raised causes are the model's own (logs 16, 26, 45); joined kept through the locked
restart is log 15, and phase-since after the unlocked one log 35. Conventions of the model: log 17. -/
def Obligations.RestartsAndPowerOnReset : Prop :=
  ∀ (s : State),
    exec .powerOnReset s = .next { State.reset with free := s.free, pending := s.pending }
    ∧ (s.cs.locked = true → s.ps.phase ∉ [.cold, .drained, .tripped] →
      exec .restartNode s = .next (s.withResult 0 (.refused .illegalInPhase) 0))
    ∧ (s.cs.locked = false → s.ps.phase = .cold →
      exec .restartNode s = .next { State.reset with
        now := s.now, quarter := s.quarter, free := s.free, pending := s.pending
        ps := { State.reset.ps with phaseSince := s.now }
        du := ⟨some ⟨.configuration, 0, .taken, 0⟩, 1⟩ })
    ∧ (∀ f, s.cs.locked = true → s.ps.phase ∈ [.cold, .drained, .tripped] →
        (∀ a tag, s.ps.slot.map SlotRec.requester = some (.line a tag) → f = [.reply a tag (.refused .cancelled) 0]) →
        ((∀ a tag, s.ps.slot.map SlotRec.requester ≠ some (.line a tag)) → f = []) →
      exec .restartNode s = .next { State.reset with
        now := s.now, quarter := s.quarter, free := s.free, pending := s.pending, cs := s.cs
        ps := { State.reset.ps with phaseSince := s.now }
        lc := { State.reset.lc with
          joined := s.lc.joined, longDue := true, statusTimer := some s.cs.set.statusPeriod, fifo := f }
        du := ⟨some ⟨.configuration, 0, .taken, 0⟩, 1⟩ })

/-! ### Exchanges and reports (chapters 8 and 11) -/

/-- R143, R147, R148, R187 and 11.4: the start of an exchange takes a snapshot of the order record and, on page 3, moves
the detail cursor round; the snapshot is what SDO carries, byte 0 first, each byte most significant bit first, and zeros
after it, and with no exchange open SDO is not driven. An exchange that is open already keeps its snapshot (DESIGN
CHOICE, log 10); page 3 sends the value bits of an absent holdup or chain position as 0 (DESIGN CHOICE, log 41). -/
def Obligations.ExchangesTakeASnapshot : Prop :=
  ∀ (s : State),
    (∀ x, s.sp.exchange = some x →
      exec .exchangeStart s = .next s
      ∧ (x.record.length = 32 →
        ∀ k, s.sdo k = some (if k < 256 then (byteAt x.record (k / 8)).getLsbD (7 - k % 8) else false)))
    ∧ (s.sp.exchange = none →
      (∀ k, s.sdo k = none)
      ∧ ∃ b c, exec .exchangeStart s = .next { s with sp := { s.sp with
          cursor := c, exchange := some ⟨b, s.du.result.isSome, s.du.count⟩ } }
        ∧ RecordShows s b ∧ s.CursorMoves c
        ∧ (s.sp.page = 3 → (∃ a, s.onRound a) → DetailShown s b c))

/-- R143, R144 and R187: the bits of every exchange's report, read most significant first, are taken, a byte left
incomplete ignored. A report is valid when the four tests hold of the bytes kept, at most 64; one that fails any is
discarded whole and counted, up to 255, and the exchange ends with the page advanced. That a report with no exchange
open starts one in the same instant is the model's choice (DESIGN CHOICE, log 10). -/
def Obligations.InvalidReportsAreDiscarded : Prop :=
  ∀ (sdi : List Bool) (bytes : List Byte) (s : State), Spells sdi bytes →
    (∃ t, exec (.reportArrival sdi) s = .next t)
    ∧ ((parseReport bytes ≠ none) ↔ ReportValid (bytes.take 64))
    ∧ (∀ e c, s.Ends e c → ¬ ReportValid (bytes.take 64) →
      exec (.reportArrival sdi) s = .next { s with sp := { s.sp with
        page := s.sp.page + 1, exchange := none, cursor := c
        reportErrors := min 255 (s.sp.reportErrors + 1) } })

/-- R144 and 11.3: every report the format can carry is read back from its bytes, whatever follows them. -/
def Obligations.ReportsReadBack : Prop :=
  ∀ (r : Report) (extra : List Byte), r.carried → parseReport (r.bytes ++ extra) = some r

/-- R24, R25, R27, R28, R4, R68, R131, R145, R146, R151 and R161: ATTN, and a valid report of flags alone. Flags that
move nothing leave the section port's record of it; a self-turnover restarts the turnover timer in HOLD and BANKED; the
freeze flag sets the overlay, whose maximum timer takes the stored t_freeze_max before the lock too (DESIGN CHOICE, log
40), and its absence clears it: the transition in the slot is examined again with the waiting requests sifted, or the
empty slot is given again. The look-ahead permission lets a second command out. The trip request's rise trips the
section. Conventions of the model: logs 12, 23, 10 and 45. -/
def Obligations.ReportFlagsTakeEffect : Prop :=
  ∀ (s : State),
    (s.attn = true ↔ s.sp.outstanding ≠ [] ∨ s.du.count ≠ s.sp.seenCount
      ∨ (s.du.result = none ↔ s.sp.seenPresent = true))
    ∧ ∀ (sdi : List Bool) (bytes : List Byte) (f g : ReportFlags) (v : State) (e : Exchange) (c : Station),
    Spells sdi bytes → s.Ends e c → parseReport bytes = some (.bare f) →
    v = (s.afterReport e c f).remembers f.tripRequest →
    (s.Unmoved f → exec (.reportArrival sdi) s = .next v)
    ∧ (f.selfTurnover = true → g = { f with selfTurnover := false } → s.Unmoved g →
      (s.ps.phase = .hold → exec (.reportArrival sdi) s
        = .next { v with ps := { v.ps with missed := false, turnover := some s.cs.set.tTurnover } })
      ∧ (s.ps.phase = .banked → exec (.reportArrival sdi) s
        = .next { v with ps := { v.ps with turnover := some (2 * s.cs.set.tTurnover) } }))
    ∧ (f.freeze = true → g = { f with freeze := false, filled := false, drained := false } → s.Unmoved g →
      ∃ t, exec (.reportArrival sdi) s = .next t
        ∧ Noted s { v with
          ps := { v.ps with frozen := true, freezeMax := some s.cs.set.tFreezeMax }
          tu := { v.tu with held := some (s.offer, s.acceptance) }
          pv := { v.pv with watches := [] } } t)
    ∧ (∀ u, f.freeze = false → g = { f with freeze := true } → s.Unmoved g →
        u = { s.afterReport e c f with
          ps := { s.ps with frozen := false, freezeMax := none }, tu := { s.tu with held := none } } →
      (s.ps.slot = none → s.sp.tripReq = false → s.sp.NoPhaseWaits →
        ∃ w t, exec (.reportArrival sdi) s = .next t ∧ SlotGiven u w ∧ Noted s (w.remembers f.tripRequest) t)
      ∧ (∀ r, s.ps.slot = some r → (r.stage = .waitCompletion → ¬ s.CompletionMet f r) →
          (r.stage.beforeIssue = true → r.pendingSent = true ∧ s.sp.tripReq = false ∧ s.sp.NoPhaseWaits) →
          (r.stage = .waitPrereq → r.claimReached = false ∧ (r.claimTargets s.cs.set ≠ none →
            s.ps.phase.underRate = false)) →
        ∃ w t, exec (.reportArrival sdi) s = .next t ∧ SlotExamined u w r
          ∧ Noted s { w.remembers f.tripRequest with ps := { w.ps with waiting := s.waitsOn r } } t))
    ∧ (∀ o k, f.lookAhead = true → g = { f with lookAhead := false } → s.Unmoved g → s.sp.outstanding = [o] →
        o.command.isSetPhase = false → s.sp.tripReq = false → s.sp.NoPhaseWaits → s.sp.recoveryReq = none →
        k = (if o.token = s.sp.tokenCount then s.sp.tokenCount + 1 else s.sp.tokenCount) →
      (s.sp.turnoverReq = true → exec (.reportArrival sdi) s = .next { v with sp := { v.sp with
          turnoverReq := false, tokenCount := k + 1
          outstanding := [o, ⟨k, .turnover, some s.cs.set.tAckTurnover, false⟩] } })
      ∧ (∀ before x after, s.sp.turnoverReq = false → s.hu.queue = before ++ x :: after →
          (∀ y ∈ before, y.state ≠ .waiting) → x.state = .waiting →
        exec (.reportArrival sdi) s = .next { v with
          sp := { v.sp with
            tokenCount := k + 1
            outstanding := [o, ⟨k, .handoffWork x.work x.point x.requester, some s.cs.set.tAckTurnover, false⟩] }
          hu := { s.hu with queue := before ++ { x with state := .outstanding k } :: after } })
      ∧ (∀ n, s.sp.turnoverReq = false → s.hu.NoneWaiting → s.sp.rateReq = some n →
        exec (.reportArrival sdi) s = .next { v with sp := { v.sp with
          rIss := n, rateReq := s.tu.train.bind (nextStep s.cs.set.maxStep n), tokenCount := k + 1
          outstanding := [o, ⟨k, .setRate n false, some s.cs.set.tAckRate, false⟩] } }))
    ∧ (f.tripRequest = true → g = { f with tripRequest := false } → s.Unmoved g → s.tr.memory = false →
        s.ps.phase ≠ .cold → s.ps.phase ≠ .tripped →
      ∃ t, exec (.reportArrival sdi) s = .next t
        ∧ TripEntered v t .sectionRequest ∧ TripReplies v t.du t.lc)

/-- R15, R54, R62, R78 to R80, R145 and R183: the readings of a valid report. A holdup reading replaces the estimate and
counts for the DRAINING completion; a capacity reading of a provider resource is kept, and where the published capacity
changes the AU takes a change report, a long notice falling due beyond the deadband: a cut of the own holding that
brings UNDER_STANDING calls for an auto hold, and the own entry's change has a waiting list examined (R7, R41, R70,
R89). Before the lock both are ignored. The model's reading: a capacity reading whose resource byte names none is
ignored (DEDUCED, log 36), and the change report of the own capacity is held while the resource's frame is in
transmission (DEDUCED, log 13). Conventions of the model: logs 23, 10 and 46. -/
def Obligations.ReadingsAreTaken : Prop :=
  ∀ (sdi : List Bool) (bytes : List Byte) (f : ReportFlags) (s v : State) (e : Exchange) (c : Station),
    Spells sdi bytes → s.Ends e c → s.Unmoved f → v = (s.afterReport e c f).remembers f.tripRequest →
    (∀ h, parseReport bytes = some { Report.bare f with holdup := some h } →
      (s.cs.locked = false → exec (.reportArrival sdi) s = .next v)
      ∧ (s.cs.locked = true → s.atStage .waitPrereq = false →
        ∃ t, exec (.reportArrival sdi) s = .next t
          ∧ Noted s { v with
            tu := { v.tu with
              holdup := 60 * h
              mismatch := decide ((60 * s.cs.set.mismatchBand : Int) < |((60 * h : Nat) : Int) - s.tu.holdup|)
              runoutDone := s.tu.runoutDone && !(s.ps.phase = .runOut && s.cs.set.hDr < h) }
            ps := { v.ps with drainReading := if s.ps.phase = .draining then some h else s.ps.drainReading } } t))
    ∧ (∀ b n, parseReport bytes = some { Report.bare f with capacity := some (b, n) } →
      (s.cs.locked = false → exec (.reportArrival sdi) s = .next v)
      ∧ (3 < b.toNat → exec (.reportArrival sdi) s = .next v)
      ∧ (∀ r : Resource, s.cs.locked = true → r.code = b.toNat →
        (s.cs.set.provider.get r = false → exec (.reportArrival sdi) s = .next v)
        ∧ (∀ a, s.cs.set.provider.get r = true → a = { s.au.res.get r with reading := some (min 4000 n) } →
          (s.ps.phase ≠ .running ∨ (s.au.res.get r).reading.getD 0 = min 4000 n →
            exec (.reportArrival sdi) s = .next { v with au := { v.au with res := v.au.res.set r a } })
          ∧ (s.ps.phase = .running → (s.au.res.get r).reading.getD 0 ≠ min 4000 n → s.ReportReady →
            ∃ m w x t, exec (.reportArrival sdi) s = .next t
              ∧ m = { v with
                au := { v.au with res := v.au.res.set r a }
                lc := { v.lc with
                  longDue := s.lc.longDue || decide ((s.cs.set.capacityDeadband : Int)
                    < |((min 4000 n : Nat) : Int) - (s.au.res.get r).longCapacity|)
                  longAgain := m.lc.longAgain } }
              ∧ AllotTaken m w (fun y => y = r) ∧ OwnReported v w x ∧ Noted v x t))))

/-- R145: the acknowledgements of a valid report are taken before its other flags, and its local directive and then
its configuration part last, each whole before the next and each as its own row takes it. Conventions of the model:
logs 11, 17 and 10. -/
def Obligations.ReportPartsAreTakenInOrder : Prop :=
  ∀ (sdi first : List Bool) (bytes head : List Byte) (r : Report) (s : State), Spells sdi bytes →
    Spells first head → parseReport bytes = some r →
    (parseReport head = some { r with directive := none, config := none } →
      ∃ u v, exec (.reportArrival first) s = .next u
        ∧ (∀ d, r.directive = some d → exec (portCommand d) u = .next v) ∧ (r.directive = none → v = u)
        ∧ (r.config = none → exec (.reportArrival sdi) s = .next v)
        ∧ ∀ c, r.config = some c → exec (.reportArrival sdi) s = exec (configCommand c) v)
    ∧ (∀ k o e c f, s.Ends e c → (f.lookAhead = true → s.sp.Quiet ∧ s.hu.NoneWaiting) →
        r = { Report.bare f with acks := [(k, o)] } →
      ∃ v, exec (.ackSetPhase k o) (s.afterReport e c f) = .next v
        ∧ (v.Unmoved { f with lookAhead := false } →
          exec (.reportArrival sdi) s = .next (v.remembers f.tripRequest)))

/-! ### The wire (chapter 9) -/

/-- R162 to R164, R167, R176 and 11.2: while a frame of the node is offered or in transmission LTXD carries its bits,
with the class, the kind and the payload of the layouts, sent from the own address, and otherwise none. Every frame that
a station sends is judged good by a receiver, and before its acknowledgement slot it holds no run of 7 equal bits. A
node that takes part and sends no frame itself drives the acknowledgement slot dominant for a frame found good, ACTIVE
or ISOLATED, and for no other. A run of 6 that ends with the last CRC bit is followed by an inserted bit too (DEDUCED,
log 34). -/
def Obligations.SentFramesAreJudgedGood : Prop :=
  (∀ s : State,
    (s.lc.tx = none → s.lineOut = none)
    ∧ ∀ x, s.lc.tx = some x → ∃ c k p, x.frame.Carries c k p ∧ kindClass k = some c
        ∧ s.lineOut = some (frameBits c s.cs.set.ownAddress k p))
  ∧ ∀ (c k : Nat) (a : Station) (p : List Byte), kindClass k = some c → p.length ≤ 32 →
    judgeBits (frameBits c a k p) = .good
    ∧ (∀ b, ¬ List.replicate 7 b <:+: (frameBits c a k p).take ((frameBits c a k p).length - 9))
    ∧ ∀ s : State, s.receives = true → (∀ x, s.lc.tx = some x → x.begun = false) →
        s.ackSlot (frameBits c a k p) = false ∧ ∀ bits, judgeBits bits ≠ .good → s.ackSlot bits = true

/-! ### The step, the clock and what every step keeps -/

/-- The block's step (log 20): the command at the front of the queue is taken out and run on the rest. -/
def Obligations.StepRunsTheFrontCommand : Prop :=
  ∀ (c : Instr) (rest : List Instr) (s : State), s.pending = c :: rest → step s = exec c { s with pending := rest }

/-- The model's clock (DESIGN CHOICE, logs 1 and 3) with 1.3, R28 and R184: on an empty queue a quarter second passes,
the fourth being a second, and exactly the expiries that are then due enter the queue, a cause that stands raised being
due until it is taken (DESIGN CHOICE, log 45). -/
def Obligations.AnEmptyQueueLetsTimePass : Prop :=
  ∀ (s u : State), s.pending = [] →
    u = { s with quarter := s.quarter + 1, lc := { s.lc with spacing := aSecondOn true s.lc.spacing } } →
    ∃ t, step s = .next t
      ∧ t = { (if s.quarter = 3 then u.aSecondLater else u) with pending := t.pending, free := t.free }
      ∧ ∀ c, c ∈ t.pending ↔ t.ExpiryDue c

/-- R30, R50, R74, R126, R135, R144, R149 to R151, R154, R171, R175, R178 and R184: every step keeps the values that
InBounds names in their ranges, among them the stored items, the TU's and the AU's amounts, every rate and rate to come,
the published and the held offer and acceptance, the counts and the peer entries, with at most two commands outstanding
under distinct tokens and a SET_PHASE alone in the list. -/
def Obligations.EveryStepKeepsTheBounds : Prop :=
  ∀ (s t : State), s.InBounds → step s = .next t → t.InBounds

/-- R80 to R86: every step keeps each waiting claim within the headroom it was judged against. -/
def Obligations.EveryStepKeepsClaimsWithinTheHeadroom : Prop :=
  ∀ (s t : State), s.ClaimsFit → step s = .next t → t.ClaimsFit

/-- R86 with R80 to R92: every step keeps each lowering of a holding announced: while the line is ACTIVE, a resource
with no claim and no frame under way whose announced holding differs from its holding has a RELEASE of that holding in
its slot. -/
def Obligations.EveryStepKeepsReleasesPlaced : Prop :=
  ∀ (s t : State), s.ClaimsFit → s.ReleasesPlaced → step s = .next t → t.ReleasesPlaced

/-- The reset state meets the three invariants. -/
def Obligations.TheResetStateMeetsTheInvariants : Prop :=
  State.reset.InBounds ∧ State.reset.ClaimsFit ∧ State.reset.ReleasesPlaced
end

