-- ==== Sys2Proof/Laws/State.lean ====
section
/-!
SUPPORT. One lemma for each field after each block update, so that no proof unfolds a record update.
-/

namespace Sys2Proof.Machine

/-! ### setCs -/

@[simp] theorem State.setCs_now (s : State) (x : CS) : (s.setCs x).now = s.now := rfl
@[simp] theorem State.setCs_quarter (s : State) (x : CS) : (s.setCs x).quarter = s.quarter := rfl
@[simp] theorem State.setCs_cs (s : State) (x : CS) : (s.setCs x).cs = x := rfl
@[simp] theorem State.setCs_ps (s : State) (x : CS) : (s.setCs x).ps = s.ps := rfl
@[simp] theorem State.setCs_pv (s : State) (x : CS) : (s.setCs x).pv = s.pv := rfl
@[simp] theorem State.setCs_tu (s : State) (x : CS) : (s.setCs x).tu = s.tu := rfl
@[simp] theorem State.setCs_au (s : State) (x : CS) : (s.setCs x).au = s.au := rfl
@[simp] theorem State.setCs_du (s : State) (x : CS) : (s.setCs x).du = s.du := rfl
@[simp] theorem State.setCs_hu (s : State) (x : CS) : (s.setCs x).hu = s.hu := rfl
@[simp] theorem State.setCs_tr (s : State) (x : CS) : (s.setCs x).tr = s.tr := rfl
@[simp] theorem State.setCs_sp (s : State) (x : CS) : (s.setCs x).sp = s.sp := rfl
@[simp] theorem State.setCs_lc (s : State) (x : CS) : (s.setCs x).lc = s.lc := rfl
@[simp] theorem State.setCs_free (s : State) (x : CS) : (s.setCs x).free = s.free := rfl
@[simp] theorem State.setCs_pending (s : State) (x : CS) : (s.setCs x).pending = s.pending := rfl

/-! ### setPs -/

@[simp] theorem State.setPs_now (s : State) (x : PS) : (s.setPs x).now = s.now := rfl
@[simp] theorem State.setPs_quarter (s : State) (x : PS) : (s.setPs x).quarter = s.quarter := rfl
@[simp] theorem State.setPs_cs (s : State) (x : PS) : (s.setPs x).cs = s.cs := rfl
@[simp] theorem State.setPs_ps (s : State) (x : PS) : (s.setPs x).ps = x := rfl
@[simp] theorem State.setPs_pv (s : State) (x : PS) : (s.setPs x).pv = s.pv := rfl
@[simp] theorem State.setPs_tu (s : State) (x : PS) : (s.setPs x).tu = s.tu := rfl
@[simp] theorem State.setPs_au (s : State) (x : PS) : (s.setPs x).au = s.au := rfl
@[simp] theorem State.setPs_du (s : State) (x : PS) : (s.setPs x).du = s.du := rfl
@[simp] theorem State.setPs_hu (s : State) (x : PS) : (s.setPs x).hu = s.hu := rfl
@[simp] theorem State.setPs_tr (s : State) (x : PS) : (s.setPs x).tr = s.tr := rfl
@[simp] theorem State.setPs_sp (s : State) (x : PS) : (s.setPs x).sp = s.sp := rfl
@[simp] theorem State.setPs_lc (s : State) (x : PS) : (s.setPs x).lc = s.lc := rfl
@[simp] theorem State.setPs_free (s : State) (x : PS) : (s.setPs x).free = s.free := rfl
@[simp] theorem State.setPs_pending (s : State) (x : PS) : (s.setPs x).pending = s.pending := rfl

/-! ### setPv -/

@[simp] theorem State.setPv_now (s : State) (x : PV) : (s.setPv x).now = s.now := rfl
@[simp] theorem State.setPv_quarter (s : State) (x : PV) : (s.setPv x).quarter = s.quarter := rfl
@[simp] theorem State.setPv_cs (s : State) (x : PV) : (s.setPv x).cs = s.cs := rfl
@[simp] theorem State.setPv_ps (s : State) (x : PV) : (s.setPv x).ps = s.ps := rfl
@[simp] theorem State.setPv_pv (s : State) (x : PV) : (s.setPv x).pv = x := rfl
@[simp] theorem State.setPv_tu (s : State) (x : PV) : (s.setPv x).tu = s.tu := rfl
@[simp] theorem State.setPv_au (s : State) (x : PV) : (s.setPv x).au = s.au := rfl
@[simp] theorem State.setPv_du (s : State) (x : PV) : (s.setPv x).du = s.du := rfl
@[simp] theorem State.setPv_hu (s : State) (x : PV) : (s.setPv x).hu = s.hu := rfl
@[simp] theorem State.setPv_tr (s : State) (x : PV) : (s.setPv x).tr = s.tr := rfl
@[simp] theorem State.setPv_sp (s : State) (x : PV) : (s.setPv x).sp = s.sp := rfl
@[simp] theorem State.setPv_lc (s : State) (x : PV) : (s.setPv x).lc = s.lc := rfl
@[simp] theorem State.setPv_free (s : State) (x : PV) : (s.setPv x).free = s.free := rfl
@[simp] theorem State.setPv_pending (s : State) (x : PV) : (s.setPv x).pending = s.pending := rfl

/-! ### setTu -/

@[simp] theorem State.setTu_now (s : State) (x : TU) : (s.setTu x).now = s.now := rfl
@[simp] theorem State.setTu_quarter (s : State) (x : TU) : (s.setTu x).quarter = s.quarter := rfl
@[simp] theorem State.setTu_cs (s : State) (x : TU) : (s.setTu x).cs = s.cs := rfl
@[simp] theorem State.setTu_ps (s : State) (x : TU) : (s.setTu x).ps = s.ps := rfl
@[simp] theorem State.setTu_pv (s : State) (x : TU) : (s.setTu x).pv = s.pv := rfl
@[simp] theorem State.setTu_tu (s : State) (x : TU) : (s.setTu x).tu = x := rfl
@[simp] theorem State.setTu_au (s : State) (x : TU) : (s.setTu x).au = s.au := rfl
@[simp] theorem State.setTu_du (s : State) (x : TU) : (s.setTu x).du = s.du := rfl
@[simp] theorem State.setTu_hu (s : State) (x : TU) : (s.setTu x).hu = s.hu := rfl
@[simp] theorem State.setTu_tr (s : State) (x : TU) : (s.setTu x).tr = s.tr := rfl
@[simp] theorem State.setTu_sp (s : State) (x : TU) : (s.setTu x).sp = s.sp := rfl
@[simp] theorem State.setTu_lc (s : State) (x : TU) : (s.setTu x).lc = s.lc := rfl
@[simp] theorem State.setTu_free (s : State) (x : TU) : (s.setTu x).free = s.free := rfl
@[simp] theorem State.setTu_pending (s : State) (x : TU) : (s.setTu x).pending = s.pending := rfl

/-! ### setAu -/

@[simp] theorem State.setAu_now (s : State) (x : AU) : (s.setAu x).now = s.now := rfl
@[simp] theorem State.setAu_quarter (s : State) (x : AU) : (s.setAu x).quarter = s.quarter := rfl
@[simp] theorem State.setAu_cs (s : State) (x : AU) : (s.setAu x).cs = s.cs := rfl
@[simp] theorem State.setAu_ps (s : State) (x : AU) : (s.setAu x).ps = s.ps := rfl
@[simp] theorem State.setAu_pv (s : State) (x : AU) : (s.setAu x).pv = s.pv := rfl
@[simp] theorem State.setAu_tu (s : State) (x : AU) : (s.setAu x).tu = s.tu := rfl
@[simp] theorem State.setAu_au (s : State) (x : AU) : (s.setAu x).au = x := rfl
@[simp] theorem State.setAu_du (s : State) (x : AU) : (s.setAu x).du = s.du := rfl
@[simp] theorem State.setAu_hu (s : State) (x : AU) : (s.setAu x).hu = s.hu := rfl
@[simp] theorem State.setAu_tr (s : State) (x : AU) : (s.setAu x).tr = s.tr := rfl
@[simp] theorem State.setAu_sp (s : State) (x : AU) : (s.setAu x).sp = s.sp := rfl
@[simp] theorem State.setAu_lc (s : State) (x : AU) : (s.setAu x).lc = s.lc := rfl
@[simp] theorem State.setAu_free (s : State) (x : AU) : (s.setAu x).free = s.free := rfl
@[simp] theorem State.setAu_pending (s : State) (x : AU) : (s.setAu x).pending = s.pending := rfl

/-! ### setDu -/

@[simp] theorem State.setDu_now (s : State) (x : DU) : (s.setDu x).now = s.now := rfl
@[simp] theorem State.setDu_quarter (s : State) (x : DU) : (s.setDu x).quarter = s.quarter := rfl
@[simp] theorem State.setDu_cs (s : State) (x : DU) : (s.setDu x).cs = s.cs := rfl
@[simp] theorem State.setDu_ps (s : State) (x : DU) : (s.setDu x).ps = s.ps := rfl
@[simp] theorem State.setDu_pv (s : State) (x : DU) : (s.setDu x).pv = s.pv := rfl
@[simp] theorem State.setDu_tu (s : State) (x : DU) : (s.setDu x).tu = s.tu := rfl
@[simp] theorem State.setDu_au (s : State) (x : DU) : (s.setDu x).au = s.au := rfl
@[simp] theorem State.setDu_du (s : State) (x : DU) : (s.setDu x).du = x := rfl
@[simp] theorem State.setDu_hu (s : State) (x : DU) : (s.setDu x).hu = s.hu := rfl
@[simp] theorem State.setDu_tr (s : State) (x : DU) : (s.setDu x).tr = s.tr := rfl
@[simp] theorem State.setDu_sp (s : State) (x : DU) : (s.setDu x).sp = s.sp := rfl
@[simp] theorem State.setDu_lc (s : State) (x : DU) : (s.setDu x).lc = s.lc := rfl
@[simp] theorem State.setDu_free (s : State) (x : DU) : (s.setDu x).free = s.free := rfl
@[simp] theorem State.setDu_pending (s : State) (x : DU) : (s.setDu x).pending = s.pending := rfl

/-! ### setHu -/

@[simp] theorem State.setHu_now (s : State) (x : HU) : (s.setHu x).now = s.now := rfl
@[simp] theorem State.setHu_quarter (s : State) (x : HU) : (s.setHu x).quarter = s.quarter := rfl
@[simp] theorem State.setHu_cs (s : State) (x : HU) : (s.setHu x).cs = s.cs := rfl
@[simp] theorem State.setHu_ps (s : State) (x : HU) : (s.setHu x).ps = s.ps := rfl
@[simp] theorem State.setHu_pv (s : State) (x : HU) : (s.setHu x).pv = s.pv := rfl
@[simp] theorem State.setHu_tu (s : State) (x : HU) : (s.setHu x).tu = s.tu := rfl
@[simp] theorem State.setHu_au (s : State) (x : HU) : (s.setHu x).au = s.au := rfl
@[simp] theorem State.setHu_du (s : State) (x : HU) : (s.setHu x).du = s.du := rfl
@[simp] theorem State.setHu_hu (s : State) (x : HU) : (s.setHu x).hu = x := rfl
@[simp] theorem State.setHu_tr (s : State) (x : HU) : (s.setHu x).tr = s.tr := rfl
@[simp] theorem State.setHu_sp (s : State) (x : HU) : (s.setHu x).sp = s.sp := rfl
@[simp] theorem State.setHu_lc (s : State) (x : HU) : (s.setHu x).lc = s.lc := rfl
@[simp] theorem State.setHu_free (s : State) (x : HU) : (s.setHu x).free = s.free := rfl
@[simp] theorem State.setHu_pending (s : State) (x : HU) : (s.setHu x).pending = s.pending := rfl

/-! ### setTr -/

@[simp] theorem State.setTr_now (s : State) (x : TR) : (s.setTr x).now = s.now := rfl
@[simp] theorem State.setTr_quarter (s : State) (x : TR) : (s.setTr x).quarter = s.quarter := rfl
@[simp] theorem State.setTr_cs (s : State) (x : TR) : (s.setTr x).cs = s.cs := rfl
@[simp] theorem State.setTr_ps (s : State) (x : TR) : (s.setTr x).ps = s.ps := rfl
@[simp] theorem State.setTr_pv (s : State) (x : TR) : (s.setTr x).pv = s.pv := rfl
@[simp] theorem State.setTr_tu (s : State) (x : TR) : (s.setTr x).tu = s.tu := rfl
@[simp] theorem State.setTr_au (s : State) (x : TR) : (s.setTr x).au = s.au := rfl
@[simp] theorem State.setTr_du (s : State) (x : TR) : (s.setTr x).du = s.du := rfl
@[simp] theorem State.setTr_hu (s : State) (x : TR) : (s.setTr x).hu = s.hu := rfl
@[simp] theorem State.setTr_tr (s : State) (x : TR) : (s.setTr x).tr = x := rfl
@[simp] theorem State.setTr_sp (s : State) (x : TR) : (s.setTr x).sp = s.sp := rfl
@[simp] theorem State.setTr_lc (s : State) (x : TR) : (s.setTr x).lc = s.lc := rfl
@[simp] theorem State.setTr_free (s : State) (x : TR) : (s.setTr x).free = s.free := rfl
@[simp] theorem State.setTr_pending (s : State) (x : TR) : (s.setTr x).pending = s.pending := rfl

/-! ### setSp -/

@[simp] theorem State.setSp_now (s : State) (x : SP) : (s.setSp x).now = s.now := rfl
@[simp] theorem State.setSp_quarter (s : State) (x : SP) : (s.setSp x).quarter = s.quarter := rfl
@[simp] theorem State.setSp_cs (s : State) (x : SP) : (s.setSp x).cs = s.cs := rfl
@[simp] theorem State.setSp_ps (s : State) (x : SP) : (s.setSp x).ps = s.ps := rfl
@[simp] theorem State.setSp_pv (s : State) (x : SP) : (s.setSp x).pv = s.pv := rfl
@[simp] theorem State.setSp_tu (s : State) (x : SP) : (s.setSp x).tu = s.tu := rfl
@[simp] theorem State.setSp_au (s : State) (x : SP) : (s.setSp x).au = s.au := rfl
@[simp] theorem State.setSp_du (s : State) (x : SP) : (s.setSp x).du = s.du := rfl
@[simp] theorem State.setSp_hu (s : State) (x : SP) : (s.setSp x).hu = s.hu := rfl
@[simp] theorem State.setSp_tr (s : State) (x : SP) : (s.setSp x).tr = s.tr := rfl
@[simp] theorem State.setSp_sp (s : State) (x : SP) : (s.setSp x).sp = x := rfl
@[simp] theorem State.setSp_lc (s : State) (x : SP) : (s.setSp x).lc = s.lc := rfl
@[simp] theorem State.setSp_free (s : State) (x : SP) : (s.setSp x).free = s.free := rfl
@[simp] theorem State.setSp_pending (s : State) (x : SP) : (s.setSp x).pending = s.pending := rfl

/-! ### setLc -/

@[simp] theorem State.setLc_now (s : State) (x : LC) : (s.setLc x).now = s.now := rfl
@[simp] theorem State.setLc_quarter (s : State) (x : LC) : (s.setLc x).quarter = s.quarter := rfl
@[simp] theorem State.setLc_cs (s : State) (x : LC) : (s.setLc x).cs = s.cs := rfl
@[simp] theorem State.setLc_ps (s : State) (x : LC) : (s.setLc x).ps = s.ps := rfl
@[simp] theorem State.setLc_pv (s : State) (x : LC) : (s.setLc x).pv = s.pv := rfl
@[simp] theorem State.setLc_tu (s : State) (x : LC) : (s.setLc x).tu = s.tu := rfl
@[simp] theorem State.setLc_au (s : State) (x : LC) : (s.setLc x).au = s.au := rfl
@[simp] theorem State.setLc_du (s : State) (x : LC) : (s.setLc x).du = s.du := rfl
@[simp] theorem State.setLc_hu (s : State) (x : LC) : (s.setLc x).hu = s.hu := rfl
@[simp] theorem State.setLc_tr (s : State) (x : LC) : (s.setLc x).tr = s.tr := rfl
@[simp] theorem State.setLc_sp (s : State) (x : LC) : (s.setLc x).sp = s.sp := rfl
@[simp] theorem State.setLc_lc (s : State) (x : LC) : (s.setLc x).lc = x := rfl
@[simp] theorem State.setLc_free (s : State) (x : LC) : (s.setLc x).free = s.free := rfl
@[simp] theorem State.setLc_pending (s : State) (x : LC) : (s.setLc x).pending = s.pending := rfl

/-! ### useFree -/

@[simp] theorem State.useFree_now (s : State) : s.useFree.now = s.now := rfl
@[simp] theorem State.useFree_quarter (s : State) : s.useFree.quarter = s.quarter := rfl
@[simp] theorem State.useFree_cs (s : State) : s.useFree.cs = s.cs := rfl
@[simp] theorem State.useFree_ps (s : State) : s.useFree.ps = s.ps := rfl
@[simp] theorem State.useFree_pv (s : State) : s.useFree.pv = s.pv := rfl
@[simp] theorem State.useFree_tu (s : State) : s.useFree.tu = s.tu := rfl
@[simp] theorem State.useFree_au (s : State) : s.useFree.au = s.au := rfl
@[simp] theorem State.useFree_du (s : State) : s.useFree.du = s.du := rfl
@[simp] theorem State.useFree_hu (s : State) : s.useFree.hu = s.hu := rfl
@[simp] theorem State.useFree_tr (s : State) : s.useFree.tr = s.tr := rfl
@[simp] theorem State.useFree_sp (s : State) : s.useFree.sp = s.sp := rfl
@[simp] theorem State.useFree_lc (s : State) : s.useFree.lc = s.lc := rfl
@[simp] theorem State.useFree_free (s : State) : s.useFree.free = s.free + 1 := rfl
@[simp] theorem State.useFree_pending (s : State) : s.useFree.pending = s.pending := rfl

end Sys2Proof.Machine
end

