-- ==== Sys2Proof/Laws/Steady.lean ====
section
/-!
SUPPORT. What the shared operations never touch: the configuration store, the clock, the queue of commands and the
peer entries. One lemma for each operation, composed by transitivity.
-/

namespace Sys2Proof.Machine

/-- The store, the clock, the queue and the peer entries are the same in two states. -/
def Steady (s t : State) : Prop :=
  t.cs = s.cs ∧ t.now = s.now ∧ t.quarter = s.quarter ∧ t.pending = s.pending ∧ t.pv.peers = s.pv.peers
    ∧ t.sp.lastReport = s.sp.lastReport

theorem Steady.refl (s : State) : Steady s s := ⟨rfl, rfl, rfl, rfl, rfl, rfl⟩

theorem Steady.trans {s t u : State} (h : Steady s t) (k : Steady t u) : Steady s u :=
  ⟨k.1.trans h.1, k.2.1.trans h.2.1, k.2.2.1.trans h.2.2.1, k.2.2.2.1.trans h.2.2.2.1,
    k.2.2.2.2.1.trans h.2.2.2.2.1, k.2.2.2.2.2.trans h.2.2.2.2.2⟩

theorem Steady.foldl {α : Type} (f : State → α → State) (h : ∀ s a, Steady s (f s a)) (l : List α) :
    ∀ s, Steady s (l.foldl f s) := by
  induction l with
  | nil => exact fun s => .refl s
  | cons a l ih => exact fun s => (h s a).trans (ih _)

theorem setPs_steady (s : State) (x : PS) : Steady s (s.setPs x) := ⟨rfl, rfl, rfl, rfl, rfl, rfl⟩
theorem setTu_steady (s : State) (x : TU) : Steady s (s.setTu x) := ⟨rfl, rfl, rfl, rfl, rfl, rfl⟩
theorem setAu_steady (s : State) (x : AU) : Steady s (s.setAu x) := ⟨rfl, rfl, rfl, rfl, rfl, rfl⟩
theorem setDu_steady (s : State) (x : DU) : Steady s (s.setDu x) := ⟨rfl, rfl, rfl, rfl, rfl, rfl⟩
theorem setHu_steady (s : State) (x : HU) : Steady s (s.setHu x) := ⟨rfl, rfl, rfl, rfl, rfl, rfl⟩
theorem setTr_steady (s : State) (x : TR) : Steady s (s.setTr x) := ⟨rfl, rfl, rfl, rfl, rfl, rfl⟩
theorem setSp_steady (s : State) (x : SP) (h : x.lastReport = s.sp.lastReport) : Steady s (s.setSp x) :=
  ⟨rfl, rfl, rfl, rfl, rfl, h⟩
theorem setLc_steady (s : State) (x : LC) : Steady s (s.setLc x) := ⟨rfl, rfl, rfl, rfl, rfl, rfl⟩
theorem useFree_steady (s : State) : Steady s s.useFree := ⟨rfl, rfl, rfl, rfl, rfl, rfl⟩

theorem setWatches_steady (s : State) (w : List (Station × Nat)) :
    Steady s (s.setPv { s.pv with watches := w }) := ⟨rfl, rfl, rfl, rfl, rfl, rfl⟩

/-! ### Marks, replies, cells -/

theorem markLong_steady (s : State) : Steady s s.markLong := by
  unfold State.markLong; split <;> exact ⟨rfl, rfl, rfl, rfl, rfl, rfl⟩

theorem markShort_steady (s : State) : Steady s s.markShort := by
  unfold State.markShort; split <;> exact ⟨rfl, rfl, rfl, rfl, rfl, rfl⟩

theorem place_steady (s : State) (m : MsgFrame) : Steady s (s.place m) := setLc_steady _ _

theorem replyWith_steady (s : State) (q : Requester) (o : Reply) (d : Byte) : Steady s (s.replyWith q o d) := by
  cases q <;> exact ⟨rfl, rfl, rfl, rfl, rfl, rfl⟩

theorem reply_steady (s : State) (q : Requester) (o : Reply) : Steady s (s.reply q o) := replyWith_steady _ _ _ _

theorem noteChange_steady (s t : State) : Steady t (s.noteChange t) := by
  unfold State.noteChange; split
  · exact markShort_steady _
  · exact .refl _

theorem setCell_steady (s : State) (r : Resource) (c : Cell) : Steady s (s.setCell r c) := ⟨rfl, rfl, rfl, rfl, rfl, rfl⟩

theorem refreshCells_steady (s : State) : Steady s s.refreshCells :=
  Steady.foldl _ (fun _ _ => setCell_steady _ _ _) _ _

theorem reportCell_steady (s : State) (r : Resource) : Steady s (s.reportCell r) := by
  unfold State.reportCell; dsimp only; split <;> exact setCell_steady _ _ _

theorem reportCells_steady (s : State) (f : Resource → Bool) : Steady s (s.reportCells f) :=
  Steady.foldl _ reportCell_steady _ _

theorem judgeStanding_steady (s : State) : Steady s s.judgeStanding := by
  unfold State.judgeStanding; split
  · split
    · exact .refl _
    · exact setAu_steady _ _
  · exact setAu_steady _ _

theorem setRaised_steady (s : State) (f : Resource → Option Nat) : Steady s (s.setRaised f) := setAu_steady _ _

/-! ### Phase changes -/

theorem enterPhase_steady (s : State) (p : Phase) (e : EntryInfo) : Steady s (s.enterPhase p e) := by
  unfold State.enterPhase; dsimp only
  refine Steady.trans (Steady.trans ?_ (markLong_steady _)) (markShort_steady _)
  exact ⟨rfl, rfl, rfl, rfl, rfl, rfl⟩

theorem changePhase_steady (s : State) (p : Phase) (e : EntryInfo) : Steady s (s.changePhase p e) :=
  (((enterPhase_steady s p e).trans (refreshCells_steady _)).trans
    ((reportCells_steady _ _).trans (judgeStanding_steady _))).trans (setTr_steady _ _)

/-! ### The arbiter -/

theorem slotIssued_steady (s : State) : Steady s s.slotIssued := by
  unfold State.slotIssued; split
  · dsimp only; split
    · exact setPs_steady _ _
    · exact (setPs_steady _ _).trans (reply_steady _ _ _)
  · exact .refl _

theorem completeAtIssue_steady (s : State) (p : Phase) : Steady s (s.completeAtIssue p) := by
  unfold State.completeAtIssue; dsimp only
  have h := ((setPs_steady s { s.ps with slot := none, waiting := ⟨false, false, false, false⟩ }).trans
    (setRaised_steady _ fun _ => none)).trans (changePhase_steady _ p .none)
  split
  · exact h.trans (reply_steady _ _ _)
  · exact h

theorem issuePhase_steady (s : State) (p : Phase) (u : Purpose) : Steady s (s.issuePhase p u) := by
  have h : Steady s (s.setSp { s.sp.emit s.cs.set (.setPhase p u) with psReq := none }) := setSp_steady _ _ rfl
  cases u
  · exact h.trans (slotIssued_steady _)
  · exact h.trans (completeAtIssue_steady _ _)
  · exact h.trans (slotIssued_steady _)
  · exact h.trans (slotIssued_steady _)

theorem issueRecovery_steady (s : State) (p : Phase) : Steady s (s.issueRecovery p) := by
  unfold State.issueRecovery; dsimp only; split
  · exact (setSp_steady _ _ rfl).trans ((setTr_steady _ _).trans (reply_steady _ _ _))
  · exact setSp_steady _ _ rfl

theorem issueWork?_steady (s t : State) (h : s.issueWork? = some t) : Steady s t := by
  unfold State.issueWork? at h
  obtain ⟨x, _, rfl⟩ := Option.map_eq_some_iff.mp h
  exact (setSp_steady _ _ rfl).trans (setHu_steady _ _)

theorem issueStep_steady (s : State) (v : Nat) : Steady s (s.issueStep v) :=
  (setSp_steady _ _ rfl).trans (setSp_steady _ _ rfl)

theorem issueLower_steady (s : State) : Steady s s.issueLower := by
  unfold State.issueLower; split
  · exact setSp_steady _ _ rfl
  · split
    · rename_i h; exact issueWork?_steady _ _ h
    · split
      · exact issueStep_steady _ _
      · exact .refl _

theorem issuePair_steady (s : State) (v : Nat) : Steady s (s.issuePair v) :=
  (setSp_steady _ _ rfl).trans (slotIssued_steady _)

theorem issueTrip_steady (s : State) : Steady s s.issueTrip := setSp_steady _ _ rfl

theorem issueNext_steady (s : State) : Steady s s.issueNext := by
  have r := Steady.refl s
  unfold State.issueNext; dsimp only; repeat' split
  all_goals
    first
      | exact r | exact issueTrip_steady _ | exact issuePhase_steady _ _ _ | exact issuePair_steady _ _
      | exact issueRecovery_steady _ _ | exact issueLower_steady _

theorem arbitrate_steady (s : State) : Steady s s.arbitrate := (issueNext_steady _).trans (issueNext_steady _)

/-! ### The slot -/

theorem setSlot_steady (s : State) (r : SlotRec) : Steady s (s.setSlot r) := setPs_steady _ _

theorem notePending_steady (s : State) : Steady s s.notePending := by
  unfold State.notePending; split
  · split
    · exact (setSlot_steady _ _).trans (reply_steady _ _ _)
    · exact .refl _
  · exact .refl _

theorem toIssue_steady (s : State) (r : SlotRec) : Steady s (s.toIssue r) := by
  unfold State.toIssue; dsimp only
  refine Steady.trans ?_ (arbitrate_steady _)
  split <;> exact (setSlot_steady _ _).trans (setSp_steady _ _ rfl)

theorem takePoint_steady (s : State) (k : Point) : Steady s (s.takePoint k) := by
  unfold State.takePoint; dsimp only; split
  · exact .refl _
  · split <;> exact setHu_steady _ _
  · exact (setHu_steady _ _).trans (place_steady _ _)

theorem toHandoff_steady (s : State) (r : SlotRec) : Steady s (s.toHandoff r) := by
  unfold State.toHandoff; split
  · exact toIssue_steady _ _
  · split
    · exact setSlot_steady _ _
    · exact (takePoint_steady _ _).trans (toIssue_steady _ _)

theorem toClaim_steady (s : State) (r : SlotRec) : Steady s (s.toClaim r) := by
  unfold State.toClaim; split
  · exact toHandoff_steady _ _
  · dsimp only
    have h := fun w f => (((setSlot_steady s w).trans (setRaised_steady _ f)).trans (refreshCells_steady _)).trans
      (judgeStanding_steady _)
    split
    · exact (h _ _).trans (toHandoff_steady _ _)
    · exact h _ _

theorem evaluateList_steady (s : State) (r : SlotRec) (l : ListName) : Steady s (s.evaluateList r l) := by
  unfold State.evaluateList; split
  · exact (setWatches_steady _ _).trans (toClaim_steady _ _)
  · exact setWatches_steady _ _

theorem toPrereq_steady (s : State) (r : SlotRec) : Steady s (s.toPrereq r) := by
  unfold State.toPrereq; split
  · exact toClaim_steady _ _
  · exact (setSlot_steady _ _).trans (evaluateList_steady _ _ _)

theorem toDwell_steady (s : State) (r : SlotRec) : Steady s (s.toDwell r) := by
  unfold State.toDwell; repeat' split
  all_goals first | exact setSlot_steady _ _ | exact toPrereq_steady _ _

theorem enterSlot_steady (s : State) (r : SlotRec) : Steady s (s.enterSlot r) :=
  (toDwell_steady _ _).trans (notePending_steady _)

theorem setWaiting_steady (s : State) (w : Waiting) : Steady s (s.setWaiting w) := setPs_steady _ _

theorem giveSlot_steady (s : State) : Steady s s.giveSlot := by
  unfold State.giveSlot; dsimp only; repeat' split
  all_goals
    first
      | exact (setWaiting_steady _ _).trans (enterSlot_steady _ _) | exact setWaiting_steady _ _

theorem reexamine_steady (s : State) : Steady s s.reexamine := by
  unfold State.reexamine; repeat' split
  · exact .refl _
  · exact setWaiting_steady _ _
  · exact giveSlot_steady _

theorem requestAutoHold_steady (s : State) : Steady s s.requestAutoHold := by
  unfold State.requestAutoHold; split
  · exact setWaiting_steady _ _
  · exact enterSlot_steady _ _

theorem withdrawPhase_steady (s : State) : Steady s s.withdrawPhase := by
  unfold State.withdrawPhase; split
  · exact (setSp_steady _ _ rfl).trans (arbitrate_steady _)
  · exact .refl _

theorem removeTransition_steady (s : State) : Steady s s.removeTransition := by
  unfold State.removeTransition; dsimp only
  exact ((((((setPs_steady _ _).trans (setWatches_steady _ _)).trans (setRaised_steady _ _)).trans
    (refreshCells_steady _)).trans (judgeStanding_steady _)).trans (withdrawPhase_steady _))

theorem refuseTransition_steady (s : State) (r : SlotRec) (c : RefusalCode) (d : Byte) :
    Steady s (s.refuseTransition r c d) := by
  unfold State.refuseTransition; dsimp only
  have h := (removeTransition_steady s).trans (replyWith_steady _ r.requester (.refused c) d)
  split
  · exact (h.trans (setTu_steady _ _)).trans (reexamine_steady _)
  · exact h.trans (reexamine_steady _)

theorem pollList_steady (s : State) : Steady s s.pollList := by
  unfold State.pollList; repeat' split
  all_goals first | exact .refl _ | exact (evaluateList_steady _ _ _).trans (notePending_steady _)

theorem pollClaim_steady (s : State) : Steady s s.pollClaim := by
  unfold State.pollClaim; dsimp only; repeat' split
  all_goals
    first
      | exact .refl _ | exact setSlot_steady _ _ | exact (toHandoff_steady _ _).trans (notePending_steady _)

theorem pollHandoff_steady (s : State) : Steady s s.pollHandoff := by
  unfold State.pollHandoff; repeat' split
  all_goals first | exact .refl _ | exact toHandoff_steady _ _

theorem testCompletion_steady (s : State) : Steady s s.testCompletion := by
  unfold State.testCompletion; dsimp only; repeat' split
  all_goals
    first
      | exact .refl _
      | exact ((setPs_steady _ _).trans (setSp_steady _ _ rfl)).trans (arbitrate_steady _)

theorem fulfilHandoff_steady (s : State) : Steady s s.fulfilHandoff := by
  unfold State.fulfilHandoff; repeat' split
  all_goals exact .refl _

theorem handoffEnded_steady (s : State) (b : Bool) : Steady s (s.handoffEnded b) := by
  unfold State.handoffEnded
  refine Steady.trans ?_ (pollHandoff_steady _)
  split
  · exact (fulfilHandoff_steady s).trans (testCompletion_steady _)
  · exact .refl _

theorem publish_steady (s t : State) : Steady t (s.publish t) := by
  unfold State.publish; split
  · exact (pollList_steady _).trans (noteChange_steady _ _)
  · exact noteChange_steady _ _

theorem standingRises_steady (s t : State) : Steady t (s.standingRises t) := by
  unfold State.standingRises; split
  · exact requestAutoHold_steady _
  · exact .refl _

theorem afterAllotment_steady (s t : State) : Steady t (s.afterAllotment t) :=
  (standingRises_steady s t).trans (pollClaim_steady _)

/-! ### Trips -/

theorem replyTripped_steady (s : State) (o : Option SlotRec) : Steady s (s.replyTripped o) := by
  cases o
  · exact .refl _
  · exact reply_steady _ _ _

theorem answerNotReady_steady (s : State) (l : List Service) : Steady s (s.answerNotReady l) :=
  Steady.foldl _ (fun _ _ => place_steady _ _) _ _

theorem tripAnswers_steady (s : State) : Steady s s.tripAnswers := by
  unfold State.tripAnswers; dsimp only; repeat' split
  · exact (useFree_steady s).trans ((replyTripped_steady _ _).trans (answerNotReady_steady _ _))
  · exact (useFree_steady s).trans ((answerNotReady_steady _ _).trans (replyTripped_steady _ _))
  · exact (replyTripped_steady _ _).trans (answerNotReady_steady _ _)

theorem tripEntry_steady (s : State) (c : Cause) : Steady s (s.tripEntry c) := by
  unfold State.tripEntry; dsimp only
  refine (tripAnswers_steady s).trans (Steady.trans ?_ (arbitrate_steady _))
  refine Steady.trans (Steady.trans (Steady.trans ?_ (setRaised_steady _ fun _ => none))
    (changePhase_steady _ .tripped .none)) (setSp_steady _ _ rfl)
  exact ⟨rfl, rfl, rfl, rfl, rfl, rfl⟩

theorem laterCause_steady (s : State) (c : Cause) : Steady s (s.laterCause c) := setTr_steady _ _

theorem spoilRecovery_steady (s : State) (c : Cause) : Steady s (s.spoilRecovery c) := by
  unfold State.spoilRecovery; dsimp only; repeat' split
  · exact .refl _
  · have h : Steady s ((s.setTr { s.tr with recovery := none }).setSp { s.sp with recoveryReq := none }) :=
      (setTr_steady _ _).trans (setSp_steady _ _ rfl)
    exact (h.trans (arbitrate_steady _)).trans (reply_steady _ _ _)
  · exact setTr_steady _ _

theorem raiseCause_steady (s : State) (c : Cause) : Steady s (s.raiseCause c) := by
  unfold State.raiseCause; split
  · exact .refl _
  · exact (laterCause_steady _ _).trans (spoilRecovery_steady _ _)
  all_goals exact tripEntry_steady _ _

theorem takeRaised_steady (s : State) (c : Cause) : Steady s (s.takeRaised c) := by
  unfold State.takeRaised; split
  · exact ((setTr_steady _ _).trans (raiseCause_steady _ _)).trans (publish_steady _ _)
  · exact .refl _

/-! ### Acknowledgements -/

theorem issuePairRate_steady (s : State) : Steady s s.issuePairRate := by
  unfold State.issuePairRate; split
  · exact ⟨rfl, rfl, rfl, rfl, rfl, rfl⟩
  · exact .refl _

theorem transitionDone_steady (s : State) (p : Phase) : Steady s (s.transitionDone p) := by
  unfold State.transitionDone; dsimp only; repeat' split
  · exact changePhase_steady _ _ _
  · exact (setSlot_steady _ _).trans (changePhase_steady _ _ _)
  · refine Steady.trans ?_ (reexamine_steady _)
    refine Steady.trans ?_ (reply_steady _ _ _)
    refine Steady.trans ?_ (issuePairRate_steady _)
    exact ((setPs_steady _ _).trans (setRaised_steady _ fun _ => none)).trans (changePhase_steady _ _ _)

theorem transitionFailed_steady (s : State) (c : Cause) : Steady s (s.transitionFailed c) := by
  unfold State.transitionFailed; repeat' split
  · exact ((setPs_steady _ _).trans (reply_steady _ _ _)).trans (reexamine_steady _)
  · exact .refl _
  · exact raiseCause_steady _ _

theorem recoveryDone_steady (s : State) (p : Phase) : Steady s (s.recoveryDone p) := by
  unfold State.recoveryDone; split
  · exact .refl _
  · rename_i r _
    have h : Steady s (((s.setTr { s.tr with record := none, recovery := none }).changePhase p recoveryInfo).reply
        (.port r.tag) .done) := ((setTr_steady _ _).trans (changePhase_steady _ _ _)).trans (reply_steady _ _ _)
    dsimp only; split
    · exact h.trans (tripEntry_steady _ _)
    · exact h

theorem recoveryFailed_steady (s : State) (c : Cause) : Steady s (s.recoveryFailed c) := by
  unfold State.recoveryFailed; split
  · exact .refl _
  · exact ((laterCause_steady _ _).trans (setTr_steady _ _)).trans (reply_steady _ _ _)

theorem phaseOutcome_steady (s : State) (p : Phase) (u : Purpose) (d : Bool) (c : Cause) :
    Steady s (s.phaseOutcome p u d c) := by
  cases u <;> cases d
  · exact transitionFailed_steady _ _
  · exact transitionDone_steady _ _
  · exact raiseCause_steady _ _
  · exact .refl _
  · exact raiseCause_steady _ _
  · exact .refl _
  · exact recoveryFailed_steady _ _
  · exact recoveryDone_steady _ _

theorem startInterval_steady (s : State) (b : Bool) : Steady s (s.startInterval b) := by
  unfold State.startInterval; split
  · exact setTu_steady _ _
  · exact .refl _

theorem turnoverMissed_steady (s : State) : Steady s s.turnoverMissed := by
  unfold State.turnoverMissed; repeat' split
  · exact raiseCause_steady _ _
  · exact setPs_steady _ _
  · exact .refl _

theorem workEnded_steady (s : State) (t : Token) (o : DoneOutcome) : Steady s (s.workEnded t o) := by
  unfold State.workEnded; split
  · exact (setHu_steady _ _).trans (place_steady _ _)
  · exact .refl _

theorem outcome_steady (s : State) (o : Outstanding) (d : Bool) (c : Cause) : Steady s (s.outcome o d c) := by
  unfold State.outcome; repeat' split
  · exact phaseOutcome_steady _ _ _ _ _
  · exact .refl _
  · refine Steady.trans ?_ (startInterval_steady _ _); exact setSp_steady _ _ rfl
  · refine Steady.trans ?_ (startInterval_steady _ _); exact setSp_steady _ _ rfl
  · unfold State.turnoverDone; split
    · exact setPs_steady _ _
    · exact .refl _
  · exact turnoverMissed_steady _
  all_goals exact workEnded_steady _ _ _

theorem takeAck_steady (s : State) (t : Token) (o : AckOutcome) : Steady s (s.takeAck t o) := by
  unfold State.takeAck; dsimp only; split
  · exact setSp_steady _ _ rfl
  · refine Steady.trans (Steady.trans (setSp_steady _ _ ?_) (outcome_steady _ _ _ _)) (arbitrate_steady _)
    unfold SP.acknowledge; split <;> rfl

end Sys2Proof.Machine
end

