-- ==== Sys2Proof/Laws/Ops.lean ====
section
/-!
SUPPORT. What the shared operations do, said once: marks, the message FIFO, replies, cells, the arbiter, the phase
change and the publication that ends an event.
-/

namespace Sys2Proof.Machine

/-! ### Resources -/

@[simp] theorem PerRes.get_of {α : Type} (f : Resource → α) (r : Resource) : (PerRes.of f).get r = f r := by
  cases r <;> rfl

@[simp] theorem PerRes.get_same {α : Type} (v : α) (r : Resource) : (PerRes.same v).get r = v := by cases r <;> rfl

@[simp] theorem PerRes.get_set_self {α : Type} (p : PerRes α) (r : Resource) (v : α) : (p.set r v).get r = v := by
  cases r <;> rfl

theorem PerRes.get_set_ne {α : Type} (p : PerRes α) {r x : Resource} (v : α) (h : x ≠ r) :
    (p.set r v).get x = p.get x := by
  cases r <;> cases x <;> first | rfl | exact absurd rfl h

theorem PerRes.ext_get {α : Type} {p q : PerRes α} (h : ∀ r, p.get r = q.get r) : p = q := by
  cases p; cases q
  simp only [PerRes.mk.injEq]
  exact ⟨h .steam, h .power, h .lime, h .water⟩

theorem Resource.mem_all (r : Resource) : r ∈ Resource.all := by cases r <;> decide

/-! ### The message FIFO and the replies (R171, R115, R116) -/

/-- A placing keeps the FIFO within its eight frames. -/
theorem LC.place_length (l : LC) (m : MsgFrame) (h : l.fifo.length ≤ fifoSize) :
    (l.place m).fifo.length ≤ fifoSize := by
  unfold LC.place; split
  · simp; omega
  · exact h

/-- A placing appends the frame or, at a full FIFO, drops it and sets REPLY_OVERFLOW. -/
theorem LC.place_cases (l : LC) (m : MsgFrame) :
    (l.fifo.length < fifoSize ∧ l.place m = { l with fifo := l.fifo ++ [m] })
      ∨ (fifoSize ≤ l.fifo.length ∧ l.place m = l.overflow) := by
  unfold LC.place; split
  · exact .inl ⟨‹_›, rfl⟩
  · exact .inr ⟨by omega, rfl⟩

/-- A reply touches the message FIFO or the local result, and nothing else. -/
theorem replyWith_cases (s : State) (q : Requester) (o : Reply) (d : Byte) :
    (∃ a t, q = .line a t ∧ s.replyWith q o d = s.setLc (s.lc.place (.reply a t o d)))
      ∨ (∃ t, q = .port t ∧ s.replyWith q o d = s.setDu ⟨some ⟨.directive, t, o, d⟩, s.du.count + 1⟩)
      ∨ s.replyWith q o d = s := by
  cases q with
  | line a t => exact .inl ⟨a, t, rfl, rfl⟩
  | port t => exact .inr (.inl ⟨t, rfl, rfl⟩)
  | autoHold | autoResume | holdExpired | closeAfter => exact .inr (.inr rfl)

/-! ### Due marks and publication (R172 to R174) -/

/-- A short mark touches the line controller alone. -/
theorem markShort_cases (s : State) : s.markShort = s.setLc s.lc.markShort ∨ s.markShort = s := by
  unfold State.markShort; split
  · exact .inl rfl
  · exact .inr rfl

/-- The note of a change touches the line controller alone. -/
theorem noteChange_cases (s t : State) : s.noteChange t = t.setLc t.lc.markShort ∨ s.noteChange t = t := by
  unfold State.noteChange; split
  · exact markShort_cases t
  · exact .inr rfl

/-- Without a transition waiting on its list, the publication of a change is its note. -/
theorem publish_eq (s t : State) (h : t.atStage .waitPrereq = false) : s.publish t = s.noteChange t := by
  have p : t.pollList = t := by
    unfold State.pollList
    unfold State.atStage at h
    split
    · rename_i r e
      rw [e] at h
      have hr : r.stage ≠ .waitPrereq := by simpa using h
      simp [hr]
    · rfl
  unfold State.publish; split
  · rw [p]
  · rfl

/-- An event that changes nothing publishes nothing. -/
theorem publish_self (s : State) : s.publish s = s := by
  unfold State.publish State.ownChanged
  simp [State.noteChange, State.shortCalled]

/-! ### The cells (R82, R83, R86) -/

/-- An evaluation leaves the holding as it stands. -/
@[simp] theorem Cell.evaluate_holding (v : CellView) (c : Cell) : (c.evaluate v).a.holding = c.a.holding := by
  unfold Cell.evaluate; repeat' split
  all_goals rfl

/-- The judgement of a release touches the slot alone. -/
@[simp] theorem Cell.judgeRelease_a (v : CellView) (c : Cell) : (c.judgeRelease v).a = c.a := by
  unfold Cell.judgeRelease; split <;> rfl

/-- A withdrawal leaves the holding as it stands. -/
@[simp] theorem Cell.withdrawBelow_holding (v : CellView) (c : Cell) :
    (c.withdrawBelow v).a.holding = c.a.holding := by
  unfold Cell.withdrawBelow; split <;> rfl

/-- A target change leaves the smaller of holding and target (R76). -/
@[simp] theorem Cell.retarget_holding (v : CellView) (c : Cell) :
    (c.retarget v).a.holding = min c.a.holding v.target := by
  simp [Cell.retarget, Cell.capToTarget]

/-- Shedding never raises the holding (R88). -/
theorem Cell.shed_le (n : Nat) (c : Cell) : (c.shed n).a.holding ≤ c.a.holding := by
  unfold Cell.shed; split
  · exact le_refl _
  · exact min_le_left _ _

/-- A withdrawal leaves the holding as it stands. -/
@[simp] theorem Cell.withdraw_holding (c : Cell) : c.withdraw.a.holding = c.a.holding := rfl

/-- A change report lowers the holding to the own allowance, and no further (R87, R88). -/
theorem Cell.report_holding_eq (v : CellView) (new : Tally) (before : Nat) (c : Cell) :
    (c.report v new before).a.holding
      = if before + c.a.holding ≤ new.capacity then c.a.holding else min c.a.holding (new.capacity - before) := by
  unfold Cell.report
  simp only [Cell.judgeRelease_a, Cell.evaluate_holding]
  unfold Cell.shed
  repeat' split
  all_goals first | rfl | simp_all [Cell.withdraw]

/-- The report of an own change does nothing without the change. -/
theorem Cell.ownReport_same (v : CellView) (new : Tally) (before : Nat) (c : Cell) :
    c.ownReport v new before c.a.holding = c := by simp [Cell.ownReport]

/-- The report of an own change never raises the holding. -/
theorem Cell.ownReport_le (v : CellView) (new : Tally) (before old : Nat) (c : Cell) :
    (c.ownReport v new before old).a.holding ≤ c.a.holding := by
  unfold Cell.ownReport; repeat' split
  · exact le_refl _
  · exact le_refl _
  · rw [Cell.report_holding_eq]; split
    · exact le_refl _
    · exact min_le_left _ _

/-- A target change that lowers no holding makes no report. -/
theorem Cell.refresh_of_le (v : CellView) (new : Tally) (before : Nat) (c : Cell) (h : c.a.holding ≤ v.target) :
    c.refresh v new before = c.retarget v := by
  unfold Cell.refresh Cell.ownReport
  rw [if_pos (by rw [Cell.retarget_holding]; exact min_eq_left h)]

/-- A target change leaves at most the smaller of holding and target (R76, R88). -/
theorem Cell.refresh_holding_le (v : CellView) (new : Tally) (before : Nat) (c : Cell) :
    (c.refresh v new before).a.holding ≤ min c.a.holding v.target := by
  rw [← Cell.retarget_holding]; exact Cell.ownReport_le _ _ _ _ _

/-- It leaves what lies within holding and target and what the walk of its report leaves (R76, R87). -/
theorem Cell.le_refresh_holding (v : CellView) (new : Tally) (before : Nat) (c : Cell) (n : Nat)
    (h1 : n ≤ c.a.holding) (h2 : n ≤ v.target)
    (h3 : c.a.holding ≤ v.target ∨ n = 0 ∨ before + n ≤ new.capacity) : n ≤ (c.refresh v new before).a.holding := by
  have k : n ≤ (c.retarget v).a.holding := by rw [Cell.retarget_holding]; exact le_min h1 h2
  rcases h3 with h3 | h3 | h3
  · rw [Cell.refresh_of_le _ _ _ _ h3]; exact k
  · omega
  · unfold Cell.refresh Cell.ownReport; repeat' split
    · exact k
    · exact k
    · rw [Cell.report_holding_eq]; split
      · exact k
      · exact le_min k (by omega)

@[simp] theorem setCell_res (s : State) (r : Resource) (c : Cell) : (s.setCell r c).au.res = s.au.res.set r c.a := rfl

@[simp] theorem setCell_allot (s : State) (r : Resource) (c : Cell) :
    (s.setCell r c).lc.allot = s.lc.allot.set r c.slot := rfl

@[simp] theorem setCell_ps (s : State) (r : Resource) (c : Cell) : (s.setCell r c).ps = s.ps := rfl
@[simp] theorem setCell_tu (s : State) (r : Resource) (c : Cell) : (s.setCell r c).tu = s.tu := rfl
@[simp] theorem setCell_sp (s : State) (r : Resource) (c : Cell) : (s.setCell r c).sp = s.sp := rfl
@[simp] theorem setCell_hu (s : State) (r : Resource) (c : Cell) : (s.setCell r c).hu = s.hu := rfl
@[simp] theorem setCell_tr (s : State) (r : Resource) (c : Cell) : (s.setCell r c).tr = s.tr := rfl
@[simp] theorem setCell_du (s : State) (r : Resource) (c : Cell) : (s.setCell r c).du = s.du := rfl

/-- The work of a target change on one resource keeps every block but the AU and the line controller. -/
theorem refreshCell_keeps (s : State) (r : Resource) :
    (s.refreshCell r).ps = s.ps ∧ (s.refreshCell r).tu = s.tu ∧ (s.refreshCell r).sp = s.sp
      ∧ (s.refreshCell r).hu = s.hu ∧ (s.refreshCell r).tr = s.tr ∧ (s.refreshCell r).du = s.du :=
  ⟨rfl, rfl, rfl, rfl, rfl, rfl⟩

/-- A fold over resources keeps what each turn keeps of six blocks. -/
theorem foldl_keeps (f : State → Resource → State)
    (h : ∀ s r, (f s r).ps = s.ps ∧ (f s r).tu = s.tu ∧ (f s r).sp = s.sp ∧ (f s r).hu = s.hu
      ∧ (f s r).tr = s.tr ∧ (f s r).du = s.du) (l : List Resource) :
    ∀ s, (l.foldl f s).ps = s.ps ∧ (l.foldl f s).tu = s.tu ∧ (l.foldl f s).sp = s.sp ∧ (l.foldl f s).hu = s.hu
      ∧ (l.foldl f s).tr = s.tr ∧ (l.foldl f s).du = s.du := by
  induction l with
  | nil => exact fun s => ⟨rfl, rfl, rfl, rfl, rfl, rfl⟩
  | cons r l ih =>
    intro s
    obtain ⟨a1, a2, a3, a4, a5, a6⟩ := ih (f s r)
    obtain ⟨b1, b2, b3, b4, b5, b6⟩ := h s r
    exact ⟨a1.trans b1, a2.trans b2, a3.trans b3, a4.trans b4, a5.trans b5, a6.trans b6⟩

/-- The work of a target change keeps every block but the AU and the line controller's slots. -/
theorem refreshCells_keeps (s : State) :
    s.refreshCells.ps = s.ps ∧ s.refreshCells.tu = s.tu ∧ s.refreshCells.sp = s.sp ∧ s.refreshCells.hu = s.hu
      ∧ s.refreshCells.tr = s.tr ∧ s.refreshCells.du = s.du := foldl_keeps _ refreshCell_keeps _ s

/-- The state with all four cells replaced. -/
def State.setCells (s : State) (f : Resource → Cell) : State :=
  { s with au := { s.au with res := .of fun r => (f r).a }, lc := { s.lc with allot := .of fun r => (f r).slot } }

@[simp] theorem setCells_cell (s : State) (f : Resource → Cell) (r : Resource) : (s.setCells f).cell r = f r := by
  cases r <;> rfl

/-- The refresh of a resource's cell. -/
def State.refreshed (s : State) (r : Resource) : Cell :=
  (s.cell r).refresh (s.cellView r) (s.tally r) (s.sumBefore r)

/-- The work of a target change replaces each cell by its refresh, each read before any is written. -/
theorem refreshCells_eq (s : State) : s.refreshCells = s.setCells s.refreshed := by
  change (((s.refreshCell .steam).refreshCell .power).refreshCell .lime).refreshCell .water = _
  change (((s.setCell .steam (s.refreshed .steam)).refreshCell .power).refreshCell .lime).refreshCell .water = _
  generalize h0 : s.refreshed .steam = c0
  change (((s.setCell .steam c0).setCell .power (s.refreshed .power)).refreshCell .lime).refreshCell .water = _
  generalize h1 : s.refreshed .power = c1
  change ((((s.setCell .steam c0).setCell .power c1).setCell .lime (s.refreshed .lime)).refreshCell .water) = _
  generalize h2 : s.refreshed .lime = c2
  change ((((s.setCell .steam c0).setCell .power c1).setCell .lime c2).setCell .water (s.refreshed .water)) = _
  generalize h3 : s.refreshed .water = c3
  have : s.refreshed = fun r => (⟨c0, c1, c2, c3⟩ : PerRes Cell).get r := by
    funext r; cases r <;> assumption
  rw [this]; rfl

/-- So each cell has taken its refresh. -/
theorem refreshCells_cell (s : State) (r : Resource) :
    s.refreshCells.cell r = (s.cell r).refresh (s.cellView r) (s.tally r) (s.sumBefore r) := by
  rw [refreshCells_eq, setCells_cell]; rfl

/-- The change reports keep every block but the AU and the line controller's slots. -/
theorem reportCell_keeps (s : State) (r : Resource) :
    (s.reportCell r).ps = s.ps ∧ (s.reportCell r).tu = s.tu ∧ (s.reportCell r).sp = s.sp
      ∧ (s.reportCell r).hu = s.hu ∧ (s.reportCell r).tr = s.tr ∧ (s.reportCell r).du = s.du := by
  unfold State.reportCell; dsimp only; split <;> exact ⟨rfl, rfl, rfl, rfl, rfl, rfl⟩

/-- Likewise over the resources named. -/
theorem reportCells_keeps (s : State) (f : Resource → Bool) :
    (s.reportCells f).ps = s.ps ∧ (s.reportCells f).tu = s.tu ∧ (s.reportCells f).sp = s.sp
      ∧ (s.reportCells f).hu = s.hu ∧ (s.reportCells f).tr = s.tr ∧ (s.reportCells f).du = s.du :=
  foldl_keeps _ reportCell_keeps _ s

/-- The judgement of UNDER_STANDING writes the flag and its timer. -/
theorem judgeStanding_cases (s : State) :
    s.judgeStanding = s ∨ ∃ b t, s.judgeStanding = s.setAu { s.au with underStanding := b, underTimer := t } := by
  unfold State.judgeStanding; split
  · split
    · exact .inl rfl
    · exact .inr ⟨_, _, rfl⟩
  · exact .inr ⟨_, _, rfl⟩

/-- UNDER_STANDING after its judgement, with its timer (R89, R90). -/
theorem judgeStanding_au (s : State) :
    s.judgeStanding = s.setAu { s.au with
      underStanding := s.belowStanding
      underTimer := if s.belowStanding then
          (if s.au.underStanding then s.au.underTimer else some s.cs.set.tClaimWait) else none } := by
  unfold State.judgeStanding
  cases h : s.belowStanding
  · rfl
  · cases k : s.au.underStanding
    · rfl
    · have e : ({ s.au with underStanding := true, underTimer := s.au.underTimer } : AU) = s.au := by rw [← k]
      simp only [if_true]
      rw [e]; rfl

/-! ### The phase change (R2) -/

/-- A cause is among those of the timers that have run down exactly where its timer has. -/
theorem mem_expired (s : State) (x : Cause) : x ∈ s.expired ↔ s.CauseDue x := by
  unfold State.expired raisedIf Timer.due
  cases x <;> simp [State.CauseDue, and_comm]

/-- A phase change that overtakes causes keeps them raised, and nothing else differs (R132). -/
theorem keepRaised_eq (s t : State) :
    s.keepRaised t = { t with tr := { t.tr with raised := (s.keepRaised t).tr.raised } } := rfl

/-- Which causes it keeps raised. -/
theorem mem_keepRaised (s t : State) (x : Cause) :
    x ∈ (s.keepRaised t).tr.raised ↔ x ∈ t.tr.raised ∨ s.CauseDue x ∧ ¬ t.CauseDue x := by
  unfold State.keepRaised State.setTr
  by_cases h : x ∈ t.tr.raised <;> simp [h, mem_expired]

/-- The blocks a phase change writes as their chapters give, and those it leaves. -/
theorem entered_blocks (s : State) (p : Phase) (e : EntryInfo) :
    (s.entered p e).ps = s.ps.enter s.cs.set s.now p e
      ∧ (s.entered p e).tu = s.tu.enter s.cs.set s.ps.phase p e
      ∧ (s.entered p e).sp = s.sp.enter s.cs.set s.ps.phase p
      ∧ (s.entered p e).hu = s.hu ∧ (s.entered p e).tr = s.tr ∧ (s.entered p e).du = s.du := by
  have j : ∀ t : State, t.judgeStanding.ps = t.ps ∧ t.judgeStanding.tu = t.tu ∧ t.judgeStanding.sp = t.sp
      ∧ t.judgeStanding.hu = t.hu ∧ t.judgeStanding.tr = t.tr ∧ t.judgeStanding.du = t.du := by
    intro t
    rcases judgeStanding_cases t with h | ⟨b, x, h⟩ <;> rw [h] <;> exact ⟨rfl, rfl, rfl, rfl, rfl, rfl⟩
  have m : (s.enterPhase p e).ps = s.ps.enter s.cs.set s.now p e
      ∧ (s.enterPhase p e).tu = s.tu.enter s.cs.set s.ps.phase p e
      ∧ (s.enterPhase p e).sp = s.sp.enter s.cs.set s.ps.phase p
      ∧ (s.enterPhase p e).hu = s.hu ∧ (s.enterPhase p e).tr = s.tr ∧ (s.enterPhase p e).du = s.du := by
    unfold State.enterPhase State.markShort State.markLong
    dsimp only; repeat' split
    all_goals exact ⟨rfl, rfl, rfl, rfl, rfl, rfl⟩
  unfold State.entered; dsimp only
  obtain ⟨a1, a2, a3, a4, a5, a6⟩ := j ((s.enterPhase p e).refreshCells.reportCells fun r =>
    decide ((s.enterPhase p e).refreshCells.publishedCapacity r ≠ s.publishedCapacity r))
  obtain ⟨b1, b2, b3, b4, b5, b6⟩ := reportCells_keeps (s.enterPhase p e).refreshCells fun r =>
    decide ((s.enterPhase p e).refreshCells.publishedCapacity r ≠ s.publishedCapacity r)
  obtain ⟨c1, c2, c3, c4, c5, c6⟩ := refreshCells_keeps (s.enterPhase p e)
  obtain ⟨m1, m2, m3, m4, m5, m6⟩ := m
  exact ⟨a1.trans (b1.trans (c1.trans m1)), a2.trans (b2.trans (c2.trans m2)), a3.trans (b3.trans (c3.trans m3)),
    a4.trans (b4.trans (c4.trans m4)), a5.trans (b5.trans (c5.trans m5)), a6.trans (b6.trans (c6.trans m6))⟩

/-- So does the whole of it, with the causes that it overtakes. -/
theorem changePhase_blocks (s : State) (p : Phase) (e : EntryInfo) :
    (s.changePhase p e).ps = s.ps.enter s.cs.set s.now p e
      ∧ (s.changePhase p e).tu = s.tu.enter s.cs.set s.ps.phase p e
      ∧ (s.changePhase p e).sp = s.sp.enter s.cs.set s.ps.phase p
      ∧ (s.changePhase p e).hu = s.hu
      ∧ (s.changePhase p e).tr = { s.tr with raised := (s.changePhase p e).tr.raised }
      ∧ (s.changePhase p e).du = s.du := by
  obtain ⟨h1, h2, h3, h4, h5, h6⟩ := entered_blocks s p e
  refine ⟨h1, h2, h3, h4, ?_, h6⟩
  rw [← h5]; rfl

/-- Keeping causes raised lets none fall due. -/
theorem causeDue_keepRaised (s u : State) (x : Cause) : (s.keepRaised u).CauseDue x = u.CauseDue x := by
  cases x <;> rfl

/-- The causes that stand raised after a phase change (R132). -/
theorem changePhase_causes (s : State) (p : Phase) (e : EntryInfo) (x : Cause) :
    x ∈ (s.changePhase p e).tr.raised ↔ x ∈ s.tr.raised ∨ s.CauseDue x ∧ ¬ (s.changePhase p e).CauseDue x := by
  have h := mem_keepRaised s (s.entered p e) x
  rw [(entered_blocks s p e).2.2.2.2.1] at h
  rw [State.changePhase, causeDue_keepRaised]
  exact h

/-! ### The arbiter (R151) -/

/-- With nothing waiting, at the port or in the service queue, a judgement of the arbiter issues nothing. -/
theorem arbitrate_quiet (s : State) (h : s.sp.Quiet) (q : takeWaiting s.sp.nextToken s.hu.queue = none) :
    s.arbitrate = s := by
  have n : s.issueNext = s := by
    unfold State.issueNext State.issueLower State.issueWork?
    simp [h.trip, h.phase, h.pair, h.recovery, h.turnover, h.rate, q]
  rw [State.arbitrate, n, n]

/-- A service queue with no WAITING entry offers none (R149). -/
theorem takeWaiting_none (k : Token) (q : List Service) (h : q.all (fun e => e.state ≠ .waiting) = true) :
    takeWaiting k q = none := by
  induction q with
  | nil => rfl
  | cons e q ih =>
    simp only [List.all_cons, Bool.and_eq_true, decide_eq_true_eq] at h
    unfold takeWaiting
    cases hs : e.state with
    | waiting => exact absurd hs h.1
    | outstanding u => simp [ih h.2]

/-- So an arbiter with nothing waiting issues nothing. -/
theorem arbitrate_still (s : State) (h : s.sp.Quiet) (q : s.hu.NoneWaiting) : s.arbitrate = s :=
  arbitrate_quiet s h (takeWaiting_none _ _ q)

/-- A SET_PHASE outstanding lets nothing issue. -/
theorem issueNext_blocked (s : State) (h : s.sp.setPhaseOut = true) : s.issueNext = s := by
  have e : s.sp.outstanding.isEmpty = false := by
    unfold SP.setPhaseOut at h
    cases hl : s.sp.outstanding with
    | nil => rw [hl] at h; simp at h
    | cons _ _ => rfl
  unfold State.issueNext
  simp only [e, h]
  repeat' split
  all_goals simp_all

/-! ### The step -/

/-- One step takes the command at the front of the queue. -/
theorem step_push (s : State) (c : Instr) : step (s.push c) = exec c s := rfl

end Sys2Proof.Machine
end

