-- ==== Sys2Proof/Laws/Answers.lean ====
section
/-!
SUPPORT. What an event that ends in one reply leaves: the reply's delivery, the short mark of R174 and nothing else.
-/

namespace Sys2Proof.Machine

/-- A note of change sets the short mark as R174 calls for it and changes nothing else. -/
theorem noteChange_eq (s t : State) :
    s.noteChange t = t.setLc (s.noteChange t).lc ∧ LineKept t.lc (s.noteChange t).lc
      ∧ NothingPlaced t.lc (s.noteChange t).lc
      ∧ (s.noteChange t).lc.shortDue = (t.lc.shortDue || (t.cs.locked && s.shortCalled (s.noteChange t))) := by
  unfold State.noteChange
  cases h : s.shortCalled t
  · refine ⟨rfl, ⟨rfl, rfl⟩, ⟨rfl, rfl⟩, ?_⟩
    simp [h]
  · unfold State.markShort
    cases k : t.cs.locked
    · exact ⟨by rfl, by simp [LineKept], by simp [NothingPlaced], by simp⟩
    · refine ⟨rfl, ⟨rfl, rfl⟩, ⟨rfl, rfl⟩, ?_⟩
      have e : s.shortCalled (t.setLc t.lc.markShort) = true := h
      have m : (t.setLc t.lc.markShort).lc.shortDue = true := rfl
      simp only [e, m, if_true, Bool.true_and, Bool.or_true]

/-- A reply to a requester, before any note of change. -/
theorem replyWith_eq (s : State) (q : Requester) (o : Reply) (d : Byte) :
    s.replyWith q o d = (s.setDu (s.replyWith q o d).du).setLc (s.replyWith q o d).lc := by
  cases q <;> rfl

/-- The line controller after a placing. -/
theorem place_lineKept (l : LC) (m : MsgFrame) :
    LineKept l (l.place m) ∧ Placed l (l.place m) m ∧ (l.place m).shortDue = l.shortDue := by
  unfold LC.place Placed fifoSize
  split
  · exact ⟨⟨rfl, rfl⟩, ⟨rfl, rfl⟩, rfl⟩
  · refine ⟨⟨rfl, ?_⟩, ⟨rfl, rfl⟩, rfl⟩
    simp only [LC.overflow, Option.map_map]
    rfl

theorem LineKept.trans {a b c : LC} (h : LineKept a b) (k : LineKept b c) : LineKept a c := by
  obtain ⟨h1, h2⟩ := h; obtain ⟨k1, k2⟩ := k
  refine ⟨?_, k2.trans h2⟩
  rw [k1, h1]

theorem LineKept.refl (a : LC) : LineKept a a := ⟨rfl, rfl⟩

/-- The delivery of a reply. -/
theorem replyWith_line (s : State) (q : Requester) (o : Reply) (d : Byte) :
    LineKept s.lc (s.replyWith q o d).lc ∧ (s.replyWith q o d).lc.shortDue = s.lc.shortDue
      ∧ Delivered s.du s.lc (s.replyWith q o d).du (s.replyWith q o d).lc q o d := by
  cases q with
  | line a tag =>
    obtain ⟨k, p, e⟩ := place_lineKept s.lc (.reply a tag o d)
    exact ⟨k, e, rfl, p⟩
  | port tag => exact ⟨.refl _, rfl, rfl, rfl, rfl⟩
  | autoHold | autoResume | holdExpired | closeAfter => exact ⟨.refl _, rfl, rfl, rfl, rfl⟩

/-- Without a transition waiting on its list, or with the own entry unchanged, a publication is the note of change. -/
theorem publish_calm (s u : State) (h : u.atStage .waitPrereq = false ∨ u.ownEntry = s.ownEntry) :
    s.publish u = s.noteChange u := by
  rcases h with h | h
  · exact publish_eq s u h
  · unfold State.publish State.ownChanged; simp [h]

/-- A reply changes the own entry only by setting REPLY_OVERFLOW. -/
theorem replyWith_ownEntry (s : State) (q : Requester) (o : Reply) (d : Byte) (h : s.lc.fifo.length < 8) :
    (s.replyWith q o d).ownEntry = s.ownEntry := by
  cases q with
  | line a tag =>
    have e : s.lc.place (.reply a tag o d) = { s.lc with fifo := s.lc.fifo ++ [.reply a tag o d] } := by
      unfold LC.place; simp [fifoSize, h]
    change (s.setLc (s.lc.place _)).ownEntry = _
    rw [e]; rfl
  | port | autoHold | autoResume | holdExpired | closeAfter => rfl

theorem replyWith_atStage (s : State) (q : Requester) (o : Reply) (d : Byte) (g : Stage) :
    (s.replyWith q o d).atStage g = s.atStage g := by rw [replyWith_eq]; rfl

/-- An event that ends in one reply from `u`: what it delivers and what it keeps. -/
theorem publish_reply (s u : State) (q : Requester) (o : Reply) (d : Byte)
    (hp : s.publish (u.replyWith q o d) = s.noteChange (u.replyWith q o d)) :
    s.publish (u.replyWith q o d)
        = (u.setDu (s.publish (u.replyWith q o d)).du).setLc (s.publish (u.replyWith q o d)).lc
      ∧ Delivered u.du u.lc (s.publish (u.replyWith q o d)).du (s.publish (u.replyWith q o d)).lc q o d
      ∧ LineKept u.lc (s.publish (u.replyWith q o d)).lc
      ∧ (s.publish (u.replyWith q o d)).lc.shortDue
        = (u.lc.shortDue || (u.cs.locked && s.shortCalled (s.publish (u.replyWith q o d)))) := by
  rw [hp]
  obtain ⟨n1, n2, n3, n4⟩ := noteChange_eq s (u.replyWith q o d)
  obtain ⟨r1, r2, r3⟩ := replyWith_line u q o d
  have ndu : (s.noteChange (u.replyWith q o d)).du = (u.replyWith q o d).du := by rw [n1]; rfl
  refine ⟨?_, ?_, r1.trans n2, ?_⟩
  · rw [ndu]
    refine n1.trans ?_
    generalize (s.noteChange (u.replyWith q o d)).lc = l
    rw [replyWith_eq]; rfl
  · obtain ⟨f1, f2⟩ := n3
    cases q <;> simp only [Delivered, Placed, NothingPlaced, f1, f2, ndu] at r3 ⊢ <;> exact r3
  · have : (u.replyWith q o d).cs = u.cs := by rw [replyWith_eq]; rfl
    rw [n4, r2, this]

/-- An event whose work `u` leaves the line controller and the directive unit alone, and which ends in one reply. -/
theorem publish_answered (s u : State) (q : Requester) (o : Reply) (d : Byte) (hl : u.lc = s.lc)
    (hd : u.du = s.du) (hc : u.cs = s.cs)
    (hp : s.publish (u.replyWith q o d) = s.noteChange (u.replyWith q o d)) :
    s.publish (u.replyWith q o d)
        = (u.setDu (s.publish (u.replyWith q o d)).du).setLc (s.publish (u.replyWith q o d)).lc
      ∧ Answered s (s.publish (u.replyWith q o d)) q o d := by
  obtain ⟨h1, h2, h3, h4⟩ := publish_reply s u q o d hp
  rw [hl] at h2 h3 h4
  rw [hd] at h2
  rw [hc] at h4
  exact ⟨h1, h2, h3, h4⟩

/-- An event with no reply whose work leaves the line controller alone. -/
theorem publish_silent (s u : State) (hl : u.lc = s.lc) (hc : u.cs = s.cs)
    (hw : u.atStage .waitPrereq = false) :
    s.publish u = u.setLc (s.publish u).lc ∧ LineKept s.lc (s.publish u).lc
      ∧ NothingPlaced s.lc (s.publish u).lc ∧ ShortMarked s (s.publish u) := by
  rw [publish_eq s _ hw]
  obtain ⟨n1, n2, n3, n4⟩ := noteChange_eq s u
  refine ⟨n1, hl ▸ n2, hl ▸ n3, ?_⟩
  unfold ShortMarked
  rw [n4, hl, hc]

/-- A refusal from a calm state. -/
theorem publish_refused (s : State) (q : Requester) (c : RefusalCode) (h : s.calm = true) :
    Refused s (s.publish (s.refuse q c)) q c := by
  refine publish_answered s s q (.refused c) 0 rfl rfl rfl (publish_calm _ _ ?_)
  unfold State.calm at h
  rw [Bool.or_eq_true, Bool.not_eq_true', decide_eq_true_eq] at h
  rcases h with h | h
  · left; rw [replyWith_atStage]; exact h
  · right; exact replyWith_ownEntry s q _ _ h

/-- The publication of an event that ends in one reply, no transition waiting on its list. -/
theorem publish_replied (s u : State) (q : Requester) (o : Reply) (d : Byte) (hl : u.lc = s.lc)
    (hd : u.du = s.du) (hc : u.cs = s.cs) (hw : u.atStage .waitPrereq = false) :
    s.publish (u.replyWith q o d)
        = (u.setDu (s.publish (u.replyWith q o d)).du).setLc (s.publish (u.replyWith q o d)).lc
      ∧ Answered s (s.publish (u.replyWith q o d)) q o d :=
  publish_answered s u q o d hl hd hc (publish_calm _ _ (.inl (by rw [replyWith_atStage]; exact hw)))

/-- The publication of an event that places no reply, no transition waiting on its list. -/
theorem publish_noted (s u : State) (hw : u.atStage .waitPrereq = false) : Noted s u (s.publish u) := by
  rw [publish_eq s _ hw]
  exact noteChange_eq s u

/-- An event that leaves what is published as it was publishes nothing. -/
theorem publish_same (s u : State) (h : u.ownEntry = s.ownEntry) (c : s.shortCalled u = false) : s.publish u = u := by
  unfold State.publish State.ownChanged State.noteChange
  simp [h, c]

/-- An event that leaves the own entry as it was publishes nothing. -/
theorem publish_own (s u : State) (h : u.ownEntry = s.ownEntry) : s.publish u = u := by
  have h1 : u.ps.phase = s.ps.phase := by simpa [State.ownEntry] using congrArg PeerEntry.phase h
  have h2 : u.flags = s.flags := congrArg PeerEntry.flags h
  have h3 : u.offer = s.offer := congrArg PeerEntry.offer h
  have h4 : u.acceptance = s.acceptance := congrArg PeerEntry.acceptance h
  exact publish_same s u h (by simp [State.shortCalled, h1, h2, h3, h4])

/-- The publication of an event that places one frame, no transition waiting on its list. -/
theorem publish_sent (s u : State) (m : MsgFrame) (hw : u.atStage .waitPrereq = false) :
    Sent s u (s.publish (u.place m)) m := by
  rw [publish_eq s (u.place m) hw]
  obtain ⟨n1, n2, n3, n4⟩ := noteChange_eq s (u.place m)
  obtain ⟨k, p, e⟩ := place_lineKept u.lc m
  have l : (u.place m).lc = u.lc.place m := rfl
  rw [l] at n2 n3 n4
  refine ⟨n1, k.trans n2, ?_, ?_⟩
  · obtain ⟨f1, f2⟩ := n3
    simp only [Placed, f1, f2] at p ⊢; exact p
  · rw [n4, e]; rfl

/-! ### The judgement of a directive (R99) -/

/-- A directive command is the taking of its directive, then the publication. -/
theorem exec_directive (c : Instr) (src : Source) (d : Directive) (s : State)
    (h : directiveOfCommand c = some (src, d)) : exec c s = .next (s.publish (s.takeDirective src (some d))) := by
  cases c <;> simp only [directiveOfCommand, Option.some.injEq, Prod.mk.injEq, reduceCtorEq] at h <;>
    (obtain ⟨rfl, rfl⟩ := h; rfl)

/-- A heard directive is judged by its kind (R99, steps 5 to 8). -/
theorem takeDirective_heard (s : State) (src : Source) (d : Directive) (h : s.hears src = true) :
    s.takeDirective src (some d) = s.judgeKind (Source.requester src) (Source.authority src) d := by
  cases src with
  | line a m t1 t2 tag =>
    simp only [State.hears, Bool.and_eq_true] at h
    obtain ⟨⟨h1, h2⟩, h3⟩ := h
    simp [State.takeDirective, h1, h2, State.judgeLine, h3, Source.requester, Source.authority]
  | port tag =>
    simp only [State.hears] at h
    simp [State.takeDirective, State.judgePort, h, Source.requester, Source.authority]

/-- A directive that is admitted reaches its row (R99, steps 1 to 6). -/
theorem takeDirective_row (s : State) (src : Source) (d : Directive) (h : s.admits src d = true) :
    s.takeDirective src (some d) = s.row (Source.requester src) (Source.authority src) d := by
  simp only [State.admits, Bool.and_eq_true] at h
  obtain ⟨⟨h1, h2⟩, h3⟩ := h
  rw [takeDirective_heard s src d h1]
  have : (s.ps.frozen && !d.passesFreeze s.ps.phase) = false := by
    simp only [Bool.or_eq_true, Bool.not_eq_true'] at h3
    rcases h3 with h3 | h3 <;> simp [h3]
  simp [State.judgeKind, h2, this]

end Sys2Proof.Machine
end

