-- ==== Sys2Proof/Laws/Arbiter.lean ====
section
/-!
SUPPORT. What the arbiter does with a SET_PHASE of the sequencer, and how a transition reaches its acknowledgement.
-/

namespace Sys2Proof.Machine

/-- With nothing outstanding the next token is the count (R150). -/
theorem nextToken_empty (p : SP) (h : p.outstanding = []) : p.nextToken = p.tokenCount := by
  simp [SP.nextToken, SP.tokenFrom, SP.tokenUsed, h]

/-- With nothing outstanding an issue leaves its command alone in the list. -/
theorem emit_empty (p : SP) (c : Settings) (cmd : Command) (h : p.outstanding = []) :
    p.emit c cmd = p.issued c cmd := by
  simp [SP.emit, SP.issued, nextToken_empty p h, h]

/-- The slot's step to WAIT_ACK leaves the section port alone. -/
theorem slotIssued_sp (s : State) : s.slotIssued.sp = s.sp := by
  unfold State.slotIssued; split
  · dsimp only; split
    · rfl
    · unfold State.reply; rw [replyWith_eq]; rfl
  · rfl

theorem slotIssued_slot (s : State) (r : SlotRec) (h : s.ps.slot = some r) :
    s.slotIssued.ps.slot = some { r with stage := .waitAck, deadline := none } := by
  unfold State.slotIssued; rw [h]; dsimp only; split
  · rfl
  · unfold State.reply; rw [replyWith_eq]; rfl

/-- Past the stages before WAIT_ISSUE no PENDING is owed (R11). -/
theorem notePending_past (s : State) (r : SlotRec) (h : s.ps.slot = some r) (b : r.stage.beforeIssue = false) :
    s.notePending = s := by
  unfold State.notePending; simp [h, b]

/-- The sequencer's SET_PHASE issues with the list empty (R151). -/
theorem issueNext_phase (u : State) (p : Phase) (w : Purpose) (h1 : u.sp.tripReq = false)
    (h2 : u.sp.psReq = some (p, w)) (h3 : u.sp.outstanding = []) : u.issueNext = u.issuePhase p w := by
  unfold State.issueNext; simp [h1, h2, h3]

/-- It waits while a command is outstanding (R151). -/
theorem issueNext_held (u : State) (p : Phase) (w : Purpose) (h1 : u.sp.tripReq = false)
    (h2 : u.sp.psReq = some (p, w)) (h3 : u.sp.outstanding ≠ []) : u.issueNext = u := by
  unfold State.issueNext; simp [h1, h2, h3]

/-- The issue of a transition's SET_PHASE. -/
theorem issuePhase_transition (u : State) (p : Phase) (h3 : u.sp.outstanding = []) :
    u.issuePhase p .transition
      = State.slotIssued (u.setSp { u.sp.issued u.cs.set (.setPhase p .transition) with psReq := none }) := by
  unfold State.issuePhase; rw [emit_empty _ _ _ h3]

/-- A judgement of the arbiter with a transition's SET_PHASE waiting. -/
theorem arbitrate_transition (u : State) (p : Phase) (h1 : u.sp.tripReq = false)
    (h2 : u.sp.psReq = some (p, .transition)) :
    u.arbitrate = if u.sp.outstanding = [] then
        State.slotIssued (u.setSp { u.sp.issued u.cs.set (.setPhase p .transition) with psReq := none })
      else u := by
  unfold State.arbitrate
  split
  · rename_i ho
    rw [issueNext_phase u p _ h1 h2 ho, issuePhase_transition u p ho]
    apply issueNext_blocked
    rw [slotIssued_sp]; rfl
  · rename_i ho
    rw [issueNext_held u p _ h1 h2 ho, issueNext_held u p _ h1 h2 ho]

/-- A transition reaching WAIT_ISSUE for a phase other than RUNNING. -/
theorem toIssue_eq (s : State) (r : SlotRec) (hr : r.target ≠ .running) (ht : s.sp.tripReq = false) :
    s.toIssue r =
      if s.sp.outstanding = [] then
        State.slotIssued { s with
          ps := { s.ps with slot := some { r with stage := .waitIssue, deadline := none } }
          sp := { s.sp.issued s.cs.set (.setPhase r.target .transition) with psReq := none } }
      else { s with
        ps := { s.ps with slot := some { r with stage := .waitIssue, deadline := none } }
        sp := { s.sp with psReq := some (r.target, .transition) } } := by
  unfold State.toIssue
  simp only [hr, if_false]
  refine Eq.trans (arbitrate_transition _ r.target ?_ ?_) ?_
  · exact ht
  · rfl
  · rfl

/-- A judgement of the arbiter with a start pair waiting (R151, R152). -/
theorem arbitrate_pair (u : State) (v : Nat) (h1 : u.sp.tripReq = false) (h2 : u.sp.psReq = none)
    (h3 : u.sp.pairReq = some v) :
    u.arbitrate = if u.sp.outstanding = [] then
        State.slotIssued (u.setSp
          { u.sp.issued u.cs.set (.setPhase .running .transition) with pairReq := none, pairRate := some v })
      else u := by
  unfold State.arbitrate
  split
  · rename_i ho
    have e : u.issueNext = State.slotIssued (u.setSp
          { u.sp.issued u.cs.set (.setPhase .running .transition) with pairReq := none, pairRate := some v }) := by
      unfold State.issueNext State.issuePair
      rw [emit_empty _ _ _ ho]
      simp [h1, h2, h3, ho]
    rw [e]
    apply issueNext_blocked
    rw [slotIssued_sp]; rfl
  · rename_i ho
    have e : u.issueNext = u := by unfold State.issueNext; simp [h1, h2, h3, ho]
    rw [e, e]

/-- A transition reaching WAIT_ISSUE, whatever its target (R10, R16). -/
theorem toIssue_any (s : State) (r : SlotRec) (ht : s.sp.tripReq = false) (hp : s.sp.psReq = none)
    (hq : s.sp.pairReq = none) :
    s.toIssue r =
      if s.sp.outstanding = [] then
        State.slotIssued { s with
          ps := { s.ps with slot := some { r with stage := .waitIssue, deadline := none } }
          sp := s.sp.begun s.cs.set r }
      else { s with
        ps := { s.ps with slot := some { r with stage := .waitIssue, deadline := none } }
        sp := s.sp.asked s.cs.set r } := by
  by_cases hr : r.target = .running
  · have a : s.sp.asked s.cs.set r = { s.sp with pairReq := some s.cs.set.rMin } := by simp [SP.asked, hr]
    have b : s.sp.begun s.cs.set r
        = { ({ s.sp with pairReq := some s.cs.set.rMin } : SP).issued s.cs.set (.setPhase .running .transition) with
            pairReq := none, pairRate := some s.cs.set.rMin } := by
      simp only [SP.begun, hr, if_true, SP.issued, hq]
    rw [a, b]
    unfold State.toIssue
    simp only [hr, if_true]
    refine Eq.trans (arbitrate_pair _ s.cs.set.rMin ?_ ?_ ?_) ?_
    · exact ht
    · exact hp
    · rfl
    · rfl
  · have a : s.sp.asked s.cs.set r = { s.sp with psReq := some (r.target, .transition) } := by simp [SP.asked, hr]
    have b : s.sp.begun s.cs.set r = { s.sp.issued s.cs.set (.setPhase r.target .transition) with psReq := none } := by
      simp only [SP.begun, hr, if_false, SP.issued, hp]
    rw [a, b]
    exact toIssue_eq s r hr ht

/-- The recovery's SET_PHASE issues with the list empty (R137, R151). -/
theorem issueNext_recovery (u : State) (p : Phase) (x : Recovery) (h1 : u.sp.tripReq = false)
    (h2 : u.sp.psReq = none) (h3 : u.sp.pairReq = none) (h4 : u.sp.recoveryReq = some p)
    (h5 : u.sp.outstanding = []) (h6 : u.tr.recovery = some x) :
    u.issueNext = State.reply { u with
      tr := { u.tr with recovery := some { x with state := .outstanding u.sp.tokenCount } }
      sp := { u.sp.issued u.cs.set (.setPhase p .recovery) with recoveryReq := none } } (.port x.tag) .taken := by
  have e : u.issueNext = u.issueRecovery p := by unfold State.issueNext; simp [h1, h2, h3, h4, h5]
  rw [e]
  unfold State.issueRecovery
  rw [emit_empty _ _ _ h5, nextToken_empty _ h5]
  simp only [State.setSp, h6]
  rfl

end Sys2Proof.Machine
end

