-- ==== Sys2Proof/Laws/Transitions.lean ====
section
/-!
SUPPORT. How a transition that enters the slot comes to stand: issued, waiting at the section port, waiting on its
list.
-/

namespace Sys2Proof.Machine

/-- An evaluation of a list does not read the line controller, the directive unit, the slot or the watches. -/
theorem entry_lc (s : State) (d : DU) (l : LC) (p : Option SlotRec) (w : List (Station × Nat)) (a : Station) :
    ∃ f, ({ s with du := d, lc := l, ps := { s.ps with slot := p }, pv := { s.pv with watches := w } } : State).entry a
      = { s.entry a with flags := f } := by
  unfold State.entry
  cases k : s.isOwn a
  · refine ⟨(s.stored a).flags, ?_⟩
    have : ({ s with du := d, lc := l, ps := { s.ps with slot := p }, pv := { s.pv with watches := w } } : State).isOwn a = false := k
    rw [this]; rfl
  · have : ({ s with du := d, lc := l, ps := { s.ps with slot := p }, pv := { s.pv with watches := w } } : State).isOwn a = true := k
    rw [this]
    exact ⟨_, rfl⟩

/-- So a test does not either. -/
theorem prereqMet_lc (s : State) (d : DU) (l : LC) (p : Option SlotRec) (w : List (Station × Nat)) (e : PrereqEntry) :
    ({ s with du := d, lc := l, ps := { s.ps with slot := p }, pv := { s.pv with watches := w } } : State).prereqMet e
      = s.prereqMet e := by
  obtain ⟨f, hf⟩ := entry_lc s d l p w (s.cs.set.resolve e.subject)
  unfold State.prereqMet
  dsimp only
  rw [hf]
  cases e.test <;> rfl

/-- So an evaluation does not either. -/
theorem firstUnmet_lc (s : State) (d : DU) (l : LC) (p : Option SlotRec) (w : List (Station × Nat)) (n : ListName) :
    ({ s with du := d, lc := l, ps := { s.ps with slot := p }, pv := { s.pv with watches := w } } : State).firstUnmet n
      = s.firstUnmet n := by
  unfold State.firstUnmet
  congr 1
  funext e
  rw [prereqMet_lc]

/-- Nor does the setting up of the age watches. -/
theorem watchesOf_lc (s : State) (d : DU) (l : LC) (p : Option SlotRec) (w : List (Station × Nat)) (n : ListName) :
    ({ s with du := d, lc := l, ps := { s.ps with slot := p }, pv := { s.pv with watches := w } } : State).watchesOf n
      = s.watchesOf n := by
  unfold State.watchesOf
  congr 1
  funext e
  obtain ⟨f, hf⟩ := entry_lc s d l p w (s.cs.set.resolve e.subject)
  dsimp only
  rw [hf]
  rfl

/-- A waiting transition whose list stays unmet, with its watches as the evaluation sets them, is left as it is. -/
theorem pollList_same (v : State) (r : SlotRec) (l : ListName) (h : v.ps.slot = some r) (hk : r.kind.list = some l)
    (hp : r.pendingSent = true) (hf : v.firstUnmet l ≠ none) (hw : v.pv.watches = v.watchesOf l) : v.pollList = v := by
  unfold State.pollList
  rw [h]; dsimp only
  split
  · rfl
  · rw [hk]; dsimp only
    unfold State.evaluateList
    split
    · rename_i e; exact absurd e hf
    · rw [← hw]
      unfold State.notePending
      have : (v.setPv { v.pv with watches := v.pv.watches }).ps.slot = some r := h
      rw [this]; simp [hp]; rfl

/-- The PENDING owed by a transition in a stage before WAIT_ISSUE (R11). -/
theorem notePending_owed (s : State) (r : SlotRec) (h : s.ps.slot = some r) (b : r.stage.beforeIssue = true)
    (p : r.pendingSent = false) :
    s.notePending = (s.setSlot { r with pendingSent := true }).reply r.requester .pending := by
  unfold State.notePending; simp [h, b, p]

/-- A transition whose list is unmet waits on it. -/
theorem toPrereq_waits (s u : State) (r : SlotRec) (l : ListName) (hk : r.kind.list = some l) (hd : r.deadline = none)
    (hp : r.pendingSent = false) (hf : u.firstUnmet l ≠ none)
    (hl : u.lc = s.lc) (hu : u.du = s.du) (hc : u.cs = s.cs) :
    WaitsOnList s u (s.publish (u.toPrereq r).notePending) r l := by
  let w : SlotRec := { r with stage := .waitPrereq, deadline := some u.cs.set.tPrereqWait }
  let v : State := { u with
    ps := { u.ps with slot := some { r with
      stage := .waitPrereq, deadline := some u.cs.set.tPrereqWait, pendingSent := true } }
    pv := { u.pv with watches := u.watchesOf l } }
  have f1 : (u.setSlot w).firstUnmet l = u.firstUnmet l := firstUnmet_lc u u.du u.lc (some w) u.pv.watches l
  have w1 : (u.setSlot w).watchesOf l = u.watchesOf l := watchesOf_lc u u.du u.lc (some w) u.pv.watches l
  have e1 : u.toPrereq r = (u.setSlot w).setPv { u.pv with watches := u.watchesOf l } := by
    unfold State.toPrereq; rw [hk]; dsimp only; rw [hd]
    change (u.setSlot w).evaluateList w l = _
    unfold State.evaluateList
    rw [f1]
    split
    · rename_i e; exact absurd e hf
    · rw [w1]; rfl
  have e2 : (u.toPrereq r).notePending = v.reply r.requester .pending := by
    rw [e1]
    exact (notePending_owed _ w rfl rfl hp).trans rfl
  rw [e2]
  have hp : s.publish (v.replyWith r.requester .pending 0) = s.noteChange (v.replyWith r.requester .pending 0) := by
    have : (v.replyWith r.requester .pending 0).pollList = v.replyWith r.requester .pending 0 := by
      have e3 := replyWith_eq v r.requester .pending 0
      generalize (v.replyWith r.requester .pending 0).du = d at e3
      generalize (v.replyWith r.requester .pending 0).lc = k at e3
      rw [e3]
      refine pollList_same _ _ l rfl hk rfl ?_ ?_
      · have := firstUnmet_lc u d k (some { r with
          stage := .waitPrereq, deadline := some u.cs.set.tPrereqWait, pendingSent := true }) (u.watchesOf l) l
        rw [← this] at hf; exact hf
      · exact (watchesOf_lc u d k (some { r with
          stage := .waitPrereq, deadline := some u.cs.set.tPrereqWait, pendingSent := true }) (u.watchesOf l) l).symm
    unfold State.publish; rw [this]; simp
  exact publish_answered s v r.requester .pending 0 hl hu hc hp
/-- A transition that reaches WAIT_ISSUE for a phase other than RUNNING has started. -/
theorem toIssue_started (s u : State) (r : SlotRec) (hr : r.target ≠ .running) (hp : r.pendingSent = false)
    (ht : u.sp.tripReq = false) (hq : u.sp.psReq = none) (ho : u.sp.outstanding = s.sp.outstanding)
    (hl : u.lc = s.lc) (hu : u.du = s.du) (hc : u.cs = s.cs) :
    Started s u (s.publish (u.toIssue r).notePending) { r with deadline := none } := by
  have hn : (u.toIssue r).notePending = u.toIssue r := by
    rw [toIssue_eq u r hr ht]
    split
    · exact notePending_past _ _ (slotIssued_slot _ _ rfl) rfl
    · exact notePending_past _ _ rfl rfl
  rw [hn, toIssue_eq u r hr ht, ho]
  unfold Started
  split
  · let v : State := { u with
      ps := { u.ps with slot := some { r with stage := .waitAck, deadline := none } }
      sp := u.sp.issued u.cs.set (.setPhase r.target .transition) }
    have e : State.slotIssued { u with
          ps := { u.ps with slot := some { r with stage := .waitIssue, deadline := none } }
          sp := { u.sp.issued u.cs.set (.setPhase r.target .transition) with psReq := none } }
        = v.reply r.requester .taken := by
      have hi : { u.sp.issued u.cs.set (.setPhase r.target .transition) with psReq := none }
          = u.sp.issued u.cs.set (.setPhase r.target .transition) := by
        unfold SP.issued; rw [hq]
      rw [hi]
      obtain ⟨a1, a2, a3, a4, a5, a6, a7, a8, a9, a10, a11⟩ := r
      dsimp only at hp; subst hp
      rfl
    rw [e]
    exact publish_replied s v r.requester .taken 0 hl hu hc rfl
  · exact publish_silent s { u with
      ps := { u.ps with slot := some { r with stage := .waitIssue, deadline := none } }
      sp := { u.sp with psReq := some (r.target, .transition) } } hl hc rfl

/-- A transition request at the empty slot enters it (R108). -/
theorem request_empty (s : State) (r : SlotRec) (h : s.ps.slot = none) : s.request r = s.enterSlot r := by
  unfold State.request; simp [h]

end Sys2Proof.Machine
end

