-- ==== Sys2Proof/Laws/Claims.lean ====
section
/-!
SUPPORT. The claim stage: what handing a transition's targets to the AU does.
-/

namespace Sys2Proof.Machine
/-- The state in which a transition has handed its claim targets to the AU (R8). -/
def State.claiming (s : State) (w : SlotRec) (f : Resource → Nat) : State :=
  ((s.setSlot w).setRaised fun x => some (f x)).refreshCells.judgeStanding

/-- The judgement of UNDER_STANDING leaves the cells. -/
theorem judgeStanding_cell (s : State) (x : Resource) : s.judgeStanding.cell x = s.cell x := by
  rcases judgeStanding_cases s with h | ⟨b, t, h⟩
  · rw [h]
  · rw [h]; rfl

/-- Its frame. -/
theorem claiming_eq (s : State) (w : SlotRec) (f : Resource → Nat) :
    s.claiming w f = { s with
      ps := { s.ps with slot := some w }
      au := (s.claiming w f).au
      lc := { s.lc with allot := (s.claiming w f).lc.allot } } := by
  unfold State.claiming
  rw [judgeStanding_au, refreshCells_eq]; rfl

/-- Each cell has taken its target change. -/
theorem claiming_cell (s : State) (w : SlotRec) (f : Resource → Nat) (x : Resource) :
    (s.claiming w f).cell x
      = Cell.refresh ⟨min 4000 (max (s.phaseTarget x) (f x)), s.allotBegun x, s.lc.line = .active⟩
          (s.tally x) (s.sumBefore x)
          ⟨{ s.au.res.get x with raised := some (min 4000 (f x)) }, s.lc.allot.get x⟩ := by
  unfold State.claiming
  rw [judgeStanding_cell, refreshCells_cell]
  have e1 : ((s.setSlot w).setRaised fun x => some (f x)).cell x
      = ⟨{ s.au.res.get x with raised := some (min 4000 (f x)) }, s.lc.allot.get x⟩ := by
    cases x <;> rfl
  have e2 : ((s.setSlot w).setRaised fun x => some (f x)).cellView x
      = ⟨min 4000 (max (s.phaseTarget x) (f x)), s.allotBegun x, s.lc.line = .active⟩ := by
    have : min 4000 (max (s.phaseTarget x) (min 4000 (f x))) = min 4000 (max (s.phaseTarget x) (f x)) := by omega
    rw [← this]
    cases x <;> rfl
  rw [e1, e2]
  have e3 : ((s.setSlot w).setRaised fun x => some (f x)).tally x = s.tally x
      ∧ ((s.setSlot w).setRaised fun x => some (f x)).sumBefore x = s.sumBefore x := by
    cases x <;> exact ⟨rfl, rfl⟩
  rw [e3.1, e3.2]

/-- UNDER_STANDING is judged with it. -/
theorem claiming_standing (s : State) (w : SlotRec) (f : Resource → Nat) : StandingJudged s (s.claiming w f) := by
  unfold State.claiming
  rw [judgeStanding_au, refreshCells_eq]
  exact ⟨rfl, rfl⟩

/-- An evaluation leaves the raised target. -/
@[simp] theorem Cell.evaluate_raised (v : CellView) (c : Cell) : (c.evaluate v).a.raised = c.a.raised := by
  unfold Cell.evaluate; repeat' split
  all_goals rfl

/-- A withdrawal leaves the raised target. -/
@[simp] theorem Cell.withdrawBelow_raised (v : CellView) (c : Cell) : (c.withdrawBelow v).a.raised = c.a.raised := by
  unfold Cell.withdrawBelow; split <;> rfl

/-- A change report leaves the raised target. -/
@[simp] theorem Cell.report_raised (v : CellView) (new : Tally) (before : Nat) (c : Cell) :
    (c.report v new before).a.raised = c.a.raised := by
  unfold Cell.report
  simp only [Cell.judgeRelease_a, Cell.evaluate_raised]
  unfold Cell.shed
  repeat' split
  all_goals rfl

/-- A target change leaves the raised target. -/
@[simp] theorem Cell.refresh_raised (v : CellView) (new : Tally) (before : Nat) (c : Cell) :
    (c.refresh v new before).a.raised = c.a.raised := by
  have h : (c.retarget v).a.raised = c.a.raised := by simp [Cell.retarget, Cell.capToTarget]
  unfold Cell.refresh Cell.ownReport
  repeat' split
  · exact h
  · exact h
  · rw [Cell.report_raised]; exact h

/-- A holding below its saturated raised target has not reached it (R74, R77). -/
theorem claiming_unreached (s : State) (w : SlotRec) (f : Resource → Nat) (x : Resource)
    (h : (s.au.res.get x).holding < min 4000 (f x)) : (s.claiming w f).claimReached = false := by
  have k : (s.claiming w f).au.res.get x = ((s.claiming w f).cell x).a := rfl
  unfold State.claimReached
  rw [List.all_eq_false]
  refine ⟨x, Resource.mem_all x, ?_⟩
  rw [k, claiming_cell, Cell.refresh_raised]
  simp only [Option.getD_some, decide_eq_true_eq, not_le]
  refine lt_of_le_of_lt (Cell.refresh_holding_le _ _ _ _) (lt_of_le_of_lt (min_le_left _ _) h)

/-- Claims that are held are reached (R77). -/
theorem claiming_reached (s : State) (w : SlotRec) (f : Resource → Nat)
    (h : s.ClaimsHeld f) : (s.claiming w f).claimReached = true := by
  unfold State.claimReached
  rw [List.all_eq_true]
  intro x _
  have k : (s.claiming w f).au.res.get x = ((s.claiming w f).cell x).a := rfl
  obtain ⟨h1, h2⟩ := h x
  rw [k, claiming_cell, Cell.refresh_raised]
  simp only [Option.getD_some, decide_eq_true_eq]
  refine Cell.le_refresh_holding _ _ _ _ _ ((min_le_right _ _).trans h1) ?_ ?_
  · simp only [le_min_iff, min_le_left, true_and]
    exact (min_le_right _ _).trans (le_max_right _ _)
  · rcases h2 with h2 | h2 | h2
    · exact .inl h2
    · exact .inr (.inl (by rw [h2]; rfl))
    · exact .inr (.inr ((Nat.add_le_add_left (min_le_right _ _) _).trans h2))

/-- A transition whose list is met at its first evaluation leaves stage 2 at once (R7). -/
theorem toPrereq_met (u : State) (r w : SlotRec) (l : ListName) (hk : r.kind.list = some l) (hd : r.deadline = none)
   (hw : w = { r with stage := .waitPrereq, deadline := some u.cs.set.tPrereqWait }) (hf : u.firstUnmet l = none) :
   u.toPrereq r = (u.setSlot w).unwatched.toClaim w := by
  unfold State.toPrereq; rw [hk]; dsimp only; rw [hd, ← hw]
  unfold State.evaluateList
  have f1 : (u.setSlot w).firstUnmet l = u.firstUnmet l := firstUnmet_lc u u.du u.lc (some w) u.pv.watches l
  rw [f1, hf]; rfl

/-- A transition that reaches stage 3 with a claim still to make waits in WAIT_CLAIM (R8). -/
theorem toClaim_waits (s u : State) (r w : SlotRec) (f : Resource → Nat) (d : Option Nat)
    (hw : w = { r with stage := .waitPrereq, deadline := d })
    (hf : w.claimTargets u.cs.set = some f) (hx : ∃ x, (u.au.res.get x).holding < min 4000 (f x)) (hp : r.pendingSent = false)
    (hl : u.lc = { s.lc with allot := u.lc.allot }) (hu : u.du = s.du) (hc : u.cs = s.cs) :
    WaitsOnClaims s u (s.publish ((u.setSlot w).unwatched.toClaim w).notePending) r f := by
  let v : SlotRec := { r with stage := .waitClaim, deadline := some u.cs.set.tClaimWait }
  set u1 := (u.setSlot w).unwatched with hu1
  have e1 : u1.toClaim w = u1.claiming v f := by
    unfold State.toClaim
    have : w.claimTargets u1.cs.set = some f := hf
    rw [this]
    have hv : { w with stage := .waitClaim, deadline := some u1.cs.set.tClaimWait } = v := by rw [hw]; rfl
    dsimp only; rw [hv]
    change (if (u1.claiming v f).claimReached = true then _ else u1.claiming v f) = _
    obtain ⟨x, hx⟩ := hx
    rw [if_neg (by rw [claiming_unreached u1 v f x hx]; simp)]
  let z : State := (u1.claiming v f).setSlot { v with pendingSent := true }
  have e2 : (u1.claiming v f).notePending = z.reply r.requester .pending := by
    have : (u1.claiming v f).ps.slot = some v := by rw [claiming_eq]
    exact (notePending_owed _ v this rfl hp).trans rfl
  rw [e1, e2]
  have hw : z.atStage .waitPrereq = false := rfl
  have hpub := publish_calm s (z.reply r.requester .pending) (.inl (by unfold State.reply; rw [replyWith_atStage]; exact hw))
  obtain ⟨h1, h2, h3, h4⟩ := publish_reply s z r.requester .pending 0 hpub
  replace h1 : s.publish (z.reply r.requester .pending) = (z.setDu (s.publish (z.reply r.requester .pending)).du).setLc (s.publish (z.reply r.requester .pending)).lc := h1
  replace h2 : Delivered z.du z.lc (s.publish (z.reply r.requester .pending)).du (s.publish (z.reply r.requester .pending)).lc r.requester .pending 0 := h2
  replace h3 : LineKept z.lc (s.publish (z.reply r.requester .pending)).lc := h3
  replace h4 : (s.publish (z.reply r.requester .pending)).lc.shortDue = (z.lc.shortDue || (z.cs.locked && s.shortCalled (s.publish (z.reply r.requester .pending)))) := h4
  generalize s.publish (z.reply r.requester .pending) = t at h1 h2 h3 h4
  have hz := claiming_eq u1 v f
  have zlc : z.lc = { s.lc with allot := (u1.claiming v f).lc.allot } := by
    have : z.lc = (u1.claiming v f).lc := rfl
    have e := congrArg (fun l : LC => ({ l with allot := (u1.claiming v f).lc.allot } : LC)) hl
    rw [this, hz]; exact e
  have zdu : z.du = s.du := by
    have : z.du = (u1.claiming v f).du := rfl
    rw [this, hz]; exact hu
  have ta : t.au = (u1.claiming v f).au := by rw [h1]; rfl
  have tl : t.lc.allot = (u1.claiming v f).lc.allot := by
    rw [h3.1, zlc]
  refine ⟨?_, ⟨?_, ?_⟩, ?_, ?_, ?_⟩
  · refine h1.trans ?_
    rw [ta]
    generalize t.du = td; generalize t.lc = tl
    change ((((u1.claiming v f).setSlot { v with pendingSent := true }).setDu td).setLc tl) = _
    rw [hz]; rfl
  · intro x
    have : t.cell x = (u1.claiming v f).cell x := by unfold State.cell; rw [ta, tl]
    rw [this, claiming_cell]; rfl
  · have hs := claiming_standing u1 v f
    refine ⟨?_, ?_⟩
    · rw [ta, hs.1, h1]; rfl
    · rw [ta, hs.2]; rfl
  · rw [zdu, zlc] at h2
    exact h2
  · rw [zlc] at h3
    exact ⟨by rw [tl]; exact h3.1, h3.2⟩
  · unfold ShortMarked
    rw [h4, zlc]
    have : z.cs = s.cs := by
      have : z.cs = (u1.claiming v f).cs := rfl
      rw [this, hz]; exact hc
    rw [this]

/-- A transition that reaches stage 3 with its claims held goes on to its SET_PHASE (R8, R77). -/
theorem toClaim_starts (s u : State) (r w : SlotRec) (f : Resource → Nat) (d : Option Nat)
    (hw : w = { r with stage := .waitPrereq, deadline := d })
    (hf : w.claimTargets u.cs.set = some f) (hx : u.ClaimsHeld f) (hp : r.pendingSent = false)
    (hr : r.deadline = none)
    (ht : u.sp.tripReq = false) (hq : u.sp.psReq = none) (hq2 : u.sp.pairReq = none) (ho : u.sp.outstanding = s.sp.outstanding)
    (hpt : ∀ k, r.kind.point = some k → (u.cs.set.points.get k).mode = .none)
    (hl : u.lc = s.lc) (hu : u.du = s.du) (hc : u.cs = s.cs) :
    StartedOnClaims s u (s.publish ((u.setSlot w).unwatched.toClaim w).notePending) r f := by
  subst hw
  let w : SlotRec := { r with stage := .waitPrereq, deadline := d }
  let v : SlotRec := { r with stage := .waitClaim, deadline := some u.cs.set.tClaimWait }
  let v1 : SlotRec := { v with claimReached := true, handoff := .notNeeded }
  change StartedOnClaims s u (s.publish ((u.setSlot w).unwatched.toClaim w).notePending) r f
  set u1 := (u.setSlot w).unwatched with hu1
  have e1 : u1.toClaim w = (u1.claiming v f).toIssue v1 := by
    unfold State.toClaim
    have : w.claimTargets u1.cs.set = some f := hf
    rw [this]
    dsimp only
    change (if (u1.claiming v f).claimReached = true then (u1.claiming v f).toHandoff { v with claimReached := true } else u1.claiming v f) = _
    rw [if_pos]
    · unfold State.toHandoff
      cases hk : r.kind.point with
      | none => rfl
      | some k =>
        have hcs : (u1.claiming v f).cs = u.cs := by rw [claiming_eq]; rfl
        have m : ((u1.claiming v f).cs.set.points.get k).mode = .none := by rw [hcs]; exact hpt k hk
        simp [m, State.takePoint, State.waitOf, v1]
    · exact claiming_reached u1 v f hx
  have hz := claiming_eq u1 v f
  set c := u1.claiming v f with hcdef
  have csp : c.sp = u.sp := by rw [hz]; rfl
  have ccs : c.cs = u.cs := by rw [hz]; rfl
  have cdu : c.du = s.du := by rw [hz]; exact hu
  have clc : c.lc = { s.lc with allot := c.lc.allot } := by
    have : c.lc = { u1.lc with allot := c.lc.allot } := congrArg State.lc hz
    rw [this]; exact congrArg (fun l : LC => ({ l with allot := c.lc.allot } : LC)) hl
  have e2 : c.toIssue v1 = _ := toIssue_any c v1 (by rw [csp]; exact ht) (by rw [csp]; exact hq) (by rw [csp]; exact hq2)
  have e3 : (c.toIssue v1).notePending = c.toIssue v1 := by
    rw [e2]
    split
    · exact notePending_past _ _ (slotIssued_slot _ _ rfl) rfl
    · exact notePending_past _ _ rfl rfl
  have b1 : c.sp.begun c.cs.set v1 = u.sp.begun u.cs.set v1 := by rw [csp, ccs]
  have b2 : c.sp.asked c.cs.set v1 = u.sp.asked u.cs.set v1 := by rw [csp, ccs]
  have b3 : c.sp.outstanding = s.sp.outstanding := by rw [csp, ho]
  rw [e1, e3, e2, b1, b2, b3]
  unfold StartedOnClaims
  have fin : ∀ t : State, t.au = c.au → t.lc.allot = c.lc.allot → t.ps.phase = c.ps.phase → t.cs = c.cs → TargetsRaised u t f := by
    intro t ta tl tp tc
    refine ⟨?_, ?_⟩
    · intro x
      have : t.cell x = c.cell x := by unfold State.cell; rw [ta, tl]
      rw [this, hcdef, claiming_cell]; rfl
    · have hs := claiming_standing u1 v f
      have hb : t.belowStanding = c.belowStanding := by
        unfold State.belowStanding State.required; rw [ta, tp, tc]
      refine ⟨?_, ?_⟩
      · rw [ta, hb]; exact hs.1
      · rw [ta]; exact hs.2
  have hb : v1.target = r.target := rfl
  by_cases hout : s.sp.outstanding = []
  · simp only [if_pos hout]
    let z : State := { c with
      ps := { c.ps with slot := some { v1 with stage := .waitAck, deadline := none } }
      sp := u.sp.begun u.cs.set v1 }
    have e4 : State.slotIssued { c with
          ps := { c.ps with slot := some { v1 with stage := .waitIssue, deadline := none } }
          sp := u.sp.begun u.cs.set v1 } = z.reply r.requester .taken := by
      unfold State.slotIssued
      dsimp only
      rw [if_neg (by simp [v1, v, hp])]
      rfl
    rw [e4]
    have hpub := publish_calm s (z.reply r.requester .taken) (.inl (by unfold State.reply; rw [replyWith_atStage]; rfl))
    obtain ⟨h1, h2, h3, h4⟩ := publish_reply s z r.requester .taken 0 hpub
    replace h1 : s.publish (z.reply r.requester .taken) = (z.setDu (s.publish (z.reply r.requester .taken)).du).setLc (s.publish (z.reply r.requester .taken)).lc := h1
    replace h2 : Delivered z.du z.lc (s.publish (z.reply r.requester .taken)).du (s.publish (z.reply r.requester .taken)).lc r.requester .taken 0 := h2
    replace h3 : LineKept z.lc (s.publish (z.reply r.requester .taken)).lc := h3
    replace h4 : (s.publish (z.reply r.requester .taken)).lc.shortDue = (z.lc.shortDue || (z.cs.locked && s.shortCalled (s.publish (z.reply r.requester .taken)))) := h4
    generalize s.publish (z.reply r.requester .taken) = t at h1 h2 h3 h4
    have zlc : z.lc = { s.lc with allot := c.lc.allot } := clc
    have ta : t.au = c.au := by rw [h1]; rfl
    have tl : t.lc.allot = c.lc.allot := by rw [h3.1, zlc]
    refine ⟨?_, fin t ta tl (by rw [h1]; rfl) (by rw [h1]; rfl), ?_, ?_, ?_⟩
    · refine h1.trans ?_
      rw [ta]
      generalize t.du = td; generalize t.lc = tl
      change ((({ c with
      ps := { c.ps with slot := some { v1 with stage := .waitAck, deadline := none } }
      sp := u.sp.begun u.cs.set v1 } : State).setDu td).setLc tl) = _
      have : u.sp.begun u.cs.set v1 = u.sp.begun u.cs.set r := rfl
      rw [this]
      generalize u.sp.begun u.cs.set r = sp'
      rw [hz]
      simp only [v1, v, hr]
      rfl
    · rw [zlc] at h3; exact ⟨by rw [tl]; exact h3.1, h3.2⟩
    · unfold ShortMarked
      rw [h4, zlc]
      have : z.cs = s.cs := by rw [← hc]; exact ccs
      rw [this]
    · rw [zlc] at h2
      have : z.du = s.du := cdu
      rw [this] at h2
      exact h2
  · simp only [if_neg hout]
    let z : State := { c with
      ps := { c.ps with slot := some { v1 with stage := .waitIssue, deadline := none } }
      sp := u.sp.asked u.cs.set v1 }
    change _ = _ ∧ _
    have hpub := publish_eq s z rfl
    obtain ⟨n1, n2, n3, n4⟩ := noteChange_eq s z
    rw [← hpub] at n1 n2 n3 n4
    replace n1 : s.publish z = z.setLc (s.publish z).lc := n1
    generalize s.publish z = t at n1 n2 n3 n4
    have zlc : z.lc = { s.lc with allot := c.lc.allot } := clc
    have ta : t.au = c.au := by rw [n1]; rfl
    have tl : t.lc.allot = c.lc.allot := by rw [n2.1, zlc]
    refine ⟨?_, fin t ta tl (by rw [n1]; rfl) (by rw [n1]; rfl), ?_, ?_, ?_, ?_⟩
    · refine n1.trans ?_
      have td : t.du = c.du := by rw [n1]; rfl
      rw [ta, td]
      generalize t.lc = tl
      change (({ c with
      ps := { c.ps with slot := some { v1 with stage := .waitIssue, deadline := none } }
      sp := u.sp.asked u.cs.set v1 } : State).setLc tl) = _
      have : u.sp.asked u.cs.set v1 = u.sp.asked u.cs.set r := rfl
      rw [this]
      generalize u.sp.asked u.cs.set r = sp'
      rw [hz]
      simp only [v1, v, hr]
      rfl
    · rw [zlc] at n2; exact ⟨by rw [tl]; exact n2.1, n2.2⟩
    · unfold ShortMarked
      rw [n4, zlc]
      have : z.cs = s.cs := by rw [← hc]; exact ccs
      rw [this]
    · rw [n1]; exact cdu
    · rw [zlc] at n3; exact n3

end Sys2Proof.Machine
end

