-- ==== Sys2Proof/Laws/PhaseChange.lean ====
section
/-!
SUPPORT. A phase change seen from outside: the frame of its change reports, and each cell after it.
-/

namespace Sys2Proof.Machine

/-- The work of a change report on one resource, where a predicate names it. -/
def State.reported (s : State) (named : Resource → Bool) (r : Resource) : Cell :=
  if named r then
    if s.allotBegun r then { s.cell r with a := { (s.cell r).a with heldReport := true } }
    else (s.cell r).report (s.cellView r) (s.tally r) (s.sumBefore r)
  else s.cell r

/-- The cell of a resource put back. -/
theorem setCell_self (s : State) (r : Resource) : s.setCell r (s.cell r) = s := by cases r <;> rfl

theorem reportIf_eq (s : State) (named : Resource → Bool) (r : Resource) :
    (if named r = true then s.reportCell r else s) = s.setCell r (s.reported named r) := by
  unfold State.reported State.reportCell
  split
  · dsimp only; split <;> rfl
  · exact (setCell_self s r).symm

/-- Change reports replace the cell of each resource named, each read before any is written. -/
theorem reportCells_eq (s : State) (named : Resource → Bool) :
    s.reportCells named = s.setCells (s.reported named) := by
  unfold State.reportCells
  rw [List.foldl_filter]
  have e : (fun (x : State) (y : Resource) => if named y = true then x.reportCell y else x)
      = fun x y => x.setCell y (x.reported named y) := by funext x y; exact reportIf_eq x named y
  rw [e]
  change (((s.setCell .steam (s.reported named .steam)).setCell .power _).setCell .lime _).setCell .water _ = _
  dsimp only
  generalize h0 : s.reported named .steam = c0
  have e1 : (s.setCell .steam c0).reported named .power = s.reported named .power := rfl
  rw [e1]
  generalize h1 : s.reported named .power = c1
  have e2 : ((s.setCell .steam c0).setCell .power c1).reported named .lime = s.reported named .lime := rfl
  rw [e2]
  generalize h2 : s.reported named .lime = c2
  have e3 : (((s.setCell .steam c0).setCell .power c1).setCell .lime c2).reported named .water
      = s.reported named .water := rfl
  rw [e3]
  generalize h3 : s.reported named .water = c3
  have : s.reported named = fun r => (⟨c0, c1, c2, c3⟩ : PerRes Cell).get r := by
    funext r; cases r <;> assumption
  rw [this]; rfl

/-- The state between the writing of the phase and the change reports. -/
def State.settled (s : State) (p : Phase) (e : EntryInfo) : State := (s.enterPhase p e).refreshCells

/-- A phase change writes the blocks' own parts, then the AU and its slots alone. -/
theorem entered_eq (s : State) (p : Phase) (e : EntryInfo) :
    s.entered p e = { s.enterPhase p e with
      au := (s.entered p e).au
      lc := { (s.enterPhase p e).lc with allot := (s.entered p e).lc.allot } } := by
  unfold State.entered
  dsimp only
  rw [judgeStanding_au, reportCells_eq, refreshCells_eq]
  generalize s.enterPhase p e = m
  generalize m.refreshed = f
  generalize (m.setCells f).reported _ = g
  rfl

/-- So does the whole of it, with the causes that it overtakes. -/
theorem changePhase_eq (s : State) (p : Phase) (e : EntryInfo) :
    s.changePhase p e = { s.enterPhase p e with
      tr := { (s.enterPhase p e).tr with raised := (s.changePhase p e).tr.raised }
      au := (s.changePhase p e).au
      lc := { (s.enterPhase p e).lc with allot := (s.changePhase p e).lc.allot } } := by
  have h := entered_eq s p e
  have k : s.changePhase p e
      = { s.entered p e with tr := { (s.entered p e).tr with raised := (s.changePhase p e).tr.raised } } := rfl
  have a : (s.changePhase p e).au = (s.entered p e).au ∧ (s.changePhase p e).lc = (s.entered p e).lc := ⟨rfl, rfl⟩
  rw [a.1, a.2]
  refine k.trans ?_
  generalize (s.changePhase p e).tr.raised = q
  conv => lhs; rw [h]

/-- Each cell after a phase change. -/
theorem changePhase_cell (s : State) (p : Phase) (e : EntryInfo) (r : Resource) :
    (s.changePhase p e).cell r
      = (s.settled p e).reported (fun r => (s.settled p e).publishedCapacity r ≠ s.publishedCapacity r) r := by
  change (s.entered p e).cell r = _
  unfold State.entered
  dsimp only
  rw [judgeStanding_cell, reportCells_eq, setCells_cell]
  rfl

/-- UNDER_STANDING is judged at a phase change. -/
theorem changePhase_standing (s : State) (p : Phase) (e : EntryInfo) :
    (s.changePhase p e).au.underStanding = (s.changePhase p e).belowStanding
      ∧ (s.changePhase p e).au.underTimer = if (s.changePhase p e).au.underStanding then
          (if s.au.underStanding then s.au.underTimer else some s.cs.set.tClaimWait) else none := by
  have c : (s.settled p e).cs = s.cs ∧ (s.settled p e).au.underStanding = s.au.underStanding
      ∧ (s.settled p e).au.underTimer = s.au.underTimer := by
    unfold State.settled
    rw [refreshCells_eq]
    generalize (s.enterPhase p e).refreshed = f
    unfold State.enterPhase State.markShort State.markLong
    dsimp only; repeat' split
    all_goals exact ⟨rfl, rfl, rfl⟩
  obtain ⟨c1, c2, c3⟩ := c
  change (s.entered p e).au.underStanding = (s.entered p e).belowStanding
    ∧ (s.entered p e).au.underTimer = if (s.entered p e).au.underStanding then _ else none
  have k : s.entered p e = ((s.settled p e).reportCells fun r =>
      decide ((s.settled p e).publishedCapacity r ≠ s.publishedCapacity r)).judgeStanding := rfl
  rw [k, judgeStanding_au, reportCells_eq]
  generalize (s.settled p e).reported _ = g
  generalize s.settled p e = m at c1 c2 c3 ⊢
  refine ⟨rfl, ?_⟩
  simp only [State.setAu, State.setCells, c1, c2, c3]

/-- The marks of a phase change (R2, R173, R174). -/
theorem enterPhase_lc (s : State) (p : Phase) (e : EntryInfo) :
    (s.enterPhase p e).lc = if s.cs.locked then s.lc.markLong.markShort else s.lc := by
  unfold State.enterPhase State.markShort State.markLong
  dsimp only
  cases h : s.cs.locked
  · simp [h]
  · simp [h]

/-- The blocks' own parts at a phase change. -/
theorem enterPhase_eq (s : State) (p : Phase) (e : EntryInfo) :
    s.enterPhase p e = { s with
      ps := s.ps.enter s.cs.set s.now p e
      tu := s.tu.enter s.cs.set s.ps.phase p e
      sp := s.sp.enter s.cs.set s.ps.phase p
      lc := (s.enterPhase p e).lc } := by
  unfold State.enterPhase State.markShort State.markLong
  dsimp only; repeat' split
  all_goals rfl

end Sys2Proof.Machine
end

