-- ==== Sys2Proof/Laws/Removals.lean ====
section
/-!
SUPPORT. The removal of a transition before its SET_PHASE issued: its clean-ups, its replies, and the slot that stays
empty when no internal request arises.
-/

namespace Sys2Proof.Machine

/-- The state in which a transition has left the slot and its raised targets are withdrawn (R12). -/
def State.withdrawing (s : State) : State :=
  (((s.setPs { s.ps with slot := none }).setPv { s.pv with watches := [] }).setRaised
    fun _ => none).refreshCells.judgeStanding

theorem withdrawing_eq (s : State) :
    s.withdrawing = { s with
      ps := { s.ps with slot := none }
      pv := { s.pv with watches := [] }
      au := s.withdrawing.au
      lc := { s.lc with allot := s.withdrawing.lc.allot } } := by
  unfold State.withdrawing
  rw [judgeStanding_au, refreshCells_eq]; rfl

/-- Each cell has taken its target change. -/
theorem withdrawing_cell (s : State) (x : Resource) :
    s.withdrawing.cell x
      = Cell.refresh ⟨min 4000 (s.phaseTarget x), s.allotBegun x, s.lc.line = .active⟩
          (s.tally x) (s.sumBefore x) ⟨{ s.au.res.get x with raised := none }, s.lc.allot.get x⟩ := by
  unfold State.withdrawing
  rw [judgeStanding_cell, refreshCells_cell]
  have e1 : (((s.setPs { s.ps with slot := none }).setPv { s.pv with watches := [] }).setRaised fun _ => none).cell x
      = ⟨{ s.au.res.get x with raised := none }, s.lc.allot.get x⟩ := by cases x <;> rfl
  have e2 : (((s.setPs { s.ps with slot := none }).setPv { s.pv with watches := [] }).setRaised
      fun _ => none).cellView x = ⟨min 4000 (max (s.phaseTarget x) 0), s.allotBegun x, s.lc.line = .active⟩ := by
    cases x <;> rfl
  have e3 : (((s.setPs { s.ps with slot := none }).setPv { s.pv with watches := [] }).setRaised
        fun _ => none).tally x = s.tally x
      ∧ (((s.setPs { s.ps with slot := none }).setPv { s.pv with watches := [] }).setRaised
        fun _ => none).sumBefore x = s.sumBefore x := by
    cases x <;> exact ⟨rfl, rfl⟩
  rw [e1, e2, e3.1, e3.2, Nat.max_zero]

/-- UNDER_STANDING is judged with it. -/
theorem withdrawing_standing (s : State) : StandingJudged s s.withdrawing := by
  unfold State.withdrawing
  rw [judgeStanding_au, refreshCells_eq]
  exact ⟨rfl, rfl⟩

/-- With no SET_PHASE waiting a removal is these clean-ups. -/
theorem removeTransition_eq (s : State) (h : s.sp.NoPhaseWaits) : s.removeTransition = s.withdrawing := by
  change s.withdrawing.withdrawPhase = _
  unfold State.withdrawPhase
  have e : s.withdrawing.sp = s.sp := by rw [withdrawing_eq]
  rw [e, h.1, h.2]; rfl

/-- The phase target under rate control covers the standing requirement (R75). -/
theorem phaseTarget_standing (s : State) (x : Resource) (h : s.ps.phase.underRate = true) :
    s.cs.set.standing.get x ≤ s.phaseTarget x := by
  unfold State.phaseTarget
  cases e : s.ps.phase <;> simp [e, Phase.underRate] at h <;> simp

/-- Holdings that cover their standing requirement cover it after a target change under rate control (R75, R89). -/
theorem refreshCells_covers (s : State) (hr : s.ps.phase.underRate = true) (h : s.standsCovered) :
    s.refreshCells.belowStanding = false := by
  unfold State.belowStanding
  rw [List.any_eq_false]
  intro x _
  have e : (s.refreshCells.au.res.get x).holding = (s.refreshCells.cell x).a.holding := rfl
  obtain ⟨a, b, w⟩ := h x
  have d : s.refreshCells.required x ≤ s.cs.set.standing.get x := by
    unfold State.required; rw [refreshCells_eq]; split
    · exact le_refl _
    · exact Nat.zero_le _
  simp only [decide_eq_true_eq, not_lt]
  rw [e, refreshCells_cell]
  refine d.trans (Cell.le_refresh_holding _ _ _ _ _ a ?_ (.inr w))
  have c := phaseTarget_standing s x hr
  change _ ≤ min 4000 (max (s.phaseTarget x) _)
  omega

/-- No auto-hold condition arises from a removal. -/
theorem withdrawing_calm (s : State) (h : s.noneArises) : s.withdrawing.autoHoldStands = false := by
  obtain ⟨_, h2, h3⟩ := h
  have u : s.withdrawing.ps.phase = s.ps.phase ∧ s.withdrawing.tu = s.tu ∧ s.withdrawing.lc.line = s.lc.line := by
    rw [withdrawing_eq]; exact ⟨rfl, rfl, rfl⟩
  obtain ⟨u1, u2, u3⟩ := u
  unfold State.autoHoldStands at h2 ⊢
  rw [u1, u2, u3]
  by_cases hr : s.ps.phase.underRate = true
  · have hs : s.withdrawing.au.underStanding = false := by
      unfold State.withdrawing
      rw [judgeStanding_au]
      exact refreshCells_covers _ hr fun x => by
        obtain ⟨a, b, w⟩ := h3 hr x
        cases x <;> exact ⟨a, b, w⟩
    rw [hs]
    simp only [hr, Bool.true_and, Bool.or_eq_false_iff] at h2 ⊢
    tauto
  · simp only [Bool.not_eq_true] at hr
    rw [hr] at h2 ⊢
    simpa using h2

/-- An empty slot stays empty when no request waits or arises. -/
theorem reexamine_none (s : State) (h1 : s.ps.slot = none) (h2 : s.ps.waiting = ⟨false, false, false, false⟩)
    (h3 : s.autoHoldStands = false) : s.reexamine = s := by
  unfold State.reexamine
  split
  · rfl
  · simp only [h1, Option.isSome_none, Bool.false_eq_true, if_false]
    unfold State.giveSlot State.forcedValid State.closeDrainValid State.autoResumeValid
    simp only [h2, h3, Bool.false_and, Bool.false_eq_true, if_false]
    unfold State.setWaiting
    rw [← h2]; rfl

/-- The slot and what an auto hold reads are the same in two states. -/
theorem reexamine_removed (s : State) (d : DU) (l : LC) (q : Requester) (h : s.noneArises)
    (hl : l.line = s.lc.line) :
    (({ s.withdrawing with du := d, lc := l, tu := s.tu.recount q } : State)).reexamine
      = { s.withdrawing with du := d, lc := l, tu := s.tu.recount q } := by
  have e := withdrawing_eq s
  have c := withdrawing_calm s h
  have u : s.withdrawing.ps.slot = none ∧ s.withdrawing.ps.waiting = s.ps.waiting
      ∧ s.withdrawing.lc.line = s.lc.line ∧ s.withdrawing.tu = s.tu := by rw [e]; exact ⟨rfl, rfl, rfl, rfl⟩
  apply reexamine_none
  · exact u.1
  · exact u.2.1.trans h.1
  · unfold State.autoHoldStands at c ⊢
    dsimp only
    rw [hl, ← u.2.2.1, ← u.2.2.2]
    have r : ∀ t : TU, (t.recount q).starveExpired = t.starveExpired ∧ (t.recount q).starved = t.starved
        ∧ (t.recount q).blockExpired = t.blockExpired ∧ (t.recount q).blocked = t.blocked := by
      intro t; unfold TU.recount; split <;> exact ⟨rfl, rfl, rfl, rfl⟩
    obtain ⟨r1, r2, r3, r4⟩ := r s.withdrawing.tu
    rw [r1, r2, r3, r4]
    exact c

/-- What a removal followed by one or two replies leaves, once published. -/
theorem publish_removed (s u v : State) (q : Requester) (hl : u.lc = s.lc) (hc : u.cs = s.cs)
    (hv : v = { u.withdrawing with du := v.du, lc := v.lc, tu := u.tu.recount q })
    (hk : LineKept u.withdrawing.lc v.lc) (hs : v.lc.shortDue = u.lc.shortDue) :
    Removed s u (s.publish v) q ∧ (s.publish v).du = v.du
      ∧ (s.publish v).lc.fifo = v.lc.fifo ∧ (s.publish v).lc.replyOverflow = v.lc.replyOverflow := by
  have e := withdrawing_eq u
  have ws : v.ps.slot = none := by rw [hv, e]
  have p : s.publish v = s.noteChange v := publish_eq s v (by simp [State.atStage, ws])
  obtain ⟨n1, n2, n3, n4⟩ := noteChange_eq s v
  rw [p]
  have al : (s.noteChange v).lc.allot = v.lc.allot := by rw [n2.1]
  have ala : v.lc.allot = u.withdrawing.lc.allot := by rw [hk.1]
  have nau : (s.noteChange v).au = v.au := by rw [n1]; rfl
  have vau : v.au = u.withdrawing.au := by rw [hv]
  refine ⟨⟨?_, ⟨?_, ?_⟩, ?_, ?_⟩, ?_, n3.1, n3.2⟩
  · refine n1.trans ?_
    rw [nau, vau]
    have : (s.noteChange v).du = v.du := by rw [n1]; rfl
    rw [this]
    generalize (s.noteChange v).lc = l
    rw [hv, e]; rfl
  · intro x
    have : (s.noteChange v).cell x = u.withdrawing.cell x := by
      unfold State.cell; rw [nau, al, vau, ala]
    rw [this, withdrawing_cell]
  · obtain ⟨j1, j2⟩ := withdrawing_standing u
    unfold StandingJudged
    rw [nau, vau]
    refine ⟨j1.trans ?_, j2⟩
    unfold State.belowStanding State.required
    rw [nau, vau]
    have : (s.noteChange v).ps = u.withdrawing.ps ∧ (s.noteChange v).cs = u.withdrawing.cs := by
      rw [n1]; exact ⟨by rw [hv]; rfl, by rw [hv]; rfl⟩
    rw [this.1, this.2]
  · have k : LineKept u.withdrawing.lc (s.noteChange v).lc := hk.trans n2
    have wl : u.withdrawing.lc = { s.lc with allot := u.withdrawing.lc.allot } := by rw [← hl]; rw [e]
    refine ⟨?_, ?_⟩
    · have k1 := k.1
      generalize (s.noteChange v).lc = l at k1 ⊢
      rw [wl] at k1
      rw [k1]
    · rw [k.2, wl]
  · unfold ShortMarked
    rw [n4, hs, hl]
    have : v.cs = s.cs := by rw [hv, ← hc]; rw [e]
    rw [this]
  · rw [n1]; rfl

/-- The requester is told, and the good expiries of an auto resume counted afresh. -/
theorem withdrawn_reply (u : State) (q : Requester) (o : Reply) (d : Byte) :
    (u.withdrawing.replyWith q o d).setTu ((u.withdrawing.replyWith q o d).tu.recount q)
      = { u.withdrawing with
          du := (u.withdrawing.replyWith q o d).du, lc := (u.withdrawing.replyWith q o d).lc
          tu := u.tu.recount q } := by
  have e : (u.withdrawing.replyWith q o d).tu = u.tu := by
    have h : u.withdrawing.tu = u.tu := by rw [withdrawing_eq]
    rw [replyWith_eq]; exact h
  rw [e]
  conv => lhs; rw [replyWith_eq]
  rfl

/-- A refusal of the slot's transition: removed, its requester told, the slot empty. -/
theorem refuseTransition_eq (u : State) (r : SlotRec) (c : RefusalCode) (d : Byte) (hn : u.sp.NoPhaseWaits)
    (h : u.noneArises) :
    u.refuseTransition r c d
      = { u.withdrawing with
          du := (u.withdrawing.replyWith r.requester (.refused c) d).du
          lc := (u.withdrawing.replyWith r.requester (.refused c) d).lc
          tu := u.tu.recount r.requester } := by
  unfold State.refuseTransition
  rw [removeTransition_eq u hn]
  have e := withdrawn_reply u r.requester (.refused c) d
  have f : (if r.requester = .autoResume then
      (u.withdrawing.replyWith r.requester (.refused c) d).setTu
        { (u.withdrawing.replyWith r.requester (.refused c) d).tu with good := 0 }
      else u.withdrawing.replyWith r.requester (.refused c) d)
      = (u.withdrawing.replyWith r.requester (.refused c) d).setTu
        ((u.withdrawing.replyWith r.requester (.refused c) d).tu.recount r.requester) := by
    unfold TU.recount; split <;> rfl
  dsimp only
  rw [f, e]
  refine reexamine_removed u _ _ _ h ?_
  have k := (replyWith_line u.withdrawing r.requester (.refused c) d).1.1
  rw [k, withdrawing_eq]

/-- The line controller and the directive unit of a removal's start. -/
theorem withdrawing_du (u : State) : u.withdrawing.du = u.du := by rw [withdrawing_eq]

theorem withdrawing_fifo (u : State) :
    u.withdrawing.lc.fifo = u.lc.fifo ∧ u.withdrawing.lc.replyOverflow = u.lc.replyOverflow
      ∧ u.withdrawing.lc.shortDue = u.lc.shortDue := by rw [withdrawing_eq]; exact ⟨rfl, rfl, rfl⟩

/-- A delivery reads of the line controller only its FIFO and REPLY_OVERFLOW. -/
theorem Delivered.congr {d d' e e' : DU} {l l' m m' : LC} {q : Requester} {o : Reply} {x : Byte}
    (h : Delivered d l d' l' q o x) (hd : e = d) (hd' : e' = d') (h1 : m.fifo = l.fifo)
    (h2 : m.replyOverflow = l.replyOverflow) (h3 : m'.fifo = l'.fifo) (h4 : m'.replyOverflow = l'.replyOverflow) :
    Delivered e m e' m' q o x := by
  subst hd hd'
  cases q <;> simp only [Delivered, Placed, NothingPlaced, h1, h2, h3, h4] at h ⊢ <;> exact h

/-- A refused transition, published. -/
theorem publish_refusedAway (s u : State) (r : SlotRec) (c : RefusalCode) (d : Byte) (hn : u.sp.NoPhaseWaits)
    (h : u.noneArises) (hl : u.lc = s.lc) (hc : u.cs = s.cs) (hd : u.du = s.du) :
    Removed s u (s.publish (u.refuseTransition r c d)) r.requester
      ∧ Delivered s.du s.lc (s.publish (u.refuseTransition r c d)).du (s.publish (u.refuseTransition r c d)).lc
          r.requester (.refused c) d := by
  have e := refuseTransition_eq u r c d hn h
  generalize u.refuseTransition r c d = v at e ⊢
  obtain ⟨k1, k2, k3⟩ := replyWith_line u.withdrawing r.requester (.refused c) d
  have vl : v.lc = (u.withdrawing.replyWith r.requester (.refused c) d).lc := by rw [e]
  have vd : v.du = (u.withdrawing.replyWith r.requester (.refused c) d).du := by rw [e]
  obtain ⟨f1, f2, f3⟩ := withdrawing_fifo u
  have p := publish_removed s u v r.requester hl hc (by rw [vl, vd]; exact e) (by rw [vl]; exact k1)
    (by rw [vl, k2, f3])
  refine ⟨p.1, k3.congr ?_ ?_ ?_ ?_ ?_ ?_⟩
  · rw [withdrawing_du, hd]
  · rw [p.2.1, vd]
  · rw [f1, hl]
  · rw [f2, hl]
  · rw [p.2.2.1, vl]
  · rw [p.2.2.2, vl]

/-- A removal with two replies, published. -/
theorem publish_removedTwice (s u v : State) (r : SlotRec) (o : Reply) (q : Requester) (o' : Reply)
    (hl : u.lc = s.lc) (hc : u.cs = s.cs) (hd : u.du = s.du)
    (hv : v = State.reply { u.withdrawing with
          du := (u.withdrawing.replyWith r.requester o 0).du
          lc := (u.withdrawing.replyWith r.requester o 0).lc
          tu := u.tu.recount r.requester } q o') :
    Removed s u (s.publish v) r.requester ∧ DeliveredTwice s (s.publish v) r.requester o q o' := by
  obtain ⟨k1, k2, k3⟩ := replyWith_line u.withdrawing r.requester o 0
  set m : State := { u.withdrawing with
          du := (u.withdrawing.replyWith r.requester o 0).du
          lc := (u.withdrawing.replyWith r.requester o 0).lc
          tu := u.tu.recount r.requester } with hm
  obtain ⟨j1, j2, j3⟩ := replyWith_line m q o' 0
  have e : v = { m with du := v.du, lc := v.lc } := by
    rw [hv]; exact replyWith_eq m q o' 0
  have vl : v.lc = (m.replyWith q o' 0).lc := by rw [hv]; rfl
  have vd : v.du = (m.replyWith q o' 0).du := by rw [hv]; rfl
  obtain ⟨f1, f2, f3⟩ := withdrawing_fifo u
  have p := publish_removed s u v r.requester hl hc e (by rw [vl]; exact k1.trans j1) (by rw [vl, j2]; rw [← f3]; exact k2)
  refine ⟨p.1, m.du, m.lc, k3.congr ?_ rfl ?_ ?_ rfl rfl, j3.congr rfl ?_ rfl rfl ?_ ?_⟩
  · rw [withdrawing_du, hd]
  · rw [f1, hl]
  · rw [f2, hl]
  · rw [p.2.1, vd]
  · rw [p.2.2.1, vl]
  · rw [p.2.2.2, vl]

end Sys2Proof.Machine
end

