-- ==== Sys2Proof/Laws/TripEntry.lean ====
section
/-!
SUPPORT. What a trip entry does, block by block (R133).
-/

namespace Sys2Proof.Machine

/-! ### The replies -/

theorem place_all (l : LC) (ms : List MsgFrame) :
    LineKept l (ms.foldl LC.place l) ∧ PlacedAll l (ms.foldl LC.place l) ms
      ∧ (ms.foldl LC.place l).shortDue = l.shortDue := by
  induction ms generalizing l with
  | nil => exact ⟨.refl _, ⟨rfl, rfl⟩, rfl⟩
  | cons m ms ih =>
    obtain ⟨a, b, c⟩ := place_lineKept l m
    obtain ⟨i, j, k⟩ := ih (l.place m)
    exact ⟨a.trans i, ⟨_, b, j⟩, k.trans c⟩

theorem answerNotReady_eq (s : State) (q : List Service) :
    s.answerNotReady q
      = s.setLc ((q.map fun e => MsgFrame.handoffDone e.requester e.tag .notReady).foldl LC.place s.lc) := by
  unfold State.answerNotReady
  induction q generalizing s with
  | nil => rfl
  | cons e q ih => exact (ih (s.place _)).trans rfl

/-- A reply, then answers. -/
theorem reply_answers (s x y : State) (r : SlotRec) (q : List Service) (f : Nat)
    (hx : x = ({ s with free := f } : State).reply r.requester (.refused .tripped)) (hy : y = x.answerNotReady q) :
    y = { s with du := y.du, lc := y.lc, free := y.free } ∧ LineKept s.lc y.lc
      ∧ Delivered s.du s.lc y.du x.lc r.requester (.refused .tripped) 0
      ∧ PlacedAll x.lc y.lc (q.map fun e => .handoffDone e.requester e.tag .notReady) := by
  obtain ⟨a, b, c⟩ := replyWith_line ({ s with free := f } : State) r.requester (.refused .tripped) 0
  have e := replyWith_eq ({ s with free := f } : State) r.requester (.refused .tripped) 0
  rw [show ({ s with free := f } : State).replyWith r.requester (.refused .tripped) 0 = x from hx.symm] at a b c e
  obtain ⟨p1, p2, p3⟩ := place_all x.lc (q.map fun e => MsgFrame.handoffDone e.requester e.tag .notReady)
  rw [answerNotReady_eq] at hy
  subst hy
  refine ⟨?_, a.trans p1, c, p2⟩
  generalize (List.foldl LC.place x.lc _) = z
  rw [e]; rfl

/-- Answers, then a reply. -/
theorem answers_reply (s x y : State) (r : SlotRec) (q : List Service) (f : Nat)
    (hx : x = ({ s with free := f } : State).answerNotReady q) (hy : y = x.reply r.requester (.refused .tripped)) :
    y = { s with du := y.du, lc := y.lc, free := y.free } ∧ LineKept s.lc y.lc
      ∧ PlacedAll s.lc x.lc (q.map fun e => .handoffDone e.requester e.tag .notReady)
      ∧ Delivered s.du x.lc y.du y.lc r.requester (.refused .tripped) 0 := by
  obtain ⟨p1, p2, p3⟩ := place_all s.lc (q.map fun e => MsgFrame.handoffDone e.requester e.tag .notReady)
  rw [answerNotReady_eq] at hx
  obtain ⟨a, b, c⟩ := replyWith_line x r.requester (.refused .tripped) 0
  have e := replyWith_eq x r.requester (.refused .tripped) 0
  rw [show x.replyWith r.requester (.refused .tripped) 0 = y from hy.symm] at a b c e
  have xl : x.lc = (q.map fun e => MsgFrame.handoffDone e.requester e.tag .notReady).foldl LC.place s.lc := by
    rw [hx]; rfl
  have xd : x.du = s.du := by rw [hx]; rfl
  rw [← xl] at p1 p2
  rw [xd] at c
  refine ⟨?_, p1.trans a, p2, c⟩
  have z : x = { s with lc := x.lc, free := x.free } := by rw [hx]; rfl
  generalize y.du = u, y.lc = v at e ⊢
  rw [e, z]; rfl

/-- The frames and results a trip entry writes, and nothing else. -/
theorem tripAnswers_eq (s : State) :
    s.tripAnswers = { s with du := s.tripAnswers.du, lc := s.tripAnswers.lc, free := s.tripAnswers.free }
      ∧ LineKept s.lc s.tripAnswers.lc ∧ TripReplies s s.tripAnswers.du s.tripAnswers.lc := by
  generalize hy : s.tripAnswers = y
  unfold State.tripAnswers at hy
  cases k : s.ps.slot with
  | none =>
    simp only [k, Option.isSome_none, Bool.false_and, Bool.false_eq_true, if_false, State.replyTripped] at hy
    rw [answerNotReady_eq] at hy
    obtain ⟨p1, p2, p3⟩ := place_all s.lc (s.hu.queue.map fun e => MsgFrame.handoffDone e.requester e.tag .notReady)
    subst hy
    refine ⟨rfl, p1, ?_⟩
    unfold TripReplies; rw [k]; exact ⟨rfl, p2⟩
  | some r =>
    unfold TripReplies
    simp only [k, Option.isSome_some, Bool.true_and] at hy ⊢
    split at hy
    · split at hy
      · obtain ⟨h1, h2, h3, h4⟩ := reply_answers s _ y r s.hu.queue _ rfl hy.symm
        exact ⟨h1, h2, _, .inl ⟨h3, h4⟩⟩
      · obtain ⟨h1, h2, h3, h4⟩ := answers_reply s _ y r s.hu.queue _ rfl hy.symm
        exact ⟨h1, h2, _, .inr ⟨h3, h4⟩⟩
    · obtain ⟨h1, h2, h3, h4⟩ := reply_answers s _ y r s.hu.queue s.free rfl hy.symm
      exact ⟨h1, h2, _, .inl ⟨h3, h4⟩⟩

/-! ### The cells -/

/-- What a cell has come to when every target is 0: nothing held, nothing raised, and a RELEASE of 0 in its slot where
one is due. -/
def Cell.Given (v : CellView) (c : Cell) : Prop :=
  c.a.holding = 0 ∧ c.a.engine = .idle
    ∧ (v.active = true → v.begun = false → c.a.announced ≠ 0 → c.slot = some (.release 0))

theorem Cell.evaluate_zero (v : CellView) (c : Cell) (h : v.target = 0)
    (e : c.a.engine = .idle ∨ c.a.engine = .waiting) : (c.evaluate v) = { c with a := { c.a with engine := .idle } } := by
  unfold Cell.evaluate; rw [if_pos e, if_pos (by rw [h]; exact Nat.zero_le _)]

theorem Cell.judgeRelease_given (v : CellView) (c : Cell) (h : c.a.holding = 0) (e : c.a.engine = .idle) :
    (c.judgeRelease v).Given v := by
  unfold Cell.judgeRelease Cell.releaseDue
  split
  · exact ⟨h, e, fun _ _ _ => by rw [h]⟩
  · rename_i k
    refine ⟨h, e, fun a b n => absurd ?_ k⟩
    simp [h, e, a, b, n]

/-- The target change of a cell whose engine has nothing on the line, at a target of 0. -/
theorem Cell.retarget_given (v : CellView) (c : Cell) (h : v.target = 0)
    (e : c.a.engine = .waiting ∨ c.a.engine = .idle ∨ c.a.engine = .reserved ∧ 0 < c.a.claimValue.getD 0) :
    (c.retarget v).Given v ∧ (c.retarget v).a.announced = c.a.announced := by
  have w : ((c.capToTarget v).withdrawBelow v).a.engine = .idle ∨ ((c.capToTarget v).withdrawBelow v).a.engine = .waiting := by
    unfold Cell.withdrawBelow Cell.capToTarget
    rcases e with e | e | ⟨e, p⟩
    · simp [e]
    · simp [e]
    · simp [e, h, p, Cell.withdraw]
  have wh : ((c.capToTarget v).withdrawBelow v).a.holding = 0 := by
    rw [Cell.withdrawBelow_holding]; unfold Cell.capToTarget; simp [h]
  have wa : ((c.capToTarget v).withdrawBelow v).a.announced = c.a.announced := by
    unfold Cell.withdrawBelow Cell.capToTarget; split <;> rfl
  unfold Cell.retarget
  rw [Cell.evaluate_zero v _ h w]
  refine ⟨Cell.judgeRelease_given v _ wh rfl, ?_⟩
  rw [Cell.judgeRelease_a]; exact wa

/-- A change report leaves such a cell so. -/
theorem Cell.report_given (v : CellView) (c : Cell) (new : Tally) (n : Nat) (h : v.target = 0) (g : c.Given v) :
    (c.report v new n).Given v ∧ (c.report v new n).a.announced = c.a.announced := by
  obtain ⟨g1, g2, g3⟩ := g
  unfold Cell.report
  dsimp only
  have k : ¬ (c.a.engine = .reserved ∧ new.worsens c.a.tally) := by rw [g2]; rintro ⟨h, _⟩; cases h
  rw [if_neg k]
  have se : ∀ x : Cell, (x.shed n).a.engine = x.a.engine ∧ (x.shed n).a.announced = x.a.announced := by
    intro x; unfold Cell.shed; split <;> exact ⟨rfl, rfl⟩
  rw [Cell.evaluate_zero v _ h (.inl (by rw [(se _).1]; exact g2))]
  refine ⟨Cell.judgeRelease_given v _ ?_ rfl, ?_⟩
  · have := Cell.shed_le n { c with a := { c.a with tally := new, heldReport := false } }
    exact Nat.le_zero.mp (this.trans (le_of_eq g1))
  · rw [Cell.judgeRelease_a]; exact (se _).2

/-- Its change report leaves it so. -/
theorem Cell.refresh_given (v : CellView) (new : Tally) (n : Nat) (c : Cell) (h : v.target = 0)
    (e : c.a.engine = .waiting ∨ c.a.engine = .idle ∨ c.a.engine = .reserved ∧ 0 < c.a.claimValue.getD 0) :
    (c.refresh v new n).Given v ∧ (c.refresh v new n).a.announced = c.a.announced := by
  obtain ⟨g, a⟩ := Cell.retarget_given v c h e
  unfold Cell.refresh Cell.ownReport
  repeat' split
  · exact ⟨g, a⟩
  · exact ⟨g, a⟩
  · obtain ⟨g', a'⟩ := Cell.report_given v _ new n h g
    exact ⟨g', a'.trans a⟩

theorem Cell.report_holding (v : CellView) (c : Cell) (new : Tally) (n : Nat) :
    (c.report v new n).a.holding ≤ c.a.holding ∧ (c.report v new n).a.raised = c.a.raised := by
  unfold Cell.report
  dsimp only
  rw [Cell.judgeRelease_a, Cell.evaluate_holding, Cell.evaluate_raised]
  refine ⟨(Cell.shed_le _ _).trans ?_, ?_⟩
  · split <;> exact le_refl _
  · unfold Cell.shed; repeat' split
    all_goals rfl

/-! ### The entry -/

/-- The state in which every block has cleared its own part, before the phase is written (R133). -/
def State.tripCleared (s : State) (c : Cause) : State :=
  let t := s.tripAnswers
  State.setRaised { t with
    ps := t.ps.atTrip
    pv := { t.pv with watches := [] }
    hu := t.hu.atTrip
    tr := { t.tr with record := some ⟨c, [], false⟩ }
    sp := t.sp.preempt
    lc := t.lc.placeTrip c } fun _ => none

/-- The state in which the phase is TRIPPED, before the SET_PHASE issues. -/
def State.tripChanged (s : State) (c : Cause) : State := (s.tripCleared c).changePhase .tripped .none

/-- The blocks of that state. -/
theorem tripChanged_blocks (s : State) (c : Cause) :
    (s.tripChanged c).cs = s.cs ∧ (s.tripChanged c).now = s.now ∧ (s.tripChanged c).quarter = s.quarter
      ∧ (s.tripChanged c).pending = s.pending ∧ (s.tripChanged c).pv = { s.pv with watches := [] }
      ∧ (s.tripChanged c).ps = s.ps.tripped s.now ∧ (s.tripChanged c).tu = s.tu.tripped
      ∧ (s.tripChanged c).hu = s.hu.atTrip 
      ∧ (s.tripChanged c).tr = { s.tr with record := some ⟨c, [], false⟩, raised := (s.tripChanged c).tr.raised }
      ∧ (s.tripChanged c).sp = { s.sp.preempt with portSilence := none }
      ∧ (s.tripChanged c).du = s.tripAnswers.du := by
  have e := (tripAnswers_eq s).1
  have b := changePhase_blocks (s.tripCleared c) .tripped .none
  have q := changePhase_eq (s.tripCleared c) .tripped .none
  obtain ⟨b1, b2, b3, b4, b5, b6⟩ := b
  have k : (s.tripCleared c).cs = s.cs ∧ (s.tripCleared c).now = s.now ∧ (s.tripCleared c).quarter = s.quarter
      ∧ (s.tripCleared c).pending = s.pending ∧ (s.tripCleared c).pv = { s.pv with watches := [] }
      ∧ (s.tripCleared c).ps = s.ps.atTrip ∧ (s.tripCleared c).tu = s.tu ∧ (s.tripCleared c).hu = s.hu.atTrip
      ∧ (s.tripCleared c).tr = { s.tr with record := some ⟨c, [], false⟩ } ∧ (s.tripCleared c).sp = s.sp.preempt
      ∧ (s.tripCleared c).du = s.tripAnswers.du := by
    unfold State.tripCleared
    dsimp only
    generalize s.tripAnswers.du = d, s.tripAnswers.lc = l, s.tripAnswers.free = f at e
    rw [e]
    exact ⟨rfl, rfl, rfl, rfl, rfl, rfl, rfl, rfl, rfl, rfl, rfl⟩
  obtain ⟨k1, k2, k3, k4, k5, k6, k7, k8, k9, k10, k11⟩ := k
  have x := enterPhase_eq (s.tripCleared c) .tripped .none
  have o : (s.tripChanged c).cs = (s.tripCleared c).cs ∧ (s.tripChanged c).now = (s.tripCleared c).now
      ∧ (s.tripChanged c).quarter = (s.tripCleared c).quarter ∧ (s.tripChanged c).pending = (s.tripCleared c).pending
      ∧ (s.tripChanged c).pv = (s.tripCleared c).pv := by
    unfold State.tripChanged
    rw [q, x]; exact ⟨rfl, rfl, rfl, rfl, rfl⟩
  obtain ⟨o1, o2, o3, o4, o5⟩ := o
  refine ⟨o1.trans k1, o2.trans k2, o3.trans k3, o4.trans k4, o5.trans k5, ?_, ?_, b4.trans k8, ?_, ?_,
    b6.trans k11⟩
  · refine b1.trans ?_
    rw [k1, k2, k6]; rfl
  · refine b2.trans ?_
    rw [k1, k6, k7]
    unfold TU.enter leavesRate TU.tripped TU.reset PerRes.same PerRes.of
    simp [intervalAt, Phase.underRate]
  · refine b5.trans ?_
    rw [k9]; rfl
  · refine b3.trans ?_
    rw [k1, k6, k10]
    unfold SP.enter leavesRate SP.preempt
    simp [Phase.watched, Phase.code]

/-- UNDER_STANDING is clear in that state, and its timer stopped (R93). -/
theorem tripChanged_standing (s : State) (c : Cause) :
    (s.tripChanged c).au.underStanding = false ∧ (s.tripChanged c).au.underTimer = none := by
  have st := changePhase_standing (s.tripCleared c) .tripped .none
  change (s.tripChanged c).au.underStanding = (s.tripChanged c).belowStanding
    ∧ (s.tripChanged c).au.underTimer = if (s.tripChanged c).au.underStanding then _ else none at st
  have b6 := (tripChanged_blocks s c).2.2.2.2.2.1
  generalize s.tripChanged c = t at st b6 ⊢
  have us : t.au.underStanding = false := by
    rw [st.1]
    unfold State.belowStanding
    rw [List.any_eq_false]
    intro x _
    unfold State.required
    rw [b6]
    simp [PS.tripped, Phase.needsStanding]
  refine ⟨us, ?_⟩
  rw [st.2, us]; rfl

/-- The causes of the timers that had run down when the trip was entered stay raised (R132). -/
theorem tripChanged_causes (s : State) (c : Cause) (x : Cause) :
    x ∈ (s.tripChanged c).tr.raised ↔ x ∈ s.tr.raised ∨ s.CauseDue x := by
  have h := changePhase_causes (s.tripCleared c) .tripped .none x
  change x ∈ (s.tripChanged c).tr.raised ↔ _ ∨ _ ∧ ¬ (s.tripChanged c).CauseDue x at h
  obtain ⟨-, -, -, -, -, b6, -, -, -, b10, -⟩ := tripChanged_blocks s c
  obtain ⟨-, ut⟩ := tripChanged_standing s c
  have n : ¬ (s.tripChanged c).CauseDue x := by
    generalize s.tripChanged c = t at b6 b10 ut
    cases x <;> simp [State.CauseDue, b6, b10, ut, PS.tripped, PS.reset]
  have e := (tripAnswers_eq s).1
  have k : (s.tripCleared c).tr.raised = s.tr.raised ∧ ((s.tripCleared c).CauseDue x ↔ s.CauseDue x) := by
    unfold State.tripCleared
    dsimp only
    generalize s.tripAnswers.du = d, s.tripAnswers.lc = l, s.tripAnswers.free = f at e
    rw [e]
    exact ⟨rfl, by cases x <;> exact Iff.rfl⟩
  rw [k.1, k.2, and_iff_left n] at h
  exact h

/-- The line controller of that state. -/
theorem tripChanged_lc (s : State) (c : Cause) :
    (s.tripChanged c).lc = { (if s.cs.locked then (s.tripAnswers.lc.placeTrip c).markLong.markShort
        else s.tripAnswers.lc.placeTrip c) with allot := (s.tripChanged c).lc.allot } := by
  have e := (tripAnswers_eq s).1
  have q := changePhase_eq (s.tripCleared c) .tripped .none
  have l : (s.tripCleared c).lc = s.tripAnswers.lc.placeTrip c := rfl
  have k : (s.tripCleared c).cs = s.cs := by
    unfold State.tripCleared
    dsimp only
    generalize s.tripAnswers.du = d, s.tripAnswers.lc = l, s.tripAnswers.free = f at e
    rw [e]; rfl
  have m := enterPhase_lc (s.tripCleared c) .tripped .none
  rw [k, l] at m
  rw [← m]
  unfold State.tripChanged
  conv => lhs; rw [q]

/-- The SET_PHASE TRIPPED issues at once, whatever waited or was outstanding (R133, R159). -/
theorem tripEntry_eq (s : State) (c : Cause) :
    s.tripEntry c = (s.tripChanged c).setSp (s.sp.tripped s.cs.set) := by
  have b := tripChanged_blocks s c
  obtain ⟨b1, b2, b3, b4, b5, b6, b7, b8, b9, b10, b11⟩ := b
  have f : s.tripEntry c
      = State.arbitrate ((s.tripChanged c).setSp { (s.tripChanged c).sp with tripReq := true }) := rfl
  rw [f]
  generalize s.tripChanged c = t at b1 b10 ⊢
  have o : ({ t.sp with tripReq := true } : SP).outstanding = [] := by rw [b10]; rfl
  have i : (t.setSp { t.sp with tripReq := true }).issueNext = t.setSp (s.sp.tripped s.cs.set) := by
    unfold State.issueNext State.issueTrip
    simp only [State.setSp, o, List.isEmpty_nil, if_true]
    rw [emit_empty _ _ _ o, b10, b1]; rfl
  unfold State.arbitrate
  rw [i]
  exact issueNext_blocked _ rfl

/-- What is on the line decides what is in transmission (R166). -/
theorem begun_onLine {l m : LC} (h : m.tx.map Tx.onLine = l.tx.map Tx.onLine) (k : TxSlot) :
    (match m.tx with
      | some t => decide (t.slot = k) && t.begun
      | none => false) = (match l.tx with
      | some t => decide (t.slot = k) && t.begun
      | none => false) := by
  cases hm : m.tx <;> cases hl : l.tx <;> rw [hm, hl] at h <;>
    simp only [Option.map_none, Option.map_some, Option.some.injEq, reduceCtorEq, Tx.onLine, Prod.mk.injEq] at h ⊢
  rw [h.1, h.2.2]

/-- The trip slot after a TRIP_NOTICE is placed (R134, R170). -/
theorem placeTrip_eq (l : LC) (c : Cause) :
    l.placeTrip c = { l with tripSlot := (l.placeTrip c).tripSlot, tripAside := (l.placeTrip c).tripAside }
      ∧ (if l.tripBegun then (l.placeTrip c).tripAside = some c ∧ (l.placeTrip c).tripSlot = l.tripSlot
        else (l.placeTrip c).tripSlot = some c ∧ (l.placeTrip c).tripAside = l.tripAside) := by
  unfold LC.placeTrip LC.tripBegun
  cases h : l.tx with
  | none => cases l; cases h; simp
  | some t =>
    cases l; cases h
    by_cases k : (decide (t.slot = .trip) && t.begun) = true
    · simp only [k, if_true, and_self]
    · simp only [k]; simp

/-- Each cell gives up what it holds. -/
theorem tripChanged_cell (s : State) (c : Cause) (r : Resource) :
    ((s.tripChanged c).cell r).a.holding = 0 ∧ ((s.tripChanged c).cell r).a.raised = none
      ∧ ((s.au.res.get r).engine = .waiting ∨ (s.au.res.get r).engine = .idle
          ∨ (s.au.res.get r).engine = .reserved ∧ 0 < (s.au.res.get r).claimValue.getD 0 →
        ((s.tripChanged c).cell r).a.engine = .idle
          ∧ (s.lc.line = .active → s.allotBegun r = false → (s.au.res.get r).announced ≠ 0 →
              ((s.tripChanged c).cell r).slot = some (.release 0))) := by
  obtain ⟨e1, e2, -⟩ := tripAnswers_eq s
  obtain ⟨p1, -⟩ := placeTrip_eq s.tripAnswers.lc c
  have ml : ∀ l : LC, l.markLong.markShort.tx = l.tx ∧ l.markLong.markShort.line = l.line
      ∧ l.markLong.markShort.allot = l.allot := fun _ => ⟨rfl, rfl, rfl⟩
  set w := (s.tripCleared c).enterPhase .tripped .none with hw
  have x := enterPhase_eq (s.tripCleared c) .tripped .none
  have m := enterPhase_lc (s.tripCleared c) .tripped .none
  have wl : w.lc.tx = s.tripAnswers.lc.tx ∧ w.lc.line = s.tripAnswers.lc.line
      ∧ w.lc.allot = s.tripAnswers.lc.allot := by
    rw [hw, m]
    have : (s.tripCleared c).lc = s.tripAnswers.lc.placeTrip c := rfl
    rw [this]
    split
    · obtain ⟨a, b, d⟩ := ml (s.tripAnswers.lc.placeTrip c)
      rw [a, b, d, p1]; exact ⟨rfl, rfl, rfl⟩
    · rw [p1]; exact ⟨rfl, rfl, rfl⟩
  have sl : s.tripAnswers.lc.line = s.lc.line ∧ s.tripAnswers.lc.allot = s.lc.allot := by
    rw [e2.1]; exact ⟨rfl, rfl⟩
  have wb : w.allotBegun r = s.allotBegun r := by
    unfold State.allotBegun
    rw [wl.1]
    exact begun_onLine e2.2 (.allot r)
  have wa : w.cell r = ⟨{ s.au.res.get r with raised := none }, s.lc.allot.get r⟩ := by
    unfold State.cell
    rw [wl.2.2, sl.2]
    have : w.au = { s.au with res := .of fun r => { s.au.res.get r with raised := none } } := by
      rw [hw, x]
      unfold State.tripCleared
      dsimp only
      have : s.tripAnswers.au = s.au := by rw [e1]
      unfold State.setRaised State.setAu
      dsimp only
      rw [this]; rfl
    rw [this]; simp
  have wp : w.ps.phase = .tripped := by rw [hw, x]; rfl
  have wt : w.target r = 0 := by
    unfold State.target State.phaseTarget
    rw [wp]
    have : (w.au.res.get r).raised = none := by
      have := congrArg (fun c => c.a.raised) wa; exact this
    rw [this]; simp
  have vv : w.cellView r = ⟨0, s.allotBegun r, s.lc.line = .active⟩ := by
    unfold State.cellView; rw [wt, wb, wl.2.1, sl.1]
  have sc : w.refreshCells.cell r
      = Cell.refresh ⟨0, s.allotBegun r, s.lc.line = .active⟩ (w.tally r) (w.sumBefore r)
          ⟨{ s.au.res.get r with raised := none }, s.lc.allot.get r⟩ := by
    rw [refreshCells_cell, wa, vv]
  have sv : w.refreshCells.cellView r = ⟨0, s.allotBegun r, s.lc.line = .active⟩ := by
    have t : w.refreshCells.target r = 0 := by
      unfold State.target State.phaseTarget
      rw [(refreshCells_keeps w).1, wp]
      have : (w.refreshCells.au.res.get r).raised = none := by
        have := congrArg (fun c => c.a.raised) sc
        rw [Cell.refresh_raised] at this; exact this
      rw [this]; simp
    have l : w.refreshCells.lc.tx = w.lc.tx ∧ w.refreshCells.lc.line = w.lc.line := by
      rw [refreshCells_eq]; exact ⟨rfl, rfl⟩
    unfold State.cellView
    rw [t, l.2, wl.2.1, sl.1]
    have : w.refreshCells.allotBegun r = s.allotBegun r := by
      rw [← wb]; unfold State.allotBegun; rw [l.1]
    rw [this]
  have k := changePhase_cell (s.tripCleared c) .tripped .none r
  change (s.tripChanged c).cell r = w.refreshCells.reported _ r at k
  set v : CellView := ⟨0, s.allotBegun r, s.lc.line = .active⟩ with hv
  have fin : (s.tripChanged c).cell r = w.refreshCells.cell r
      ∨ (s.allotBegun r = true ∧ (s.tripChanged c).cell r
          = { w.refreshCells.cell r with a := { (w.refreshCells.cell r).a with heldReport := true } })
      ∨ ∃ new n, (s.tripChanged c).cell r = (w.refreshCells.cell r).report v new n := by
    rw [k]
    unfold State.reported
    split
    · split
      · rename_i b
        right; left
        refine ⟨?_, rfl⟩
        have := congrArg CellView.begun sv
        exact this.symm.trans b
      · right; right; rw [sv]; exact ⟨_, _, rfl⟩
    · exact .inl rfl
  have rh : (w.refreshCells.cell r).a.holding = 0 := by
    rw [sc]; exact Nat.le_zero.mp ((Cell.refresh_holding_le _ _ _ _).trans (min_le_right _ _))
  have rr : (w.refreshCells.cell r).a.raised = none := by rw [sc, Cell.refresh_raised]
  refine ⟨?_, ?_, fun h => ?_⟩
  · rcases fin with f | ⟨_, f⟩ | ⟨new, n, f⟩
    · rw [f]; exact rh
    · rw [f]; exact rh
    · rw [f]; exact Nat.le_zero.mp (((Cell.report_holding _ _ _ _).1).trans (le_of_eq rh))
  · rcases fin with f | ⟨_, f⟩ | ⟨new, n, f⟩
    · rw [f]; exact rr
    · rw [f]; exact rr
    · rw [f]; exact ((Cell.report_holding _ _ _ _).2).trans rr
  · obtain ⟨g, an⟩ := Cell.refresh_given v (w.tally r) (w.sumBefore r) ⟨{ s.au.res.get r with raised := none }, s.lc.allot.get r⟩ rfl h
    rw [← sc] at g an
    change (w.refreshCells.cell r).a.announced = (s.au.res.get r).announced at an
    rcases fin with f | ⟨b, f⟩ | ⟨new, n, f⟩
    · rw [f]
      refine ⟨g.2.1, fun a b d => g.2.2 (decide_eq_true a) b (by rw [an]; exact d)⟩
    · rw [f]
      exact ⟨g.2.1, fun _ d _ => absurd (b.symm.trans d) (by simp)⟩
    · obtain ⟨g', an'⟩ := Cell.report_given v _ new n rfl g
      rw [f]
      refine ⟨g'.2.1, fun a b d => g'.2.2 (decide_eq_true a) b (by rw [an', an]; exact d)⟩

/-- A trip entry, block by block (R133). -/
theorem tripEntry_entered (s : State) (c : Cause) :
    TripEntered s (s.tripEntry c) c ∧ TripReplies s (s.tripEntry c).du (s.tripEntry c).lc := by
  have b := tripChanged_blocks s c
  have l := tripChanged_lc s c
  have cl := tripChanged_cell s c
  have st := tripChanged_standing s c
  have ca := tripChanged_causes s c
  rw [tripEntry_eq]
  generalize s.tripChanged c = t at b l cl st ca ⊢
  obtain ⟨b1, b2, b3, b4, b5, b6, b7, b8, b9, b10, b11⟩ := b
  obtain ⟨-, e2, e3⟩ := tripAnswers_eq s
  obtain ⟨p1, p2⟩ := placeTrip_eq s.tripAnswers.lc c
  have tb : s.tripAnswers.lc.tripBegun = s.lc.tripBegun := by
    unfold LC.tripBegun; exact begun_onLine e2.2 .trip
  have sl : s.tripAnswers.lc.tripSlot = s.lc.tripSlot ∧ s.tripAnswers.lc.tripAside = s.lc.tripAside := by
    rw [e2.1]; exact ⟨rfl, rfl⟩
  have lf : t.lc.fifo = s.tripAnswers.lc.fifo ∧ t.lc.replyOverflow = s.tripAnswers.lc.replyOverflow := by
    rw [l, p1]; split <;> exact ⟨rfl, rfl⟩
  refine ⟨⟨?_, b6, b5, b7, b8, b9, ca, rfl, fun x => ?_, st, ⟨?_, ?_⟩, ?_, fun lk => ?_⟩, ?_⟩
  · cases t; simp only at b1 b2 b3 b4; subst b1 b2 b3 b4; rfl
  · obtain ⟨c1, c2, c3⟩ := cl x
    exact ⟨c1, c2, c3⟩
  · have q : t.lc.line = s.lc.line ∧ t.lc.joined = s.lc.joined ∧ t.lc.failures = s.lc.failures
        ∧ t.lc.lineErrors = s.lc.lineErrors ∧ t.lc.statusTimer = s.lc.statusTimer ∧ t.lc.spacing = s.lc.spacing
        ∧ t.lc.lastOffer = s.lc.lastOffer ∧ t.lc.lastAcceptance = s.lc.lastAcceptance
        ∧ t.lc.attempt = s.lc.attempt := by
      rw [l, p1]
      split <;> (rw [e2.1]; exact ⟨rfl, rfl, rfl, rfl, rfl, rfl, rfl, rfl, rfl⟩)
    change t.lc = { s.lc with
      tripSlot := t.lc.tripSlot, tripAside := t.lc.tripAside, allot := t.lc.allot, fifo := t.lc.fifo
      replyOverflow := t.lc.replyOverflow, longDue := t.lc.longDue, longAgain := t.lc.longAgain
      shortDue := t.lc.shortDue, shortAgain := t.lc.shortAgain, tx := t.lc.tx }
    generalize t.lc = y at q ⊢
    obtain ⟨q1, q2, q3, q4, q5, q6, q7, q8, q9⟩ := q
    dsimp only
    rw [← q1, ← q2, ← q3, ← q4, ← q5, ← q6, ← q7, ← q8, ← q9]
  · change t.lc.tx.map _ = _
    rw [← e2.2, l, p1]
    split <;> rfl
  · have z : t.lc.tripAside = (s.tripAnswers.lc.placeTrip c).tripAside
        ∧ t.lc.tripSlot = (s.tripAnswers.lc.placeTrip c).tripSlot := by
      rw [l]; split <;> exact ⟨rfl, rfl⟩
    change if s.lc.tripBegun then t.lc.tripAside = some c ∧ t.lc.tripSlot = s.lc.tripSlot
      else t.lc.tripSlot = some c ∧ t.lc.tripAside = s.lc.tripAside
    rw [tb, sl.1, sl.2] at p2
    rw [z.1, z.2]; exact p2
  · change t.lc.longDue = true ∧ t.lc.shortDue = true
    rw [l, lk]; exact ⟨rfl, rfl⟩
  · change TripReplies s t.du t.lc
    rw [b11]
    have pa : ∀ (ms : List MsgFrame) (a : LC), PlacedAll a s.tripAnswers.lc ms → PlacedAll a t.lc ms := by
      intro ms
      induction ms with
      | nil => intro a h; exact ⟨lf.1.trans h.1, lf.2.trans h.2⟩
      | cons m ms ih => rintro a ⟨k, h1, h2⟩; exact ⟨k, h1, ih k h2⟩
    have de : ∀ (a : LC) (q : Requester) (o : Reply), Delivered s.du a s.tripAnswers.du s.tripAnswers.lc q o 0 →
        Delivered s.du a s.tripAnswers.du t.lc q o 0 := by
      intro a q o h
      cases q <;> simp only [Delivered, Placed, NothingPlaced, lf.1, lf.2] at h ⊢ <;> exact h
    unfold TripReplies at e3 ⊢
    dsimp only at e3 ⊢
    cases k : s.ps.slot with
    | none =>
      rw [k] at e3
      exact ⟨e3.1, pa _ _ e3.2⟩
    | some r =>
      rw [k] at e3
      obtain ⟨m, h⟩ := e3
      rcases h with ⟨h1, h2⟩ | ⟨h1, h2⟩
      · exact ⟨m, .inl ⟨h1, pa _ _ h2⟩⟩
      · exact ⟨m, .inr ⟨h1, de _ _ _ h2⟩⟩

/-- What follows a trip entry in the same event, a reply and the note of change, leaves it as it is. -/
theorem TripEntered.after {s t y : State} {c : Cause} (h : TripEntered s t c) (hl : LineKept t.lc y.lc)
    (hy : y = { t with du := y.du, lc := y.lc }) (hs : t.lc.shortDue = true → y.lc.shortDue = true) :
    TripEntered s y c := by
  have al : y.lc.allot = t.lc.allot ∧ y.lc.tripAside = t.lc.tripAside ∧ y.lc.tripSlot = t.lc.tripSlot
      ∧ y.lc.longDue = t.lc.longDue ∧ y.lc.longAgain = t.lc.longAgain := by
    rw [hl.1]; exact ⟨rfl, rfl, rfl, rfl, rfl⟩
  obtain ⟨a1, a2, a3, a4, a5⟩ := al
  have bl : y.ps = t.ps ∧ y.pv = t.pv ∧ y.tu = t.tu ∧ y.au = t.au ∧ y.hu = t.hu ∧ y.tr = t.tr ∧ y.sp = t.sp
      ∧ y.free = t.free := by rw [hy]; exact ⟨rfl, rfl, rfl, rfl, rfl, rfl, rfl, rfl⟩
  obtain ⟨c1, c2, c3, c4, c5, c6, c7, c8⟩ := bl
  refine ⟨?_, c1 ▸ h.sequencer, c2 ▸ h.peers, c3 ▸ h.throughput, c5 ▸ h.handoffs, c6 ▸ h.record,
    c6 ▸ h.causes, c7 ▸ h.port,
    ?_, c4 ▸ h.standing, ⟨?_, hl.2.trans h.line.2⟩, ?_, fun k => ?_⟩
  · rw [c1, c2, c3, c4, c5, c6, c7, c8]
    have := h.kept
    generalize y.du = d, y.lc = l at hy ⊢
    rw [hy, this]
  · rw [c4, a1]; exact h.holdings
  · rw [a1, a2, a3, a4, a5]
    have e := hl.1
    have f := h.line.1
    generalize y.lc = l at e ⊢
    generalize t.lc = m at e f ⊢
    rw [e, f]
  · rw [a2, a3]; exact h.notice
  · exact ⟨a4.trans (h.marks k).1, hs (h.marks k).2⟩

/-- A trip entry at the end of an event (R133, R174). -/
theorem publish_entry (s u : State) (x : Cause) :
    TripEntered u (s.publish (u.tripEntry x)) x
      ∧ TripReplies u (s.publish (u.tripEntry x)).du (s.publish (u.tripEntry x)).lc := by
  obtain ⟨h1, h2⟩ := tripEntry_entered u x
  have w : (u.tripEntry x).atStage .waitPrereq = false := by
    unfold State.atStage; rw [h1.sequencer]; rfl
  obtain ⟨n1, n2, n3, n4⟩ := publish_noted s _ w
  have d : (s.publish (u.tripEntry x)).du = (u.tripEntry x).du := by rw [n1]
  refine ⟨h1.after n2 (n1.trans (by rw [d])) (fun k => by rw [n4, k]; rfl), ?_⟩
  rw [d]
  generalize (s.publish (u.tripEntry x)).lc = l at n3
  have pa : ∀ (ms : List MsgFrame) (a : LC), PlacedAll a (u.tripEntry x).lc ms → PlacedAll a l ms := by
    intro ms
    induction ms with
    | nil => intro a h; exact ⟨n3.1.trans h.1, n3.2.trans h.2⟩
    | cons m ms ih => rintro a ⟨k, h1, h2⟩; exact ⟨k, h1, ih k h2⟩
  unfold TripReplies at h2 ⊢
  dsimp only at h2 ⊢
  cases k : u.ps.slot with
  | none => rw [k] at h2; exact ⟨h2.1, pa _ _ h2.2⟩
  | some r =>
    rw [k] at h2
    obtain ⟨m, h⟩ := h2
    rcases h with ⟨h1, h2⟩ | ⟨h1, h2⟩
    · exact ⟨m, .inl ⟨h1, pa _ _ h2⟩⟩
    · exact ⟨m, .inr ⟨h1, h2.congr rfl rfl rfl rfl n3.1 n3.2⟩⟩

end Sys2Proof.Machine
end

