-- ==== Sys2Proof/Laws/Entry.lean ====
section
/-!
SUPPORT. A phase change as its statement gives it, and what may follow it in the same event.
-/

namespace Sys2Proof.Machine

/-- A change report leaves the capacity reading. -/
theorem Cell.report_reading (v : CellView) (c : Cell) (new : Tally) (n : Nat) :
    (c.report v new n).a.reading = c.a.reading := by
  unfold Cell.report
  dsimp only
  rw [Cell.judgeRelease_a]
  have e : ∀ x : Cell, (x.evaluate v).a.reading = x.a.reading := by
    intro x; unfold Cell.evaluate; repeat' split
    all_goals rfl
  rw [e]
  unfold Cell.shed; repeat' split
  all_goals rfl

/-- A target change leaves the capacity reading. -/
theorem Cell.refresh_reading (v : CellView) (new : Tally) (n : Nat) (c : Cell) :
    (c.refresh v new n).a.reading = c.a.reading := by
  have h : (c.retarget v).a.reading = c.a.reading := by
    unfold Cell.retarget
    rw [Cell.judgeRelease_a]
    have w : ((c.capToTarget v).withdrawBelow v).a.reading = c.a.reading := by
      unfold Cell.withdrawBelow Cell.capToTarget; split <;> rfl
    rw [← w]
    unfold Cell.evaluate; repeat' split
    all_goals rfl
  unfold Cell.refresh Cell.ownReport
  repeat' split
  · exact h
  · exact h
  · rw [Cell.report_reading]; exact h

/-- A change report leaves a cell's raised target and reading. -/
theorem reported_keeps (s : State) (f : Resource → Bool) (r : Resource) :
    (s.reported f r).a.raised = (s.cell r).a.raised ∧ (s.reported f r).a.reading = (s.cell r).a.reading := by
  unfold State.reported; repeat' split
  · exact ⟨rfl, rfl⟩
  · exact ⟨(Cell.report_holding _ _ _ _).2, Cell.report_reading _ _ _ _⟩
  · exact ⟨rfl, rfl⟩

/-- A phase change is as its statement gives it. -/
theorem changePhase_entered (u : State) (p : Phase) (e : EntryInfo) :
    PhaseEntered u (u.changePhase p e) p e (u.sp.enter u.cs.set u.ps.phase p) := by
  have q := changePhase_eq u p e
  have x := enterPhase_eq u p e
  have m := enterPhase_lc u p e
  have c := changePhase_cell u p e
  have st := changePhase_standing u p e
  have k : u.changePhase p e = { u with
      ps := u.ps.enter u.cs.set u.now p e, tu := u.tu.enter u.cs.set u.ps.phase p e
      sp := u.sp.enter u.cs.set u.ps.phase p, tr := { u.tr with raised := (u.changePhase p e).tr.raised }
      au := (u.changePhase p e).au, du := (u.changePhase p e).du, lc := (u.changePhase p e).lc } := by
    generalize hl : (u.enterPhase p e).lc = l at q x
    generalize (u.changePhase p e).au = a, (u.changePhase p e).lc.allot = b, (u.changePhase p e).tr.raised = d at q ⊢
    rw [q, x]
  have l : (u.changePhase p e).lc = { (if u.cs.locked then u.lc.markLong.markShort else u.lc) with
      allot := (u.changePhase p e).lc.allot } := by
    rw [← m]; conv => lhs; rw [q]
  have sr : ∀ r, (u.settled p e).cell r
      = Cell.refresh ((u.enterPhase p e).cellView r) ((u.enterPhase p e).tally r) ((u.enterPhase p e).sumBefore r)
          ((u.enterPhase p e).cell r) := fun r => refreshCells_cell _ r
  have ec : ∀ r, (u.enterPhase p e).cell r = u.cell r := by
    intro r; unfold State.cell; rw [m, x]; split <;> rfl
  have eb : ∀ r, (u.enterPhase p e).allotBegun r = u.allotBegun r := by
    intro r
    have : (u.enterPhase p e).lc.tx = u.lc.tx := by rw [m]; split <;> rfl
    unfold State.allotBegun; rw [this]
  have el : (u.enterPhase p e).lc.line = u.lc.line := by rw [m]; split <;> rfl
  have sf : (u.settled p e) = { u.enterPhase p e with
      au := (u.settled p e).au, lc := { (u.enterPhase p e).lc with allot := (u.settled p e).lc.allot } } := by
    unfold State.settled; rw [refreshCells_eq]; rfl
  have cr : ∀ r, ((u.changePhase p e).au.res.get r).raised = (u.au.res.get r).raised
      ∧ ((u.changePhase p e).au.res.get r).reading = (u.au.res.get r).reading
      ∧ ((u.settled p e).au.res.get r).raised = (u.au.res.get r).raised
      ∧ ((u.settled p e).au.res.get r).reading = (u.au.res.get r).reading := by
    intro r
    have a1 : ((u.settled p e).cell r).a.raised = (u.cell r).a.raised := by rw [sr, Cell.refresh_raised, ec]
    have a2 : ((u.settled p e).cell r).a.reading = (u.cell r).a.reading := by rw [sr, Cell.refresh_reading, ec]
    have b := reported_keeps (u.settled p e)
      (fun r => decide ((u.settled p e).publishedCapacity r ≠ u.publishedCapacity r)) r
    rw [← c r] at b
    exact ⟨b.1.trans a1, b.2.trans a2, a1, a2⟩
  have tg : ∀ (w : State) (r : Resource), w.ps = u.ps.enter u.cs.set u.now p e →
      w.tu = u.tu.enter u.cs.set u.ps.phase p e → w.cs = u.cs →
      (w.au.res.get r).raised = (u.au.res.get r).raised → w.target r = (u.changePhase p e).target r := by
    intro w r h1 h2 h3 h4
    unfold State.target State.phaseTarget
    have k1 : (u.changePhase p e).ps = u.ps.enter u.cs.set u.now p e := by rw [k]
    have k2 : (u.changePhase p e).tu = u.tu.enter u.cs.set u.ps.phase p e := by rw [k]
    have k3 : (u.changePhase p e).cs = u.cs := by rw [k]
    rw [h1, h2, h3, h4, k1, k2, k3, (cr r).1]
  have xs : (u.enterPhase p e).ps = u.ps.enter u.cs.set u.now p e
      ∧ (u.enterPhase p e).tu = u.tu.enter u.cs.set u.ps.phase p e ∧ (u.enterPhase p e).cs = u.cs
      ∧ (u.enterPhase p e).au = u.au ∧ (u.enterPhase p e).pv = u.pv := by
    rw [x]; exact ⟨rfl, rfl, rfl, rfl, rfl⟩
  obtain ⟨x1, x2, x3, x4, x5⟩ := xs
  have ss : (u.settled p e).ps = u.ps.enter u.cs.set u.now p e
      ∧ (u.settled p e).tu = u.tu.enter u.cs.set u.ps.phase p e ∧ (u.settled p e).cs = u.cs
      ∧ (u.settled p e).pv = u.pv ∧ (u.settled p e).lc.line = u.lc.line
      ∧ (u.settled p e).lc.tx = (u.enterPhase p e).lc.tx := by
    rw [sf]; exact ⟨x1, x2, x3, x5, el, rfl⟩
  obtain ⟨s1, s2, s3, s4, s5, s6⟩ := ss
  have ev : ∀ r, (u.enterPhase p e).cellView r
      = ⟨(u.changePhase p e).target r, u.allotBegun r, u.lc.line = .active⟩ := by
    intro r; unfold State.cellView
    rw [tg _ r x1 x2 x3 (by rw [x4]), eb, el]
  have sb : ∀ r, (u.settled p e).allotBegun r = u.allotBegun r := by
    intro r; rw [← eb]; unfold State.allotBegun; rw [s6]
  have sv : ∀ r, (u.settled p e).cellView r
      = ⟨(u.changePhase p e).target r, u.allotBegun r, u.lc.line = .active⟩ := by
    intro r; unfold State.cellView
    rw [tg _ r s1 s2 s3 (cr r).2.2.1, sb, s5]
  have kk : (u.changePhase p e).ps = u.ps.enter u.cs.set u.now p e ∧ (u.changePhase p e).cs = u.cs
      ∧ (u.changePhase p e).pv = u.pv := by rw [k]; exact ⟨rfl, rfl, rfl⟩
  obtain ⟨k1, k2, k3⟩ := kk
  have pc : ∀ r, (u.settled p e).publishedCapacity r = (u.changePhase p e).publishedCapacity r := by
    intro r; unfold State.publishedCapacity
    rw [s1, s3, k1, k2, (cr r).2.1, (cr r).2.2.2]
  have lp : (u.settled p e).livePeers = (u.changePhase p e).livePeers := by
    unfold State.livePeers State.isOwn State.stored
    rw [s3, s4, k2, k3]
  have ta : ∀ r, (u.settled p e).tally r = (u.changePhase p e).tally r := by
    intro r; unfold State.tally; rw [lp, pc]
  have sm : ∀ r, (u.settled p e).sumBefore r = (u.changePhase p e).sumBefore r := by
    intro r; unfold State.sumBefore
    have : (u.settled p e).walksBefore = (u.changePhase p e).walksBefore := by
      funext z; unfold State.walksBefore; rw [s3, k2]
    rw [lp, this]
  have pe : ∀ r, (u.enterPhase p e).publishedCapacity r = (u.changePhase p e).publishedCapacity r := by
    intro r; unfold State.publishedCapacity
    rw [x1, x3, x4, k1, k2, (cr r).2.1]
  have le : (u.enterPhase p e).livePeers = (u.changePhase p e).livePeers := by
    unfold State.livePeers State.isOwn State.stored
    rw [x3, x5, k2, k3]
  have te : ∀ r, (u.enterPhase p e).tally r = (u.changePhase p e).tally r := by
    intro r; unfold State.tally; rw [le, pe]
  have se : ∀ r, (u.enterPhase p e).sumBefore r = (u.changePhase p e).sumBefore r := by
    intro r; unfold State.sumBefore
    have : (u.enterPhase p e).walksBefore = (u.changePhase p e).walksBefore := by
      funext z; unfold State.walksBefore; rw [x3, k2]
    rw [le, this]
  refine ⟨k, changePhase_causes u p e, fun r => ?_, st, ?_, fun lk => ?_⟩
  · rw [c r]
    unfold State.reported
    rw [sb, sv, ta, sm, sr, ev, ec, te, se]
    simp only [pc, decide_eq_true_eq, ne_eq, ite_not]
  · generalize (u.changePhase p e).lc.allot = al at l
    rw [l]
    split <;> exact ⟨rfl, rfl⟩
  · rw [l, lk]; exact ⟨rfl, rfl⟩

/-- What may follow a phase change in the same event: an issue at the section port, a reply, the note of change. -/
theorem PhaseEntered.after {u t y : State} {p : Phase} {e : EntryInfo} {sp : SP} (h : PhaseEntered u t p e sp)
    (hl : LineKept t.lc y.lc) (hy : y = { t with sp := y.sp, du := y.du, lc := y.lc })
    (hs : t.lc.shortDue = true → y.lc.shortDue = true) (hp : y.sp.portSilence = t.sp.portSilence) :
    PhaseEntered u y p e y.sp := by
  have al : y.lc.allot = t.lc.allot ∧ y.lc.longDue = t.lc.longDue ∧ y.lc.longAgain = t.lc.longAgain := by
    rw [hl.1]; exact ⟨rfl, rfl, rfl⟩
  obtain ⟨a1, a4, a5⟩ := al
  have bl : y.ps = t.ps ∧ y.pv = t.pv ∧ y.tu = t.tu ∧ y.au = t.au ∧ y.cs = t.cs ∧ y.tr = t.tr := by
    rw [hy]; exact ⟨rfl, rfl, rfl, rfl, rfl, rfl⟩
  obtain ⟨c1, c2, c3, c4, c5, c6⟩ := bl
  have pc : ∀ r, y.publishedCapacity r = t.publishedCapacity r := by
    intro r; unfold State.publishedCapacity; rw [c1, c4, c5]
  have lp : y.livePeers = t.livePeers := by
    unfold State.livePeers State.isOwn State.stored; rw [c5, c2]
  refine ⟨?_, fun x => ?_, fun r => ?_, ?_, ⟨?_, hl.2.trans h.line.2⟩, fun k => ?_⟩
  · have := h.kept
    rw [c4, c6]
    generalize y.du = d, y.lc = l, y.sp = z at hy ⊢
    rw [hy, this]
  · rw [c6, h.causes x]
    have : y.CauseDue x ↔ t.CauseDue x := by cases x <;> simp only [State.CauseDue, c1, c4, hp]
    rw [this]
  · have ce : y.cell r = t.cell r := by unfold State.cell; rw [c4, a1]
    have tg : y.target r = t.target r := by unfold State.target State.phaseTarget; rw [c1, c3, c4, c5]
    have ta : y.tally r = t.tally r := by unfold State.tally; rw [lp, pc]
    have sm : y.sumBefore r = t.sumBefore r := by
      unfold State.sumBefore
      have : y.walksBefore = t.walksBefore := by funext z; unfold State.walksBefore; rw [c5]
      rw [lp, this]
    rw [ce, tg, ta, sm, pc]; exact h.cells r
  · obtain ⟨h1, h2⟩ := h.standing
    unfold StandingJudged
    rw [c4]
    refine ⟨h1.trans ?_, h2⟩
    unfold State.belowStanding State.required
    rw [c1, c4, c5]
  · have e1 := hl.1
    have f1 := h.line.1
    rw [a1, a4, a5]
    generalize y.lc = l at e1 ⊢
    generalize t.lc = m at e1 f1 ⊢
    rw [e1, f1]
  · exact ⟨a4.trans (h.marks k).1, hs (h.marks k).2⟩

end Sys2Proof.Machine
end

