-- ==== Sys2Proof/Laws/Exchanges.lean ====
section
/-!
SUPPORT. What an exchange does: the bytes its bits spell, the address its detail page comes to, and the one form of a
report's arrival.
-/

namespace Sys2Proof.Machine

/-! ### Bits of bytes (R187) -/

/-- The two spellings of a byte's bits agree. -/
theorem msbFirst_eq (b : Byte) : msbFirst b = bitsOfByte b := by
  simp [msbFirst, bitsOfByte, List.range, List.range.loop, BitVec.getLsbD_eq_getElem]

/-- The bits of a byte are read back as that byte. -/
theorem bytesOfBits_byte (b : Byte) (l : List Bool) : bytesOfBits (bitsOfByte b ++ l) = b :: bytesOfBits l := by
  show _ :: _ = _
  congr 1
  revert b
  decide

/-- Fewer than eight bits are no byte. -/
theorem bytesOfBits_rest (l : List Bool) (h : l.length < 8) : bytesOfBits l = [] := by
  unfold bytesOfBits
  split
  · simp at h
    omega
  · rfl

/-- The bits of an exchange are read as the bytes they spell. -/
theorem bytesOfBits_spells {sdi : List Bool} {bytes : List Byte} (h : Spells sdi bytes) : bytesOfBits sdi = bytes := by
  obtain ⟨rest, hr, rfl⟩ := h
  induction bytes with
  | nil => exact bytesOfBits_rest rest hr
  | cons b bs ih => rw [List.flatMap_cons, List.append_assoc, msbFirst_eq, bytesOfBits_byte, ih]

/-! ### The detail page (R148) -/

/-- The addresses of the detail page are those it goes round. -/
theorem mem_detailStations (s : State) (a : Station) : a ∈ s.detailStations ↔ s.onRound a := by
  unfold State.detailStations State.onRound
  rw [List.mem_filter]
  have : a ∈ stations ↔ a ≠ 0 := by
    revert a
    decide
  rw [this]
  simp

/-- They stand in rising order. -/
theorem detailStations_rising (s : State) : s.detailStations.Pairwise (· < ·) :=
  List.Pairwise.filter _ (by decide)

/-- The address after the cursor: the lowest above it, or the lowest of all where none is above. -/
def State.IsNext (s : State) (a : Station) : Prop :=
  s.onRound a ∧ (s.sp.cursor < a ∧ (∀ x, s.onRound x → s.sp.cursor < x → a ≤ x)
    ∨ (∀ x, s.onRound x → x ≤ s.sp.cursor) ∧ ∀ x, s.onRound x → a ≤ x)

/-- There is one such address at most. -/
theorem isNext_unique {s : State} {a b : Station} (ha : s.IsNext a) (hb : s.IsNext b) : a = b := by
  obtain ⟨ra, ha⟩ := ha
  obtain ⟨rb, hb⟩ := hb
  rcases ha with ⟨a1, a2⟩ | ⟨a1, a2⟩ <;> rcases hb with ⟨b1, b2⟩ | ⟨b1, b2⟩
  · exact le_antisymm (a2 b rb b1) (b2 a ra a1)
  · exact absurd a1 (not_lt.mpr (b1 a ra))
  · exact absurd b1 (not_lt.mpr (a1 b rb))
  · exact le_antisymm (a2 b rb) (b2 a ra)

/-- The page shows the next address, or nothing where it goes round none. -/
theorem nextDetail_cases (s : State) :
    (∃ a, s.nextDetail = some a ∧ s.IsNext a) ∨ s.nextDetail = none ∧ ∀ a, ¬ s.onRound a := by
  have so := detailStations_rising s
  have mem := mem_detailStations s
  unfold State.nextDetail State.IsNext
  generalize s.detailStations = l at so mem
  cases h : l.find? fun a => s.sp.cursor < a with
  | some a =>
    obtain ⟨h1, l1, l2, rfl, h2⟩ := List.find?_eq_some_iff_append.mp h
    refine .inl ⟨a, rfl, (mem a).mp (by simp), .inl ⟨by simpa using h1, fun x hx hc => ?_⟩⟩
    rw [List.pairwise_append, List.pairwise_cons] at so
    rcases List.mem_append.mp ((mem x).mpr hx) with k | k
    · exact absurd hc (by simpa using h2 x k)
    · rcases List.mem_cons.mp k with rfl | k
      · exact le_refl _
      · exact le_of_lt (so.2.1.1 x k)
  | none =>
    have none_above : ∀ x, s.onRound x → x ≤ s.sp.cursor := fun x hx => by
      simpa using List.find?_eq_none.mp h x ((mem x).mpr hx)
    cases l with
    | nil => exact .inr ⟨rfl, fun a ha => nomatch (mem a).mpr ha⟩
    | cons b l =>
      refine .inl ⟨b, rfl, (mem b).mp (by simp), .inr ⟨none_above, fun x hx => ?_⟩⟩
      rw [List.pairwise_cons] at so
      rcases List.mem_cons.mp ((mem x).mpr hx) with rfl | k
      · exact le_refl _
      · exact le_of_lt (so.1 x k)

/-- The cursor after a snapshot moves as R148 says. -/
theorem cursorAfter_moves (s : State) : s.CursorMoves s.cursorAfter := by
  unfold State.CursorMoves State.cursorAfter
  rcases nextDetail_cases s with ⟨a, e, h⟩ | ⟨e, h⟩
  · rw [e]
    refine ⟨fun k => ?_, fun b p hb hc => ?_⟩
    · rcases k with k | k
      · rw [if_neg k]
      · exact absurd h.1 (k a)
    · rw [if_pos p]
      exact isNext_unique h ⟨hb, hc⟩
  · rw [e]
    exact ⟨fun _ => by split <;> rfl, fun b _ hb => absurd hb (h b)⟩

/-- And there is no other way for it to move. -/
theorem cursorMoves_unique {s : State} {c : Station} (h : s.CursorMoves c) : c = s.cursorAfter := by
  have k := cursorAfter_moves s
  unfold State.CursorMoves at h k
  by_cases p : s.sp.page = 3
  · rcases nextDetail_cases s with ⟨a, _, ha⟩ | ⟨_, n⟩
    · rw [h.2 a p ha.1 ha.2, k.2 a p ha.1 ha.2]
    · rw [h.1 (.inr n), k.1 (.inr n)]
  · rw [h.1 (.inl p), k.1 (.inl p)]

/-! ### A report's arrival (R143 to R145) -/

/-- The exchange is over: the page has advanced, and the local result it carried is noted. -/
def State.exchanged (s : State) (e : Exchange) (c : Station) : State :=
  { s with sp := { s.sp with
    page := s.sp.page + 1, exchange := none, cursor := c, seenPresent := e.present, seenCount := e.count } }

/-- A report's arrival: an invalid one is counted, of a valid one the parts are taken. -/
theorem reportArrival_eq {sdi : List Bool} {bytes : List Byte} {s : State} {e : Exchange} {c : Station}
    (hb : Spells sdi bytes) (h : s.Ends e c) :
    exec (.reportArrival sdi) s = .next (match parseReport bytes with
      | none => { s with sp := { s.sp with
          page := s.sp.page + 1, exchange := none, cursor := c, reportErrors := min 255 (s.sp.reportErrors + 1) } }
      | some r => (s.exchanged e c).takeParts r) := by
  show Host.Outcome.next (s.startExchange.arrival (bytesOfBits sdi)) = _
  rw [bytesOfBits_spells hb]
  unfold State.arrival
  rcases h with ⟨hx, rfl⟩ | ⟨hx, hp, hc, hm⟩
  · have : s.startExchange = s := by
      unfold State.startExchange
      rw [hx]
    rw [this, hx]
    cases parseReport bytes <;> rfl
  · have : s.startExchange = { s with sp := { s.sp with
        cursor := c, exchange := some ⟨s.orderRecord, e.present, e.count⟩ } } := by
      unfold State.startExchange
      rw [hx, cursorMoves_unique hm, hp, hc]
      rfl
    rw [this]
    cases parseReport bytes <;> rfl

end Sys2Proof.Machine
end

