-- ==== Sys2Proof/Laws/Reports.lean ====
section
/-!
SUPPORT. What the writing of a peer entry does: the entry itself, and its change report where no transition waits on it.
-/

namespace Sys2Proof.Machine

/-- An address other than 0 has an entry. -/
theorem station_pos {a : Station} (h : a ≠ 0) : 0 < a.val := by
  have : a.val ≠ 0 := fun k => h (Fin.ext k)
  omega

/-- The entry written reads back. -/
theorem setPeer_stored (s : State) (a : Station) (e : PeerEntry) (h : a ≠ 0) : (s.setPeer a e).stored a = e := by
  have p := station_pos h
  unfold State.setPeer State.stored
  simp [p, State.setPv]

/-- The writing of one entry leaves the others alone. -/
theorem setPeer_stored_ne (s : State) (a b : Station) (e : PeerEntry) (h : b ≠ a) :
    (s.setPeer a e).stored b = s.stored b := by
  have hv : b.val ≠ a.val := fun k => h (Fin.ext k)
  unfold State.setPeer State.stored
  split
  · rename_i p
    split
    · rename_i q
      simp only [State.setPv]
      rw [Vector.getElem_set_ne]
      omega
    · rfl
  · rfl

/-- The writing of an entry touches the peer table alone. -/
theorem setPeer_eq (s : State) (a : Station) (e : PeerEntry) :
    s.setPeer a e = { s with pv := { s.pv with peers := (s.setPeer a e).pv.peers } } := by
  unfold State.setPeer; split <;> rfl

/-- The AU's part of a change report that calls for nothing else. -/
theorem allotReport_calm (m : State) (f : Resource → Bool) (hc : m.atStage .waitClaim = false)
    (hr : m.ps.phase.underRate = false ∨ m.au.underStanding = true) :
    m.allotReport f = (m.reportCells f).judgeStanding := by
  have q : (m.reportCells f).judgeStanding.ps = m.ps := by rw [judgeStanding_au, reportCells_eq]; rfl
  unfold State.allotReport State.afterAllotment State.standingRises
  have n : (!m.au.underStanding && (m.reportCells f).judgeStanding.au.underStanding
      && (m.reportCells f).judgeStanding.ps.phase.underRate) = false := by
    rw [q]; rcases hr with h | h <;> simp [h]
  rw [n]
  simp only [Bool.false_eq_true, if_false]
  unfold State.pollClaim
  rw [q]
  unfold State.atStage at hc
  split
  · rename_i r hs
    rw [hs] at hc
    have : r.stage ≠ .waitClaim := by simpa using hc
    simp [this]
  · rfl

/-- A change report that calls for nothing else. -/
theorem takeReport_calm (m : State) (f : Resource → Bool) (hw : m.atStage .waitPrereq = false)
    (hc : m.atStage .waitClaim = false) (hr : m.ps.phase.underRate = false ∨ m.au.underStanding = true) :
    m.takeReport f = (m.reportCells f).judgeStanding := by
  unfold State.takeReport
  rw [hw, allotReport_calm m f hc hr]
  simp only [Bool.false_and, Bool.false_eq_true, if_false]
  have q : (m.reportCells f).judgeStanding.ps = m.ps := by rw [judgeStanding_au, reportCells_eq]; rfl
  unfold State.pollList
  rw [q]
  unfold State.atStage at hw
  split
  · rename_i r hs
    rw [hs] at hw
    have : r.stage ≠ .waitPrereq := by simpa using hw
    simp [this]
  · rfl

/-- The work of a change report on each resource, and UNDER_STANDING after it. `m` is the state in which it is taken. -/
theorem report_work (m : State) (f : Resource → Bool) :
    (m.reportCells f).judgeStanding = { m with
        au := (m.reportCells f).judgeStanding.au
        lc := { m.lc with allot := (m.reportCells f).judgeStanding.lc.allot } }
      ∧ (∀ x, (m.reportCells f).judgeStanding.cell x = m.reported f x)
      ∧ StandingJudged m (m.reportCells f).judgeStanding
      ∧ (∀ x, (m.reportCells f).judgeStanding.tally x = m.tally x)
      ∧ (∀ x, (m.reportCells f).judgeStanding.sumBefore x = m.sumBefore x) := by
  have q : (m.reportCells f).judgeStanding = { m with
        au := (m.reportCells f).judgeStanding.au
        lc := { m.lc with allot := (m.reportCells f).judgeStanding.lc.allot } } := by
    rw [judgeStanding_au, reportCells_eq]; rfl
  have cl : ∀ x, (m.reportCells f).judgeStanding.cell x = m.reported f x := by
    intro x; rw [judgeStanding_cell, reportCells_eq, setCells_cell]
  have st : StandingJudged m (m.reportCells f).judgeStanding := by
    rw [judgeStanding_au, reportCells_eq]; exact ⟨rfl, rfl⟩
  refine ⟨q, cl, st, ?_, ?_⟩
  · intro x
    have rd : ((m.reportCells f).judgeStanding.au.res.get x).reading = (m.au.res.get x).reading := by
      have : ((m.reportCells f).judgeStanding.au.res.get x) = ((m.reportCells f).judgeStanding.cell x).a := rfl
      rw [this, cl]; exact (reported_keeps m f x).2
    have p : (m.reportCells f).judgeStanding.ps = m.ps ∧ (m.reportCells f).judgeStanding.cs = m.cs
        ∧ (m.reportCells f).judgeStanding.pv = m.pv := by rw [q]; exact ⟨rfl, rfl, rfl⟩
    unfold State.tally State.publishedCapacity State.livePeers State.isOwn State.stored
    rw [p.1, p.2.1, p.2.2, rd]
  · intro x
    have p : (m.reportCells f).judgeStanding.cs = m.cs ∧ (m.reportCells f).judgeStanding.pv = m.pv := by
      rw [q]; exact ⟨rfl, rfl⟩
    unfold State.sumBefore
    have : (m.reportCells f).judgeStanding.walksBefore = m.walksBefore := by
      funext z; unfold State.walksBefore; rw [p.1]
    rw [this]
    unfold State.livePeers State.isOwn State.stored
    rw [p.1, p.2]

/-- The lowest of the addresses heard (R148). -/
theorem providerAfter_min (a : Station) (o : Option Station) :
    providerAfter a o = match o with
      | none => a
      | some b => min a b := by
  cases o with
  | none => rfl
  | some b =>
    unfold providerAfter
    dsimp only
    split
    · exact (min_eq_left (le_of_lt ‹_›)).symm
    · exact (min_eq_right (not_lt.mp ‹_›)).symm

/-- A writing that alters nothing but last-heard leaves what the node publishes. -/
theorem entry_heard (s : State) (a : Station) (e : PeerEntry) (ha : a ≠ 0)
    (al : { e with lastHeard := (s.stored a).lastHeard } = s.stored a) : (s.setPeer a e).ownEntry = s.ownEntry := by
  have n : ∀ b, (s.setPeer a e).neighbour PeerEntry.acceptance b = s.neighbour PeerEntry.acceptance b := by
    intro b
    unfold State.neighbour
    by_cases hb : b = a
    · subst hb
      rw [setPeer_stored s b e ha, ← al]
    · rw [setPeer_stored_ne s a b e hb]
  have se := setPeer_eq s a e
  have d : (s.setPeer a e).downstream = s.downstream := by
    unfold State.downstream State.overRoles
    have c : (s.setPeer a e).cs = s.cs := by rw [se]
    rw [c, n, n]
  have o : (s.setPeer a e).acceptance = s.acceptance := by
    unfold State.acceptance State.ownAcceptance State.tailSection State.room
    rw [d, se]
  unfold State.ownEntry
  rw [o, se]; rfl

end Sys2Proof.Machine
end

