-- ==== Sys2Proof/Laws/Outcomes.lean ====
section
/-!
SUPPORT. The outcomes of frames: what an event with nothing on the line publishes, the AU's work on one cell or on all,
and its end where it calls for nothing else.
-/

namespace Sys2Proof.Machine

/-- With no notice in transmission a note of change sets the short due mark alone (R172, R174). -/
theorem noteChange_idleLine (s y : State) (ht : y.lc.tx = none) :
    s.noteChange y
      = y.setLc { y.lc with shortDue := y.lc.shortDue || (y.cs.locked && s.shortCalled (s.noteChange y)) } := by
  have n : y.lc.noticeInTransmission = false := by unfold LC.noticeInTransmission; rw [ht]
  obtain ⟨n1, n2, n3, n4⟩ := noteChange_eq s y
  rw [← n4]
  have e : s.noteChange y = y.setLc { y.lc with shortDue := (s.noteChange y).lc.shortDue } := by
    unfold State.noteChange State.markShort
    split
    · split
      · unfold LC.markShort; rw [n, Bool.or_false]; rfl
      · rfl
    · rfl
  exact e

theorem publish_idleLine (s y : State) (hw : y.atStage .waitPrereq = false) (ht : y.lc.tx = none) :
    s.publish y
      = y.setLc { y.lc with shortDue := y.lc.shortDue || (y.cs.locked && s.shortCalled (s.publish y)) } := by
  rw [publish_eq s y hw]; exact noteChange_idleLine s y ht

/-- The end of the AU's work where it calls for nothing else (R70, R77). -/
theorem afterAllotment_calm (m j : State) (hp : j.ps = m.ps) (hc : m.atStage .waitClaim = false)
    (hr : m.ps.phase.underRate = false ∨ m.au.underStanding = true) : m.afterAllotment j = j := by
  unfold State.afterAllotment State.standingRises
  have n : (!m.au.underStanding && j.au.underStanding && j.ps.phase.underRate) = false := by
    rw [hp]; rcases hr with h | h <;> simp [h]
  rw [n]
  simp only [Bool.false_eq_true, if_false]
  unfold State.pollClaim
  rw [hp]
  unfold State.atStage at hc
  split
  · rename_i r hs
    rw [hs] at hc
    have : r.stage ≠ .waitClaim := by simpa using hc
    simp [this]
  · rfl

/-- The tallies do not change where the peer table, the store, the phase and the capacity readings do not (R80). -/
theorem tally_eq (t u : State) (x : Resource) (h1 : t.pv.peers = u.pv.peers) (h2 : t.cs = u.cs)
    (h3 : t.ps.phase = u.ps.phase) (h4 : (t.au.res.get x).reading = (u.au.res.get x).reading) :
    t.tally x = u.tally x := by
  unfold State.tally State.publishedCapacity State.livePeers State.isOwn State.stored
  rw [h1, h2, h3, h4]

/-- Nor do the holdings before the own one. -/
theorem sumBefore_eq (t u : State) (x : Resource) (h1 : t.pv.peers = u.pv.peers) (h2 : t.cs = u.cs) :
    t.sumBefore x = u.sumBefore x := by
  unfold State.sumBefore
  have : t.walksBefore = u.walksBefore := by funext z; unfold State.walksBefore; rw [h2]
  rw [this]
  unfold State.livePeers State.isOwn State.stored
  rw [h1, h2]

/-- Work on each cell that reads nothing of the other cells is done on all at once. -/
theorem foldSet_eq (g : State → Resource → Cell) (h : ∀ t x c r, x ≠ r → g (t.setCell x c) r = g t r) (s : State) :
    Resource.all.foldl (fun t r => t.setCell r (g t r)) s = s.setCells (g s) := by
  change (((s.setCell .steam (g s .steam)).setCell .power _).setCell .lime _).setCell .water _ = _
  dsimp only
  rw [h _ .lime _ .water (by decide), h _ .power _ .water (by decide), h _ .steam _ .water (by decide),
    h _ .power _ .lime (by decide), h _ .steam _ .lime (by decide), h _ .steam _ .power (by decide)]
  rfl

/-- A cell's work reads nothing of the other cells. -/
theorem setCell_other (t : State) (x : Resource) (c : Cell) (r : Resource) (h : x ≠ r) :
    (t.setCell x c).cell r = t.cell r ∧ (t.setCell x c).cellView r = t.cellView r
      ∧ (t.setCell x c).tally r = t.tally r := by
  cases x <;> cases r <;> first | exact absurd rfl h | exact ⟨rfl, rfl, rfl⟩

/-- UNDER_STANDING is judged from the holdings, the phase and the store (R89). -/
theorem standing_after (s t j : State) (h : StandingJudged s j.judgeStanding) (h1 : t.au = j.judgeStanding.au)
    (h2 : t.ps.phase = j.ps.phase) (h3 : t.cs = j.cs) : StandingJudged s t := by
  unfold StandingJudged at h ⊢
  rw [h1]
  refine ⟨h.1.trans ?_, h.2⟩
  unfold State.belowStanding State.required
  rw [h1]
  have : j.judgeStanding.ps = j.ps ∧ j.judgeStanding.cs = j.cs := by rw [judgeStanding_au]; exact ⟨rfl, rfl⟩
  rw [this.1, this.2, h2, h3]

/-- A judgement of UNDER_STANDING from a state that has the flag, the timer and the store of `s` (R89, R90). -/
theorem judgeStanding_judged (s j : State) (h1 : j.au.underStanding = s.au.underStanding)
    (h2 : j.au.underTimer = s.au.underTimer) (h3 : j.cs = s.cs) : StandingJudged s j.judgeStanding := by
  rw [judgeStanding_au]
  refine ⟨rfl, ?_⟩
  show (if j.belowStanding then (if j.au.underStanding then j.au.underTimer else some j.cs.set.tClaimWait) else none) = _
  rw [h1, h2, h3]; rfl

end Sys2Proof.Machine
end

