-- ==== Sys2Proof/Laws/Timers.lean ====
section
/-!
SUPPORT. What the expiries lead to: a transition that goes on to its SET_PHASE without a further reply, an arbiter that a
full list keeps still, and the targets an expiry of the rate interval hands on.
-/

namespace Sys2Proof.Machine

/-- A full list, or a waiting or outstanding SET_PHASE, holds everything back (R151). -/
theorem issueNext_full (s : State) (h : s.sp.outstanding ≠ [])
    (k : s.sp.lookAhead = false ∨ s.sp.tripReq = true ∨ s.sp.psReq ≠ none ∨ s.sp.pairReq ≠ none
        ∨ s.sp.recoveryReq ≠ none ∨ (∃ o ∈ s.sp.outstanding, o.command.isSetPhase = true)) : s.issueNext = s := by
  have hl : 0 < s.sp.outstanding.length := List.length_pos_of_ne_nil h
  unfold State.issueNext
  dsimp only
  rw [List.isEmpty_eq_false_iff.mpr h]
  split; · rfl
  split; · rfl
  split; · rfl
  split; · rfl
  split
  · rename_i h1 _ h2 _ h3 _ h4 h5
    exfalso
    rcases k with k | k | k | k | k | ⟨o, ho, k⟩
    · have e : s.sp.room = 1 := by simp [SP.room, k]
      have := h5.1; omega
    · exact h1 k
    · exact k h2
    · exact k h3
    · exact k h4
    · have := h5.2
      simp [SP.setPhaseOut] at this
      rw [this o ho] at k; cases k
  · rfl

theorem arbitrate_full (s : State) (h : s.sp.outstanding ≠ [])
    (k : s.sp.lookAhead = false ∨ s.sp.tripReq = true ∨ s.sp.psReq ≠ none ∨ s.sp.pairReq ≠ none
        ∨ s.sp.recoveryReq ≠ none ∨ (∃ o ∈ s.sp.outstanding, o.command.isSetPhase = true)) : s.arbitrate = s := by
  unfold State.arbitrate; rw [issueNext_full s h k, issueNext_full s h k]

/-- A transition already replied PENDING reaches its SET_PHASE (R10, R11). -/
theorem toIssue_goesOn (u : State) (r : SlotRec) (hp : r.pendingSent = true) (ht : u.sp.tripReq = false)
    (hq : u.sp.psReq = none) (hr : u.sp.pairReq = none) : u.toIssue r = u.goesOn r := by
  rw [toIssue_any u r ht hq hr]
  unfold State.goesOn
  split
  · rename_i h
    unfold State.slotIssued
    dsimp only
    rw [if_pos (by exact hp)]; rfl
  · rfl

/-- The TU's step with the list empty and nothing ahead of it (R64, R151). -/
theorem arbitrate_rate (u : State) (v : Nat) (h : u.sp.outstanding = []) (h1 : u.sp.tripReq = false)
    (h2 : u.sp.psReq = none) (h3 : u.sp.pairReq = none) (h4 : u.sp.recoveryReq = none) (h5 : u.sp.turnoverReq = false)
    (hn : u.hu.NoneWaiting) (hr : u.sp.rateReq = some v) (hl : u.sp.lookAhead = false) :
    u.arbitrate = u.setSp { u.sp.issued u.cs.set (.setRate v false) with
      rIss := v, rateReq := u.tu.train.bind (nextStep u.cs.set.maxStep v) } := by
  have e0 : u.issueNext = u.setSp { u.sp.issued u.cs.set (.setRate v false) with
      rIss := v, rateReq := u.tu.train.bind (nextStep u.cs.set.maxStep v) } := by
    unfold State.issueNext; dsimp only; rw [h1, h2, h3, h4]; dsimp only
    rw [if_neg (by simp), if_pos (by rw [h]; simp [SP.room, SP.setPhaseOut, hl, h])]
    unfold State.issueLower State.issueWork?
    rw [if_neg (by rw [h5]; simp), takeWaiting_none _ _ hn, hr]
    show u.issueStep v = _
    unfold State.issueStep State.issueRate
    rw [emit_empty _ _ _ h]
    rfl
  have : u.arbitrate = u.issueNext := by
    unfold State.arbitrate; rw [e0]
    exact issueNext_full _ (by simp [SP.issued]) (.inl hl)
  rw [this, e0]

/-- An expiry of the rate interval, published: the targets it hands on. `v` is the state before the AU takes them. -/
theorem reckoned_of (s v y u : State) (hv : v = { s with tu := u.tu })
    (hy : y = { v.refreshCells.judgeStanding with sp := u.sp, ps := u.ps, pv := u.pv, free := u.free })
    (hu : u = { s with tu := u.tu, sp := u.sp, ps := u.ps, pv := u.pv, free := u.free })
    (hp : u.ps.phase = s.ps.phase) (hw : s.publish y = s.noteChange y) : Reckoned s u (s.publish y) := by
  have nc := noteChange_eq s y
  rw [← hw] at nc
  obtain ⟨n1, n2, n3, n4⟩ := nc
  have q : v.refreshCells.judgeStanding
      = { v with au := v.refreshCells.judgeStanding.au
                 lc := { v.lc with allot := v.refreshCells.judgeStanding.lc.allot } } := by
    rw [judgeStanding_au, refreshCells_eq]; rfl
  have cl : ∀ x, v.refreshCells.judgeStanding.cell x
      = (v.cell x).refresh (v.cellView x) (v.tally x) (v.sumBefore x) := by
    intro x; rw [judgeStanding_cell, refreshCells_cell]
  have st : v.refreshCells.judgeStanding.au.underStanding = v.refreshCells.judgeStanding.belowStanding
      ∧ v.refreshCells.judgeStanding.au.underTimer
        = if v.refreshCells.judgeStanding.au.underStanding then
            (if v.au.underStanding then v.au.underTimer else some v.cs.set.tClaimWait) else none := by
    rw [judgeStanding_au, refreshCells_eq]; exact ⟨rfl, rfl⟩
  generalize v.refreshCells.judgeStanding = j at hy q cl st
  have jl : j.lc = { s.lc with allot := j.lc.allot } := by rw [q, hv]
  have yl : y.lc = j.lc := by rw [hy]
  have ya : y.au = j.au := by rw [hy]
  have pa : (s.publish y).au = j.au := by rw [n1]; exact ya
  have pc : (s.publish y).cs = s.cs := by rw [n1]; show y.cs = _; rw [hy, q, hv]
  have pp : (s.publish y).ps.phase = s.ps.phase := by rw [n1]; show y.ps.phase = _; rw [hy]; exact hp
  have pt : (s.publish y).tu = u.tu := by rw [n1]; show y.tu = _; rw [hy, q, hv]
  have al : (s.publish y).lc.allot = j.lc.allot := by rw [n2.1, ← yl]
  have cell : ∀ x, (s.publish y).cell x = j.cell x := by
    intro x; unfold State.cell; rw [pa, al]
  refine ⟨?_, fun x => ?_, ⟨?_, ?_⟩, ⟨?_, ?_⟩, ⟨?_, ?_⟩, ?_⟩
  · rw [pa]
    refine n1.trans ?_
    generalize (s.publish y).lc = l
    conv_rhs => rw [hu]
    rw [hy, q, hv]; rfl
  · rw [cell, cl]
    have e1 : v.cell x = s.cell x := by rw [hv]; rfl
    have e2 : v.cellView x = ⟨(s.publish y).target x, s.allotBegun x, s.lc.line = .active⟩ := by
      have : (s.publish y).target x = v.target x := by
        unfold State.target
        have f1 : (s.publish y).phaseTarget x = v.phaseTarget x := by
          unfold State.phaseTarget; rw [pp, pc, pt, hv]
        have f2 : ((s.publish y).au.res.get x).raised = (v.au.res.get x).raised := by
          have : ((s.publish y).au.res.get x) = (j.cell x).a := by rw [pa]; rfl
          rw [this, cl, Cell.refresh_raised]; rfl
        rw [f1, f2]
      rw [this, hv]; rfl
    have e3 : v.tally x = s.tally x ∧ v.sumBefore x = s.sumBefore x := by rw [hv]; exact ⟨rfl, rfl⟩
    rw [e1, e2, e3.1, e3.2]
  · rw [pa, st.1]
    unfold State.belowStanding State.required
    rw [pa, pp, pc]
    have : j.ps.phase = s.ps.phase ∧ j.cs = s.cs := by rw [q, hv]; exact ⟨rfl, rfl⟩
    rw [this.1, this.2]
  · rw [pa, st.2, hv]
  · have k := n2.1
    generalize (s.publish y).lc = l at k ⊢
    rw [yl, jl] at k
    rw [k]
  · rw [n2.2, yl, jl]
  · rw [n3.1, yl, jl]
  · rw [n3.2, yl, jl]
  · unfold ShortMarked
    rw [n4, yl, jl]
    have : y.cs = s.cs := by rw [hy, q, hv]
    rw [this]

end Sys2Proof.Machine
end

