-- ==== Sys2Proof/Laws/Frames.lean ====
section
/-!
SUPPORT. The outcomes of frames in transmission: the cell of a resource's frame, and the notices.
-/

namespace Sys2Proof.Machine

/-- The two outcomes of a frame in transmission (R167). -/
theorem begun_base (s : State) (x : Tx) (h : s.lc.tx = some x) (b : x.begun = true) :
    exec .frameCompletion s = .next (s.publish (s.frameDone x)) ∧ exec .frameFailure s = .next (s.publish (s.frameFailed x)) := by
  constructor
  · show Host.Outcome.next (s.whileBegun s.frameDone) = _
    unfold State.whileBegun; rw [h]; dsimp only; rw [b]; rfl
  · show Host.Outcome.next (s.whileBegun s.frameFailed) = _
    unfold State.whileBegun; rw [h]; dsimp only; rw [b]; rfl

/-- What an outcome that has written the AU and the line controller leaves once published. -/
theorem outcome_cell (s u j : State) (l : LC)
    (hu : u = { s with lc := u.lc }) (hj : j = { u with au := j.au, lc := j.lc }) 
    (hjl : j.lc = { l with allot := j.lc.allot }) (hlt : l.tx = none)
    (hst : StandingJudged s j)
    (hpw : s.atStage .waitPrereq = false) :
    LineAfter s (s.publish j) l ∧ (∀ x, (s.publish j).cell x = j.cell x) ∧ (s.publish j).au = j.au ∧ (s.publish j).cs = s.cs ∧ (s.publish j).ps = s.ps ∧ (s.publish j).pv = s.pv := by
  have jps : j.ps = s.ps := by rw [hj, hu]
  have jcs : j.cs = s.cs := by rw [hj, hu]
  have jpv : j.pv = s.pv := by rw [hj, hu]
  have p := publish_idleLine s j (by unfold State.atStage at hpw ⊢; rw [jps]; exact hpw) (by rw [hjl]; exact hlt)
  generalize s.publish j = t at p
  have tau : t.au = j.au := by rw [p]; rfl
  have tal : t.lc.allot = j.lc.allot := by rw [p]; rfl
  have tps : t.ps = s.ps := by rw [p]; exact jps
  have tcs : t.cs = s.cs := by rw [p]; exact jcs
  refine ⟨⟨?_, ?_, ?_⟩, ?_, tau, tcs, tps, by rw [p]; exact jpv⟩
  · rw [tau]; refine p.trans ?_
    have : ({ j.lc with shortDue := j.lc.shortDue || (j.cs.locked && s.shortCalled t) } : LC) = t.lc := by
      conv => rhs; rw [p]
      rfl
    rw [this]
    generalize t.lc = k
    rw [hj, hu]; rfl
  · have : t.lc = { j.lc with shortDue := j.lc.shortDue || (j.cs.locked && s.shortCalled t) } := by
      conv => lhs; rw [p]
      rfl
    rw [tal]
    refine this.trans ?_
    rw [jcs]
    generalize j.lc.allot = al at hjl
    rw [hjl]
  · have h := hst
    unfold StandingJudged at h ⊢
    rw [tau]
    refine ⟨h.1.trans ?_, h.2⟩
    unfold State.belowStanding State.required
    rw [tau, tps, tcs, jps, jcs]
  · intro x; unfold State.cell; rw [tau, tal]

/-- What an outcome leaves once published, the sequencer's and the section port's parts having come to those of `u`. -/
theorem outcome_moved (s u j : State) (l : LC) (hu : u = { s with ps := u.ps, sp := u.sp })
    (hj : j = { u with au := j.au, lc := { l with allot := j.lc.allot } }) (hlt : l.tx = none)
    (hw : u.atStage .waitPrereq = false) :
    s.publish j = { u with au := j.au, lc := (s.publish j).lc }
      ∧ (s.publish j).lc = { l with
          allot := j.lc.allot, shortDue := l.shortDue || (s.cs.locked && s.shortCalled (s.publish j)) } := by
  have jps : j.ps = u.ps := by rw [hj]
  have jlc : j.lc = { l with allot := j.lc.allot } := congrArg State.lc hj
  have jcs : j.cs = s.cs := by rw [hj, hu]
  have p := publish_idleLine s j (by unfold State.atStage at hw ⊢; rw [jps]; exact hw) (by rw [jlc]; exact hlt)
  have e : (s.publish j).lc
      = { j.lc with shortDue := j.lc.shortDue || (j.cs.locked && s.shortCalled (s.publish j)) } := by
    conv => lhs; rw [p]
    rfl
  refine ⟨?_, ?_⟩
  · refine p.trans ?_
    rw [e]
    generalize s.shortCalled (s.publish j) = q
    generalize ({ j.lc with shortDue := j.lc.shortDue || (j.cs.locked && q) } : LC) = m
    exact congrArg (fun z : State => z.setLc m) hj
  · rw [e, jcs, jlc]

/-- The auto hold that the TU asks for, once the AU and the line controller have done their work (R20, R70). -/
theorem requestAutoHold_asked (s u : State) (a : AU) (l : LC) (h : HoldAsked s u) :
    ({ s with au := a, lc := l } : State).requestAutoHold = { u with au := a, lc := l } := by
  unfold State.requestAutoHold
  rcases h with ⟨h, rfl⟩ | ⟨⟨h1, h2, h3⟩, hf, rfl⟩
  · rw [if_pos (by
      rcases h with k | k
      · simp [Option.isSome_iff_ne_none.mpr k]
      · simp [k])]
    rfl
  · rw [if_neg (by simp [h1, hf])]
    have en : ({ s with au := a, lc := l } : State).enterSlot autoHoldRec
        = (({ s with au := a, lc := l } : State).toIssue { autoHoldRec with handoff := .notNeeded }).notePending := rfl
    rw [en, toIssue_eq ({ s with au := a, lc := l } : State) { autoHoldRec with handoff := .notNeeded }
      (by simp [autoHoldRec, SlotRec.new]) h3]
    dsimp only
    by_cases ho : s.sp.outstanding = []
    · simp only [ho, if_true]
      have hi : ({ s.sp.issued s.cs.set (.setPhase ({ autoHoldRec with handoff := .notNeeded } : SlotRec).target
          .transition) with psReq := none } : SP) = s.sp.issued s.cs.set (.setPhase .hold .transition) := by
        show ({ s.sp.issued s.cs.set _ with psReq := none } : SP) = _
        unfold SP.issued; rw [← h2]; rfl
      rw [hi]
      exact notePending_past _ _ (slotIssued_slot _ _ rfl) rfl
    · simp only [ho, if_false]
      exact notePending_past _ _ rfl rfl

/-- The AU's report of a rise, taken by the transition that waits for its claims, once the AU and the line controller
have done their work (R77). -/
theorem pollClaim_reported (s m u : State) (q : SlotRec) (a : AU) (l : LC) (hs : s.ps.slot = some q)
    (hq : q.stage = .waitClaim) (hp : q.pendingSent = true) (h : RiseReported s m u q)
    (hr : ({ s with au := a, lc := l } : State).claimReached = m.claimReached) :
    ({ s with au := a, lc := l } : State).pollClaim = { u with au := a, lc := l } := by
  unfold State.pollClaim
  dsimp only
  rw [hs]
  dsimp only
  rw [hr]
  rcases h with ⟨⟨x, hx⟩, hc, rfl⟩ | ⟨hx, h⟩
  · have : m.claimReached = false := by
      unfold State.claimReached
      rw [List.all_eq_false]
      exact ⟨x, by cases x <;> simp [Resource.all], by simpa using hx⟩
    rw [this, hc]; simp
  · have : m.claimReached = true := by
      unfold State.claimReached
      rw [List.all_eq_true]
      intro x _; simpa using hx x
    rw [this, if_pos (by simp [hq])]
    rcases h with ⟨hf, rfl⟩ | ⟨hf, h1, h2, h3, hk, rfl⟩
    · rw [hf]; rfl
    · rw [hf]
      simp only [Bool.false_eq_true, if_false]
      have e : ({ s with au := a, lc := l } : State).toHandoff { q with claimReached := true }
          = ({ s with au := a, lc := l } : State).toIssue { q with claimReached := true, handoff := .notNeeded } := by
        unfold State.toHandoff
        rcases hk with k | ⟨k, n⟩ | ⟨k, n⟩
        · simp [k, TransKind.point]
        · have g : s.cs.set.points.get .fill = s.cs.set.points.fill := rfl
          simp [k, TransKind.point, State.takePoint, State.waitOf, g, n]
        · have g : s.cs.set.points.get .feed = s.cs.set.points.feed := rfl
          simp [k, TransKind.point, State.takePoint, State.waitOf, g, n]
      rw [e, toIssue_goesOn ({ s with au := a, lc := l } : State)
        { q with claimReached := true, handoff := .notNeeded } hp h1 h2 h3]
      refine (notePending_past _ _ rfl ?_).trans rfl
      dsimp only; split <;> rfl

/-- A calm state stays calm where the transition and UNDER_STANDING do. -/
theorem peerCalm_ps (s u : State) (h : s.peerCalm) (hp : u.ps = s.ps) (ha : u.au.underStanding = s.au.underStanding) : u.peerCalm := by
  unfold State.peerCalm State.atStage at *
  rw [hp, ha]; exact h

/-- The outcome of a resource's frame, once its cell is written and UNDER_STANDING judged (R85, R86). -/
theorem allot_outcome (s u j0 : State) (r : Resource) (c : Cell) (l : LC) (hc : s.peerCalm) (hul : u = { s with lc := u.lc })
    (htx : u.lc.tx = none) (hline : u.lc.line = s.lc.line)
    (hl : l = { j0.lc with allot := s.lc.allot })
    (hj0 : j0 = { u with au := j0.au, lc := j0.lc }) (hj0l : j0.lc.tx = none)
    (hcell : j0.cell r = c.afterOutcome (u.cellView r) (u.tally r) (u.sumBefore r))
    (hne : ∀ x, x ≠ r → j0.cell x = s.cell x)
    (hrd : ∀ x, (j0.au.res.get x).reading = (s.au.res.get x).reading)
    (hus : j0.au.underStanding = s.au.underStanding) (hut : j0.au.underTimer = s.au.underTimer) :
    LineAfter s (s.publish (u.afterAllotment j0.judgeStanding)) l ∧ CellAfter s (s.publish (u.afterAllotment j0.judgeStanding)) r c := by
  have ups : u.ps = s.ps := by rw [hul]
  have ucs : u.cs = s.cs := by rw [hul]
  have upv : u.pv = s.pv := by rw [hul]
  have uau : u.au = s.au := by rw [hul]
  have cu := peerCalm_ps s u hc ups (by rw [uau])
  have jj : j0.judgeStanding = { u with au := j0.judgeStanding.au, lc := j0.lc } := by
    rw [judgeStanding_au]; rw [hj0]; rfl
  have aa : u.afterAllotment j0.judgeStanding = j0.judgeStanding := by
    refine afterAllotment_calm u _ ?_ cu.2.1 cu.2.2
    rw [jj]
  rw [aa]
  have st : StandingJudged s j0.judgeStanding := judgeStanding_judged s j0 hus hut (by rw [hj0]; exact ucs)
  have jl : j0.judgeStanding.lc = j0.lc := by rw [judgeStanding_au]; rfl
  obtain ⟨k1, k2, k3, k4, k5, k6⟩ := outcome_cell s u j0.judgeStanding l hul (by rw [jl]; exact jj)
    (by rw [jl, hl]) (by rw [hl]; exact hj0l) st hc.1
  refine ⟨k1, ?_, fun x hx => ?_⟩
  · rw [k2, judgeStanding_cell, hcell]
    have e1 : u.cellView r = ⟨s.target r, false, s.lc.line = .active⟩ := by
      unfold State.cellView
      have : u.target r = s.target r := by rw [hul]; rfl
      have h2 : u.allotBegun r = false := by unfold State.allotBegun; rw [htx]
      rw [this, h2, hline]
    have rd : ((s.publish j0.judgeStanding).au.res.get r).reading = (u.au.res.get r).reading := by
      rw [k3, uau, ← hrd]
      rw [judgeStanding_au]; rfl
    rw [e1, tally_eq (s.publish j0.judgeStanding) u r (by rw [k6, upv]) (by rw [k4, ucs]) (by rw [k5, ups]) rd,
      sumBefore_eq (s.publish j0.judgeStanding) u r (by rw [k6, upv]) (by rw [k4, ucs])]
  · rw [k2, judgeStanding_cell, hne x hx]

/-- A cell written is read back. -/
theorem setCell_cell (s : State) (r : Resource) (c : Cell) : (s.setCell r c).cell r = c := by cases r <;> rfl

/-- A cell written with its capacity reading leaves every reading. -/
theorem setCell_reading (s : State) (r : Resource) (c : Cell) (h : c.a.reading = (s.au.res.get r).reading) (x : Resource) :
   ((s.setCell r c).au.res.get x).reading = (s.au.res.get x).reading := by
  cases r <;> cases x <;> first | exact h | rfl

/-- An evaluation leaves the capacity reading. -/
theorem evaluate_reading (v : CellView) (c : Cell) : (c.evaluate v).a.reading = c.a.reading := by
  unfold Cell.evaluate; repeat' split
  all_goals rfl

/-- So does all that follows an outcome. -/
theorem afterOutcome_reading (v : CellView) (new : Tally) (n : Nat) (c : Cell) : (c.afterOutcome v new n).a.reading = c.a.reading := by
  unfold Cell.afterOutcome; split
  · exact Cell.report_reading _ _ _ _
  · rw [Cell.judgeRelease_a]
    exact evaluate_reading v c

/-- With no notice in transmission a long notice falls due by its one mark (R172). -/
theorem markLong_idle (u : State) (h : u.lc.tx = none) : u.markLong = u.setLc { u.lc with longDue := u.lc.longDue || u.cs.locked } := by
  unfold State.markLong
  cases k : u.cs.locked
  · simp; rfl
  · simp only [if_true, Bool.or_true]
    unfold LC.markLong LC.noticeInTransmission
    rw [h, Bool.or_false]

/-- The own entry reads nothing of the line controller but REPLY_OVERFLOW (R41). -/
theorem own_lc (s : State) (l : LC) (h : l.replyOverflow = s.lc.replyOverflow) :
    ({ s with lc := l } : State).ownEntry = s.ownEntry := by
  unfold State.ownEntry
  congr 1
  · unfold State.flags; dsimp only; rw [h]

/-- A change of the line controller alone that leaves it publishes nothing. -/
theorem pub_lc (s : State) (l : LC) (h : l.replyOverflow = s.lc.replyOverflow) :
    s.publish { s with lc := l } = { s with lc := l } := publish_own s _ (own_lc s l h)

/-- The deadband test made again with no notice in transmission (R174). -/
theorem retest_idle (y : State) (h : y.lc.tx = none) :
    y.retest = y.setLc { y.lc with shortDue := y.lc.shortDue || (y.cs.locked && y.ratesMatter) } := by
  unfold State.retest
  cases y.ratesMatter
  · simp only [Bool.false_eq_true, if_false, Bool.and_false, Bool.or_false]; rfl
  · simp only [if_true, Bool.and_true]
    unfold State.markShort
    cases y.cs.locked
    · simp only [Bool.false_eq_true, if_false, Bool.or_false]; rfl
    · simp only [if_true, Bool.or_true]
      unfold LC.markShort LC.noticeInTransmission
      rw [h]; simp only [Bool.or_false]

/-- The AU's work at the completion of a long notice, on all cells at once (R79, R86). -/
theorem allotLong_eq (w : State) (n : Notice) :
    w.allotLong n = w.setCells fun r => (w.cell r).longDone (w.cellView r) (n.holdings.get r) (n.capacities.get r) :=
  foldSet_eq (fun t r => (t.cell r).longDone (t.cellView r) (n.holdings.get r) (n.capacities.get r))
    (fun t x c r h => by obtain ⟨a, b, _⟩ := setCell_other t x c r h; rw [a, b]) w

/-- The return to ACTIVE, on all cells at once (R92). -/
theorem rejoinCells_eq (w : State) :
    w.rejoinCells = w.setCells fun r => (w.cell r).rejoin (w.cellView r) (w.tally r) :=
  foldSet_eq (fun t r => (t.cell r).rejoin (t.cellView r) (t.tally r))
    (fun t x c r h => by obtain ⟨a, b, d⟩ := setCell_other t x c r h; rw [a, b, d]) w

/-- A long notice leaves the raised target and the capacity reading. -/
theorem longDone_keeps (v : CellView) (h k : Nat) (c : Cell) :
    (c.longDone v h k).a.raised = c.a.raised ∧ (c.longDone v h k).a.reading = c.a.reading := by
  unfold Cell.longDone
  dsimp only
  split
  · rw [Cell.judgeRelease_a]; split <;> exact ⟨rfl, rfl⟩
  · rw [Cell.judgeRelease_a]; exact ⟨rfl, rfl⟩

/-- The return to ACTIVE leaves the capacity reading. -/
theorem rejoin_keeps (v : CellView) (w : Tally) (c : Cell) :
    (c.rejoin v w).a.reading = c.a.reading := by
  unfold Cell.rejoin
  split
  · rw [Cell.judgeRelease_a, evaluate_reading]
  · rfl

/-- Writing all cells writes the AU and the allotment slots alone. -/
theorem setCells_lcau (w : State) (f : Resource → Cell) :
   w.setCells f = { w with au := (w.setCells f).au, lc := { w.lc with allot := (w.setCells f).lc.allot } } := rfl

end Sys2Proof.Machine
end

