-- ==== Sys2Proof/Laws/Handoffs.lean ====
section
/-!
SUPPORT. The end of a requester record where the slot's transition stays, and the serving of a HANDOFF.
-/

namespace Sys2Proof.Machine

/-- A completion whose condition does not hold is not tested further (R14, R15). -/
theorem testCompletion_stays (u : State)
    (h : ∀ r, u.ps.slot = some r → r.stage = .waitCompletion → u.fillingDone r = false ∧ u.drainingDone r = false) :
    u.testCompletion = u := by
  unfold State.testCompletion
  split
  · rename_i r hs
    split
    · rfl
    · rename_i k
      have hw : r.stage = .waitCompletion := by
        by_contra hw; exact k (by simp [hw])
      obtain ⟨a, b⟩ := h r hs hw
      rw [a, b]; rfl
  · rfl

/-- No transition waits for the record. -/
theorem pollHandoff_stays (u : State) (h : ∀ r, u.ps.slot = some r → r.stage ≠ .waitHandoffSlot) : u.pollHandoff = u := by
  unfold State.pollHandoff
  split
  · rename_i r hs; simp [h r hs]
  · rfl

/-- A completion whose condition does not hold once its handoff condition is fulfilled does not hold before (R14). -/
theorem fillingDone_fulfil (s : State) (r : SlotRec) (h : s.fillingDone r.fulfil = false) : s.fillingDone r = false := by
  unfold State.fillingDone SlotRec.fulfil at *
  revert h; cases r.handoff <;> simp [HandoffWait.fulfils]

theorem drainingDone_fulfil (s : State) (r : SlotRec) (h : s.drainingDone r.fulfil = false) :
    s.drainingDone r = false := by
  unfold State.drainingDone SlotRec.fulfil at *
  revert h; cases r.handoff <;> simp [HandoffWait.fulfils]

/-- The end of the record where the slot's transition stays: its handoff condition is fulfilled or left (R123). -/
theorem handoffEnded_stays (u : State) (b : Bool) (h : u.slotStays) :
    u.handoffEnded b
      = if b then { u with ps := { u.ps with slot := u.ps.slot.map SlotRec.fulfil } } else u := by
  cases b with
  | false => exact pollHandoff_stays u fun r hr => (h r hr).2.1
  | true =>
    set v : State := { u with ps := { u.ps with slot := u.ps.slot.map SlotRec.fulfil } } with hv
    have e : u.fulfilHandoff = v := by
      unfold State.fulfilHandoff
      cases hs : u.ps.slot with
      | none => rw [hv, hs]; show u = { u with ps := { u.ps with slot := none } }; rw [← hs]
      | some r =>
        rw [hv, hs]; dsimp only [Option.map_some]
        by_cases hh : r.handoff = .awaiting
        · rw [if_pos hh]; unfold State.setSlot SlotRec.fulfil; rw [if_pos hh]; rfl
        · rw [if_neg hh]; unfold SlotRec.fulfil; rw [if_neg hh, ← hs]
    have slot : ∀ x, v.ps.slot = some x → ∃ r, u.ps.slot = some r ∧ x = r.fulfil := by
      intro x hx
      obtain ⟨r, hr, rfl⟩ := Option.map_eq_some_iff.mp hx
      exact ⟨r, hr, rfl⟩
    unfold State.handoffEnded
    rw [if_pos rfl, if_pos rfl, e, testCompletion_stays v, pollHandoff_stays v]
    · intro x hx; obtain ⟨r, hr, rfl⟩ := slot x hx; exact (h r hr).2.1
    · intro x hx hw; obtain ⟨r, hr, rfl⟩ := slot x hx; exact (h r hr).2.2 hw

end Sys2Proof.Machine
end

