-- ==== Sys2Proof/Laws/Slot.lean ====
section
/-!
SUPPORT. What becomes of the slot when it is given again and when its transition is examined again (R4, R28).
-/

namespace Sys2Proof.Machine

/-- A transition that no reply of its way to the section controller reaches: PENDING has been sent, or its requester is
internal (R11, R115). -/
def SlotRec.silent (r : SlotRec) : Prop := r.pendingSent = true ∨ r.requester ∈ [.autoHold, .autoResume, .holdExpired,
  .closeAfter]

/-- An internal requester is told nothing. -/
theorem replyWith_internal (s : State) (q : Requester) (o : Reply) (d : Byte)
    (h : q ∈ [.autoHold, .autoResume, .holdExpired, .closeAfter]) : s.replyWith q o d = s := by
  cases q <;> first | rfl | simp at h

/-- A silent transition reaches its SET_PHASE (R10, R11). -/
theorem toIssue_silent (u : State) (r : SlotRec) (hp : r.silent) (ht : u.sp.tripReq = false) (hq : u.sp.psReq = none)
    (hr : u.sp.pairReq = none) : u.toIssue r = u.goesOn r := by
  rcases hp with hp | hp
  · exact toIssue_goesOn u r hp ht hq hr
  · rw [toIssue_any u r ht hq hr]
    unfold State.goesOn
    split
    · unfold State.slotIssued
      dsimp only
      split
      · rfl
      · exact replyWith_internal _ _ _ _ hp
    · rfl

/-- It owes no PENDING there. -/
theorem goesOn_notePending (u : State) (r : SlotRec) : (u.goesOn r).notePending = u.goesOn r :=
  notePending_past _ _ rfl (by split <;> rfl)

/-- A silent transition that waits before stage 5 is marked as told. -/
theorem notePending_silent (u : State) (r : SlotRec) (hs : u.ps.slot = some r) (hb : r.stage.beforeIssue = true)
    (hp : r.silent) : u.notePending = u.setSlot { r with pendingSent := true } := by
  by_cases k : r.pendingSent = true
  · have e : { r with pendingSent := true } = r := by cases r; simp_all
    rw [e]
    have : u.notePending = u := by unfold State.notePending; simp [hs, k]
    rw [this]
    unfold State.setSlot State.setPs
    rw [← hs]
  · rw [notePending_owed u r hs hb (by simpa using k)]
    exact replyWith_internal _ _ _ _ (hp.resolve_left k)

/-- A handoff point is taken (R119). -/
theorem takePoint_taken (u : State) (k : Point) :
    ∃ h l, u.takePoint k = { u with hu := h, lc := l } ∧ PointTaken u.cs.set k u.hu h u.lc l (u.waitOf k)
      ∧ LineKept u.lc l ∧ l.shortDue = u.lc.shortDue := by
  unfold State.takePoint PointTaken State.waitOf
  dsimp only
  cases hm : (u.cs.set.points.get k).mode <;> dsimp only
  · exact ⟨u.hu, u.lc, rfl, ⟨rfl, ⟨rfl, rfl⟩, by simp⟩, .refl _, rfl⟩
  · cases hb : k.blocking <;> simp only [Bool.false_eq_true, if_false, if_true]
    · exact ⟨{ u.hu with counitLate := true }, u.lc, rfl, ⟨⟨rfl, rfl⟩, rfl, by simp⟩, .refl _, rfl⟩
    · exact ⟨_, u.lc, rfl, ⟨⟨rfl, rfl⟩, rfl, by simp⟩, .refl _, rfl⟩
  · obtain ⟨k1, k2, k3⟩ := place_lineKept u.lc
      (.handoff (u.cs.set.points.get k).coUnit u.hu.tagCount (u.cs.set.points.get k).work k)
    exact ⟨_, _, rfl, ⟨rfl, k2, by simp⟩, k1, k3⟩

/-- A silent transition that reaches its handoff point does what PointReached says. -/
theorem toHandoff_reached (u : State) (r : SlotRec) (hp : r.silent) (ht : u.sp.tripReq = false)
    (hq : u.sp.psReq = none) (hr : u.sp.pairReq = none) : PointReached u (u.toHandoff r).notePending r := by
  unfold PointReached
  cases hk : r.kind.point with
  | none =>
    have : u.toHandoff r = u.goesOn { r with handoff := .notNeeded } := by
      unfold State.toHandoff; rw [hk]; exact toIssue_silent u _ hp ht hq hr
    rw [this, goesOn_notePending]
  | some k =>
    dsimp only
    split
    · rename_i h
      have : u.toHandoff r = u.setSlot { r with stage := .waitHandoffSlot, deadline := none } := by
        unfold State.toHandoff; rw [hk]
        have : u.hu.record.isSome = true := by cases e : u.hu.record <;> simp_all
        simp [this, h.1]
      rw [this, notePending_silent _ { r with stage := .waitHandoffSlot, deadline := none } rfl rfl hp]; rfl
    · rename_i h
      have hor : u.hu.record = none ∨ (u.cs.set.points.get k).mode = .none := by tauto
      obtain ⟨x, l, e, pt, lk, sd⟩ := takePoint_taken u k
      have th : u.toHandoff r = (u.takePoint k).toIssue { r with handoff := u.waitOf k } := by
        unfold State.toHandoff; rw [hk]
        rcases hor with h | h <;> simp [h]
      rw [th, e, toIssue_silent _ _ (by exact hp) (by exact ht) (by exact hq) (by exact hr), goesOn_notePending]
      exact ⟨u.waitOf k, pt, lk, sd, rfl⟩

/-- A point reached leaves no transition in WAIT_PREREQ. -/
theorem PointReached.past {u w : State} {r : SlotRec} (h : PointReached u w r) : w.atStage .waitPrereq = false := by
  have g : ∀ (x : State) (y : SlotRec), (x.goesOn y).atStage .waitPrereq = false := by
    intro x y; unfold State.atStage State.goesOn; dsimp only; split <;> rfl
  unfold PointReached at h
  split at h
  · rw [h]; exact g _ _
  · split at h
    · rw [h]; rfl
    · obtain ⟨x, -, -, -, e⟩ := h
      rw [e]; exact g u { r with handoff := x }

/-- The AU reports its claims reached when every holding has reached its raised target (R77). -/
theorem claimReached_iff (s : State) : s.claimReached = true ↔ s.TargetsMet := by
  unfold State.claimReached State.TargetsMet
  rw [List.all_eq_true]
  exact ⟨fun h x => by simpa using h x (Resource.mem_all x), fun h x _ => by simpa using h x⟩

/-- The evaluation of the list of a silent transition does what ListExamined says. -/
theorem evaluateList_examined (u : State) (r x : SlotRec) (l : ListName)
    (hx : x = { r with stage := .waitPrereq }) (hp : r.silent)
    (ht : u.sp.tripReq = false) (hq : u.sp.psReq = none) (hr : u.sp.pairReq = none) :
    ListExamined u (((u.setSlot x).evaluateList x l).notePending) r l := by
  have f1 : (u.setSlot x).firstUnmet l = u.firstUnmet l := firstUnmet_lc u u.du u.lc (some x) u.pv.watches l
  have w1 : (u.setSlot x).watchesOf l = u.watchesOf l := watchesOf_lc u u.du u.lc (some x) u.pv.watches l
  have xs : x.silent := by rw [hx]; exact hp
  have xc : x.claimTargets u.cs.set = r.claimTargets u.cs.set := by rw [hx]; rfl
  refine ⟨fun h => ?_, fun h hc => ?_, fun f h hc => ?_⟩
  · have e : (u.setSlot x).evaluateList x l = (u.setSlot x).setPv { u.pv with watches := u.watchesOf l } := by
      unfold State.evaluateList
      rw [f1, w1]
      cases hf : u.firstUnmet l with
      | none => exact absurd hf h
      | some i => rfl
    rw [e, notePending_silent _ x rfl (by rw [hx]; rfl) xs, hx]; rfl
  · have e : (u.setSlot x).evaluateList x l = (u.setSlot x).unwatched.toHandoff x := by
      unfold State.evaluateList
      rw [f1, h]; dsimp only
      unfold State.toClaim
      have : x.claimTargets ((u.setSlot x).setPv { (u.setSlot x).pv with watches := [] }).cs.set = none := xc.trans hc
      rw [this]; rfl
    rw [e]
    have g := toHandoff_reached (u.setSlot x).unwatched x xs ht hq hr
    generalize ((u.setSlot x).unwatched.toHandoff x).notePending = w at g
    rw [hx] at g
    unfold PointReached at g ⊢
    cases hk : r.kind.point with
    | none => simp only [hk] at g ⊢; exact g
    | some k =>
      simp only [hk] at g ⊢
      exact g
  · set u1 : State := (u.setSlot x).unwatched with hu1
    let v : SlotRec := { r with stage := .waitClaim, deadline := some u.cs.set.tClaimWait }
    have e : (u.setSlot x).evaluateList x l = if (u1.claiming v f).claimReached = true then
        (u1.claiming v f).toHandoff { v with claimReached := true } else u1.claiming v f := by
      unfold State.evaluateList
      rw [f1, h]; dsimp only
      change u1.toClaim x = _
      unfold State.toClaim
      have : x.claimTargets u1.cs.set = some f := xc.trans hc
      rw [this]
      have hv : { x with stage := .waitClaim, deadline := some u1.cs.set.tClaimWait } = v := by rw [hx]; rfl
      dsimp only; rw [hv]
      exact congrArg (fun q => if (u1.claiming v f).claimReached = true then (u1.claiming v f).toHandoff q
        else u1.claiming v f) (congrArg (fun q : SlotRec => { q with claimReached := true }) hv)
    have cs : (u1.claiming v f).ps.slot = some v := by rw [claiming_eq]
    have hz := claiming_eq u1 v f
    have st := claiming_standing u1 v f
    have ce := claiming_cell u1 v f
    rw [e]
    generalize u1.claiming v f = c at hz st ce cs
    have csp : c.sp = u.sp := by rw [hz]; rfl
    refine ⟨c, v, rfl, hz, ⟨ce, st.1.trans (by rw [hz]), st.2⟩, fun k => ?_, fun k => ?_⟩
    · rw [if_pos ((claimReached_iff c).2 k)]
      exact toHandoff_reached c { v with claimReached := true } (by exact hp) (by rw [csp]; exact ht)
        (by rw [csp]; exact hq) (by rw [csp]; exact hr)
    · rw [if_neg fun h => k ((claimReached_iff c).1 h), notePending_silent _ v cs rfl (by exact hp)]
      rfl

/-- Once evaluated, the list of a silent transition is not taken further by the note of the own entry (R41). -/
theorem evaluateList_noted (s u : State) (r x : SlotRec) (l : ListName) (hk : r.kind.list = some l)
    (hx : x = { r with stage := .waitPrereq }) (hp : r.silent) (ht : u.sp.tripReq = false) (hq : u.sp.psReq = none)
    (hr : u.sp.pairReq = none) :
    Noted s ((u.setSlot x).evaluateList x l).notePending
      (s.publish ((u.setSlot x).evaluateList x l).notePending) := by
  have f1 : (u.setSlot x).firstUnmet l = u.firstUnmet l := firstUnmet_lc u u.du u.lc (some x) u.pv.watches l
  have xs : x.silent := by rw [hx]; exact hp
  cases hf : u.firstUnmet l with
  | some i =>
    have e := (evaluateList_examined u r x l hx hp ht hq hr).1 (by rw [hf]; simp)
    generalize ((u.setSlot x).evaluateList x l).notePending = w at e
    have pl : w.pollList = w := by
      set y : SlotRec := { r with stage := .waitPrereq, pendingSent := true } with hy
      have ws : w.ps.slot = some y := by rw [e]
      have wf : w.firstUnmet l = u.firstUnmet l := by
        rw [e]; exact firstUnmet_lc u u.du u.lc (some y) (u.watchesOf l) l
      have ww : w.watchesOf l = u.watchesOf l := by
        rw [e]; exact watchesOf_lc u u.du u.lc (some y) (u.watchesOf l) l
      have ev : w.evaluateList y l = w := by
        unfold State.evaluateList
        rw [wf, hf, ww]; dsimp only
        rw [e]; rfl
      unfold State.pollList
      rw [ws]; dsimp only
      split
      · rfl
      · have : y.kind.list = some l := hk
        rw [this]; dsimp only
        rw [ev]
        unfold State.notePending; rw [ws]; simp [hy]
    have : s.publish w = s.noteChange w := by unfold State.publish; rw [pl]; split <;> rfl
    rw [this]
    exact noteChange_eq s w
  | none =>
    refine publish_noted s _ ?_
    unfold State.evaluateList
    rw [f1, hf]; dsimp only
    change (((u.setSlot x).unwatched.toClaim x).notePending).atStage _ = false
    set u1 := (u.setSlot x).unwatched with hu1
    unfold State.toClaim
    split
    · exact (toHandoff_reached u1 x xs ht hq hr).past
    · rename_i f _
      set v : SlotRec := { x with stage := .waitClaim, deadline := some u1.cs.set.tClaimWait } with hv
      change (State.notePending (if (u1.claiming v f).claimReached = true then
        (u1.claiming v f).toHandoff { v with claimReached := true } else u1.claiming v f)).atStage _ = false
      have hz := claiming_eq u1 v f
      generalize u1.claiming v f = c at hz
      have csp : c.sp = u.sp := by rw [hz]; rfl
      split
      · exact (toHandoff_reached c { v with claimReached := true } (by exact xs) (by rw [csp]; exact ht)
          (by rw [csp]; exact hq) (by rw [csp]; exact hr)).past
      · have cs : c.ps.slot = some v := by rw [hz]
        rw [notePending_silent c v cs rfl (by exact xs)]; rfl

/-- The re-examination at an empty slot does what SlotGiven says, and the note of the own entry adds nothing. -/
theorem reexamine_given (s u : State) (hs : u.ps.slot = none) (hf : u.ps.frozen = false) (ht : u.sp.tripReq = false)
    (hq : u.sp.psReq = none) (hr : u.sp.pairReq = none) :
    SlotGiven u u.reexamine ∧ Noted s u.reexamine (s.publish u.reexamine) := by
  have e : u.reexamine = u.giveSlot := by unfold State.reexamine; simp [hs, hf]
  have int : ∀ r : SlotRec, r.requester ∈ [.autoHold, .autoResume, .holdExpired, .closeAfter] → r.silent :=
    fun r h => .inr h
  have ih : u.ps.phase.inHold = true ↔ u.ps.phase = .hold ∨ u.ps.phase = .banked := by
    cases u.ps.phase <;> simp [Phase.inHold]
  -- A request whose kind has no dwell and no list reaches its point at once.
  have enter : ∀ (w : Waiting) (r : SlotRec), r.requester ∈ [.autoHold, .autoResume, .holdExpired, .closeAfter] →
      r.kind.list = none → r.claimTargets u.cs.set = none →
      (u.setWaiting w).toDwell r = (u.setWaiting w).toPrereq r →
      PointReached (u.setWaiting w) ((u.setWaiting w).enterSlot r) r
        ∧ Noted s ((u.setWaiting w).enterSlot r) (s.publish ((u.setWaiting w).enterSlot r)) := by
    intro w r hi hl hc hd
    have : (u.setWaiting w).enterSlot r = ((u.setWaiting w).toHandoff r).notePending := by
      unfold State.enterSlot
      rw [hd]
      unfold State.toPrereq; rw [hl]; dsimp only
      unfold State.toClaim
      have : r.claimTargets (u.setWaiting w).cs.set = none := hc
      rw [this]
    rw [this]
    have g := toHandoff_reached (u.setWaiting w) r (int r hi) ht hq hr
    exact ⟨g, publish_noted s _ g.past⟩
  rw [e]
  unfold SlotGiven State.giveSlot State.forcedValid State.closeDrainValid State.autoResumeValid
  dsimp only
  by_cases h1 : u.ps.waiting.forced = true ∧ (u.ps.phase = .hold ∨ u.ps.phase = .banked)
  · have ah : u.autoHoldStands = false := by
      unfold State.autoHoldStands
      rcases h1.2 with h | h <;> rw [h] <;> rfl
    have c1 : (u.ps.waiting.forced && u.ps.phase.inHold) = true := by rw [h1.1, ih.mpr h1.2]; rfl
    rw [if_pos h1, if_pos c1, ah]
    by_cases h2 : u.ps.phase = .banked ∧ u.cs.set.tBankExit ≠ 0
    · rw [if_pos h2]
      set v := u.setWaiting ⟨false, false, false, false⟩ with hv
      have : v.enterSlot forcedRec
          = (v.setSlot { forcedRec with stage := .waitDwell, settle := some u.cs.set.tBankExit }).notePending := by
        unfold State.enterSlot State.toDwell
        have h3 : v.ps.phase = .banked ∧ v.cs.set.tBankExit ≠ 0 := h2
        show State.notePending (if v.ps.phase = .banked ∧ v.cs.set.tBankExit ≠ 0 then _ else _) = _
        rw [if_pos h3]; rfl
      rw [this, notePending_silent _ { forcedRec with stage := .waitDwell, settle := some u.cs.set.tBankExit } rfl rfl
        (int _ (by simp [forcedRec, SlotRec.new]))]
      exact ⟨rfl, publish_noted s _ rfl⟩
    · rw [if_neg h2]
      refine enter _ forcedRec (by simp [forcedRec, SlotRec.new]) rfl rfl ?_
      unfold State.toDwell
      show (if (u.setWaiting _).ps.phase = .banked ∧ (u.setWaiting _).cs.set.tBankExit ≠ 0 then _ else _) = _
      exact if_neg h2
  · have c1 : ¬ (u.ps.waiting.forced && u.ps.phase.inHold) = true := by
      rw [Bool.and_eq_true, ih]; exact h1
    rw [if_neg h1, if_neg c1]
    by_cases h2 : u.ps.waiting.closeDrain = true ∧ u.ps.phase = .runOut ∧ u.tu.runoutDone = true
    · have c2 : (u.ps.waiting.closeDrain && decide (u.ps.phase = .runOut) && u.tu.runoutDone) = true := by
        simp [h2.1, h2.2.1, h2.2.2]
      rw [if_pos h2, if_pos c2]
      exact enter _ closeDrainRec (by simp [closeDrainRec, SlotRec.new]) rfl rfl rfl
    · have c2 : ¬ (u.ps.waiting.closeDrain && decide (u.ps.phase = .runOut) && u.tu.runoutDone) = true := by
        simpa [and_assoc] using h2
      rw [if_neg h2, if_neg c2]
      by_cases h3 : u.autoHoldStands = true
      · rw [if_pos h3, if_pos h3]
        exact enter _ autoHoldRec (by simp [autoHoldRec, SlotRec.new]) rfl rfl rfl
      · rw [if_neg h3, if_neg h3]
        by_cases h4 : u.ps.waiting.autoResume = true ∧ u.ps.phase = .hold ∧ u.ps.owner = some .auto
        · have c4 : (u.ps.waiting.autoResume && decide (u.ps.phase = .hold) && decide (u.ps.owner = some .auto))
              = true := by simp [h4.1, h4.2.1, h4.2.2]
          rw [if_pos h4, if_pos c4]
          set v := u.setWaiting ⟨false, false, false, false⟩ with hv
          set r : SlotRec := { SlotRec.new u.ps.linkPhase .resume .autoResume .auto none with
            deadline := some u.cs.set.tPrereqWait } with hrr
          have : v.enterSlot (autoResumeRec u.ps)
              = ((v.setSlot { r with stage := .waitPrereq }).evaluateList
                  { r with stage := .waitPrereq } .resume).notePending := by
            unfold State.enterSlot State.toDwell
            show State.notePending (if v.ps.phase = .banked ∧ v.cs.set.tBankExit ≠ 0 then _ else _) = _
            rw [if_neg (by rw [hv]; show ¬ (u.ps.phase = _ ∧ _); rw [h4.2.1]; simp)]
            rfl
          rw [this]
          have sil := int r (by simp [hrr, SlotRec.new])
          exact ⟨evaluateList_examined v r _ .resume rfl sil ht hq hr,
            evaluateList_noted s v r _ .resume rfl rfl sil ht hq hr⟩
        · have c4 : ¬ (u.ps.waiting.autoResume && decide (u.ps.phase = .hold) && decide (u.ps.owner = some .auto))
              = true := by simpa [and_assoc] using h4
          rw [if_neg h4, if_neg c4]
          exact ⟨rfl, publish_noted s _ (by
            change (match u.ps.slot with
              | some r => decide (r.stage = .waitPrereq)
              | none => false) = false
            rw [hs])⟩

end Sys2Proof.Machine
end

