-- ==== Sys2Proof/Laws/PeerReports.lean ====
section
/-!
SUPPORT. What a change report of a peer entry does to the AU, to the TU's auto hold and to the transition in the slot
(R32, R45).
-/

namespace Sys2Proof.Machine

/-- A transition that a report can move past its list or its claims is ready for no further report. -/
theorem PointReached.ready {u w : State} {r : SlotRec} (h : PointReached u w r) : w.ReportReady := by
  have g : ∀ (x : State) (y : SlotRec), ∃ z,
      (x.goesOn y).ps.slot = some z ∧ (z.stage = .waitAck ∨ z.stage = .waitIssue) := by
    intro x y; unfold State.goesOn; refine ⟨_, rfl, ?_⟩; dsimp only; split <;> simp
  have f : ∀ x : State, (∃ z, x.ps.slot = some z ∧ z.stage ≠ .waitPrereq ∧ z.stage ≠ .waitClaim) → x.ReportReady := by
    rintro x ⟨z, hz, h1, h2⟩
    unfold State.ReportReady State.atStage
    simp [hz, h1, h2]
  have gr : ∀ (x : State) (y : SlotRec), ∃ z,
      (x.goesOn y).ps.slot = some z ∧ z.stage ≠ .waitPrereq ∧ z.stage ≠ .waitClaim := by
    intro x y
    obtain ⟨z, hz, k⟩ := g x y
    exact ⟨z, hz, by rcases k with k | k <;> simp [k]⟩
  unfold PointReached at h
  split at h
  · rw [h]; exact f _ (gr _ _)
  · split at h
    · rw [h]; exact f _ ⟨_, rfl, by simp, by simp⟩
    · obtain ⟨x, -, -, -, e⟩ := h
      rw [e]
      obtain ⟨z, hz, k⟩ := gr u { r with handoff := x }
      exact f _ ⟨z, hz, k⟩

/-- A ready state finds the command path clear at a stage that a report can move. -/
theorem State.ReportReady.clear {u : State} (h : u.ReportReady) {r : SlotRec} (hs : u.ps.slot = some r)
    (hg : r.stage = .waitPrereq ∨ r.stage = .waitClaim) :
    r.silent ∧ u.sp.tripReq = false ∧ u.sp.psReq = none ∧ u.sp.pairReq = none := by
  obtain ⟨h1, h2, h3⟩ := h.1 (by unfold State.atStage; rw [hs]; simpa using hg)
  exact ⟨.inl (h.2 r hs hg), h1, h2, h3⟩

/-- The same slot, stage for stage, and the same command path make a state as ready. -/
theorem State.ReportReady.of {u w : State} (h : u.ReportReady) (hp : w.ps.slot = u.ps.slot) (hs : w.sp = u.sp) :
    w.ReportReady := by
  unfold State.ReportReady State.atStage at *
  rw [hp, hs]; exact h

/-- The examination of a list again does what ListPolled says. -/
theorem pollList_polled (u : State) (h : u.ReportReady) : ListPolled u u.pollList := by
  refine ⟨fun r l hs hg hf hk => ?_, fun k => ?_⟩
  · obtain ⟨h1, h2, h3, h4⟩ := h.clear hs (.inl hg)
    have e : u.pollList = ((u.setSlot r).evaluateList r l).notePending := by
      have : u.setSlot r = u := by unfold State.setSlot State.setPs; rw [← hs]
      unfold State.pollList
      rw [hs, this]; simp [hf, hg, hk]
    rw [e]
    exact evaluateList_examined u r r l (by cases r; simp_all) h1 h2 h3 h4
  · unfold State.pollList
    cases hs : u.ps.slot with
    | none => rfl
    | some r =>
      dsimp only
      rcases k r hs with k | k | k
      · simp [k]
      · simp [k]
      · simp [k]

/-- And it leaves the state as ready. -/
theorem ListPolled.ready {u w : State} (h : u.ReportReady) (p : ListPolled u w) : w.ReportReady := by
  by_cases k : ∀ r, u.ps.slot = some r → r.stage ≠ .waitPrereq ∨ u.ps.frozen = true ∨ r.kind.list = none
  · rw [p.2 k]; exact h
  · simp only [not_forall, not_or, not_not, Bool.not_eq_true] at k
    obtain ⟨r, hs, hg, hf, hl⟩ := k
    obtain ⟨l, hk⟩ := Option.ne_none_iff_exists'.1 hl
    obtain ⟨h1, h2, h3, h4⟩ := h.clear hs (.inl hg)
    obtain ⟨p1, p2, p3⟩ := p.1 r l hs hg hf hk
    have g : ∀ (x : State) (z : SlotRec), x.ps.slot = some z → z.pendingSent = true → x.sp = u.sp → x.ReportReady := by
      intro x z hz hp hx
      refine ⟨fun _ => by rw [hx]; exact ⟨h2, h3, h4⟩, fun y hy _ => ?_⟩
      rw [hz] at hy; cases hy; exact hp
    by_cases hu : u.firstUnmet l = none
    · cases hc : r.claimTargets u.cs.set with
      | none => exact (p2 hu hc).ready
      | some f =>
        obtain ⟨m, v, rfl, hm, -, q1, q2⟩ := p3 f hu hc
        by_cases ht : m.TargetsMet
        · exact (q1 ht).ready
        · rw [q2 ht]; exact g _ _ rfl rfl (by rw [hm])
    · rw [p1 hu]; exact g _ _ rfl rfl rfl

/-- The AU's report on the claims does what ClaimPolled says. -/
theorem pollClaim_polled (u : State) (h : u.ReportReady) : ClaimPolled u u.pollClaim := by
  refine ⟨fun r hs hg hr => ?_, fun k => ?_⟩
  · have c : (r.claimReached || u.claimReached) = true := by
      rcases hr with k | k
      · simp [k]
      · simp [(claimReached_iff u).2 k]
    obtain ⟨h1, h2, h3, h4⟩ := h.clear hs (.inr hg)
    unfold State.pollClaim
    rw [hs]
    simp only [hg, c, decide_true, Bool.and_self, if_true]
    refine ⟨fun hf => ?_, fun hf => ?_⟩
    · rw [hf]
      exact toHandoff_reached u { r with claimReached := true } h1 h2 h3 h4
    · rw [if_pos hf]; rfl
  · unfold State.pollClaim
    cases hs : u.ps.slot with
    | none => rfl
    | some r =>
      rcases k r hs with k | ⟨k, n⟩
      · simp [k]
      · have : u.claimReached = false := by
          cases c : u.claimReached with
          | false => rfl
          | true => exact absurd ((claimReached_iff u).1 c) n
        simp [k, this]

/-- And it leaves the state as ready. -/
theorem ClaimPolled.ready {u w : State} (h : u.ReportReady) (p : ClaimPolled u w) : w.ReportReady := by
  by_cases k : ∀ r, u.ps.slot = some r → r.stage ≠ .waitClaim ∨ r.claimReached = false ∧ ¬ u.TargetsMet
  · rw [p.2 k]; exact h
  · simp only [not_forall, not_or, not_and, not_not] at k
    obtain ⟨r, hs, hg, hr⟩ := k
    have hr : r.claimReached = true ∨ u.TargetsMet := by
      cases c : r.claimReached with
      | false => exact .inr (hr c)
      | true => exact .inl rfl
    obtain ⟨h1, h2, h3, h4⟩ := h.clear hs (.inr hg)
    obtain ⟨p1, p2⟩ := p.1 r hs hg hr
    cases hf : u.ps.frozen with
    | false => exact (p1 hf).ready
    | true =>
      rw [p2 hf]
      refine ⟨fun _ => ⟨h2, h3, h4⟩, fun y hy _ => ?_⟩
      cases hy
      exact h.2 r hs (.inr hg)

/-- An auto hold asked for leaves the state as ready. -/
theorem HoldAsked.ready {u w : State} (h : u.ReportReady) (p : HoldAsked u w) : w.ReportReady := by
  rcases p with ⟨-, rfl⟩ | ⟨-, -, rfl⟩
  · exact h.of rfl rfl
  · refine ⟨fun k => ?_, fun y hy k => ?_⟩
    · exfalso
      unfold State.atStage at k
      dsimp only at k
      split at k <;> simp at k
    · exfalso
      cases hy
      dsimp only at k
      split at k <;> simp at k

/-- The AU's part of a change report does what AllotTaken says. -/
theorem allotReport_taken (u : State) (f : Resource → Bool) (h : u.ReportReady) :
    AllotTaken u (u.allotReport f) (fun x => f x = true) ∧ (u.allotReport f).ReportReady := by
  obtain ⟨q, cl, st, -, -⟩ := report_work u f
  unfold State.allotReport State.afterAllotment
  generalize (u.reportCells f).judgeStanding = j at q cl st
  have jr : j.ReportReady := h.of (by rw [q]) (by rw [q])
  have jp : j.ps = u.ps := by rw [q]
  have rs : ∃ x, (if u.au.underStanding = false ∧ j.au.underStanding = true ∧ u.ps.phase.underRate = true then
      HoldAsked j x
      else x = j) ∧ u.standingRises j = x ∧ x.ReportReady := by
    unfold State.standingRises
    rw [jp]
    by_cases c : u.au.underStanding = false ∧ j.au.underStanding = true ∧ u.ps.phase.underRate = true
    · have k : (!u.au.underStanding && j.au.underStanding && u.ps.phase.underRate) = true := by simp [c.1, c.2.1, c.2.2]
      simp only [if_pos c, k, if_true]
      have go : ∀ x, HoldAsked j x → j.requestAutoHold = x := by
        intro x hx
        have := requestAutoHold_asked j x j.au j.lc hx
        have e : ({ j with au := j.au, lc := j.lc } : State) = j := rfl
        rw [e] at this
        rw [this]
        rcases hx with ⟨-, rfl⟩ | ⟨-, -, rfl⟩ <;> rfl
      by_cases ho : j.ps.slot ≠ none ∨ j.ps.frozen = true
      · have hx : HoldAsked j _ := .inl ⟨ho, rfl⟩
        exact ⟨_, hx, go _ hx, hx.ready jr⟩
      · simp only [not_or, not_not, Bool.not_eq_true] at ho
        obtain ⟨k1, k2, -⟩ := jr.1 (.inl ho.1)
        have hx : HoldAsked j _ := .inr ⟨⟨ho.1, k2, k1⟩, ho.2, rfl⟩
        exact ⟨_, hx, go _ hx, hx.ready jr⟩
    · have k : (!u.au.underStanding && j.au.underStanding && u.ps.phase.underRate) = false := by
        rw [Bool.eq_false_iff]
        intro k
        simp only [Bool.and_eq_true, Bool.not_eq_true'] at k
        exact c ⟨k.1.1, k.1.2, k.2⟩
      simp only [if_neg c, k, Bool.false_eq_true, if_false]
      exact ⟨j, rfl, rfl, jr⟩
  obtain ⟨x, r1, r2, r3⟩ := rs
  rw [r2]
  have cp := pollClaim_polled x r3
  refine ⟨⟨j, x, q, fun y hy => ?_, fun y hy => ?_, st, r1, cp⟩, cp.ready r3⟩
  · rw [cl]; unfold State.reported; rw [if_pos hy]; rfl
  · rw [cl]; unfold State.reported; rw [if_neg hy]

/-- A change report taken by its readers does what ReportTaken says. -/
theorem takeReport_taken (m : State) (f : Resource → Bool) (h : m.ReportReady) :
    ReportTaken m (m.takeReport f) (fun x => f x = true) ∧ (m.takeReport f).ReportReady := by
  have au : ∀ n : State, n.ReportReady →
      (∃ j, AllotTaken n j (fun x => f x = true) ∧ ListPolled j (n.allotReport f).pollList)
        ∧ (n.allotReport f).pollList.ReportReady := by
    intro n hn
    obtain ⟨a, b⟩ := allotReport_taken n f hn
    have p := pollList_polled _ b
    exact ⟨⟨_, a, p⟩, p.ready b⟩
  unfold State.takeReport
  split
  · rename_i c
    rw [Bool.and_eq_true, List.any_eq_true] at c
    obtain ⟨x, -, hx⟩ := c.2
    have hn : m.useFree.ReportReady := h.of rfl rfl
    dsimp only
    split
    · exact ⟨⟨m.useFree, rfl, .inl (au _ hn).1⟩, (au _ hn).2⟩
    · have p := pollList_polled _ hn
      obtain ⟨a, b⟩ := allotReport_taken _ f (p.ready hn)
      exact ⟨⟨m.useFree, rfl, .inr ⟨c.1, ⟨x, hx⟩, _, p, a⟩⟩, b⟩
  · exact ⟨⟨m, rfl, .inl (au m h).1⟩, (au m h).2⟩

/-- The note of an event's end does what it says: a change of the own entry has the list examined once more. -/
theorem publish_told (s w : State) (h : w.ReportReady) :
    ∃ v, OwnReported s w v ∧ Noted s v (s.publish w) := by
  unfold OwnReported
  unfold State.publish State.ownChanged
  by_cases c : s.ownEntry = w.ownEntry
  · refine ⟨w, by rw [if_pos c], ?_⟩
    simp only [c, ne_eq, not_true_eq_false, decide_false, Bool.false_eq_true, if_false]
    exact noteChange_eq s w
  · refine ⟨w.pollList, by rw [if_neg c]; exact pollList_polled w h, ?_⟩
    simp only [ne_eq, c, not_false_eq_true, decide_true, if_true]
    exact noteChange_eq s _

/-- The writing of an entry, published, does what Told says. -/
theorem writePeer_told (s : State) (a : Station) (e : PeerEntry) (ha : a ≠ 0) (h : s.ReportReady) :
    Told s (s.publish (s.writePeer a e)) a e := by
  have se := setPeer_eq s a e
  have wr : EntryWritten s (s.setPeer a e) a e := ⟨setPeer_stored s a e ha, fun b hb => setPeer_stored_ne s a b e hb⟩
  set m := (s.setPeer a e).noteProviders a (s.stored a) e with hm
  have me : m = { s with
      pv := { s.pv with peers := (s.setPeer a e).pv.peers }
      sp := { s.sp with providers := .of (s.providerFor a (s.stored a) e) } } := by
    have pf : (s.setPeer a e).providerFor a (s.stored a) e = s.providerFor a (s.stored a) e := by rw [se]; rfl
    rw [hm]; unfold State.noteProviders
    rw [pf, se]; rfl
  have pr : ∀ x, s.providerFor a (s.stored a) e x =
      if (s.stored a).capacities.get x = none ∧ e.capacities.get x ≠ none then
        some (match s.sp.providers.get x with
          | none => a
          | some b => min a b)
      else s.sp.providers.get x := by
    intro x
    unfold State.providerFor
    rw [providerAfter_min]
    simp only [Bool.and_eq_true, Option.isNone_iff_eq_none, Option.isSome_iff_ne_none]
    try rfl
  have hd : EntryHeard s m a e := by
    refine ⟨by rw [me], ?_, fun x => ?_⟩
    · have : ∀ b, m.stored b = (s.setPeer a e).stored b := by intro b; rw [hm]; rfl
      exact ⟨(this a).trans wr.1, fun b hb => (this b).trans (wr.2 b hb)⟩
    · rw [me]; exact (PerRes.get_of _ _).trans (pr x)
  refine ⟨m, hd, ?_⟩
  unfold State.writePeer PeerEntry.altered
  by_cases al : { e with lastHeard := (s.stored a).lastHeard } = s.stored a
  · simp only [al, ne_eq, not_true_eq_false, decide_false, Bool.false_eq_true, if_false, if_true]
    rw [publish_own s _ (entry_heard s a e ha al), me]
    have : PerRes.of (s.providerFor a (s.stored a) e) = s.sp.providers := by
      refine PerRes.ext_get fun x => ?_
      rw [PerRes.get_of, pr, if_neg]
      rintro ⟨k1, k2⟩
      have := congrArg (fun p : PeerEntry => p.capacities.get x) al
      exact k2 (this.trans k1)
    rw [this]; exact se
  · simp only [al, ne_eq, not_false_eq_true, decide_true, if_true, if_false]
    have mr : m.ReportReady := by
      unfold State.ReportReady State.atStage SP.NoPhaseWaits at h ⊢
      rw [me]; exact h
    obtain ⟨r1, r2⟩ := takeReport_taken m ((s.stored a).names e) mr
    rw [← hm]
    obtain ⟨v, v1, v2⟩ := publish_told s _ r2
    refine ⟨_, v, ?_, v1, v2⟩
    have nm : (fun x => (s.stored a).names e x = true) = fun x =>
        (¬ ((s.stored a).presence = .live ↔ e.presence = .live)
          ∨ (s.stored a).holdings.get x ≠ e.holdings.get x ∨ (s.stored a).capacities.get x ≠ e.capacities.get x) := by
      funext x
      unfold PeerEntry.names
      simp only [Bool.or_eq_true, bne_iff_ne, ne_eq, decide_eq_decide, decide_eq_true_eq, or_assoc]
    rw [← nm]; exact r1

end Sys2Proof.Machine
end

