-- ==== Sys2Proof/WellFormed.lean ====
section
/-!
DEFINITION. What a command's operands must satisfy beyond their types for the command to be one the outside can
send. `exec` is total all the same: an ill-formed command gets the meaning its bytes have.
-/

namespace Sys2Proof

/-- A line payload is 0 to 32 bytes (R163). -/
def payloadFits (payload : List Byte) : Bool := payload.length ≤ 32

/-- A directive code that names none of the fourteen directives: 0 and 15 to 255 (11.5, R94). -/
def namesNoDirective (code : Byte) : Bool := code.toNat = 0 || 14 < code.toNat

/-- A directive of the DIRECTIVE_BAD_CODE row has the fixed length of a DIRECTIVE payload (R188) when it is a
frame, and a code that names nothing (R94). -/
def RawDirective.isBadCode : RawDirective → Bool
  | .frame _ payload => payload.length = 8 && namesNoDirective (payload.getD 4 0)
  | .part code _ _ _ _ => namesNoDirective code

/-- A station other than "none" (R29: the entries are those of addresses 1 to 31). -/
def isStation (a : Station) : Bool := a ≠ 0

/-- A frame's bits begin with a dominant start bit (R163). -/
def startsDominant (bits : List Bool) : Bool := bits.head? = some false

/-- The checks of a command's operands. -/
def Instr.wellFormed : Instr → Bool
  | .directiveBadCode raw => raw.isBadCode
  | .peerSilence a => isStation a
  | .ageWatchExpiry a => isStation a
  | .statusLong _ p => payloadFits p
  | .statusShort _ p => payloadFits p
  | .claim _ p => payloadFits p
  | .release _ p => payloadFits p
  | .tripNotice _ p => payloadFits p
  | .handoff _ p => payloadFits p
  | .handoffDone _ p => payloadFits p
  | .replyReceived _ p => payloadFits p
  | .lineFrameError bits => startsDominant bits
  | .powerOnReset | .exchangeStart | .reportArrival _ | .startCampaign _ | .fill _ | .feed _ _ | .hold _
  | .resume _ | .bank _ | .runOut _ _ _ | .stopRunOut _ | .drain _ | .endCampaign _ | .trip _ | .clearTrip _
  | .confirm _ | .cancel _ | .configItem _ _ _ _ _ _ | .lockConfig | .restartNode | .commandIssue
  | .ackSetPhase _ _ | .ackSetRate _ _ | .ackTurnover _ _ | .ackHandoffWork _ _ | .setPhaseAckTimeout _
  | .setRateAckTimeout _ | .turnoverAckTimeout _ | .handoffWorkAckTimeout _ | .rateIntervalExpiry
  | .starveTimerExpiry | .blockTimerExpiry | .dwellExpiry | .settleExpiry | .prereqDeadlineExpiry
  | .claimDeadlineExpiry | .fillTimeout | .drainTimeout | .holdMaximumExpiry | .turnoverTimerExpiry | .freezeLong
  | .underStandingTimeout | .portSilent | .handoffDeadlineExpiry | .statusPeriodExpiry | .shortSpacingExpiry
  | .lineIdle | .arbitrationLost | .transmitFault | .transmissionBegin | .frameCompletion | .frameFailure => true

end Sys2Proof
end

