-- ==== Sys2Proof/Tests/Slice0.lean ====
section
/-!
SUPPORT. The tests: the checks of WellFormed, the worked examples of the manual, and for each obligation states and
operands that meet its hypotheses, clause by clause.
-/

namespace Sys2Proof.Tests

open Sys2Proof Sys2Proof.Machine

/-! ### States the tests start from -/

/-- A line source in the authority set that addresses the node of `node`. -/
def line : Source := .line 30 0 7 0 5

/-- The section panel. -/
def port : Source := .port 9

/-- A locked node of address 7 that has read the line idle; address 30 holds the campaign authority. -/
def node : State :=
  { State.reset with
    cs := ⟨{ Settings.default with ownAddress := 7, authoritySet := 0x40000000#32 }, true⟩
    lc := { LC.reset with joined := true } }

/-- The node in a phase. -/
def inPhase (p : Phase) : State := { node with ps := { node.ps with phase := p } }

/-- The node in a phase with a transition in the slot. -/
def withSlot (p : Phase) (r : SlotRec) : State := { node with ps := { node.ps with phase := p, slot := some r } }

/-- The node in a phase with one command outstanding, of token 0. -/
def withCommand (p : Phase) (c : Command) : State :=
  { inPhase p with sp := { SP.reset with outstanding := [⟨0, c, some 0, false⟩], tokenCount := 1 } }

/-- Every prerequisite list of one entry on the first upstream, which `node` has not: unmet where absent counts so. -/
def withLists (s : State) (absentIsMet : Bool) : State :=
  let e : Vector (Option PrereqEntry) 10 := (Vector.replicate 10 none).set 0 (some ⟨.up1, .notFrozen, absentIsMet⟩)
  { s with cs := { s.cs with set := { s.cs.set with lengths := ⟨1, 1, 1, 1, 1⟩, entries := ⟨e, e, e, e, e⟩ } } }

/-- Every standing requirement at `n`, and every holding at `h`. -/
def withStanding (s : State) (n h : Nat) : State :=
  { s with
    cs := { s.cs with set := { s.cs.set with standing := .same n } }
    au := { s.au with res := .same { Allot.reset with holding := h } } }

/-- The node with the line controller's frame on the line. -/
def sends (l : LC) (x : Tx) : State := { node with lc := { l with joined := true, tx := some x } }

/-! ### The checks of WellFormed -/

theorem test_frame_code_must_name_no_directive :
    (Instr.directiveBadCode (.frame 30 [0, 7, 0, 5, 1, 0, 0, 0])).wellFormed = false := by decide
theorem test_frame_must_have_its_length :
    (Instr.directiveBadCode (.frame 30 [0, 7, 0, 5, 0, 0, 0])).wellFormed = false := by decide
theorem test_part_code_must_name_no_directive :
    (Instr.directiveBadCode (.part 14 5 0 0 0)).wellFormed = false
      ∧ (Instr.directiveBadCode (.part 15 5 0 0 0)).wellFormed = true := by decide
theorem test_no_station_is_zero :
    (Instr.peerSilence 0).wellFormed = false ∧ (Instr.ageWatchExpiry 0).wellFormed = false := by decide
theorem test_payloads_are_at_most_32_bytes :
    ∀ f ∈ [Instr.statusLong, .statusShort, .claim, .release, .tripNotice, .handoff, .handoffDone, .replyReceived],
      (f 3 (.replicate 33 0)).wellFormed = false ∧ (f 3 (.replicate 32 0)).wellFormed = true := by decide
theorem test_a_frame_starts_dominant :
    (Instr.lineFrameError [true]).wellFormed = false ∧ (Instr.lineFrameError []).wellFormed = false := by decide

/-! ### Worked examples and check values -/

/-- The state that a command answers, or the reset state where it stops. -/
def after (c : Instr) (s : State) : State :=
  match exec c s with
  | .next t => t
  | _ => .reset

/-- A peer heard with an offer and an acceptance. -/
def peer (offer acceptance : Nat) : PeerEntry :=
  { PeerEntry.unheard with presence := .live, offer, acceptance, holdings := .same (some 0), lastHeard := some 0 }

/-- The evaporator of 3.10 before its expiry. -/
def evaporator : State :=
  let s : State := { inPhase .running with
    cs := ⟨{ node.cs.set with
      up1 := 8, down1 := 10, rMax := 950, rMin := 300, q := 5, rampUp := 40, rampDown := 80, maxStep := 25
      hSet := 30000, hMax := 40000
      standing := { PerRes.same 0 with steam := 300 }, fullRate := { PerRes.same 0 with steam := 1200 } }, true⟩
    tu := { TU.reset with holdup := 1919900, limitS := 900, interval := some 0 }
    sp := { SP.reset with rIss := 690, rAck := 690 }
    au := { AU.reset with res := { AU.reset.res with steam := { Allot.reset with holding := 1200 } } } }
  (s.setPeer 8 (peer 700 0)).setPeer 10 (peer 0 820)

/-- 3.10: holdup, train, requested part, the step issued and the one placed. -/
theorem test_evaporator_in_running :
    let t := after .rateIntervalExpiry evaporator
    t.tu.holdup = 1920000 ∧ t.tu.train = some 730 ∧ t.tu.parts.steam = 960 ∧ t.tu.claimWait = true
      ∧ t.tu.limited = false ∧ t.acceptance = 900 ∧ t.target .steam = 1260
      ∧ t.sp.rIss = 715 ∧ t.sp.rateReq = some 730 := by decide

/-- The diffuser of 3.11 before its expiry, the run-out time left as given. -/
def diffuser (rem : Nat) : State :=
  let s : State := { inPhase .runOut with
    cs := ⟨{ node.cs.set with up1 := 8, down1 := 10, rMin := 200, q := 10, rampUp := 40, rampDown := 80 }, true⟩
    tu := { TU.reset with holdup := 364000, interval := some 0, runOut := some ⟨rem, .timed, false⟩ }
    sp := { SP.reset with rIss := 400, rAck := 400 } }
  s.setPeer 10 (peer 0 600)

/-- 3.11: the drain term of a timed run-out and the one step of its train. -/
theorem test_diffuser_in_timed_run_out :
    let t := after .rateIntervalExpiry (diffuser 900)
    t.tu.holdup = 360000 ∧ t.tu.train = some 390 ∧ t.sp.rIss = 390 ∧ t.sp.rateReq = none := by decide

/-- 4.8 and its last paragraph: E claims 1500 at a change of its tallies, and nothing while a holding is unknown. -/
theorem test_claim_takes_the_headroom :
    let holds := fun n => { peer 0 0 with holdings := .same (some n) }
    let b : PeerEntry := { peer 0 0 with capacities := { PerRes.same none with steam := some 3000 } }
    let e : State := { inPhase .filled with
      au := { AU.reset with
        res := { AU.reset.res with steam := { Allot.reset with holding := 1200, announced := 1200 } } }
      cs := ⟨{ node.cs.set with standing := { PerRes.same 0 with steam := 1500 } }, true⟩ }
    let s := ((e.setPeer 2 b).setPeer 11 (holds 600)).setPeer 12 (holds 499)
    (after (.claim 12 [0, 1, 0xF4]) s).lc.allot.steam = some (.claim 1500)
      ∧ (after (.statusShort 5 [3, 0, 0, 0, 0, 0, 0]) s).lc.allot.steam = none
      ∧ (after (.statusShort 5 [3, 0, 0, 0, 0, 0, 0]) s).au.res.steam.engine = .waiting := by decide +kernel

/-- 10.7: what each item stores, and the item the failed lock names. -/
theorem test_loading_and_locking :
    let load := fun (s : State) (i v1 v2 : Byte) => after (.configItem i v1 v2 0 0 0) s
    let s := load (load (load (load (load (load .reset 1 0 7) 15 0 30) 13 3 0x84) 14 1 0x36) 6 0 7) 54 0 2
    let t := after (.configItem 68 0 0 0 0 0x10) s
    s.cs.set.ownAddress = 7 ∧ s.cs.set.q = 25 ∧ s.cs.set.rMax = 900 ∧ s.cs.set.rMin = 310 ∧ s.du.count = 6
      ∧ (after .lockConfig t).du = ⟨some ⟨.configuration, 0, .refused .inconsistent, 6⟩, 8⟩ := by decide

/-- 2.8: the STATUS_LONG of the boiler house at 5002. -/
theorem test_status_long_gives_phase_since :
    let s : State := { node with now := 5002 }
    let p : List Byte := [4] ++ .replicate 6 0 ++ .replicate 10 0 ++ [1, 9, 0x60] ++ .replicate 6 0
      ++ [0xA0, 0x0E, 0x10, 11, 1, 0xFF]
    let e := (after (.statusLong 2 p) s).stored 2
    p.length = 32 ∧ e.presence = .live ∧ e.phaseSince = some 1402 ∧ e.capacities.steam = some 2400
      ∧ e.silenceLimit = 30 := by decide +kernel

/-- The catalogue check values of the two generators with their initial values, over the digits 1 to 9. -/
theorem test_crc_check_values :
    let digits : List Byte := [0x31, 0x32, 0x33, 0x34, 0x35, 0x36, 0x37, 0x38, 0x39]
    crc8 digits = 0xF4#8 ∧ crc16 (digits.flatMap bitsOfByte) = 0x29B1#16 := by decide +kernel

/-! ### Hypotheses met: the directives -/

theorem witness_DirectivesAreJudgedInOrder :
    (∃ (src : Source) (s : State), directiveOfCommand (.drain src) = some (src, .drain) ∧ s.calm = true
      ∧ src = .line 30 0 8 0 5 ∧ (s.receives && s.targeted 0 8 0) = false)
    ∧ (∃ (src : Source) (s : State), directiveOfCommand (.drain src) = some (src, .drain) ∧ s.calm = true
      ∧ src = .line 29 0 7 0 5 ∧ (s.receives && s.targeted 0 7 0) = true ∧ s.cs.set.inAuthoritySet 29 = false)
    ∧ (∃ (src : Source) (s : State), directiveOfCommand (.hold src) = some (src, .hold) ∧ s.calm = true ∧ src = .port 9
      ∧ s.cs.locked = false)
    ∧ (∃ (src : Source) (s : State), directiveOfCommand (.clearTrip src) = some (src, .clearTrip) ∧ s.calm = true ∧ s.hears src = true
      ∧ Directive.clearTrip.allows (Source.authority src) = false)
    ∧ (∃ (src : Source) (s : State), directiveOfCommand (.hold src) = some (src, .hold) ∧ s.calm = true ∧ s.hears src = true
      ∧ Directive.hold.allows (Source.authority src) = true ∧ s.ps.frozen = true
      ∧ Directive.hold.passesFreeze s.ps.phase = false) := by
  refine ⟨⟨.line 30 0 8 0 5, node, ?_⟩, ⟨.line 29 0 7 0 5, node, ?_⟩, ⟨port, .reset, ?_⟩, ⟨line, node, ?_⟩,
    ⟨line, { node with ps := { node.ps with frozen := true } }, ?_⟩⟩ <;> decide

/-- A timer of the run-out done, and the node of a run-out to empty. -/
def runningOut (closeAfter done : Bool) : State :=
  { inPhase .runOut with tu := { TU.reset with runOut := some ⟨0, .toEmpty, closeAfter⟩, runoutDone := done } }

theorem witness_DirectivesStartTheirTransition :
    (∃ (src : Source) (s : State), s.phaseFree ∧ s.admits src .startCampaign = true ∧ s.ps.phase = .cold)
    ∧ (∃ (src : Source) (s : State), s.phaseFree ∧ s.admits src .hold = true ∧ s.ps.phase = .running)
    ∧ (∃ (src : Source) (s : State), s.phaseFree ∧ s.admits src .hold = true ∧ s.ps.phase = .runOut ∧ s.tu.data.closeAfter = false)
    ∧ (∃ (src : Source) (s : State), s.phaseFree ∧ s.admits src .bank = true ∧ s.ps.phase = .hold)
    ∧ (∃ (src : Source) (s : State), s.phaseFree ∧ s.admits src .stopRunOut = true ∧ s.ps.phase = .runOut ∧ s.tu.data.mode = .toEmpty
      ∧ s.tu.data.closeAfter = false)
    ∧ (∃ (src : Source) (s : State), s.phaseFree ∧ s.admits src (.runOut (runOutData 0 true)) = true ∧ s.ps.phase = .running
      ∧ s.cs.set.points.runOut.mode = .none)
    ∧ (∃ (src : Source) (s : State), s.phaseFree ∧ s.admits src .drain = true ∧ s.ps.phase = .runOut ∧ s.tu.runoutDone = true
      ∧ s.firstUnmet .drain = none ∧ s.cs.set.points.drain.mode = .none)
    ∧ (∃ (src : Source) (s : State), s.phaseFree ∧ s.admits src .drain = true ∧ s.ps.phase = .hold ∧ s.tu.holdup ≤ s.cs.set.hDr * 60
      ∧ s.firstUnmet .drain = none ∧ s.cs.set.points.drain.mode = .none)
    ∧ (∃ (src : Source) (s : State), s.phaseFree ∧ s.admits src .endCampaign = true ∧ s.ps.phase = .drained
      ∧ s.firstUnmet .endList = none) := by
  refine ⟨⟨line, node, ?_⟩, ⟨port, inPhase .running, ?_⟩, ⟨line, runningOut false false, ?_⟩,
    ⟨port, inPhase .hold, ?_⟩, ⟨line, runningOut false false, ?_⟩, ⟨line, inPhase .running, ?_⟩,
    ⟨line, runningOut true true, ?_⟩, ⟨line, inPhase .hold, ?_⟩, ⟨line, inPhase .drained, ?_⟩⟩
  all_goals exact ⟨⟨rfl, rfl, rfl⟩, by decide⟩

theorem witness_UnmetListHoldsTheTransition :
    (∃ (src : Source) (s : State), s.ps.slot = none ∧ s.admits src .fill = true ∧ s.ps.phase = .drained ∧ s.ps.dwell = none
      ∧ s.firstUnmet .fill ≠ none)
    ∧ (∃ (src : Source) (s : State) (limit : BitVec 16) (u : State), s.ps.slot = none ∧ s.admits src (.feed (feedLimit limit)) = true ∧ s.ps.phase = .filled
      ∧ s.ps.dwell = none ∧ u = s.storeLimit (Source.authority src) (min 1000 limit.toNat)
      ∧ u.cs.set.rMin ≤ min u.tu.limitC u.tu.limitS ∧ u.firstUnmet .feed ≠ none)
    ∧ (∃ (src : Source) (s : State), s.ps.slot = none ∧ s.admits src .resume = true ∧ s.ps.phase = .hold
      ∧ s.ps.ownerRank ≤ (Source.authority src).rank ∧ s.firstUnmet .resume ≠ none)
    ∧ (∃ (src : Source) (s : State), s.ps.slot = none ∧ s.admits src .drain = true ∧ s.ps.phase = .filled
      ∧ s.tu.holdup ≤ s.cs.set.hDr * 60 ∧ s.firstUnmet .drain ≠ none)
    ∧ (∃ (src : Source) (s : State), s.ps.slot = none ∧ s.admits src .endCampaign = true ∧ s.ps.phase = .primed
      ∧ s.firstUnmet .endList ≠ none) := by
  refine ⟨⟨line, withLists (inPhase .drained) false, ?_⟩,
    ⟨port, withLists (inPhase .filled) false, 0#16, (withLists (inPhase .filled) false).storeLimit .sectionPanel 0, ?_⟩,
    ⟨port, withLists (inPhase .hold) false, ?_⟩, ⟨line, withLists (inPhase .filled) false, ?_⟩,
    ⟨line, withLists (inPhase .primed) false, ?_⟩⟩
  all_goals and_intros <;> decide

/-- The node in a phase whose dwell runs. -/
def resting (p : Phase) : State := { inPhase p with ps := { (inPhase p).ps with dwell := some 1 } }

theorem witness_DwellAndSettleHoldTheTransition :
    (∃ (src : Source) (s : State), s.ps.slot = none ∧ s.admits src .fill = true ∧ s.ps.phase = .drained ∧ s.ps.dwell ≠ none)
    ∧ (∃ (src : Source) (s : State) (limit : BitVec 16) (u : State), s.ps.slot = none ∧ s.admits src (.feed (feedLimit limit)) = true ∧ s.ps.phase = .filled
      ∧ s.ps.dwell ≠ none ∧ u = s.storeLimit (Source.authority src) (min 1000 limit.toNat)
      ∧ u.cs.set.rMin ≤ min u.tu.limitC u.tu.limitS)
    ∧ (∃ (src : Source) (s : State), s.ps.slot = none ∧ s.admits src .resume = true ∧ s.ps.phase = .banked ∧ s.cs.set.tBankExit ≠ 0
      ∧ s.ps.ownerRank ≤ (Source.authority src).rank) := by
  refine ⟨⟨line, resting .drained, ?_⟩,
    ⟨line, resting .filled, 1001#16, (resting .filled).storeLimit .campaign 1000, ?_⟩,
    ⟨port, inPhase .banked, ?_⟩⟩
  all_goals and_intros <;> decide

theorem witness_ClaimStageHoldsTheTransition :
    (∃ (src : Source) (s : State), s.ps.slot = none ∧ s.admits src .fill = true ∧ s.ps.phase = .primed ∧ s.ps.dwell = none
      ∧ s.firstUnmet .fill = none ∧ ∃ x, (s.au.res.get x).holding < min 4000 (s.cs.set.standing.get x))
    ∧ (∃ (src : Source) (s : State) (limit : BitVec 16) (u : State), s.ps.slot = none ∧ s.admits src (.feed (feedLimit limit)) = true ∧ s.ps.phase = .filled
      ∧ s.ps.dwell = none ∧ u = s.storeLimit (Source.authority src) (min 1000 limit.toNat)
      ∧ u.cs.set.rMin ≤ min u.tu.limitC u.tu.limitS ∧ u.firstUnmet .feed = none
      ∧ ∃ x, (s.au.res.get x).holding < min 4000 (atMinimumRate s.cs.set x))
    ∧ (∃ (src : Source) (s : State) (f : Resource → Nat), s.ps.slot = none ∧ s.admits src .resume = true ∧ s.ps.phase = .hold
      ∧ s.ps.ownerRank ≤ (Source.authority src).rank ∧ s.firstUnmet .resume = none
      ∧ f = (if s.ps.linkPhase = .running then atMinimumRate s.cs.set else s.cs.set.standing.get)
      ∧ ∃ x, (s.au.res.get x).holding < min 4000 (f x)) := by
  refine ⟨⟨line, withStanding (inPhase .primed) 4000 3999, ?_⟩,
    ⟨line, withStanding (inPhase .filled) 1 0, 500#16,
      (withStanding (inPhase .filled) 1 0).storeLimit .campaign 500, ?_⟩, ⟨port, withStanding (inPhase .hold) 1 0, atMinimumRate (withStanding node 1 0).cs.set, ?_⟩⟩
  all_goals and_intros <;> first | decide | exact ⟨.steam, by decide⟩ | rfl

theorem witness_ClaimsHeldStartTheTransition :
    (∃ (src : Source) (s : State), s.phaseFree ∧ s.sp.pairReq = none ∧ s.admits src .fill = true ∧ s.ps.phase = .primed
      ∧ s.ps.dwell = none ∧ s.firstUnmet .fill = none ∧ s.cs.set.points.fill.mode = .none
      ∧ s.ClaimsHeld s.cs.set.standing.get)
    ∧ (∃ (src : Source) (s : State) (limit : BitVec 16) (u : State), s.phaseFree ∧ s.sp.pairReq = none ∧ s.admits src (.feed (feedLimit limit)) = true
      ∧ s.ps.phase = .filled ∧ s.ps.dwell = none ∧ u = s.storeLimit (Source.authority src) (min 1000 limit.toNat)
      ∧ u.cs.set.rMin ≤ min u.tu.limitC u.tu.limitS ∧ u.firstUnmet .feed = none
      ∧ s.cs.set.points.feed.mode = .none
      ∧ s.ClaimsHeld (atMinimumRate s.cs.set))
    ∧ (∃ (src : Source) (s : State) (f : Resource → Nat), s.phaseFree ∧ s.sp.pairReq = none ∧ s.admits src .resume = true ∧ s.ps.phase = .hold
      ∧ s.ps.ownerRank ≤ (Source.authority src).rank ∧ s.firstUnmet .resume = none
      ∧ f = (if s.ps.linkPhase = .running then atMinimumRate s.cs.set else s.cs.set.standing.get)
      ∧ s.ClaimsHeld f) := by
  refine ⟨⟨line, withStanding (inPhase .primed) 4000 4000, ?_⟩,
    ⟨line, withStanding (inPhase .filled) 4000 4000, 500#16,
      (withStanding (inPhase .filled) 4000 4000).storeLimit .campaign 500, ?_⟩,
    ⟨port, withStanding (inPhase .hold) 4000 4000, atMinimumRate (withStanding node 4000 4000).cs.set, ?_⟩⟩
  all_goals and_intros <;> first | decide | rfl | (intro x; cases x <;> exact ⟨by decide, .inl (by decide)⟩)

theorem witness_ImmediateDirectivesActAtOnce :
    (∃ (src : Source) (s : State) (limit : BitVec 16), s.atStage .waitPrereq = false ∧ s.admits src (.feed (feedLimit limit)) = true
      ∧ s.ps.phase = .running)
    ∧ (∃ (src : Source) (s : State) (limit : BitVec 16), s.atStage .waitPrereq = false ∧ s.admits src (.feed (feedLimit limit)) = true
      ∧ s.ps.phase = .runOut ∧ s.tu.data.closeAfter = false)
    ∧ (∃ (src : Source) (s : State), s.atStage .waitPrereq = false ∧ s.admits src .hold = true ∧ s.ps.phase.inHold = true
      ∧ ∀ r, s.ps.slot = some r → r.outranked (Source.authority src) = false)
    ∧ (∃ (src : Source) (s : State) (length : BitVec 16) (closeAfter : Bool), s.atStage .waitPrereq = false
      ∧ s.admits src (.runOut (runOutData length closeAfter)) = true ∧ s.ps.phase = .runOut
      ∧ s.tu.data.closeAfter = false)
    ∧ (∃ (src : Source) (s : State) (length : BitVec 16) (closeAfter : Bool), s.atStage .waitPrereq = false
      ∧ s.admits src (.runOut (runOutData length closeAfter)) = true ∧ s.ps.phase.inHold = true
      ∧ s.ps.holdsResume = false) := by
  refine ⟨⟨port, inPhase .running, 1000#16, ?_⟩, ⟨line, runningOut false false, 0#16, ?_⟩, ⟨line, inPhase .banked, ?_⟩,
    ⟨line, runningOut false false, 59#16, true, ?_⟩, ⟨line, inPhase .hold, 61#16, false, ?_⟩⟩
  all_goals and_intros <;> decide

/-- The node with a requester record of a blocking point. -/
def waitsOnCoUnit (p : Phase) (x : RecordState) : State :=
  { inPhase p with hu := { HU.reset with record := some ⟨.fill, some ⟨8, 3, 1⟩, x⟩, counitWait := true } }

/-- The node in a phase with every handoff point in a mode. -/
def atPoints (p : Phase) (m : PointMode) : State :=
  let x : PointSetting := ⟨m, 8, 3⟩
  { inPhase p with cs := ⟨{ node.cs.set with points := ⟨x, x, x, x⟩ }, true⟩ }

/-- The same with the requester record occupied. -/
def occupied (p : Phase) (m : PointMode) : State :=
  { atPoints p m with hu := (waitsOnCoUnit p (.confirmWait .failed)).hu }

theorem witness_ConfirmEndsTheWait :
    (∀ m ∈ [PointMode.none, .confirmOnly, .coUnit], ∃ (src : Source) (s : State) (length : BitVec 16) (closeAfter : Bool),
      s.phaseFree ∧ s.admits src (.runOut (runOutData length closeAfter)) = true ∧ s.ps.phase = .running
      ∧ s.hu.record = none ∧ s.cs.set.points.runOut.mode = m)
    ∧ (∀ m ∈ [PointMode.confirmOnly, .coUnit], ∃ (src : Source) (s : State) (length : BitVec 16) (closeAfter : Bool),
      s.phaseFree ∧ s.admits src (.runOut (runOutData length closeAfter)) = true ∧ s.ps.phase = .running
      ∧ s.hu.record ≠ none ∧ s.cs.set.points.runOut.mode = m)
    ∧ (∀ m ∈ [PointMode.none, .confirmOnly, .coUnit], ∃ (src : Source) (s : State), s.phaseFree
      ∧ s.admits src .drain = true ∧ s.ps.phase = .hold ∧ s.tu.holdup ≤ s.cs.set.hDr * 60 ∧ s.firstUnmet .drain = none
      ∧ s.hu.record = none ∧ s.cs.set.points.drain.mode = m)
    ∧ (∀ m ∈ [PointMode.confirmOnly, .coUnit], ∃ (src : Source) (s : State), s.phaseFree ∧ s.admits src .drain = true
      ∧ s.ps.phase = .hold ∧ s.tu.holdup ≤ s.cs.set.hDr * 60 ∧ s.firstUnmet .drain = none ∧ s.hu.record ≠ none
      ∧ s.cs.set.points.drain.mode = m)
    ∧ (∃ (src : Source) (s : State) (h : HandoffRec) (w : WaitReason), s.admits src .confirm = true
      ∧ s.hu.record = some h ∧ h.state = .confirmWait w ∧ s.slotStays)
    ∧ (∃ (src : Source) (s : State) (h : HandoffRec) (w : WaitReason) (r : SlotRec) (k : Point),
      s.admits src .confirm = true ∧ s.hu.record = some h ∧ h.state = .confirmWait w ∧ s.ps.slot = some r
      ∧ r.stage = .waitHandoffSlot ∧ r.kind.point = some k ∧ r.pendingSent = true ∧ s.ps.frozen = false
      ∧ s.sp.tripReq = false ∧ s.sp.psReq = none ∧ s.sp.pairReq = none) := by
  refine ⟨fun m h => ⟨line, atPoints .running m, 0, true, ⟨rfl, rfl, rfl⟩, ?_⟩,
    fun m h => ⟨line, occupied .running m, 60, false, ⟨rfl, rfl, rfl⟩, ?_⟩,
    fun m h => ⟨line, atPoints .hold m, ⟨rfl, rfl, rfl⟩, ?_⟩,
    fun m h => ⟨line, occupied .hold m, ⟨rfl, rfl, rfl⟩, ?_⟩,
    ⟨port, waitsOnCoUnit .filling (.confirmWait .failed), _, .failed, by decide, rfl, rfl, fun _ h => nomatch h⟩,
    ⟨port, { occupied .hold .coUnit with
        ps := (withSlot .hold { SlotRec.new .draining .drain (.line 30 4) .campaign none with
          stage := .waitHandoffSlot, pendingSent := true }).ps }, _, .failed, _, .drain, by decide, rfl, rfl, rfl, rfl, rfl,
      rfl, rfl, rfl, rfl, rfl⟩⟩
  all_goals fin_cases h <;> decide

theorem witness_ClearTripStartsTheRecovery :
    ∀ c ∈ [([] : List Outstanding), [⟨0, .turnover, some 1, false⟩]], ∃ (s : State) (p : Phase), s.sp.outstanding = c
      ∧ s.cs.locked = true ∧ s.ps.phase = .tripped ∧ s.ps.slot = none
      ∧ s.shows ReportFlags.tripRequest = false ∧ s.ps.frozen = false ∧ s.tr.recovery = none
      ∧ s.sp.tripReq = false ∧ s.sp.psReq = none ∧ s.sp.pairReq = none
      ∧ p = (if s.tu.holdup ≤ s.cs.set.hDr * 60 then Phase.drained else .hold) := by
  intro c _
  exact ⟨{ inPhase .tripped with sp := { SP.reset with outstanding := c } }, _, by and_intros <;> rfl⟩

/-- A RESUME of the section panel that waits on its claims. -/
def asking : SlotRec := { SlotRec.new .running .resume (.port 3) .sectionPanel none with stage := .waitClaim }

theorem witness_CancelAndOwnerRemoveTheTransition :
    (∃ (src : Source) (s : State) (r : SlotRec), s.ps.slot = some r ∧ s.sp.NoPhaseWaits ∧ s.noneArises ∧ s.admits src .cancel = true
      ∧ r.stage.beforeIssue = true ∧ (Source.authority src = .campaign ∨ r.requester.isPort = true))
    ∧ (∃ (src : Source) (s : State) (r : SlotRec), s.ps.slot = some r ∧ s.sp.NoPhaseWaits ∧ s.noneArises ∧ s.admits src .hold = true
      ∧ s.ps.phase.inHold = true ∧ s.ps.ownerRank < (Source.authority src).rank ∧ r.kind = .resume
      ∧ r.stage.beforeIssue = true ∧ r.authority.rank < (Source.authority src).rank)
    ∧ (∃ (src : Source) (s : State) (r : SlotRec), s.ps.slot = some r ∧ s.noneArises ∧ s.admits src .cancel = true
      ∧ r.stage = .waitIssue ∧ (∀ p, s.sp.psReq ≠ some (p, .completion))
      ∧ (Source.authority src = .campaign ∨ r.requester.isPort = true) ∧ s.sp.outstanding ≠ []
      ∧ s.sp.lookAhead = false) := by
  refine ⟨⟨port, withSlot .filled asking, _, rfl, ⟨rfl, rfl⟩,
      ⟨rfl, by decide, fun h => absurd h (by decide)⟩, by decide⟩,
    ⟨line, withSlot .hold asking, _, rfl, ⟨rfl, rfl⟩,
      ⟨rfl, by decide, fun h => absurd h (by decide)⟩, by decide⟩,
    ⟨line, let s := withSlot .primed { asking with stage := .waitIssue }
      { s with sp := { (withCommand .primed .turnover).sp with psReq := some (.filling, .transition) } }, _, rfl,
      ⟨rfl, by decide, fun h => absurd h (by decide)⟩, by decide, rfl, by simp, .inl rfl, by decide, rfl⟩⟩

/-- A transition at a stage whose deadline has run down. -/
def lateAt (k : TransKind) (stage : Stage) : SlotRec :=
  { SlotRec.new .filling k (.line 30 4) .campaign none with stage := stage, deadline := some 0, pendingSent := true }

theorem witness_StageDeadlinesRefuseTheTransition :
    ∀ g ∈ [Stage.waitDwell, .waitPrereq, .waitClaim], ∃ (s : State) (r : SlotRec) (c : Instr) (code : RefusalCode),
      s.ps.slot = some r ∧ r.stage = g ∧ s.sp.NoPhaseWaits ∧ s.ps.frozen = false ∧ r.deadline = some 0
        ∧ DeadlineRefuses s r c code 0 ∧ s.noneArises ∧ s.sp.tripReq = false := by
  intro g h
  simp only [List.mem_cons, List.not_mem_nil, or_false] at h
  rcases h with rfl | rfl | rfl
  · exact ⟨withSlot .primed (lateAt .fill .waitDwell), _, .prereqDeadlineExpiry, .dwell, rfl, rfl, ⟨rfl, rfl⟩, rfl, rfl,
      ⟨rfl, rfl, rfl⟩, ⟨rfl, by decide, fun h => absurd h (by decide)⟩, rfl⟩
  · exact ⟨withLists (withSlot .primed (lateAt .fill .waitPrereq)) false, _, .prereqDeadlineExpiry, .prereqUnmet, rfl, rfl,
      ⟨rfl, rfl⟩, rfl, rfl, ⟨rfl, rfl, .fill, 0, rfl, by decide, rfl⟩,
      ⟨rfl, by decide, fun h => absurd h (by decide)⟩, rfl⟩
  · exact ⟨withSlot .primed (lateAt .fill .waitClaim), _, .claimDeadlineExpiry, .noBudget, rfl, rfl, ⟨rfl, rfl⟩, rfl, rfl,
      ⟨rfl, rfl, rfl⟩, ⟨rfl, by decide, fun h => absurd h (by decide)⟩, rfl⟩

/-- R4, R12: a deadline refuses the transition, and a waiting forced run-out then takes the slot. -/
theorem test_a_refused_transition_gives_the_slot :
    let s := withSlot .hold { lateAt .resume .waitPrereq with target := .running }
    let t := after .prereqDeadlineExpiry
      (withLists { s with ps := { s.ps with waiting := ⟨true, false, false, true⟩ } } false)
    (t.ps.slot.map fun r => (r.kind, r.stage)) = some (.forcedRunOut, .waitAck)
      ∧ t.ps.waiting = ⟨false, false, false, false⟩ := by
  decide +kernel

/-- The requester that the slot goes to, in an AUTO-owned hold or a run-out done. -/
def giveTo (p : Phase) (w : Waiting) : Option Requester :=
  let s := runningOut true true
  let t : State := { s with ps := { s.ps with phase := p, owner := some .auto, waiting := w } }
  t.reexamine.ps.slot.map SlotRec.requester

/-- R4: what takes the empty slot, with one request waiting and with those behind it discarded. -/
theorem test_the_waiting_requests_take_the_slot_in_order :
    (giveTo .hold ⟨true, false, false, true⟩) = some .holdExpired
      ∧ (giveTo .hold ⟨false, true, false, true⟩) = some .autoResume
      ∧ (giveTo .runOut ⟨true, true, false, true⟩) = some .closeAfter
      ∧ (giveTo .filled ⟨true, true, true, true⟩) = none := by
  decide +kernel

/-- A command is a directive that its source may send, and its row refuses it with a code. -/
def RefusedHere (c : Instr) (src : Source) (d : Directive) (code : RefusalCode) (s : State) : Prop :=
  directiveOfCommand c = some (src, d) ∧ s.admits src d = true ∧ s.calm = true
    ∧ RowRefuses s (Source.authority src) d code

/-- A transition of the campaign that waits for its acknowledgement. -/
def issued : SlotRec := { SlotRec.new .filling .fill (.line 30 4) .campaign none with stage := .waitAck }

theorem witness_RowsRefuse :
    (RefusedHere (.startCampaign line) line .startCampaign .illegalInPhase (inPhase .primed)
      ∧ RefusedHere (.startCampaign line) line .startCampaign .busy (withSlot .cold issued)
      ∧ RefusedHere (.fill line) line .fill .illegalInPhase (inPhase .filling)
      ∧ RefusedHere (.fill line) line .fill .busy (withSlot .drained issued)
      ∧ RefusedHere (.endCampaign line) line .endCampaign .illegalInPhase (inPhase .draining)
      ∧ RefusedHere (.endCampaign line) line .endCampaign .busy (withSlot .primed issued)
      ∧ RefusedHere (.bank port) port .bank .illegalInPhase (inPhase .banked)
      ∧ RefusedHere (.bank port) port .bank .busy (withSlot .hold issued)
      ∧ RefusedHere (.feed port 0) port (.feed 0) .illegalInPhase (inPhase .filling)
      ∧ RefusedHere (.feed port 1001) port (.feed 1000) .lockedRunout (runningOut true false)
      ∧ RefusedHere (.feed line 500) line (.feed 500) .busy (withSlot .filled issued)
      ∧ RefusedHere (.hold port) port .hold .illegalInPhase (inPhase .tripped)
      ∧ RefusedHere (.hold port) port .hold .lockedRunout (runningOut true false)
      ∧ RefusedHere (.hold port) port .hold .busy (withSlot .running issued))
    ∧ (RefusedHere (.resume port) port .resume .illegalInPhase (inPhase .running)
      ∧ RefusedHere (.resume port) port .resume .holdOwner
          { inPhase .hold with ps := { (inPhase .hold).ps with owner := some .campaign } }
      ∧ RefusedHere (.resume port) port .resume .busy (withSlot .banked issued)
      ∧ RefusedHere (.runOut line 0 true) line (.runOut ⟨0, .toEmpty, true⟩) .illegalInPhase (inPhase .filled)
      ∧ RefusedHere (.runOut line 59 false) line (.runOut ⟨60, .timed, false⟩) .lockedRunout (runningOut true false)
      ∧ RefusedHere (.runOut line 0 true) line (.runOut ⟨0, .toEmpty, true⟩) .busy
          (withSlot .hold { SlotRec.new .running .resume (.port 1) .sectionPanel none with stage := .waitAck })
      ∧ RefusedHere (.runOut line 0 true) line (.runOut ⟨0, .toEmpty, true⟩) .busy (withSlot .running issued)
      ∧ RefusedHere (.stopRunOut line) line .stopRunOut .illegalInPhase (inPhase .hold)
      ∧ RefusedHere (.stopRunOut line) line .stopRunOut .notToEmpty
          { inPhase .runOut with tu := { TU.reset with runOut := some ⟨60, .timed, false⟩ } }
      ∧ RefusedHere (.stopRunOut line) line .stopRunOut .lockedRunout (runningOut true true)
      ∧ RefusedHere (.stopRunOut line) line .stopRunOut .busy
          { runningOut false true with ps := (withSlot .runOut issued).ps })
    ∧ (RefusedHere (.drain line) line .drain .illegalInPhase (inPhase .banked)
      ∧ RefusedHere (.drain line) line .drain .holdupPresent (runningOut false false)
      ∧ RefusedHere (.drain line) line .drain .holdupPresent
          { inPhase .filled with tu := { TU.reset with holdup := 6001 } }
      ∧ RefusedHere (.drain line) line .drain .busy
          { withSlot .hold issued with tu := { TU.reset with holdup := 6000 } }
      ∧ RefusedHere (.trip port) port .trip .illegalInPhase node
      ∧ RefusedHere (.clearTrip port) port .clearTrip .illegalInPhase node
      ∧ RefusedHere (.clearTrip port) port .clearTrip .causeActive
          { inPhase .tripped with ps := { (inPhase .tripped).ps with frozen := true } }
      ∧ RefusedHere (.clearTrip port) port .clearTrip .busy
          { inPhase .tripped with tr := { TR.reset with recovery := some ⟨.hold, 3, .waiting, none⟩ } }
      ∧ RefusedHere (.confirm port) port .confirm .nothingToConfirm (waitsOnCoUnit .filling (.awaitDone (some 1))))
    ∧ (RefusedHere (.cancel port) port .cancel .nothingPending node
      ∧ RefusedHere (.cancel port) port .cancel .notAuthorized (withSlot .primed issued)
      ∧ RefusedHere (.cancel line) line .cancel .tooLate (withSlot .primed issued)
      ∧ RefusedHere (.cancel line) line .cancel .tooLate
          (let s := withSlot .filling { issued with stage := .waitIssue }
           { s with sp := { s.sp with psReq := some (.filled, .completion) } }))
    ∧ (∃ (src : Source) (s : State) (limit : BitVec 16) (u : State), s.admits src (.feed (feedLimit limit)) = true
      ∧ s.ps.phase = .filled ∧ s.ps.slot = none
      ∧ u = s.storeLimit (Source.authority src) (min 1000 limit.toNat) ∧ min u.tu.limitC u.tu.limitS < u.cs.set.rMin) := by
  refine ⟨?_, ?_, ?_, ⟨⟨rfl, by decide, by decide, .inl ⟨rfl, rfl⟩⟩,
      ⟨rfl, by decide, by decide, .inr ⟨_, rfl, .inl ⟨rfl, rfl, rfl⟩⟩⟩,
      ⟨rfl, by decide, by decide, .inr ⟨_, rfl, .inr ⟨.inl rfl, rfl, fun h => absurd h (by decide), rfl⟩⟩⟩,
      ⟨rfl, by decide, by decide, .inr ⟨_, rfl, .inr ⟨.inl rfl, rfl, fun _ => ⟨_, rfl⟩, rfl⟩⟩⟩⟩,
    port, { evaporator with ps := (inPhase .filled).ps }, 299, _, by decide, rfl, rfl, rfl, by decide⟩
  any_goals and_intros <;> first | rfl | (simp only [RowRefuses, BusyWhen]; decide)

theorem witness_BadCodesAreRefused :
    (∃ (s : State) (a : Station) (p : List Byte), s.calm = true ∧ (byteAt p 4).toNat = 0 ∧ p.length = 8
      ∧ s.receives = true ∧ s.targeted (byteAt p 0) (byteAt p 1) (byteAt p 2) = true ∧ a = 30)
    ∧ (∃ (s : State) (p : List Byte), s.calm = true ∧ 14 < (byteAt p 4).toNat ∧ p.length = 8
      ∧ s.receives = true ∧ s.targeted (byteAt p 0) (byteAt p 1) (byteAt p 2) = true)
    ∧ (∃ (s : State) (p : List Byte), s.calm = true ∧ p.length ≠ 8)
    ∧ (∃ (s : State) (code : Byte), s.calm = true ∧ s.cs.locked = false ∧ 14 < code.toNat)
    ∧ (∃ (s : State) (code : Byte), s.calm = true ∧ s.cs.locked = true ∧ code.toNat = 0) := by
  refine ⟨⟨node, 30, [0, 7, 0, 5, 0, 0, 0, 0], ?_⟩, ⟨node, [2, 0, 0, 5, 15, 0, 0, 0], ?_⟩, ⟨node, [], ?_⟩,
    ⟨.reset, 15, ?_⟩, ⟨node, 0, ?_⟩⟩ <;> decide

/-! ### Trips -/

/-- The timer rows with the causes they raise, each of which may stand raised from before a phase change. -/
def timerCauses : List (Instr × Cause) :=
  [(.fillTimeout, .fillTimeout), (.drainTimeout, .drainTimeout), (.portSilent, .portSilent),
    (.underStandingTimeout, .utilityLost), (.turnoverTimerExpiry, .stagnation)]

/-- A state in which a cause stands raised and the freeze maximum has run out. -/
def raisedIn (s : State) (x : Cause) : State :=
  { s with ps := { s.ps with freezeMax := some 0 }, tr := { s.tr with raised := [x] } }

/-- A timer's cause that stands raised is taken from the list; the freeze maximum is due beside it. -/
theorem raises_still (s : State) (hf : s.ps.fillMax = none) (hd : s.ps.drainMax = none)
    (hp : s.sp.portSilence = none) (hu : s.au.underTimer = none) (ht : s.ps.turnover = none) :
    ∀ y ∈ (Instr.freezeLong, Cause.freezeLong) :: timerCauses, ∃ u,
      Raises y.1 (raisedIn s y.2) u y.2 ∧ u.sp = s.sp ∧ u.hu = s.hu := by
  intro y h
  simp only [timerCauses, List.mem_cons, List.not_mem_nil, or_false] at h
  rcases h with rfl | rfl | rfl | rfl | rfl | rfl
  · exact ⟨_, ⟨rfl, rfl, rfl⟩, rfl, rfl⟩
  all_goals exact ⟨{ raisedIn s .freezeLong with tr := { s.tr with raised := [] } },
    by simp [Raises, raisedIn, State.StillRaised, hf, hd, hp, hu, ht], rfl, rfl⟩

/-- A tripped node. -/
def tripped (y : Option Recovery) : State :=
  { inPhase .tripped with tr := ⟨some ⟨.portSilent, [], false⟩, y, false, []⟩ }

/-- R132: of two expiries of one second the one taken after the trip becomes a later cause. -/
theorem test_the_other_cause_of_a_second_is_a_later_one :
    let s := after .freezeLong { node with
      ps := { node.ps with phase := .filling, fillMax := some 5, freezeMax := some 0, frozen := true }
      sp := { node.sp with portSilence := some 0 } }
    let t := after .portSilent s
    s.tr.raised = [.portSilent] ∧ t.tr = ⟨some ⟨.freezeLong, [.portSilent], false⟩, none, false, []⟩ := by
  decide +kernel

theorem witness_RaisedCausesTripTheSection :
    (∀ c ∈ [Instr.fillTimeout, .drainTimeout, .freezeLong, .underStandingTimeout, .portSilent],
      ∃ s : State, s.ps.phase ≠ .cold ∧ s.ps.phase ≠ .tripped ∧ ∃ u x, Raises c s u x)
    ∧ (∃ s : State, s.ps.phase ≠ .cold ∧ s.ps.phase ≠ .tripped ∧ ∃ u x, Raises .turnoverTimerExpiry s u x)
    ∧ (∀ y ∈ timerCauses,
      ∃ s u : State, s.ps.phase ≠ .cold ∧ s.ps.phase ≠ .tripped ∧ Raises y.1 s u y.2 ∧ s.StillRaised u y.2)
    ∧ (∀ c ∈ [Instr.setPhaseAckTimeout 0, .ackSetPhase 0 .failed],
      ∃ s : State, s.ps.phase ≠ .cold ∧ s.ps.phase ≠ .tripped ∧ ∃ u x, Raises c s u x)
    ∧ (∃ s : State, s.ps.phase ≠ .cold ∧ s.ps.phase ≠ .tripped ∧ ∃ u x, Raises (.setRateAckTimeout 0) s u x)
    ∧ (∀ c ∈ [Instr.ackTurnover 0 .failed, .turnoverAckTimeout 0],
      ∃ s : State, s.ps.phase ≠ .cold ∧ s.ps.phase ≠ .tripped ∧ ∃ u x, Raises c s u x)
    ∧ (∃ (src : Source) (s : State), s.ps.phase ≠ .cold ∧ s.ps.phase ≠ .tripped ∧ s.admits src .trip = true) := by
  refine ⟨?_, ?_, ?_, ?_, ?_, ?_, ⟨port, inPhase .primed, by decide⟩⟩
  · intro c h
    refine ⟨{ node with
        ps := { node.ps with phase := .filling, fillMax := some 0, drainMax := some 0, freezeMax := some 0 }
        au := { node.au with underTimer := some 0 }, sp := { node.sp with portSilence := some 0 } },
      by decide, by decide, ?_⟩
    fin_cases h <;> exact ⟨_, _, by simp only [Raises]; and_intros <;> first | rfl | trivial⟩
  · exact ⟨{ inPhase .banked with ps := { (inPhase .banked).ps with turnover := some 0 } }, by decide, by decide,
      _, _, rfl, rfl, rfl⟩
  · intro y h
    refine ⟨{ inPhase .hold with tr := { TR.reset with raised := [y.2] } }, _, nofun, nofun, ?_,
      List.mem_singleton.mpr rfl, rfl⟩
    fin_cases h <;> exact ⟨rfl, List.mem_singleton.mpr rfl, rfl⟩
  · intro c h
    refine ⟨withCommand .filled (.setPhase .running .transition), by decide, by decide, ?_⟩
    fin_cases h
    · exact ⟨_, _, _, ⟨rfl, _, _, rfl, by decide⟩, rfl, rfl, rfl⟩
    · exact ⟨_, _, _, ⟨rfl, _, _, rfl, by decide⟩, rfl, rfl⟩
  · exact ⟨withCommand .running (.setRate 5 false), by decide, by decide, _, _, _, _, _, rfl, rfl, rfl, rfl, rfl, rfl⟩
  · intro c h
    refine ⟨{ withCommand .hold .turnover with ps := { (inPhase .hold).ps with missed := true } },
      by decide, by decide, ?_⟩
    fin_cases h
    · exact ⟨_, _, _, rfl, rfl, rfl, rfl, rfl, rfl⟩
    · exact ⟨_, _, _, rfl, rfl, rfl, rfl, rfl, rfl, rfl⟩

theorem witness_CausesInTrippedAndInCold :
    (∃ (s : State) (r : TripRec) (src : Source), s.ps.phase = .tripped ∧ s.ps.slot = none ∧ s.tr.record = some r
      ∧ s.admits src .trip = true ∧ s.tr.recovery = none)
    ∧ (∀ z ∈ (Instr.freezeLong, Cause.freezeLong) :: timerCauses,
      (∃ (s : State) (r : TripRec) (u : State), s.ps.phase = .tripped ∧ s.ps.slot = none
        ∧ s.tr.record = some r ∧ Raises z.1 s u z.2 ∧ ({ u.sp with recoveryReq := none } : SP).Quiet ∧ u.hu.NoneWaiting
        ∧ s.tr.recovery = none ∧ u.sp.recoveryReq = none)
      ∧ (∃ (s : State) (r : TripRec) (u : State) (y : Recovery) (k : Token),
        s.ps.phase = .tripped ∧ s.ps.slot = none ∧ s.tr.record = some r ∧ Raises z.1 s u z.2
        ∧ ({ u.sp with recoveryReq := none } : SP).Quiet ∧ u.hu.NoneWaiting
        ∧ s.tr.recovery = some y ∧ y.state = .outstanding k ∧ u.sp.recoveryReq = none)
      ∧ (∃ (s : State) (r : TripRec) (u : State) (y : Recovery),
        s.ps.phase = .tripped ∧ s.ps.slot = none ∧ s.tr.record = some r ∧ Raises z.1 s u z.2
        ∧ ({ u.sp with recoveryReq := none } : SP).Quiet ∧ u.hu.NoneWaiting
        ∧ s.tr.recovery = some y ∧ y.state = .waiting)
      ∧ ∃ (s : State) (u : State), s.ps.phase = .cold ∧ Raises z.1 s u z.2 ∧ u.sp.Quiet
        ∧ u.hu.NoneWaiting ∧ s.ps.waiting = ⟨false, false, false, false⟩ ∧ s.ps.slot = none)
    ∧ (∃ (s : State) (u : State) (x : Cause) (r : SlotRec) (k : Token) (o : Outstanding) (p : Phase),
      s.ps.phase = .cold ∧ Raises (.ackSetPhase k .failed) s u x ∧ u.sp.Quiet ∧ u.hu.NoneWaiting
      ∧ s.ps.waiting = ⟨false, false, false, false⟩ ∧ s.ps.slot = some r ∧ s.sp.find k = some o
      ∧ o.command = .setPhase p .transition) := by
  have quiet : SP.reset.Quiet := by constructor <;> rfl
  refine ⟨⟨tripped none, _, port, rfl, rfl, rfl, by decide, rfl⟩, fun z h => ⟨?_, ?_, ?_, ?_⟩,
    ⟨{ withCommand .cold (.setPhase .primed .transition) with ps := (withSlot .cold issued).ps }, _, _, _, 0, _, _,
      rfl, ⟨_, ⟨rfl, _, _, rfl, by decide⟩, rfl, rfl⟩, ?_, rfl, rfl, rfl, rfl, rfl⟩⟩
  · obtain ⟨u, k, hs, hh⟩ := raises_still (tripped none) rfl rfl rfl rfl rfl z h
    exact ⟨raisedIn (tripped none) z.2, _, u, rfl, rfl, rfl, k, hs ▸ quiet, hh ▸ rfl, rfl, hs ▸ rfl⟩
  · obtain ⟨u, k, hs, hh⟩ :=
      raises_still (tripped (some ⟨.hold, 3, .outstanding 0, none⟩)) rfl rfl rfl rfl rfl z h
    exact ⟨raisedIn (tripped _) z.2, _, u, _, _, rfl, rfl, rfl, k, hs ▸ quiet, hh ▸ rfl, rfl, rfl, hs ▸ rfl⟩
  · obtain ⟨u, k, hs, hh⟩ := raises_still { tripped (some ⟨.hold, 3, .waiting, none⟩) with
      sp := { SP.reset with recoveryReq := some .hold } } rfl rfl rfl rfl rfl z h
    exact ⟨raisedIn _ z.2, _, u, _, rfl, rfl, rfl, k, hs ▸ quiet, hh ▸ rfl, rfl, rfl⟩
  · obtain ⟨u, k, hs, hh⟩ := raises_still node rfl rfl rfl rfl rfl z h
    exact ⟨raisedIn node z.2, u, rfl, k, hs ▸ quiet, hh ▸ rfl, rfl, rfl⟩
  · constructor <;> rfl

/-! ### The section port's commands -/

/-- The slot's transition to a phase, its SET_PHASE outstanding with token 0. -/
def ordered (old new : Phase) (k : TransKind) : State :=
  { withCommand old (.setPhase new .transition) with
    ps := (withSlot old { SlotRec.new new k (.line 30 4) .campaign none with stage := .waitAck }).ps }

theorem witness_AcknowledgedTransitionsEnterTheirPhase :
    ∀ x ∈ [(Phase.cold, Phase.primed, TransKind.start), (.filled, .running, .feed), (.hold, .runOut, .forcedRunOut)],
      ∃ (s : State) (k : Token) (o : Outstanding) (r : SlotRec), s.sp.find k = some o
        ∧ o.command = .setPhase x.2.1 .transition ∧ s.ps.slot = some r ∧ r.kind.completes = false ∧ s.ps.NoneWaits
        ∧ s.idleAfter k ∧ (x.2.1.underRate = true → s.ratesFreely) := by
  intro x h
  fin_cases h
  · exact ⟨ordered .cold .primed .start, 0, _, _, rfl, rfl, rfl, rfl, rfl, ⟨by constructor <;> rfl, rfl⟩, nofun⟩
  · exact ⟨ordered .filled .running .feed, 0, _, _, rfl, rfl, rfl, rfl, rfl, ⟨by constructor <;> rfl, rfl⟩,
      fun _ => ⟨rfl, rfl, by intro x; cases x <;> decide, by intro x; cases x <;> decide⟩⟩
  · exact ⟨ordered .hold .runOut .forcedRunOut, 0, _, _, rfl, rfl, rfl, rfl, rfl, ⟨by constructor <;> rfl, rfl⟩,
      fun _ => ⟨rfl, rfl, by intro x; cases x <;> decide, by intro x; cases x <;> decide⟩⟩

theorem witness_FillAndDrainWaitForCompletion :
    ∃ (s : State) (k : Token) (o : Outstanding) (p : Phase) (r : SlotRec), s.sp.find k = some o
      ∧ o.command = .setPhase p .transition ∧ s.ps.slot = some r ∧ r.kind.completes = true ∧ s.idleAfter k :=
  ⟨ordered .primed .filling .fill, 0, _, _, _, rfl, rfl, rfl, rfl, by constructor <;> rfl, rfl⟩

theorem witness_EntriesBringLinkOwnerAndRunOutData :
    ∃ (s : State) (r : SlotRec) (d : RunOut), r.kind = .resume ∧ s.ps.link = some (.runOut d) :=
  ⟨{ inPhase .hold with ps := { (inPhase .hold).ps with link := some (.runOut ⟨60, .timed, false⟩) } }, asking, _, rfl,
    rfl⟩

/-- The flags of a report that grants the look-ahead permission alone. -/
def quietFlags : ReportFlags := ⟨false, false, false, false, false, true⟩

/-- Bytes are spelt by their bits. -/
theorem spelt (bytes : List Byte) : Spells (bytes.flatMap msbFirst) bytes := ⟨[], by decide, (List.append_nil _).symm⟩

/-- With no exchange open, one starts and ends; off page 3 the cursor stands. -/
theorem ends_here (s : State) (h : s.sp.exchange = none) (hp : s.sp.page = 0) : ∃ e c, s.Ends e c :=
  ⟨⟨[], s.du.result.isSome, s.du.count⟩, s.sp.cursor, .inr ⟨h, rfl, rfl, fun _ => rfl, fun _ k => absurd (hp.symm.trans k) (by decide)⟩⟩

/-- FILLING or DRAINING with its completion awaited, the handoff condition as given, and what the last report showed. -/
def nearlyDone (p : Phase) (w : HandoffWait) (f : ReportFlags) (out : List Outstanding) : State :=
  { withSlot p { SlotRec.new p (if p = .filling then .fill else .drain) (.line 30 4) .campaign none with
      stage := .waitCompletion, handoff := w } with
    sp := { SP.reset with lastReport := some f, outstanding := out } }

/-- The flags that complete FILLING and DRAINING. -/
def doneFlags : ReportFlags := ⟨true, true, false, false, false, true⟩

/-- A command in a state brings the last condition of a phase, as the statement asks. -/
def Completes (c : Instr) (s : State) (p : Phase) : Prop :=
  ∃ (u : State) (also : Option Requester) (r : SlotRec) (q : PS), s.LastCondition c u also ∧ s.sp.Quiet
    ∧ u.ps.slot = some r ∧ r.stage = .waitCompletion ∧ (r.handoff = .notNeeded ∨ r.handoff = .fulfilled)
    ∧ (p = .filled ∧ u.ps.phase = .filling ∧ u.shows ReportFlags.filled = true ∧ q = { u.ps with fillMax := none }
      ∨ p = .drained ∧ u.ps.phase = .draining ∧ u.shows ReportFlags.drained = true
        ∧ u.ps.drainReading.getD 0 ≤ u.cs.set.hDr ∧ q = { u.ps with drainMax := none })

/-- The four events, each for both phases, with an empty list and with a command outstanding. -/
theorem witness_TheLastConditionCompletesThePhase :
    ∀ out ∈ [([] : List Outstanding), [⟨3, .setRate 0 false, none, false⟩]],
      ∀ x ∈ [(Phase.filling, Phase.filled), (.draining, .drained)],
        (∃ s : State, s.sp.outstanding = out ∧ Completes (.confirm port) s x.2)
        ∧ (∃ s : State, s.sp.outstanding = out ∧ Completes (.handoffDone 8 [7, 2, 0, 0]) s x.2)
        ∧ ∀ b ∈ [false, true], ∃ (s : State) (sdi : List Bool), s.sp.outstanding = out ∧ s.ps.frozen = b
          ∧ Completes (.reportArrival sdi) s x.2 := by
  intro out _ x h
  have last : ∀ w : State, w.ps.phase = x.1 → w.sp.lastReport = some doneFlags → w.ps.drainReading = none →
      ∃ q, (x.2 = .filled ∧ w.ps.phase = .filling ∧ w.shows ReportFlags.filled = true ∧ q = { w.ps with fillMax := none }
        ∨ x.2 = .drained ∧ w.ps.phase = .draining ∧ w.shows ReportFlags.drained = true
          ∧ w.ps.drainReading.getD 0 ≤ w.cs.set.hDr ∧ q = { w.ps with drainMax := none }) := by
    intro w hp hl hd
    unfold State.shows
    simp only [List.mem_cons, List.not_mem_nil, or_false] at h
    rcases h with rfl | rfl
    · exact ⟨_, .inl ⟨rfl, hp, by rw [hl]; rfl, rfl⟩⟩
    · exact ⟨_, .inr ⟨rfl, hp, by rw [hl]; rfl, by rw [hd]; exact Nat.zero_le _, rfl⟩⟩
  refine ⟨?_, ?_, fun b _ => ?_⟩
  · let s : State := { nearlyDone x.1 .awaiting doneFlags out with
      hu := { HU.reset with record := some ⟨.fill, none, .confirmWait .expired⟩, counitWait := true } }
    obtain ⟨q, hq⟩ := last { s with
      hu := { s.hu with record := none, counitWait := false }
      ps := { s.ps with slot := s.ps.slot.map SlotRec.fulfil } } rfl rfl rfl
    exact ⟨s, rfl, _, _, _, q, .inl ⟨port, _, _, rfl, rfl, rfl, rfl, rfl, rfl⟩, by constructor <;> rfl, rfl, rfl,
      .inr rfl, hq⟩
  · let s : State := { nearlyDone x.1 .awaiting doneFlags out with
      hu := { HU.reset with record := some ⟨.fill, some ⟨8, 1, 2⟩, .awaitDone (some 5)⟩ } }
    obtain ⟨q, hq⟩ := last { s with
      hu := { s.hu with record := none, counitWait := false }
      ps := { s.ps with slot := s.ps.slot.map SlotRec.fulfil } } rfl rfl rfl
    exact ⟨s, rfl, _, none, _, q, .inr (.inl ⟨8, [7, 2, 0, 0], _, _, rfl, rfl, rfl, rfl, rfl, rfl, rfl, rfl, rfl, rfl, rfl,
      rfl, rfl⟩), by constructor <;> rfl, rfl, rfl, .inr rfl, hq⟩
  · let s : State := { nearlyDone x.1 .notNeeded quietFlags out with
      ps := { (nearlyDone x.1 .notNeeded quietFlags out).ps with frozen := b } }
    obtain ⟨e, c, he⟩ := ends_here s rfl rfl
    let v := (s.afterReport e c doneFlags).remembers false
    cases b
    · obtain ⟨q, hq⟩ := last v rfl rfl rfl
      exact ⟨s, _, rfl, rfl, v, none, _, q, .inr (.inr ⟨_, (Report.bare doneFlags).bytes, doneFlags, e, c, v, rfl, spelt _, he,
        by decide +kernel, rfl, nofun, fun _ => rfl, rfl, .inl ⟨rfl, rfl⟩, rfl⟩), by constructor <;> rfl, rfl, rfl,
        .inl rfl, hq⟩
    · let u : State := { v with
        ps := { v.ps with frozen := false, freezeMax := none, waiting := ⟨false, false, false, false⟩ }
        tu := { v.tu with held := none } }
      obtain ⟨q, hq⟩ := last u rfl rfl rfl
      exact ⟨s, _, rfl, rfl, u, none, _, q, .inr (.inr ⟨_, (Report.bare doneFlags).bytes, doneFlags, e, c, v, rfl, spelt _, he,
        by decide +kernel, rfl, nofun, fun _ => rfl, rfl, .inr ⟨rfl, rfl⟩, rfl⟩), by constructor <;> rfl, rfl, rfl,
        .inl rfl, hq⟩

theorem witness_RecoveriesEndAtTheirOutcome :
    ∀ c ∈ [none, some Cause.freezeLong],
      ∃ (s : State) (k : Token) (o : Outstanding) (p : Phase) (y : Recovery) (r : TripRec), s.sp.find k = some o
        ∧ o.command = .setPhase p .recovery ∧ s.tr.recovery = some y ∧ s.tr.record = some r ∧ s.ps.slot = none
        ∧ s.idleAfter k ∧ y.spoil = c ∧ o.left = some 0 := by
  intro c _
  exact ⟨{ withCommand .tripped (.setPhase .hold .recovery) with
    tr := ⟨some ⟨.portSilent, [], false⟩, some ⟨.hold, 3, .outstanding 0, c⟩, false, []⟩ },
    0, _, _, _, _, rfl, rfl, rfl, rfl,
    rfl, ⟨by constructor <;> rfl, rfl⟩, rfl, rfl⟩

theorem witness_StrayAndLateAcksChangeNothingElse :
    (∃ (s : State) (k : Token), s.sp.find k = none ∧ s.sp.strayCount = 255)
    ∧ ∀ w ∈ [Purpose.completion, .trip], ∃ (s : State) (k : Token) (o : Outstanding) (p : Phase),
      s.sp.find k = some o ∧ o.command = .setPhase p w ∧ s.idleAfter k := by
  refine ⟨⟨{ node with sp := { SP.reset with strayCount := 255 } }, 15, rfl, rfl⟩, fun w _ => ?_⟩
  exact ⟨withCommand .filled (.setPhase .filled w), 0, _, _, rfl, rfl, by constructor <;> rfl, rfl⟩

theorem witness_RateOutcomesAreTaken :
    ∀ b ∈ [false, true], ∀ pair ∈ [false, true], ∃ (s : State) (k : Token) (o : Outstanding) (v : Nat),
      s.sp.find k = some o ∧ o.command = .setRate v pair ∧ s.atStage .waitPrereq = false ∧ s.sp.Quiet
      ∧ s.hu.NoneWaiting ∧ o.superseded = b ∧ o.left = some 0 := by
  intro b _ pair _
  exact ⟨{ inPhase .running with sp := { SP.reset with outstanding := [⟨0, .setRate 300 pair, some 0, b⟩] } }, 0, _, _,
    rfl, rfl, rfl, by constructor <;> rfl, rfl, rfl, rfl⟩

theorem witness_TurnoverOutcomesAreTaken :
    ∀ p ∈ [Phase.hold, .banked], ∃ (s : State) (k : Token) (o : Outstanding), s.sp.find k = some o
      ∧ o.command = .turnover ∧ s.idleAfter k ∧ s.ps.phase = p ∧ s.ps.missed = false ∧ o.left = some 0 := by
  intro p _
  exact ⟨withCommand p .turnover, 0, _, rfl, rfl, ⟨by constructor <;> rfl, rfl⟩, rfl, rfl, rfl⟩

theorem witness_WorkOutcomesAnswerTheRequester :
    ∃ (s : State) (k : Token) (o : Outstanding) (before after : List Service) (e : Service), s.sp.find k = some o
      ∧ (∃ w p a, o.command = .handoffWork w p a) ∧ s.hu.queue = before ++ e :: after ∧ e.state = .outstanding k
      ∧ (∀ x ∈ before ++ after, x.state ≠ .outstanding k) ∧ s.idleAfter k ∧ s.atStage .waitPrereq = false
      ∧ o.left = some 0 :=
  ⟨{ withCommand .filled (.handoffWork 3 .fill 9) with hu := { HU.reset with queue := [⟨9, 4, 3, .fill, .outstanding 0⟩] } },
    0, _, [], [], _, rfl, ⟨_, _, _, rfl⟩, rfl, rfl, nofun, ⟨by constructor <;> rfl, rfl⟩, rfl, rfl⟩

/-- The node with requests waiting at the section port. -/
def asks (p : SP) : State := { inPhase .tripped with sp := p }

theorem witness_TheArbiterIssuesByPriority :
    (∃ s : State, s.sp.outstanding ≠ [] ∧ s.sp.lookAhead = false)
    ∧ (∃ s : State, s.sp.outstanding ≠ [] ∧ s.sp.lookAhead = true
      ∧ ∃ o ∈ s.sp.outstanding, o.command.isSetPhase = true)
    ∧ (∃ s : State, s.sp.outstanding = [] ∧ s.sp.tripReq = true)
    ∧ (∃ (s : State) (p : Phase) (r : SlotRec), s.sp.outstanding = [] ∧ s.sp.tripReq = false
      ∧ s.sp.psReq = some (p, .transition) ∧ s.ps.slot = some r)
    ∧ (∀ p ∈ [Phase.filled, .drained], ∃ (s : State) (r : SlotRec), s.sp.outstanding = [] ∧ s.sp.tripReq = false
      ∧ s.sp.psReq = some (p, .completion) ∧ (p = .filled ∨ p = .drained) ∧ s.ps.slot = some r)
    ∧ (∃ (s : State) (v : Nat) (r : SlotRec), s.sp.outstanding = [] ∧ s.sp.tripReq = false ∧ s.sp.psReq = none
      ∧ s.sp.pairReq = some v ∧ s.ps.slot = some r)
    ∧ (∃ (s : State) (p : Phase) (y : Recovery), s.sp.outstanding = [] ∧ s.sp.tripReq = false ∧ s.sp.psReq = none
      ∧ s.sp.pairReq = none ∧ s.sp.recoveryReq = some p ∧ s.tr.recovery = some y ∧ s.atStage .waitPrereq = false)
    ∧ (∃ s : State, s.sp.outstanding = [] ∧ s.sp.tripReq = false ∧ s.sp.psReq = none ∧ s.sp.pairReq = none
      ∧ s.sp.recoveryReq = none ∧ s.sp.turnoverReq = true ∧ s.sp.lookAhead = false)
    ∧ (∃ (s : State) (before : List Service) (e : Service) (after : List Service), s.sp.outstanding = []
      ∧ s.sp.tripReq = false ∧ s.sp.psReq = none ∧ s.sp.pairReq = none ∧ s.sp.recoveryReq = none
      ∧ s.sp.turnoverReq = false ∧ s.hu.queue = before ++ e :: after ∧ (∀ x ∈ before, x.state ≠ .waiting)
      ∧ e.state = .waiting ∧ s.sp.lookAhead = false)
    ∧ (∃ (s : State) (v : Nat), s.sp.outstanding = [] ∧ s.sp.tripReq = false ∧ s.sp.psReq = none
      ∧ s.sp.pairReq = none ∧ s.sp.recoveryReq = none ∧ s.sp.turnoverReq = false ∧ s.hu.NoneWaiting
      ∧ s.sp.rateReq = some v ∧ s.sp.lookAhead = false)
    ∧ (∃ (s : State) (v : Nat), s.sp.outstanding = [] ∧ s.sp.tripReq = false ∧ s.sp.psReq = none
      ∧ s.sp.pairReq = none ∧ s.sp.recoveryReq = none ∧ s.sp.turnoverReq = true ∧ s.hu.NoneWaiting
      ∧ s.sp.rateReq = some v ∧ s.sp.lookAhead = true) := by
  refine ⟨⟨withCommand .filled .turnover, by decide⟩,
    ⟨asks { SP.reset with outstanding := [⟨0, .setPhase .hold .transition, none, false⟩], lookAhead := true }, by decide⟩,
    ⟨asks { SP.reset with tripReq := true }, rfl, rfl⟩,
    ⟨{ withSlot .primed issued with sp := { SP.reset with psReq := some (.filling, .transition) } }, _, _, rfl, rfl, rfl,
      rfl⟩,
    fun p h => ⟨{ withSlot .filling { issued with stage := .waitIssue } with
      sp := { SP.reset with psReq := some (p, .completion) } }, _, rfl, rfl, rfl, by simpa using h, rfl⟩,
    ⟨{ withSlot .filled issued with sp := { SP.reset with pairReq := some 200 } }, _, _, rfl, rfl, rfl, rfl, rfl⟩,
    ⟨{ tripped (some ⟨.hold, 3, .waiting, none⟩) with sp := { SP.reset with recoveryReq := some .hold } }, _, _, rfl, rfl,
      rfl, rfl, rfl, rfl, rfl⟩,
    ⟨{ inPhase .hold with sp := { SP.reset with turnoverReq := true } }, by decide⟩,
    ⟨{ inPhase .filled with hu := { HU.reset with queue := [⟨9, 4, 3, .fill, .waiting⟩] } }, [], _, [], rfl, rfl, rfl, rfl,
      rfl, rfl, rfl, nofun, rfl, rfl⟩,
    ⟨asks { SP.reset with rateReq := some 300 }, 300, rfl, rfl, rfl, rfl, rfl, rfl, rfl, rfl, rfl⟩,
    ⟨asks { SP.reset with turnoverReq := true, rateReq := some 300, lookAhead := true }, 300, rfl, rfl, rfl, rfl, rfl, rfl,
      rfl, rfl, rfl⟩⟩

/-! ### Timers -/

theorem witness_TurnoverHandoffAndLineTimersExpire :
    (∃ s : State, s.ps.phase = .hold ∧ s.ps.turnover = some 0
      ∧ ∃ o ∈ s.sp.outstanding, o.command = .turnover)
    ∧ (∃ s : State, s.ps.phase = .hold ∧ s.ps.turnover = some 0 ∧ s.sp.Quiet ∧ s.sp.outstanding = []
      ∧ s.hu.NoneWaiting)
    ∧ (∃ s : State, s.ps.phase = .hold ∧ s.ps.turnover = some 0 ∧ s.sp.turnoverReq = false
      ∧ (∀ o ∈ s.sp.outstanding, o.command ≠ .turnover) ∧ s.sp.outstanding ≠ [] ∧ s.sp.lookAhead = false)
    ∧ (∃ (s : State) (h : HandoffRec), s.hu.record = some h ∧ h.state = .awaitDone (some 0) ∧ s.slotStays
      ∧ h.point.blocking = true)
    ∧ (∃ (s : State) (h : HandoffRec), s.hu.record = some h ∧ h.state = .awaitDone (some 0) ∧ s.slotStays
      ∧ h.point.blocking = false)
    ∧ (∃ s : State, s.lc.statusTimer = some 0 ∧ s.cs.locked = true ∧ s.lc.spacing = some 0) := by
  let due := fun q : SP => ({ inPhase .hold with
    ps := { (inPhase .hold).ps with turnover := some 0 }, sp := q } : State)
  refine ⟨⟨due { SP.reset with outstanding := [⟨0, .turnover, none, false⟩] }, by decide⟩,
    ⟨due .reset, rfl, rfl, by constructor <;> rfl, rfl, rfl⟩,
    ⟨due { SP.reset with outstanding := [⟨0, .setRate 0 false, none, false⟩] }, by decide⟩,
    ⟨waitsOnCoUnit .filling (.awaitDone (some 0)), _, rfl, rfl, (fun _ h => nomatch h), rfl⟩,
    ⟨{ node with hu := { HU.reset with record := some ⟨.feed, some ⟨8, 3, 1⟩, .awaitDone (some 0)⟩ } }, _, rfl, rfl,
      (fun _ h => nomatch h), rfl⟩,
    ⟨{ node with lc := { node.lc with statusTimer := some 0, spacing := some 0 } }, by decide⟩⟩

theorem witness_StarveAndBlockTimersCallForAHold :
    (∃ s : State, s.ps.frozen = false ∧ s.tu.starveTimer = some 0 ∧ s.ps.phase = .running ∧ s.tu.starved = true
      ∧ s.phaseFree)
    ∧ (∃ s : State, s.ps.frozen = false ∧ s.tu.starveTimer = some 0 ∧ s.ps.phase = .running ∧ s.tu.starved = true
      ∧ s.ps.slot ≠ none)
    ∧ (∃ s : State, s.ps.frozen = false ∧ s.tu.blockTimer = some 0 ∧ s.ps.phase.underRate = true
      ∧ s.tu.blocked = true ∧ s.phaseFree)
    ∧ (∃ s : State, s.ps.frozen = false ∧ s.tu.blockTimer = some 0 ∧ s.ps.phase.underRate = true
      ∧ s.tu.blocked = true ∧ s.ps.slot ≠ none) := by
  let tu : TU := { TU.reset with starveTimer := some 0, blockTimer := some 0, starved := true, blocked := true }
  exact ⟨⟨{ inPhase .running with tu }, rfl, rfl, rfl, rfl, rfl, rfl, rfl⟩,
    ⟨{ withSlot .running issued with tu }, by decide⟩,
    ⟨{ inPhase .runOut with tu }, rfl, rfl, rfl, rfl, rfl, rfl, rfl⟩,
    ⟨{ withSlot .running issued with tu }, by decide⟩⟩

theorem witness_DwellAndSettleEnd :
    (∃ s : State, s.ps.frozen = false ∧ s.ps.dwell = some 0 ∧ s.atStage .waitDwell = false)
    ∧ (∃ (s : State) (r : SlotRec) (l : ListName), s.ps.frozen = false ∧ s.ps.dwell = some 0 ∧ s.ps.slot = some r
      ∧ r.stage = .waitDwell ∧ r.pendingSent = true ∧ r.deadline ≠ none ∧ r.kind = .fill ∧ l = .fill
      ∧ s.firstUnmet l ≠ none)
    ∧ (∃ (s : State) (r : SlotRec), s.ps.frozen = false ∧ s.ps.slot = some r ∧ r.stage = .waitDwell
      ∧ r.settle = some 0 ∧ r.pendingSent = true ∧ r.kind = .resume ∧ r.deadline = none
      ∧ s.firstUnmet .resume ≠ none)
    ∧ (∃ (s : State) (r : SlotRec), s.ps.frozen = false ∧ s.ps.slot = some r ∧ r.stage = .waitDwell
      ∧ r.settle = some 0 ∧ r.pendingSent = true ∧ r.kind = .forcedRunOut ∧ r.target = .runOut ∧ s.sp.psReq = none
      ∧ s.sp.pairReq = none ∧ s.sp.tripReq = false ∧ s.cs.set.points.runOut.mode = .none) := by
  let settles := fun (p : Phase) (k : TransKind) =>
    withSlot .banked { SlotRec.new p k .holdExpired .campaign none with
      stage := .waitDwell, settle := some 0, pendingSent := true }
  exact ⟨⟨{ node with ps := { node.ps with dwell := some 0 } }, by decide⟩,
    ⟨withLists { node with ps := { node.ps with dwell := some 0, slot := some (lateAt .fill .waitDwell) } } false, _, .fill,
      rfl, rfl, rfl, by decide⟩,
    ⟨withLists (settles .running .resume) false, _, rfl, rfl, by decide⟩,
    ⟨settles .runOut .forcedRunOut, _, rfl, rfl, by decide⟩⟩

theorem witness_HoldMaximumForcesARunOut :
    ∃ (f : SlotRec), f = SlotRec.new .runOut .forcedRunOut .holdExpired .campaign (some ⟨0, .toEmpty, true⟩)
      ∧ (∃ s : State, s.ps.frozen = false ∧ s.ps.holdMax = some 0 ∧ s.cs.set.points.runOut.mode = .none
        ∧ s.phaseFree ∧ s.ps.phase = .hold)
      ∧ (∃ s : State, s.ps.frozen = false ∧ s.ps.holdMax = some 0 ∧ s.cs.set.points.runOut.mode = .none
        ∧ s.ps.slot = none ∧ s.ps.phase = .banked ∧ s.cs.set.tBankExit ≠ 0)
      ∧ (∃ (s : State) (r : SlotRec), s.ps.frozen = false ∧ s.ps.holdMax = some 0
        ∧ s.cs.set.points.runOut.mode = .none ∧ s.ps.slot = some r ∧ r.stage = .waitAck)
      ∧ (∀ st ∈ [Stage.waitClaim, .waitIssue], ∀ p ∈ [Phase.hold, .banked], ∃ (s : State) (r : SlotRec),
        s.ps.frozen = false ∧ s.ps.holdMax = some 0 ∧ s.cs.set.points.runOut.mode = .none ∧ s.ps.slot = some r
        ∧ r.stage = st ∧ (r.stage.beforeIssue = true ∧ s.sp.NoPhaseWaits
          ∨ r.stage = .waitIssue ∧ s.sp.outstanding ≠ [] ∧ s.sp.lookAhead = false)
        ∧ s.sp.tripReq = false ∧ s.ps.phase = p ∧ s.cs.set.tBankExit ≠ 0) := by
  let due := fun s : State => { s with ps := { s.ps with holdMax := some 0 } }
  refine ⟨_, rfl, ⟨due (inPhase .hold), rfl, rfl, rfl, ⟨rfl, rfl, rfl⟩, rfl⟩,
    ⟨due (inPhase .banked), by decide⟩, ⟨due (withSlot .hold issued), _, rfl, rfl, rfl, rfl, rfl⟩, fun st h p _ => ?_⟩
  refine ⟨{ due (withSlot p { asking with stage := st }) with
    sp := { SP.reset with outstanding := [⟨0, .turnover, some 9, false⟩] } }, _, rfl, rfl, rfl, rfl, rfl, ?_, rfl, rfl,
    (by decide : Settings.default.tBankExit ≠ 0)⟩
  fin_cases h
  · exact .inl ⟨rfl, rfl, rfl⟩
  · exact .inr ⟨rfl, nofun, rfl⟩

/-! ### The rate interval -/

/-- The node in a phase at the expiry of its rate interval, with no neighbour. -/
def expires (p : Phase) (owner : Option Authority) : State :=
  { inPhase p with ps := { (inPhase p).ps with owner }, tu := { TU.reset with interval := some 0 } }

theorem witness_TheHoldupIsIntegrated :
    (∃ (s : State) (h : Nat), s.tu.interval = some 0 ∧ s.ps.frozen = false ∧ s.atStage .waitPrereq = false
      ∧ (h : Int) = clampInt 0 99999999 (s.tu.holdup
        + ((if s.headSection then 0 else s.inflow : Nat) - (s.sp.rAck : Int)) * s.cs.set.tInt)
      ∧ s.ps.phase ∈ [Phase.filled, .banked] ∧ h = 99999999)
    ∧ (∃ (s : State) (h : Nat), s.tu.interval = some 0 ∧ s.ps.frozen = false ∧ s.atStage .waitPrereq = false
      ∧ (h : Int) = clampInt 0 99999999 (s.tu.holdup
        + ((if s.headSection then 0 else s.inflow : Nat) - (s.sp.rAck : Int)) * s.cs.set.tInt)
      ∧ s.ps.phase = .hold ∧ s.ps.owner ≠ some .auto)
    ∧ (∃ (s t : State) (h : Nat), s.tu.interval = some 0 ∧ s.ps.frozen = false ∧ s.atStage .waitPrereq = false
      ∧ (h : Int) = clampInt 0 99999999 (s.tu.holdup
        + ((if s.headSection then 0 else s.inflow : Nat) - (s.sp.rAck : Int)) * s.cs.set.tInt)
      ∧ t = { s with tu := { s.tu with interval := some s.cs.set.tInt, holdup := h } }
      ∧ s.ps.phase = .hold ∧ s.ps.owner = some .auto ∧ t.resumeRate < s.cs.set.rMin)
    ∧ (∃ (s t : State) (h : Nat), s.tu.interval = some 0 ∧ s.ps.frozen = false ∧ s.atStage .waitPrereq = false
      ∧ (h : Int) = clampInt 0 99999999 (s.tu.holdup
        + ((if s.headSection then 0 else s.inflow : Nat) - (s.sp.rAck : Int)) * s.cs.set.tInt)
      ∧ t = { s with tu := { s.tu with interval := some s.cs.set.tInt, holdup := h } }
      ∧ s.ps.phase = .hold ∧ s.ps.owner = some .auto ∧ s.au.underStanding = false
      ∧ s.cs.set.rMin ≤ t.resumeRate ∧ s.tu.good = 0)
    ∧ (∃ good : State → Prop, good = (fun s => ∃ (t u : State) (h : Nat), s.tu.interval = some 0 ∧ s.ps.frozen = false
        ∧ s.atStage .waitPrereq = false
        ∧ (h : Int) = clampInt 0 99999999 (s.tu.holdup
          + ((if s.headSection then 0 else s.inflow : Nat) - (s.sp.rAck : Int)) * s.cs.set.tInt)
        ∧ t = { s with tu := { s.tu with interval := some s.cs.set.tInt, holdup := h } } ∧ s.ps.phase = .hold
        ∧ s.ps.owner = some .auto ∧ s.au.underStanding = false ∧ s.cs.set.rMin ≤ t.resumeRate ∧ s.tu.good ≠ 0
        ∧ u = { t with tu := { t.tu with good := 0 } }
        ∧ (s.ps.slot ≠ none ∨ s.ps.slot = none ∧ u.firstUnmet .resume ≠ none
          ∨ s.ps.slot = none ∧ u.firstUnmet .resume = none
            ∧ ∃ x, (s.au.res.get x).holding < min 4000 (atMinimumRate s.cs.set x)))
      ∧ (∃ s, good s ∧ s.ps.slot ≠ none)
      ∧ (∃ s, good s ∧ s.ps.slot = none ∧ s.firstUnmet .resume ≠ none)
      ∧ ∃ s, good s ∧ s.ps.slot = none ∧ ∃ x, (s.au.res.get x).holding < min 4000 (atMinimumRate s.cs.set x)) := by
  let full : State := { expires .filled none with tu := { (expires .filled none).tu with holdup := 99999999 } }
  let high : State := { expires .hold (some .auto) with
    cs := ⟨{ node.cs.set with rMin := 1000, up1 := 8 }, true⟩ }
  let once : State := { expires .hold (some .auto) with tu := { (expires .hold (some .auto)).tu with good := 1 } }
  refine ⟨⟨full, 99999999, by decide⟩, ⟨expires .hold (some .campaign), 0, by decide⟩,
    ⟨high, _, 0, rfl, rfl, rfl, by decide, rfl, rfl, rfl, by decide⟩,
    ⟨expires .hold (some .auto), _, 0, rfl, rfl, rfl, by decide, rfl, rfl, rfl, rfl, by decide, rfl⟩, _, rfl,
    ⟨{ once with ps := { once.ps with slot := some issued } }, ⟨_, _, 0, rfl, rfl, rfl, by decide, rfl, rfl, rfl, rfl,
      by decide, by decide, rfl, .inl nofun⟩, nofun⟩,
    ⟨withLists once false, ⟨_, _, 0, rfl, rfl, rfl, by decide, rfl, rfl, rfl, rfl, by decide, by decide, rfl,
      .inr (.inl (by decide))⟩, by decide⟩,
    ⟨{ once with cs := (withStanding node 1 0).cs }, ⟨_, _, 0, rfl, rfl, rfl, by decide, rfl, rfl, rfl, rfl, by decide,
      by decide, rfl, .inr (.inr ⟨rfl, by decide, .steam, by decide⟩)⟩, rfl, .steam, by decide⟩⟩

/-- The state with UNDER_STANDING set. -/
def short (s : State) : State := { s with au := { s.au with underStanding := true } }

/-- The state with a command outstanding. -/
def occupies (s : State) : State :=
  { s with sp := { s.sp with outstanding := [⟨3, .turnover, some 9, false⟩] } }

/-- A section with no standing requirement is covered. -/
theorem needless {s : State} (h : s.cs.set.standing = .same 0) : s.standsCovered := fun x => by
  have : s.cs.set.standing.get x = 0 := by
    rw [h]
    cases x <;> rfl
  rw [this]
  exact ⟨Nat.zero_le _, Nat.zero_le _, .inl rfl⟩

theorem witness_RunningComputesItsRate :
    ∀ x ∈ [(short evaporator, 715), (occupies (short evaporator), 715), (diffuser 900, 390), (diffuser 0, 440)],
      ∃ (s : State) (h drain d b rate up : Nat) (runOut stopped starved blocked budget late : Bool), s = x.1
      ∧ s.hu.NoneWaiting ∧ (s.au.underStanding = true ∨ s.standsCovered)
      ∧ s.tu.interval = some 0 ∧ s.ps.frozen = false ∧ s.ps.phase.underRate = true ∧ s.atStage .waitPrereq = false
      ∧ s.sp.tripReq = false ∧ s.sp.psReq = none ∧ s.sp.pairReq = none ∧ s.sp.recoveryReq = none
      ∧ s.sp.turnoverReq = false ∧ s.sp.lookAhead = false ∧ s.cs.set.tStarve ≠ 0
      ∧ runOut = decide (s.ps.phase = .runOut)
      ∧ (h : Int) = clampInt 0 99999999 (s.tu.holdup
        + ((if s.headSection then (if runOut then 0 else s.sp.rAck) else s.inflow : Nat) - (s.sp.rAck : Int))
          * s.cs.set.tInt)
      ∧ (runOut = true → s.cs.set.hDr * 60 < h ∨ s.tu.runoutDone = false ∧ s.headSection = false ∧ s.inflow ≠ 0)
      ∧ drain = (if s.tu.data.mode = .toEmpty ∨ s.tu.data.rem = 0 then s.cs.set.rMax
        else if s.cs.set.hDr * 60 < h then ceilDiv (h - s.cs.set.hDr * 60) s.tu.data.rem else 0)
      ∧ late = (runOut && s.tu.data.mode = .timed && s.tu.data.rem = 0)
      ∧ (up : Int) = (if runOut then ((if s.headSection then 0 else s.inflow : Nat) : Int) + drain
        else if s.headSection then (s.cs.set.rMax : Int)
        else max 0 (s.inflow + clampInt (-s.cs.set.rCorrMax) s.cs.set.rCorrMax
          (((h : Int) - s.cs.set.hSet * 60).tdiv s.cs.set.tLevel)))
      ∧ d = min (min s.tu.limitC s.tu.limitS)
        (min s.cs.set.rMax (min (if s.tailSection then s.cs.set.rMax else s.downstream) up))
      ∧ b = s.budgets.foldl min d
      ∧ rate = (if b < s.cs.set.rMin then 0
        else max s.cs.set.rMin
          (clamp (s.sp.rAck - s.cs.set.rampDown) (s.sp.rAck + s.cs.set.rampUp) b / s.cs.set.q * s.cs.set.q))
      ∧ stopped = decide (b < s.cs.set.rMin)
      ∧ blocked = (stopped && !s.tailSection && decide (s.downstream = b))
      ∧ starved = (stopped && !blocked && decide (up = b))
      ∧ budget = (stopped && !blocked && !starved && decide (b ∈ s.budgets))
      ∧ State.firstStep { s with tu := { s.tu with train := some rate } } rate = some x.2 := by
  intro x m
  fin_cases m
  · exact ⟨short evaporator, 1920000, 950, 800, 750, 730, 800, false, false, false, false, false, false, rfl, rfl, .inl rfl,
      by decide +kernel⟩
  · exact ⟨occupies (short evaporator), 1920000, 950, 800, 750, 730, 800, false, false, false, false, false, false, rfl, rfl,
      .inl rfl, by decide +kernel⟩
  · exact ⟨diffuser 900, 360000, 394, 394, 394, 390, 394, true, false, false, false, false, false, rfl, rfl, .inr (needless rfl),
      by decide +kernel⟩
  · exact ⟨diffuser 0, 360000, 1000, 600, 600, 440, 1000, true, false, false, false, false, true, rfl, rfl, .inr (needless rfl),
      by decide +kernel⟩

/-- A run-out to empty at its expiry, the section worked off. -/
def workedOff (done closeAfter : Bool) : State :=
  { expires .runOut none with tu := { (expires .runOut none).tu with
    holdup := 6000, runOut := some ⟨0, .toEmpty, closeAfter⟩, runoutDone := done } }

theorem witness_ARunOutEndsWhenWorkedOff :
    (∀ s ∈ [workedOff true true, workedOff false false, workedOff false true], ∃ h : Nat,
      s.tu.interval = some 0 ∧ s.ps.frozen = false ∧ s.ps.phase = .runOut ∧ s.atStage .waitPrereq = false
      ∧ s.sp.tripReq = false ∧ s.sp.psReq = none ∧ s.sp.pairReq = none ∧ s.sp.recoveryReq = none
      ∧ s.sp.turnoverReq = false ∧ s.hu.NoneWaiting ∧ s.sp.lookAhead = false
      ∧ (h : Int) = clampInt 0 99999999 (s.tu.holdup
        + ((if s.headSection then 0 else s.inflow : Nat) - (s.sp.rAck : Int)) * s.cs.set.tInt)
      ∧ h ≤ s.cs.set.hDr * 60 ∧ s.headSection = true
      ∧ s.sp.outstanding = [] ∧ s.sp.rIss = 0 ∧ s.sp.rAck = 0 ∧ s.ps.slot = none
      ∧ s.cs.set.points.drain.mode = .none ∧ s.standsCovered)
    ∧ (∃ (s : State) (h : Nat), s = { workedOff false false with sp := { SP.reset with rIss := 5, rAck := 5 } }
      ∧ (h : Int) = clampInt 0 99999999 (s.tu.holdup
        + ((if s.headSection then 0 else s.inflow : Nat) - (s.sp.rAck : Int)) * s.cs.set.tInt)
      ∧ h ≤ s.cs.set.hDr * 60 ∧ s.headSection = true ∧ s.sp.outstanding = [] ∧ s.sp.rIss ≠ 0 ∧ s.standsCovered)
    ∧ (∃ (s : State) (h : Nat), s = { workedOff false true with
          ps := (withSlot .runOut issued).ps
          sp := { SP.reset with outstanding := [⟨0, .setPhase .drained .transition, none, false⟩] } }
      ∧ (h : Int) = clampInt 0 99999999 (s.tu.holdup
        + ((if s.headSection then 0 else s.inflow : Nat) - (s.sp.rAck : Int)) * s.cs.set.tInt)
      ∧ h ≤ s.cs.set.hDr * 60 ∧ s.headSection = true ∧ s.ps.slot ≠ none ∧ s.sp.outstanding ≠ []
      ∧ s.standsCovered) := by
  refine ⟨fun s m => ⟨6000, ?_⟩, ⟨_, 5950, rfl, by decide, by decide, by decide, by decide, by decide, needless rfl⟩,
    ⟨_, 6000, rfl, by decide, by decide, by decide, by decide, by decide, needless rfl⟩⟩
  fin_cases m
  all_goals exact ⟨rfl, rfl, rfl, rfl, rfl, rfl, rfl, rfl, rfl, rfl, rfl, by decide, by decide, by decide, by decide,
    by decide, by decide, by decide, by decide, needless rfl⟩

/-! ### The line -/

/-- The line idle at the node with a line controller. -/
def idle (l : LC) : State := { node with lc := l }

theorem witness_TheIdleLineIsOfferedTheFirstSlot :
    (State.reset.cs.locked = false)
    ∧ (∃ s : State, s.cs.locked = true ∧ s.lc.tx ≠ none)
    ∧ (∀ b ∈ [true, false], ∃ s : State, s.cs.locked = true ∧ s.lc.tx = none ∧ s.lc.line = .isolated
      ∧ s.lc.attempt = b)
    ∧ (∃ (s : State) (c : Cause), s.cs.locked = true ∧ s.lc.tx = none ∧ s.lc.line = .active
      ∧ s.lc.tripSlot = some c)
    ∧ (∃ (s : State) (r : Resource) (f : AllotFrame), s.cs.locked = true ∧ s.lc.tx = none ∧ s.lc.line = .active
      ∧ s.lc.tripSlot = none ∧ s.lc.allot.get r = some f ∧ ∀ x, x.code < r.code → s.lc.allot.get x = none)
    ∧ (∃ (s : State) (m : MsgFrame) (rest : List MsgFrame), s.cs.locked = true ∧ s.lc.tx = none
      ∧ s.lc.line = .active ∧ s.lc.tripSlot = none ∧ (∀ x, s.lc.allot.get x = none) ∧ s.lc.fifo = m :: rest)
    ∧ (∀ l ∈ [{ LC.reset with longDue := true }, { LC.reset with shortDue := true },
          { LC.reset with shortDue := true, spacing := some 1 }], ∃ s : State, s.lc = l ∧ s.cs.locked = true
      ∧ s.lc.tx = none ∧ s.lc.line = .active ∧ s.lc.tripSlot = none ∧ (∀ x, s.lc.allot.get x = none)
      ∧ s.lc.fifo = []) := by
  refine ⟨rfl, ⟨idle { LC.reset with tx := some ⟨.trip, .tripNotice .freezeLong, true, false⟩ }, by decide⟩,
    fun b _ => ⟨idle { LC.reset with line := .isolated, attempt := b }, rfl, rfl, rfl, rfl⟩,
    ⟨idle { LC.reset with tripSlot := some .freezeLong }, _, rfl, rfl, rfl, rfl⟩,
    ⟨idle { LC.reset with allot := { PerRes.same none with water := some (.release 0) } }, .water, _, rfl, rfl, rfl, rfl, rfl,
      by intro x; cases x <;> decide⟩,
    ⟨idle { LC.reset with fifo := [.handoffDone 9 4 .success] }, _, _, rfl, rfl, rfl, rfl,
      by intro x; cases x <;> rfl, rfl⟩, fun l m => ⟨idle l, ?_⟩⟩
  fin_cases m <;> exact ⟨rfl, rfl, rfl, rfl, rfl, by intro x; cases x <;> rfl, rfl⟩

/-- A CLAIM of steam at its highest value. -/
def highClaim : Frame := .allot .steam (.claim 4000)

/-- A line controller with frames in its slots. -/
def loaded : LC :=
  { LC.reset with
    tripSlot := some .freezeLong, fifo := [.handoffDone 9 4 .success]
    allot := ⟨some (.claim 4000), some (.release 0), none, none⟩ }

theorem witness_OfferedFramesAreLostFaultedOrBegun :
    ∀ x ∈ [(⟨.status, .status (node.compose true), false, false⟩ : Tx), ⟨.trip, .tripNotice .freezeLong, false, false⟩,
        ⟨.fifo, .message (.handoffDone 9 4 .success), false, false⟩, ⟨.allot .steam, highClaim, false, false⟩,
        ⟨.allot .power, .allot .power (.release 0), false, false⟩, ⟨.allot .lime, .allot .lime (.release 0), false, false⟩],
      ∀ l ∈ [LineState.active, .isolated], ∃ s : State, s.lc.tx = some x ∧ x.begun = false ∧ s.lc.line = l
        ∧ s.lc.failures < 7 ∧ s.lc.tripSlot = some .freezeLong ∧ s.lc.fifo = [.handoffDone 9 4 .success]
        ∧ s.lc.allot.get .power = some (.release 0) ∧ s.lc.allot.get .steam = some (.claim 4000)
        ∧ s.lc.allot.get .lime = none := by
  intro x h l _
  refine ⟨sends { loaded with line := l, failures := 6 } x, ?_⟩
  fin_cases h <;> exact ⟨rfl, rfl, rfl, Nat.lt_succ_self 6, rfl, rfl, rfl, rfl, rfl⟩

/-- The CLAIM of steam for 4000 on the line in a phase, with a steam and a power requirement, raised targets and the
rest of the node as given. -/
def claims (p : Phase) (steam power : Nat) (raised : Option Nat) (slot : Option SlotRec) (frozen : Bool)
    (out : List Outstanding) : State :=
  { inPhase p with
    cs := { node.cs with set := { node.cs.set with standing := ⟨steam, power, 0, 0⟩ } }
    ps := { (inPhase p).ps with slot, frozen }
    sp := { SP.reset with outstanding := out }
    au := { AU.reset with
      res := { AU.reset.res with steam := { Allot.reset with raised }, power := { Allot.reset with raised } } }
    lc := { loaded with joined := true, tx := some ⟨.allot .steam, highClaim, true, false⟩ } }

/-- A transition of a kind in WAIT_CLAIM, its PENDING sent. -/
def awaitsClaims (k : TransKind) : SlotRec :=
  { SlotRec.new .running k (.line 30 4) .campaign none with stage := .waitClaim, pendingSent := true }

/-- The CLAIM on the line completes, and the TU and the PS follow. -/
def FollowedBy (s m u : State) : Prop :=
  s.lc.tx = some ⟨.allot .steam, highClaim, true, false⟩ ∧ s.atStage .waitPrereq = false ∧ m = s.claimed .steam 4000
    ∧ ClaimFollowed s m u .steam

/-- R77, R85: a rise that reaches every raised target ends the wait for claims, though the change report held back for
the outcome then cuts it. -/
theorem test_a_rise_is_reported_before_its_cut :
    let s := claims .primed 0 0 none (some (awaitsClaims .fill)) false []
    let t := after .frameCompletion
      { s with au := { s.au with res := { s.au.res with steam := { Allot.reset with raised := some 100 } } } }
    (t.ps.slot.map fun q => q.stage) = some .waitAck ∧ t.au.res.steam.holding = 0 := by decide +kernel

/-- R90: a claim that covers the standing requirement stops the under-standing timer, and the cut of the held report
starts it anew. -/
theorem test_the_under_standing_timer_starts_anew :
    let s := claims .running 100 0 none none false []
    let t := after .frameCompletion { s with au := { s.au with underStanding := true, underTimer := some 3 } }
    t.au.underStanding = true ∧ t.au.underTimer = some s.cs.set.tClaimWait ∧ s.cs.set.tClaimWait ≠ 3 := by
  decide +kernel

theorem witness_CompletedFramesTakeEffect :
    (∀ x ∈ [(⟨.trip, .tripNotice .freezeLong, true, false⟩ : Tx),
        ⟨.fifo, .message (.handoffDone 9 4 .success), true, false⟩, ⟨.status, .status (node.compose false), true, true⟩,
        ⟨.allot .power, .allot .power (.release 0), true, false⟩, ⟨.status, .status (node.compose true), true, true⟩],
      ∃ s : State, s.lc.tx = some x ∧ x.begun = true ∧ s.peerCalm ∧ s.lc.fifo = [.handoffDone 9 4 .success])
    ∧ (∃ s m u, FollowedBy s m u ∧ s.atStage .waitClaim = false ∧ s.ps.phase.underRate = false)
    ∧ (∃ s m u, FollowedBy s m u ∧ s.ps.phase.underRate = true ∧ s.au.underStanding = true ∧ m.belowStanding = true)
    ∧ (∃ s m u, FollowedBy s m u ∧ s.ps.phase.underRate = true ∧ m.standsCovered)
    ∧ (∀ slot ∈ [none, some issued], ∀ frozen ∈ [true, false], ∀ out ∈ [[], [⟨3, .setRate 0 false, none, false⟩]],
      ∃ s m u, FollowedBy s m u ∧ s.ps.phase.underRate = true ∧ HoldAsked s u ∧ s.ps.slot = slot ∧ s.ps.frozen = frozen
        ∧ s.sp.outstanding = out)
    ∧ (∃ s m q, FollowedBy s m s ∧ s.ps.slot = some q ∧ q.stage = .waitClaim
      ∧ ∃ x, (m.au.res.get x).holding < (m.au.res.get x).raised.getD 0)
    ∧ (∀ k ∈ [TransKind.resume, .fill, .feed], ∀ frozen ∈ [true, false],
        ∀ out ∈ [[], [⟨3, .setRate 0 false, none, false⟩]],
      ∃ s m u q, FollowedBy s m u ∧ s.ps.slot = some q ∧ q.stage = .waitClaim ∧ q.kind = k ∧ s.ps.frozen = frozen
        ∧ s.sp.outstanding = out ∧ ∀ x, (m.au.res.get x).raised.getD 0 ≤ (m.au.res.get x).holding) := by
  refine ⟨?_, ?_, ?_, ?_, ?_, ?_, ?_⟩
  · intro x h
    refine ⟨sends loaded x, ?_⟩
    fin_cases h <;> exact ⟨rfl, rfl, ⟨rfl, rfl, .inl rfl⟩, rfl⟩
  · exact ⟨claims .filled 100 0 none none false [], _, _, ⟨rfl, rfl, rfl, .inr ⟨rfl, .inl ⟨.inl rfl, rfl⟩⟩⟩, rfl, rfl⟩
  · let s := claims .running 100 1 none none false []
    exact ⟨{ s with au := { s.au with underStanding := true } }, _, _,
      ⟨rfl, rfl, rfl, .inr ⟨rfl, .inl ⟨.inr (.inl ⟨rfl, by decide⟩), rfl⟩⟩⟩, rfl, rfl, by decide⟩
  · have h : ((claims .running 0 0 none none false []).claimed .steam 4000).standsCovered := by
      intro x; cases x <;> decide
    exact ⟨_, _, _, ⟨rfl, rfl, rfl, .inr ⟨rfl, .inl ⟨.inr (.inr h), rfl⟩⟩⟩, rfl, h⟩
  · intro slot hs frozen hf out ho
    let s := claims .running 100 0 none slot frozen out
    have cut : ∀ u, HoldAsked s u → FollowedBy s (s.claimed .steam 4000) u := by
      fin_cases hs <;> fin_cases hf <;> fin_cases ho <;>
        exact fun u h => ⟨rfl, rfl, rfl, .inr ⟨rfl, .inr ⟨rfl, rfl, rfl, by decide, by decide, h⟩⟩⟩
    have asked : ∃ u, HoldAsked s u := by
      fin_cases hs <;> fin_cases hf
      · exact ⟨_, .inl ⟨.inr rfl, rfl⟩⟩
      · exact ⟨_, .inr ⟨⟨rfl, rfl, rfl⟩, rfl, rfl⟩⟩
      all_goals exact ⟨_, .inl ⟨.inl nofun, rfl⟩⟩
    obtain ⟨u, h⟩ := asked
    exact ⟨s, _, u, cut u h, rfl, h, rfl, rfl, rfl⟩
  · exact ⟨claims .primed 0 0 (some 1) (some (awaitsClaims .fill)) false [], _, _,
      ⟨rfl, rfl, rfl, .inl ⟨_, rfl, rfl, rfl, rfl, .inl ⟨⟨.power, by decide⟩, rfl, rfl⟩⟩⟩, rfl, rfl, .power, by decide⟩
  · intro k hk frozen hf out ho
    let s : State := claims .hold 0 0 none (some (awaitsClaims k)) frozen out
    have h : ∀ x, ((s.claimed .steam 4000).au.res.get x).raised.getD 0 ≤
        ((s.claimed .steam 4000).au.res.get x).holding := by
      intro x; cases x <;> exact Nat.zero_le _
    fin_cases hk <;> fin_cases hf
    all_goals first
      | exact ⟨_, _, _, _, ⟨rfl, rfl, rfl, .inl ⟨_, rfl, rfl, rfl, rfl, .inr ⟨h, .inl ⟨rfl, rfl⟩⟩⟩⟩, rfl, rfl, rfl, rfl,
          rfl, h⟩
      | exact ⟨_, _, _, _, ⟨rfl, rfl, rfl, .inl ⟨_, rfl, rfl, rfl, rfl, .inr ⟨h, .inr ⟨rfl, rfl, rfl, rfl, .inl rfl,
          rfl⟩⟩⟩⟩, rfl, rfl, rfl, rfl, rfl, h⟩
      | exact ⟨_, _, _, _, ⟨rfl, rfl, rfl, .inl ⟨_, rfl, rfl, rfl, rfl, .inr ⟨h, .inr ⟨rfl, rfl, rfl, rfl,
          .inr (.inl ⟨rfl, rfl⟩), rfl⟩⟩⟩⟩, rfl, rfl, rfl, rfl, rfl, h⟩
      | exact ⟨_, _, _, _, ⟨rfl, rfl, rfl, .inl ⟨_, rfl, rfl, rfl, rfl, .inr ⟨h, .inr ⟨rfl, rfl, rfl, rfl,
          .inr (.inr ⟨rfl, rfl⟩), rfl⟩⟩⟩⟩, rfl, rfl, rfl, rfl, rfl, h⟩

/-- A node whose eighth failure in a row comes, in a phase and with a slot. -/
def isolates (p : Phase) (slot : Option SlotRec) (out : List Outstanding) (begun : Bool) : State :=
  { inPhase p with
    ps := { (inPhase p).ps with slot }
    sp := { SP.reset with outstanding := out }
    lc := { loaded with joined := true, failures := 7, tx := some ⟨.trip, .tripNotice .freezeLong, begun, false⟩ } }

theorem witness_FailedFramesReturnOrIsolate :
    (∀ x ∈ [(⟨.trip, .tripNotice .freezeLong, true, false⟩ : Tx), ⟨.fifo, .message (.handoffDone 9 4 .success), true, false⟩,
        ⟨.status, .status (node.compose true), true, true⟩, ⟨.status, .status (node.compose false), true, true⟩,
        ⟨.allot .steam, highClaim, true, false⟩, ⟨.allot .power, .allot .power (.release 0), true, false⟩],
      ∀ l ∈ [LineState.active, .isolated], ∀ c ∈ [none, some Cause.portSilent], ∃ s : State,
        s.lc.tx = some x ∧ x.begun = true ∧ s.lc.line = l ∧ s.lc.failures = 6 ∧ s.lc.tripAside = c ∧ s.peerCalm)
    ∧ (∀ b ∈ [true, false], ∀ p ∈ [Phase.filled, .running, .runOut], ∀ out ∈ [[], [⟨0, .turnover, some 9, false⟩]],
      ∃ (s : State) (x : Tx), s.lc.tx = some x ∧ x.begun = b ∧ s.lc.line = .active ∧ s.lc.failures = 7
        ∧ s.atStage .waitPrereq = false ∧ s.ps.phase = p ∧ s.phaseFree ∧ s.ps.frozen = false ∧ s.sp.outstanding = out)
    ∧ (∀ b ∈ [true, false], ∃ (s : State) (x : Tx), s.lc.tx = some x ∧ x.begun = b ∧ s.lc.line = .active
      ∧ s.lc.failures = 7 ∧ s.atStage .waitPrereq = false ∧ s.ps.phase.underRate = true ∧ s.ps.slot ≠ none) := by
  refine ⟨fun x h l _ c _ => ⟨sends { loaded with line := l, failures := 6, tripAside := c } x, ?_⟩,
    fun b _ p _ out _ => ⟨isolates p none out b, _, rfl, rfl, rfl, rfl, rfl, rfl, ⟨rfl, rfl, rfl⟩, rfl, rfl⟩,
    fun b _ => ⟨isolates .running (some issued) [] b, _, rfl, rfl, rfl, rfl, rfl, rfl, nofun⟩⟩
  fin_cases h <;> exact ⟨rfl, rfl, rfl, rfl, rfl, rfl, rfl, .inl rfl⟩

/-! ### The peer table -/

/-- A long notice in RUNNING, or in TRIPPED with a cause. -/
def longNotice (phase cause : Byte) : List Byte :=
  [phase] ++ .replicate 16 0 ++ [1] ++ .replicate 8 0xFF ++ [0xFF, 0, 0, 11, 0xFF, cause]

/-- The evaporator of 4.9: E holds 1500 of STEAM with 1000 ranked before it and 500 after, the capacity fallen to C. -/
def overcommitted (capacity : Nat) : State :=
  let holds := fun n rank => { peer 0 0 with holdings := .same (some n), rank := some rank }
  let e : State := { inPhase .filled with
    cs := ⟨{ node.cs.set with rank := 2, standing := { PerRes.same 0 with steam := 300 } }, true⟩
    au := { AU.reset with
      res := { AU.reset.res with steam := { Allot.reset with holding := 1500, announced := 1500 } } } }
  ((e.setPeer 2 { holds 0 0 with capacities := { PerRes.same none with steam := some capacity } }).setPeer 11
    (holds 1000 1)).setPeer 12 (holds 500 3)

/-- A drain that waits on its list, which asks that station 8 offers at least 500. -/
def onOffer : State :=
  let e : Vector (Option PrereqEntry) 10 := (Vector.replicate 10 none).set 0 (some ⟨.station 8, .offerGe 500, false⟩)
  let s : State := { withSlot .filled { SlotRec.new .draining .drain (.line 30 4) .campaign none with
      stage := .waitPrereq, pendingSent := true } with
    cs := { node.cs with set := { node.cs.set with lengths := ⟨1, 1, 1, 1, 1⟩, entries := ⟨e, e, e, e, e⟩ } } }
  s.setPeer 8 (peer 0 0)

/-- Nothing in the slot and the command path clear. -/
theorem ready_empty (s : State) (h : s.ps.slot = none) (hq : s.sp.Quiet) : s.ReportReady :=
  ⟨fun _ => ⟨hq.trip, hq.phase, hq.pair⟩, fun _ hr => by rw [h] at hr; cases hr⟩

/-- A transition that waits on its list or its claims, told so, with the command path clear. -/
theorem ready_waiting (s : State) (r : SlotRec) (h : s.ps.slot = some r) (hp : r.pendingSent = true) (hq : s.sp.Quiet) :
    s.ReportReady :=
  ⟨fun _ => ⟨hq.trip, hq.phase, hq.pair⟩, fun _ hr _ => by rw [h] at hr; cases hr; exact hp⟩

/-- A transition past its claims, whatever waits at the section port. -/
theorem ready_issued (s : State) (r : SlotRec) (h : s.ps.slot = some r) (hp : r.stage ≠ .waitPrereq)
    (hc : r.stage ≠ .waitClaim) : s.ReportReady := by
  unfold State.ReportReady State.atStage
  simp [h, hp, hc]

theorem reset_port_quiet : SP.reset.Quiet := by constructor <;> rfl

/-- R7: a peer's offer meets the list of a waiting drain, which goes on to its SET_PHASE. -/
theorem test_a_notice_meets_the_list :
    let t := after (.statusShort 8 [4, 1, 0xF4, 0, 0, 0, 0]) onOffer
    let u := after (.statusShort 8 [4, 1, 0xF3, 0, 0, 0, 0]) onOffer
    t.ps.slot.map SlotRec.stage = some .waitAck ∧ u.ps.slot.map SlotRec.stage = some .waitPrereq := by
  decide +kernel

theorem witness_StatusNoticesWriteTheEntry :
    (∀ x ∈ [(Phase.running, longNotice 4 0xFF), (.tripped, longNotice 10 10)], ∃ (s : State) (a : Station)
        (c : SectionClass), s.listens a ∧ s.ReportReady ∧ x.1.code = (byteAt x.2 0).toNat ∧ x.2.length = 32
      ∧ c.code = (byteAt x.2 29).toNat)
    ∧ Cause.utilityLost.code = (byteAt (longNotice 10 10) 31).toNat
    ∧ (∃ (s : State) (a : Station) (p : List Byte) (ph : Phase), s.listens a ∧ s.ReportReady
      ∧ ph.code = (byteAt p 0).toNat ∧ p.length = 7)
    ∧ ∀ g ∈ [Stage.waitPrereq, .waitClaim, .waitIssue], ∀ b ∈ [false, true], ∃ (s : State) (a : Station),
      s.listens a ∧ s.atStage g = true ∧ s.ps.frozen = b ∧ s.ReportReady := by
  refine ⟨fun x h => ⟨node, 31, .utility, ⟨rfl, by decide, by decide⟩, ready_empty _ rfl reset_port_quiet, ?_⟩, by decide,
    ⟨node, 1, [0, 0, 0, 0, 0, 0, 0], .cold, ⟨rfl, by decide, by decide⟩, ready_empty _ rfl reset_port_quiet, by decide⟩,
    fun g h b _ => ?_⟩
  · fin_cases h <;> decide
  · let r : SlotRec := { SlotRec.new .running .feed (.line 30 4) .campaign none with stage := g, pendingSent := true }
    exact ⟨{ node with ps := { node.ps with slot := some r, frozen := b } }, 31,
      ⟨rfl, by decide, (by decide : node.isOwn 31 = false)⟩, by simp [State.atStage, r], rfl, ready_waiting _ r rfl rfl reset_port_quiet⟩

/-- R70, R89: a peer's claim that cuts a holding below its standing requirement under rate control calls for an auto
hold. -/
theorem test_a_claim_brings_under_standing :
    let s := { overcommitted 2499 with ps := { node.ps with phase := .running } }
    let t := after (.claim 12 [0, 2, 0x58]) { s with
      cs := ⟨{ s.cs.set with rank := 7, standing := { PerRes.same 0 with steam := 1500 } }, true⟩ }
    t.au.res.steam.holding = 899 ∧ t.au.underStanding = true
      ∧ (t.ps.slot.map fun r => (r.requester, r.stage)) = some (.autoHold, .waitAck) := by
  decide +kernel

theorem witness_HoldingsTripsAndSilenceWriteTheEntry :
    (∃ (s : State) (a : Station) (p : List Byte) (r : Resource), s.ReportReady ∧ s.listens a ∧ p.length = 3
      ∧ r.code = (byteAt p 0).toNat ∧ s.ps.phase.underRate = true ∧ s.au.underStanding = false)
    ∧ (∃ (s : State) (a : Station) (p : List Byte) (c : Cause), s.ReportReady ∧ s.listens a ∧ p.length = 1
      ∧ c.code = (byteAt p 0).toNat)
    ∧ (∃ (s : State) (a : Station) (h : Nat), s.ReportReady ∧ a ≠ 0 ∧ s.isOwn a = false
      ∧ (s.stored a).presence = .live ∧ (s.stored a).lastHeard = some h
      ∧ 3 * (s.stored a).statusPeriod.getD 10 < s.elapsed h) :=
  ⟨⟨inPhase .running, 31, [3, 0xFF, 0xFF], .water, ready_empty _ rfl reset_port_quiet, ⟨rfl, by decide, by decide⟩, rfl,
      rfl, rfl, rfl⟩,
    ⟨withSlot .filled issued, 31, [10], .utilityLost, ready_issued (withSlot .filled issued) issued rfl nofun nofun,
      ⟨rfl, by decide, by decide⟩, rfl, rfl⟩,
    ⟨{ node with now := 31 }.setPeer 8 (peer 0 0), 8, 0, ready_empty _ rfl reset_port_quiet, by decide, by decide, by decide,
      by decide, by decide⟩⟩

theorem witness_DiscardedFramesChangeNothing :
    (∀ a ∈ [(0 : Station), 7], ¬ node.listens a) ∧ ¬ State.reset.listens 1
    ∧ (longNotice 11 0xFF).length = 32 ∧ (∀ x : Phase, x.code ≠ (byteAt (longNotice 11 0xFF) 0).toNat)
    ∧ Phase.tripped.code = (byteAt (longNotice 10 11) 0).toNat
    ∧ (∀ x : Cause, x.code ≠ (byteAt (longNotice 10 11) 31).toNat)
    ∧ (∀ x : Resource, x.code ≠ (byteAt [4, 0, 0] 0).toNat)
    ∧ (node.receives = true ∧ judgeBits (.replicate 8 false) = .error)
    ∧ (∃ bits, judgeBits bits ≠ .error) := by
  refine ⟨fun a h => ?_, ?_, by decide, by intro x; cases x <;> decide, by decide, by intro x; cases x <;> decide,
    by intro x; cases x <;> decide, by decide +kernel, ⟨frameBits 0 1 0 [4], by decide +kernel⟩⟩
  · fin_cases h <;> rintro ⟨_, h0, h1⟩
    · exact h0 rfl
    · exact absurd h1 (by decide)
  · rintro ⟨h0, _⟩
    exact absurd h0 (by decide)

/-- Every prerequisite list asks that the node itself has stood 5 s in its phase, COLD since its reset. -/
def watching (k : TransKind) (now : Nat) : State :=
  let e : Vector (Option PrereqEntry) 10 := (Vector.replicate 10 none).set 0 (some ⟨.station 7, .ageGe 5, false⟩)
  let x : Vector (Option PrereqEntry) 10 := e.set 1 (some ⟨.up1, .notFrozen, true⟩)
  { withSlot .primed { SlotRec.new .draining k (.line 30 4) .campaign none with
      stage := .waitPrereq, pendingSent := true } with
    now, pv := { PV.reset with watches := [(7, 5)] }
    cs := { node.cs with set := { node.cs.set with lengths := ⟨1, 1, 1, 2, 2⟩, entries := ⟨e, e, e, x, x⟩ } } }

theorem witness_AgeWatchesEvaluateTheList :
    (∃ (s : State) (a : Station) (r : SlotRec) (n : Nat) (since : Int) (l : ListName), s.ps.frozen = false
      ∧ s.ps.slot = some r ∧ r.stage = .waitPrereq ∧ r.pendingSent = true ∧ (a, n) ∈ s.pv.watches
      ∧ (s.entry a).phaseSince = some since ∧ n ≤ s.age since ∧ r.kind = .drain ∧ l = .drain ∧ s.firstUnmet l ≠ none)
    ∧ (∀ k ∈ [TransKind.drain, .endCampaign], ∃ (s : State) (a : Station) (r : SlotRec) (n : Nat) (since : Int),
      s.ps.frozen = false ∧ s.ps.slot = some r ∧ r.stage = .waitPrereq ∧ r.pendingSent = true
      ∧ (a, n) ∈ s.pv.watches ∧ (s.entry a).phaseSince = some since ∧ n ≤ s.age since ∧ s.sp.tripReq = false
      ∧ s.sp.psReq = none ∧ s.sp.pairReq = none ∧ r.kind = k ∧ s.firstUnmet .drain = none
      ∧ s.firstUnmet .endList = none ∧ s.cs.set.points.drain.mode = .none) := by
  refine ⟨⟨{ watching .drain 5 with
      cs := (withLists (watching .drain 5) false).cs }, 7, _, 5, 0, .drain, rfl, rfl, by decide⟩, fun k h => ?_⟩
  refine ⟨watching k 5, 7, _, 5, 0, rfl, rfl, ?_⟩
  fin_cases h <;> decide

/-- 4.9: E's walk at a capacity of 2200. -/
theorem test_shedding_cuts_to_the_allowance :
    let t := (overcommitted 2200).reportCell .steam
    t.au.res.steam.holding = 1200 ∧ t.lc.allot.steam = some (.release 1200) ∧ t.au.res.steam.engine = .idle := by
  decide +kernel

theorem witness_AChangeReportShedsToTheAllowance :
    (∃ (s : State) (r : Resource), s.allotBegun r = false ∧ (s.au.res.get r).engine ≠ .sending
      ∧ (s.au.res.get r).engine ≠ .reserved ∧ s.sumBefore r + (s.au.res.get r).holding ≤ (s.tally r).capacity)
    ∧ (∃ (s : State) (r : Resource), s.allotBegun r = false ∧ (s.au.res.get r).engine ≠ .sending
      ∧ (s.au.res.get r).engine ≠ .reserved ∧ (s.tally r).capacity < s.sumBefore r + (s.au.res.get r).holding)
    ∧ (∃ (s : State) (r : Resource), s.allotBegun r = false ∧ (s.au.res.get r).engine = .reserved
      ∧ (s.au.res.get r).tally.others + (s.au.res.get r).holding ≤ (s.au.res.get r).tally.capacity
      ∧ (s.tally r).capacity < s.sumBefore r + (s.au.res.get r).holding)
    ∧ (∃ (n : Tally) (c : Cell), c.a.engine = .reserved ∧ c.overtaken n)
    ∧ (∃ (n : Tally) (c : Cell), c.a.engine = .reserved ∧ ¬ c.overtaken n)
    ∧ (∀ b ∈ [false, true], ∃ c : Cell, c.a.heldReport = b ∧ c.a.engine = .waiting)
    ∧ (∀ x ∈ [1599, 1600], ∃ (v : CellView) (c : Cell), v.target = x ∧ c.a.holding ≤ v.target ∧ c.a.engine = .reserved
      ∧ c.a.claimValue = some 1600)
    ∧ (∀ b ∈ [false, true], ∃ (v : CellView) (n : Tally) (c : Cell), v.begun = b ∧ v.target < c.a.holding
      ∧ 1000 + v.target ≤ n.capacity ∧ c.a.engine = .idle) :=
  let reserved : Cell := ⟨{ Allot.reset with
    holding := 1500, engine := .reserved, claimValue := some 1600, tally := ⟨1400, 3000, false⟩ }, some (.claim 1600)⟩
  ⟨⟨overcommitted 2500, .steam, by decide +kernel⟩, ⟨overcommitted 2499, .steam, by decide +kernel⟩,
    ⟨{ overcommitted 2499 with au := { AU.reset with res := { AU.reset.res with
      steam := { Allot.reset with holding := 1500, announced := 1500, engine := .reserved, claimValue := some 1600
                                  tally := ⟨1500, 3100, false⟩ } } } }, .steam, by decide +kernel⟩,
    ⟨⟨1401, 3000, false⟩, reserved, rfl, .inl (by decide)⟩,
    ⟨⟨1400, 3000, false⟩, reserved, rfl, by simp only [Cell.overtaken]; decide⟩,
    fun b _ => ⟨⟨{ Allot.reset with engine := .waiting, heldReport := b }, none⟩, rfl, rfl⟩,
    fun x h => ⟨⟨x, false, true⟩, reserved, rfl, by fin_cases h <;> decide, rfl, rfl⟩,
    fun b _ => ⟨⟨1499, b, true⟩, ⟨0, 2499, false⟩, ⟨{ Allot.reset with holding := 1500 }, none⟩, rfl,
      (by decide : 1499 < 1500), (by decide : 1000 + 1499 ≤ 2499), rfl⟩⟩

/-- R82: a claim takes the smaller of target and headroom, and only above the holding. -/
theorem test_a_claim_takes_the_headroom :
    let c (others : Nat) : Cell := ⟨{ Allot.reset with engine := .waiting, tally := ⟨others, 3000, false⟩, holding := 100 }, none⟩
    ((c 2500).evaluate ⟨600, false, true⟩).slot = some (.claim 500)
      ∧ ((c 2400).evaluate ⟨600, false, true⟩).slot = some (.claim 600)
      ∧ ((c 2900).evaluate ⟨600, false, true⟩).slot = none := by
  decide

/-! ### Handoffs -/

theorem witness_HandoffsAreServedOrAnswered :
    (∃ (s : State) (p : List Byte), s.receives = true ∧ p.length = 4
      ∧ (byteAt p 0).toNat = s.cs.set.ownAddress.val ∧ 3 < (byteAt p 3).toNat)
    ∧ (∃ (s : State) (a : Station) (p : List Byte) (k : Point), s.receives = true ∧ p.length = 4
      ∧ (byteAt p 0).toNat = s.cs.set.ownAddress.val ∧ (byteAt p 3).toNat = k.code
      ∧ ∃ e ∈ s.hu.queue, e.requester = a ∧ e.tag = byteAt p 1)
    ∧ (∀ (q : List Service) (ph : Phase) (out : List Outstanding) (kind : Byte),
        q = [] ∨ q = [⟨9, 1, 0, .fill, .waiting⟩, ⟨9, 2, 0, .fill, .outstanding 0⟩] →
      ∃ (s : State) (a : Station) (p : List Byte) (k : Point), s.ps.phase = ph ∧ s.hu.queue = q
        ∧ s.sp.outstanding = out ∧ byteAt p 2 = kind ∧ s.receives = true ∧ p.length = 4
        ∧ (byteAt p 0).toNat = s.cs.set.ownAddress.val ∧ (byteAt p 3).toNat = k.code
        ∧ (∀ e ∈ s.hu.queue, ¬ (e.requester = a ∧ e.tag = byteAt p 1)) ∧ s.atStage .waitPrereq = false
        ∧ s.sp.lookAhead = false ∧ s.sp.Quiet) := by
  refine ⟨⟨node, [7, 1, 0, 4], by decide⟩,
    ⟨{ node with hu := { HU.reset with queue := [⟨9, 4, 3, .fill, .waiting⟩] } }, 9, [7, 4, 3, 0], .fill, rfl, rfl, rfl, rfl,
      _, .head _, rfl, rfl⟩, fun q ph out kind h => ?_⟩
  refine ⟨{ inPhase ph with hu := { HU.reset with queue := q }, sp := { SP.reset with outstanding := out } }, 8,
    [7, 4, kind, 3], .drain, rfl, rfl, rfl, rfl, rfl, rfl, rfl, rfl, ?_, rfl, rfl, by constructor <;> rfl⟩
  rcases h with rfl | rfl
  · nofun
  · simp

theorem witness_HandoffAnswersEndTheRecord :
    (∃ (s : State) (a : Station) (p : List Byte), s.receives = true ∧ p.length = 4
      ∧ (byteAt p 0).toNat = s.cs.set.ownAddress.val ∧ 1 < (byteAt p 2).toNat ∧ a = 8)
    ∧ (∃ (s : State) (a : Station) (p : List Byte), ∀ h x, s.hu.record = some h → h.call = some x →
      x.coUnit ≠ a ∨ x.tag ≠ byteAt p 1)
    ∧ (∀ k ∈ [Point.fill, .feed, .runOut, .drain], ∀ o ∈ [0#8, 1#8],
      ∀ st ∈ [RecordState.awaitDone (some 1), .confirmWait .failed],
      ∃ (s : State) (a : Station) (p : List Byte) (h : HandoffRec) (x : HandoffCall), h.point = k ∧ byteAt p 2 = o
        ∧ h.state = st ∧ s.receives = true ∧ p.length = 4 ∧ (byteAt p 0).toNat = s.cs.set.ownAddress.val
        ∧ s.hu.record = some h ∧ h.call = some x ∧ x.coUnit = a ∧ x.tag = byteAt p 1 ∧ s.slotStays)
    ∧ (∃ k : Point, k.blocking = true) ∧ (∃ k : Point, k.blocking = false) := by
  refine ⟨⟨node, 8, [7, 1, 2, 0], by decide⟩, ⟨node, 8, [7, 1, 0, 0], fun _ _ h => nomatch h⟩, fun k _ o _ st _ => ?_,
    ⟨.fill, rfl⟩, ⟨.feed, rfl⟩⟩
  exact ⟨{ node with hu := { HU.reset with record := some ⟨k, some ⟨8, 3, 1⟩, st⟩ } }, 8, [7, 1, o, 0],
    ⟨k, some ⟨8, 3, 1⟩, st⟩, ⟨8, 3, 1⟩, rfl, rfl, rfl, rfl, rfl, rfl, rfl, rfl, rfl, rfl, fun _ h => nomatch h⟩

/-! ### Configuration and start-up -/

theorem witness_ConfigurationItemsAreStoredSaturated :
    node.cs.locked = true
    ∧ (∀ i ∈ [(0 : Byte), 112], State.reset.cs.locked = false ∧ (i.toNat = 0 ∨ 111 < i.toNat))
    ∧ (∀ i ∈ [(1 : Byte), 111], State.reset.cs.locked = false ∧ 1 ≤ i.toNat ∧ i.toNat ≤ 111) := by decide

/-- No check but those named by `ks` fails of these settings. -/
theorem test_checks_hold : ∀ k, k ≠ 111 → ¬ Settings.LockFails { node.cs.set with
    points := { node.cs.set.points with drain := ⟨.coUnit, 7, 0⟩ } } k := by
  intro k hk h
  unfold Settings.LockFails at h
  split at h <;> revert h
  all_goals first | decide | skip
  · exact absurd rfl hk
  · rename_i n
    rintro ⟨_, _, _, h⟩
    revert h
    split_ifs <;> exact Nat.not_lt_zero _

theorem witness_TheLockChecksTheItems :
    node.cs.locked = true
    ∧ (∃ s : State, s.cs.locked = false ∧ ∀ k, ¬ s.cs.set.LockFails k)
    ∧ (∃ s : State, s.cs.locked = false ∧ s.cs.set.LockFails 1 ∧ ∀ m < 1, ¬ s.cs.set.LockFails m)
    ∧ (∃ s : State, s.cs.locked = false ∧ s.cs.set.LockFails 111 ∧ ∀ m < 111, ¬ s.cs.set.LockFails m)
    ∧ (∃ s t : State, s.cs.locked = true ∧ (∀ rest, s.pending ≠ .powerOnReset :: rest) ∧ step s = .next t) := by
  refine ⟨rfl, ⟨{ node with cs := { node.cs with locked := false } }, rfl, fun k h => ?_⟩,
    ⟨.reset, rfl, rfl, fun m hm h => ?_⟩,
    ⟨{ node with cs := ⟨{ node.cs.set with points := { node.cs.set.points with drain := ⟨.coUnit, 7, 0⟩ } }, false⟩ }, rfl,
      ⟨rfl, rfl⟩, fun m hm h => test_checks_hold m (by omega) h⟩,
    ⟨{ node with pending := [.configItem 13 0 1 0 0 0] }, _, rfl, (fun _ h => nomatch h), rfl⟩⟩
  · unfold Settings.LockFails at h
    split at h <;> revert h
    all_goals first | decide | skip
    rintro ⟨_, _, _, h⟩
    revert h
    split_ifs <;> exact Nat.not_lt_zero _
  · obtain rfl : m = 0 := by omega
    exact absurd h.1 (by decide)

theorem witness_RestartsAndPowerOnReset :
    (∃ s : State, s.cs.locked = true ∧ s.ps.phase ∉ [Phase.cold, .drained, .tripped])
    ∧ (State.reset.cs.locked = false ∧ State.reset.ps.phase = .cold)
    ∧ (∃ (s : State) (f : List MsgFrame), s.cs.locked = true ∧ s.ps.phase ∈ [Phase.cold, .drained, .tripped]
      ∧ f = [.reply 30 4 (.refused .cancelled) 0] ∧ s.ps.slot.map SlotRec.requester = some (.line 30 4))
    ∧ (∃ (s : State) (f : List MsgFrame), s.cs.locked = true ∧ s.ps.phase ∈ [Phase.cold, .drained, .tripped]
      ∧ f = [] ∧ ∀ a tag, s.ps.slot.map SlotRec.requester ≠ some (.line a tag)) :=
  ⟨⟨inPhase .primed, by decide⟩, by decide, ⟨withSlot .drained issued, _, rfl, by decide, rfl, rfl⟩,
    ⟨inPhase .tripped, _, rfl, by decide, rfl, nofun⟩⟩

/-! ### Exchanges and reports -/

/-- The node on page 3 with the stations 8 and 31 heard. -/
def onDetailPage (cursor : Station) : State :=
  (({ node with sp := { SP.reset with page := 3, cursor } } : State).setPeer 8 (peer 0 0)).setPeer 31 (peer 0 0)

theorem witness_ExchangesTakeASnapshot :
    (∃ (s : State) (x : Exchange), s.sp.exchange = some x ∧ x.record.length = 32)
    ∧ (∃ s : State, s.sp.exchange = none ∧ s.sp.page = 3 ∧ ∀ a, ¬ s.onRound a)
    ∧ (∃ (s : State) (a : Station), s.sp.exchange = none ∧ s.sp.page = 3 ∧ s.onRound a ∧ s.sp.cursor < a
      ∧ ∀ x, s.onRound x → s.sp.cursor < x → a ≤ x)
    ∧ (∃ (s : State) (a : Station), s.sp.exchange = none ∧ s.sp.page = 3 ∧ s.onRound a
      ∧ (∀ x, s.onRound x → x ≤ s.sp.cursor) ∧ ∀ x, s.onRound x → a ≤ x) := by
  refine ⟨⟨{ node with sp := { SP.reset with exchange := some ⟨node.orderRecord, false, 0⟩ } }, _, rfl, by decide +kernel⟩,
    ⟨{ node with sp := { SP.reset with page := 3 } }, ?_⟩, ⟨onDetailPage 8, 31, ?_⟩, ⟨onDetailPage 31, 8, ?_⟩⟩
  all_goals simp only [State.onRound]; decide +kernel

theorem exec_after (c : Instr) (s : State)
    (h : (match exec c s with | .next _ => true | .fault _ => false | .refused _ => false) = true) :
    exec c s = .next (after c s) := by
  unfold after
  split at h <;> simp_all

theorem witness_InvalidReportsAreDiscarded :
    (∃ (sdi : List Bool) (bytes : List Byte), Spells sdi bytes ∧ sdi.length = 31 ∧ ¬ ReportValid (bytes.take 64))
    ∧ (∃ (sdi : List Bool) (bytes : List Byte), Spells sdi bytes ∧ bytes.length = 65 ∧ ¬ ReportValid (bytes.take 64))
    ∧ (∃ (s : State) (e : Exchange) (c : Station), s.Ends e c ∧ s.sp.exchange = some e)
    ∧ (∃ (s : State) (e : Exchange) (c : Station), s.Ends e c ∧ s.sp.exchange = none) := by
  refine ⟨⟨[(4 : Byte), 0, 0].flatMap msbFirst ++ .replicate 7 true, [4, 0, 0],
      ⟨.replicate 7 true, by decide, rfl⟩, by decide +kernel, ?_⟩, ⟨_, .replicate 65 64, spelt _, List.length_replicate, ?_⟩,
    ⟨{ node with sp := { SP.reset with exchange := some ⟨[], false, 0⟩ } }, _, _, .inl ⟨rfl, rfl⟩, rfl⟩, ?_⟩
  · simp only [ReportValid]
    decide +kernel
  · simp only [ReportValid]
    decide +kernel
  · obtain ⟨e, c, h⟩ := ends_here node rfl rfl
    exact ⟨node, e, c, h, rfl⟩

/-- A report with every part. -/
def fullReport : Report :=
  ⟨⟨true, true, true, true, true, true⟩, [(15, .failed), (0, .done)], some 65535, some (3, 65535),
    some (.part 255 9 1 2 1), some (.item 107 1 2 3 4 5)⟩

theorem witness_ReportsReadBack : fullReport.carried ∧ fullReport.bytes.length = 22 := by
  refine ⟨⟨by decide, (by intro h e; cases e; decide), (by intro x n e; cases e; decide), nofun⟩, by decide +kernel⟩

theorem quiet_unmoved (s : State) (h : s.ps.frozen = false) (hs : s.ps.slot = none) (hq : s.sp.Quiet)
    (hw : s.hu.NoneWaiting) : s.Unmoved quietFlags :=
  ⟨h.symm, nofun, nofun, (fun x e => by rw [hs] at e; cases e), fun _ => ⟨hq, hw⟩⟩

/-- R151, R161: a command outstanding, a result not seen yet, or nothing. -/
theorem test_attn :
    (withCommand .hold .turnover).attn = true ∧ { node with du := ⟨none, 1⟩ }.attn = true ∧ node.attn = false := by
  decide

/-- R28: the clearing of the overlay has the list of a waiting drain examined; it is met meanwhile. -/
theorem test_the_clearing_examines_the_list :
    let s := onOffer.setPeer 8 (peer 500 0)
    let t := after (.reportArrival ((Report.bytes (.bare quietFlags)).flatMap msbFirst))
      { s with ps := { s.ps with frozen := true, freezeMax := some 9 } }
    t.ps.slot.map SlotRec.stage = some .waitAck ∧ t.ps.frozen = false ∧ t.ps.freezeMax = none := by
  decide +kernel

theorem witness_ReportFlagsTakeEffect :
    (∀ f ∈ [quietFlags, { quietFlags with selfTurnover := true }, { quietFlags with freeze := true },
      { quietFlags with tripRequest := true }], parseReport (Report.bytes (.bare f)) = some (.bare f))
    ∧ (∀ p ∈ [Phase.hold, .banked, .primed], ∃ s : State, (∃ e c, s.Ends e c)
      ∧ s.Unmoved quietFlags ∧ s.ps.phase = p ∧ s.tr.memory = false)
    ∧ (∃ s : State, (∃ e c, s.Ends e c) ∧ s.Unmoved { quietFlags with freeze := true } ∧ s.ps.slot = none
      ∧ s.sp.tripReq = false ∧ s.sp.NoPhaseWaits)
    ∧ (∀ g ∈ [Stage.waitDwell, .waitPrereq, .waitClaim, .waitHandoffSlot, .waitIssue, .waitAck, .waitCompletion],
      ∃ (s : State) (r : SlotRec), (∃ e c, s.Ends e c) ∧ s.Unmoved { quietFlags with freeze := true }
        ∧ s.ps.slot = some r ∧ r.stage = g ∧ (r.stage = .waitCompletion → ¬ s.CompletionMet quietFlags r)
        ∧ (r.stage.beforeIssue = true → r.pendingSent = true ∧ s.sp.tripReq = false ∧ s.sp.NoPhaseWaits)
        ∧ (r.stage = .waitPrereq → r.claimReached = false ∧ (r.claimTargets s.cs.set ≠ none →
            s.ps.phase.underRate = false)))
    ∧ (∀ q ∈ [{ SP.reset with turnoverReq := true }, { SP.reset with rateReq := some 300 }], ∃ (s : State) (o : Outstanding),
      (∃ e c, s.Ends e c) ∧ s.Unmoved { quietFlags with lookAhead := false } ∧ s.sp.outstanding = [o]
        ∧ s.sp = { q with outstanding := s.sp.outstanding }
        ∧ o.command.isSetPhase = false ∧ s.sp.tripReq = false ∧ s.sp.NoPhaseWaits ∧ s.sp.recoveryReq = none
        ∧ s.hu.NoneWaiting)
    ∧ (∃ (s : State) (o : Outstanding) (x : Service), (∃ e c, s.Ends e c) ∧ s.Unmoved { quietFlags with lookAhead := false }
      ∧ s.sp.outstanding = [o] ∧ o.command.isSetPhase = false ∧ s.sp.tripReq = false ∧ s.sp.NoPhaseWaits
      ∧ s.sp.recoveryReq = none ∧ s.sp.turnoverReq = false ∧ s.hu.queue = [] ++ x :: [] ∧ x.state = .waiting) := by
  have still : ∀ s : State, s.ps.frozen = false → s.ps.slot = none → s.Unmoved { quietFlags with lookAhead := false } :=
    fun s h hs => ⟨h.symm, nofun, nofun, (fun x e => by rw [hs] at e; cases e), nofun⟩
  refine ⟨by decide +kernel, fun p _ => ⟨inPhase p, ends_here _ rfl rfl, ?_, rfl, rfl⟩,
    ⟨{ node with ps := { node.ps with frozen := true } }, ends_here _ rfl rfl, ?_, rfl, rfl, rfl, rfl⟩, fun g _ => ?_,
    fun q h => ?_, ?_⟩
  · exact quiet_unmoved _ rfl rfl reset_port_quiet rfl
  · exact ⟨rfl, nofun, nofun, (by intro x e; cases e), fun _ => ⟨reset_port_quiet, rfl⟩⟩
  · let r : SlotRec := { SlotRec.new .filling .fill (.line 30 4) .campaign none with stage := g, pendingSent := true }
    refine ⟨{ withSlot .filling r with ps := { (withSlot .filling r).ps with frozen := true } }, r, ends_here _ rfl rfl,
      ⟨rfl, nofun, nofun, fun _ _ _ => .inl rfl, fun _ => ⟨reset_port_quiet, rfl⟩⟩, rfl, rfl, ?_,
      fun _ => ⟨rfl, rfl, rfl, rfl⟩, fun _ => ⟨rfl, fun _ => rfl⟩⟩
    rintro - ⟨-, ⟨-, k⟩ | ⟨-, k, -⟩⟩ <;> cases k
  · refine ⟨{ inPhase .running with sp := { q with outstanding := [⟨0, .handoffWork 3 .fill 9, some 5, false⟩] } }, _, ?_, ?_, rfl,
      rfl, rfl, ?_⟩
    · simp only [List.mem_cons, List.not_mem_nil, or_false] at h
      rcases h with rfl | rfl <;> exact ends_here _ rfl rfl
    · exact still _ rfl rfl
    · simp only [List.mem_cons, List.not_mem_nil, or_false] at h
      rcases h with rfl | rfl <;> exact ⟨rfl, ⟨rfl, rfl⟩, rfl, rfl⟩
  · exact ⟨{ withCommand .filled .turnover with hu := { HU.reset with queue := [⟨9, 4, 3, .fill, .waiting⟩] } }, _, _,
      ends_here _ rfl rfl, still _ rfl rfl, rfl, rfl, rfl, ⟨rfl, rfl⟩, rfl, rfl, rfl, rfl⟩

theorem witness_ReadingsAreTaken :
    (∀ h ∈ [0, 65535], parseReport (Report.bytes { Report.bare quietFlags with holdup := some h })
      = some { Report.bare quietFlags with holdup := some h })
    ∧ (∀ b ∈ [(0 : Byte), 3, 4], parseReport (Report.bytes { Report.bare quietFlags with capacity := some (b, 4001) })
      = some { Report.bare quietFlags with capacity := some (b, 4001) })
    ∧ (∀ b ∈ [false, true], ∃ s : State, s.cs.locked = b
      ∧ (∃ e c, s.Ends e c) ∧ s.Unmoved quietFlags ∧ s.atStage .waitPrereq = false)
    ∧ (∀ b ∈ [false, true], ∀ p ∈ [Phase.running, .hold], ∀ n ∈ [none, some 4000], ∃ s : State,
      (∃ e c, s.Ends e c) ∧ s.Unmoved quietFlags ∧ s.cs.locked = true
      ∧ s.cs.set.provider.get .water = b ∧ s.ps.phase = p ∧ (s.au.res.get .water).reading = n ∧ s.ReportReady) := by
  refine ⟨by decide +kernel, by decide +kernel, fun b _ => ⟨{ inPhase .draining with
      cs := ⟨node.cs.set, b⟩ }, rfl, ends_here _ rfl rfl, quiet_unmoved _ rfl rfl reset_port_quiet rfl, rfl⟩, fun b _ p _ n _ =>
    ⟨{ inPhase p with
        cs := ⟨{ node.cs.set with provider := .same b }, true⟩
        au := { AU.reset with res := .same { Allot.reset with reading := n }, underStanding := true } }, ends_here _ rfl rfl,
      quiet_unmoved _ rfl rfl reset_port_quiet rfl, rfl, rfl, rfl, rfl, ready_empty _ rfl reset_port_quiet⟩⟩

theorem witness_ReportPartsAreTakenInOrder :
    (∃ (bytes head : List Byte) (r : Report) (d : RawDirective) (c : ConfigPart), parseReport bytes = some r
      ∧ parseReport head = some { r with directive := none, config := none } ∧ r.directive = some d
      ∧ r.config = some c)
    ∧ (∃ (bytes : List Byte) (r : Report) (s v : State) (k : Token) (o : AckOutcome) (f : ReportFlags) (e : Exchange)
      (c : Station), parseReport bytes = some r ∧ s.Ends e c
      ∧ (f.lookAhead = true → s.sp.Quiet ∧ s.hu.NoneWaiting) ∧ r = { Report.bare f with acks := [(k, o)] }
      ∧ exec (.ackSetPhase k o) (s.afterReport e c f) = .next v ∧ v.Unmoved { f with lookAhead := false }) := by
  let r : Report := { Report.bare quietFlags with directive := some (.part 4 9 0 0 0), config := some .lock }
  let q : Report := { Report.bare quietFlags with acks := [(3, .done)] }
  let e : Exchange := ⟨[], false, 0⟩
  let s : State := { node with sp := { SP.reset with exchange := some e } }
  let v := after (.ackSetPhase 3 .done) (s.afterReport e 0 quietFlags)
  have hv : v.ps.frozen = false ∧ v.ps.slot = none := by decide +kernel
  refine ⟨⟨r.bytes, Report.bytes (.bare quietFlags), r, .part 4 9 0 0 0, .lock, by decide +kernel, by decide +kernel, rfl,
      rfl⟩,
    ⟨q.bytes, q, s, v, 3, .done, quietFlags, e, 0, by decide +kernel, .inl ⟨rfl, rfl⟩,
      fun _ => ⟨by constructor <;> rfl, rfl⟩, rfl, exec_after _ _ (by decide +kernel), hv.1.symm, nofun, nofun, ?_, nofun⟩⟩
  intro x e
  rw [hv.2] at e
  cases e

theorem witness_SentFramesAreJudgedGood :
    (∀ f ∈ [Frame.tripNotice .freezeLong, .allot .steam (.claim 1500), .allot .water (.release 0),
      .message (.reply 9 4 .taken 0), .status (node.compose true), .status (node.compose false)],
      ∃ (s : State) (x : Tx), s.lc.tx = some x ∧ x.frame = f)
    ∧ (∃ k c, kindClass k = some c) ∧ (List.replicate 32 (0xFF : Byte)).length ≤ 32
    ∧ (∀ l ∈ [LineState.active, .isolated], ∃ s : State, s.receives = true ∧ s.lc.line = l
      ∧ ∀ x, s.lc.tx = some x → x.begun = false)
    ∧ ∃ bits, judgeBits bits ≠ .good :=
  ⟨fun f _ => ⟨sends LC.reset ⟨.fifo, f, true, false⟩, _, rfl, rfl⟩, ⟨0, 0, by decide⟩, by decide,
    fun l _ => ⟨sends { LC.reset with line := l } ⟨.trip, .tripNotice .freezeLong, false, false⟩, rfl, rfl,
      fun _ h => by cases h; rfl⟩,
    [], by decide⟩

/-! ### The step -/

theorem witness_StepRunsTheFrontCommand : ∃ (c : Instr) (rest : List Instr) (s : State), s.pending = c :: rest :=
  ⟨.lineIdle, [], { node with pending := [.lineIdle] }, rfl⟩

theorem witness_AnEmptyQueueLetsTimePass :
    (∃ s : State, s.pending = [] ∧ s.quarter = 3) ∧ (∃ s : State, s.pending = [] ∧ s.quarter ≠ 3) :=
  ⟨⟨{ node with quarter := 3 }, rfl, rfl⟩, ⟨node, rfl, by decide⟩⟩

/-- The node with a CLAIM of steam and a RELEASE of power waiting in their slots and a command in its queue. -/
def claiming : State :=
  { node with
    lc := { node.lc with allot := ⟨some (.claim 1500), some (.release 0), none, none⟩ }
    au := { AU.reset with res := { AU.reset.res with
      steam := { Allot.reset with engine := .reserved, claimValue := some 1500, tally := ⟨1500, 3000, false⟩ }
      power := { Allot.reset with announced := 100 } } }
    pending := [.statusShort 3 [4, 0, 0, 0, 0, 0, 0]] }

theorem claiming_items : claiming.cs.set.InRange := by
  intro item n h
  unfold Settings.item at h
  split at h <;> cases h <;> refine ⟨fun lo hi e => ?_, fun set e => ?_⟩ <;>
    cases e <;> decide

theorem claiming_bounds : claiming.InBounds where
  clock := by decide
  items := claiming_items
  throughput := ⟨by decide, by decide, by decide, by decide, nofun, fun x => by cases x <;> decide⟩
  runOuts := fun d h => by rcases h with h | h | ⟨r, h, _⟩ <;> cases h
  rates := ⟨by decide, by decide, fun v h => by rcases h with h | h | h | h | ⟨o, h, _⟩ <;> cases h⟩
  published := ⟨by decide, by decide, by decide, by decide, nofun⟩
  fifo := by decide
  counts := by decide
  services := by decide
  outstanding := ⟨by decide, by decide, by rintro ⟨o, h, _⟩; cases h⟩
  trip := fun r h => by cases h
  amounts := fun x => by
    cases x <;> refine ⟨by decide, by decide, by decide, fun n h => ?_⟩ <;>
      rcases h with h | h | h | h | h <;> cases h <;> decide
  line := fun y h => by cases h
  peers := fun a => by
    have h : claiming.stored a = .unheard := by
      unfold State.stored
      split
      · exact Vector.getElem_replicate ..
      · rfl
    rw [h]
    refine ⟨by decide, by decide, nofun, nofun, nofun, nofun, fun x n e => ?_⟩
    cases x <;> rcases e with e | e <;> cases e

theorem witness_EveryStepKeepsTheBounds : ∃ s t : State, s.InBounds ∧ step s = .next t :=
  ⟨claiming, _, claiming_bounds, rfl⟩

theorem claiming_fits : claiming.ClaimsFit where
  slot x v h := by
    cases x <;> cases h
    decide
  engine x h := by
    cases x
    · exact ⟨1500, rfl⟩
    all_goals exact absurd h (by decide)
  fits x v h := by
    cases x <;> cases h
    decide
  sending x := by
    refine ⟨fun h => absurd h (by cases x <;> decide), ?_⟩
    rintro ⟨y, v, h, _⟩
    cases h
  line y x h := by cases h
  begun y x f h := by cases h
  isolated h := by cases h

theorem witness_EveryStepKeepsClaimsWithinTheHeadroom :
    ∃ s t : State, s.ClaimsFit ∧ s.lc.allot.get .steam = some (.claim 1500) ∧ step s = .next t :=
  ⟨claiming, _, claiming_fits, rfl, rfl⟩

theorem witness_EveryStepKeepsReleasesPlaced :
    ∃ s t : State, s.ClaimsFit ∧ s.ReleasesPlaced ∧ s.lc.allot.get .power = some (.release 0) ∧ step s = .next t := by
  refine ⟨claiming, _, claiming_fits, fun x _ _ h _ hn => ?_, rfl, rfl⟩
  cases x
  · exact absurd rfl h
  · rfl
  all_goals exact absurd rfl hn

theorem witness_EntryActionsFollowTheirRules :
    ∀ x ∈ [(Phase.running, Phase.hold), (.runOut, .hold), (.tripped, .hold), (.running, .runOut), (.hold, .runOut),
        (.hold, .banked), (.filled, .running), (.primed, .filling), (.draining, .drained), (.running, .tripped)],
      ∃ (p : PS) (old new : Phase), p.phase = old ∧ x = (old, new) := by
  rintro ⟨old, new⟩ _
  exact ⟨(inPhase old).ps, old, new, rfl, rfl⟩

end Sys2Proof.Tests
end

section
/-!
SUPPORT. The configuration store through every operation and every command: a locked store stands until a power-on
reset (R178, R184). One lemma for each operation, tagged for `simp`; the shared operations have theirs from `Steady`.
-/

namespace Sys2Proof.Machine

theorem Steady.cs {s t : State} (h : Steady s t) : t.cs = s.cs := by
  obtain ⟨hcs, _⟩ := h
  exact hcs

/-- A fold of operations that each leave the store leaves it. -/
theorem foldl_cs {α : Type} (f : State → α → State) (h : ∀ s a, (f s a).cs = s.cs) (l : List α) :
    ∀ s, (l.foldl f s).cs = s.cs := by
  induction l with
  | nil => exact fun s => rfl
  | cons a l ih => exact fun s => (ih (f s a)).trans (h s a)

/-! ### The shared operations -/

@[simp] theorem markLong_cs (s : State) : s.markLong.cs = s.cs := (markLong_steady s).cs
@[simp] theorem markShort_cs (s : State) : s.markShort.cs = s.cs := (markShort_steady s).cs
@[simp] theorem place_cs (s : State) (m : MsgFrame) : (s.place m).cs = s.cs := rfl
@[simp] theorem reply_cs (s : State) (q : Requester) (o : Reply) : (s.reply q o).cs = s.cs := (reply_steady s q o).cs
@[simp] theorem configResult_cs (s : State) (t : Byte) (o : Reply) (d : Byte) : (s.configResult t o d).cs = s.cs := rfl
@[simp] theorem publish_cs (s t : State) : (s.publish t).cs = t.cs := (publish_steady s t).cs
@[simp] theorem setCell_cs (s : State) (r : Resource) (c : Cell) : (s.setCell r c).cs = s.cs := rfl
@[simp] theorem refreshCells_cs (s : State) : s.refreshCells.cs = s.cs := (refreshCells_steady s).cs
@[simp] theorem reportCells_cs (s : State) (f : Resource → Bool) : (s.reportCells f).cs = s.cs :=
  (reportCells_steady s f).cs
@[simp] theorem judgeStanding_cs (s : State) : s.judgeStanding.cs = s.cs := (judgeStanding_steady s).cs
@[simp] theorem arbitrate_cs (s : State) : s.arbitrate.cs = s.cs := (arbitrate_steady s).cs
@[simp] theorem notePending_cs (s : State) : s.notePending.cs = s.cs := (notePending_steady s).cs
@[simp] theorem toClaim_cs (s : State) (r : SlotRec) : (s.toClaim r).cs = s.cs := (toClaim_steady s r).cs
@[simp] theorem toPrereq_cs (s : State) (r : SlotRec) : (s.toPrereq r).cs = s.cs := (toPrereq_steady s r).cs
@[simp] theorem enterSlot_cs (s : State) (r : SlotRec) : (s.enterSlot r).cs = s.cs := (enterSlot_steady s r).cs
@[simp] theorem setWaiting_cs (s : State) (w : Waiting) : (s.setWaiting w).cs = s.cs := rfl
@[simp] theorem reexamine_cs (s : State) : s.reexamine.cs = s.cs := (reexamine_steady s).cs
@[simp] theorem requestAutoHold_cs (s : State) : s.requestAutoHold.cs = s.cs := (requestAutoHold_steady s).cs
@[simp] theorem removeTransition_cs (s : State) : s.removeTransition.cs = s.cs := (removeTransition_steady s).cs
@[simp] theorem refuseTransition_cs (s : State) (r : SlotRec) (c : RefusalCode) (d : Byte) :
    (s.refuseTransition r c d).cs = s.cs := (refuseTransition_steady s r c d).cs
@[simp] theorem pollList_cs (s : State) : s.pollList.cs = s.cs := (pollList_steady s).cs
@[simp] theorem pollClaim_cs (s : State) : s.pollClaim.cs = s.cs := (pollClaim_steady s).cs
@[simp] theorem pollHandoff_cs (s : State) : s.pollHandoff.cs = s.cs := (pollHandoff_steady s).cs
@[simp] theorem testCompletion_cs (s : State) : s.testCompletion.cs = s.cs := (testCompletion_steady s).cs
@[simp] theorem handoffEnded_cs (s : State) (b : Bool) : (s.handoffEnded b).cs = s.cs := (handoffEnded_steady s b).cs
@[simp] theorem standingRises_cs (s t : State) : (s.standingRises t).cs = t.cs := (standingRises_steady s t).cs
@[simp] theorem afterAllotment_cs (s t : State) : (s.afterAllotment t).cs = t.cs := (afterAllotment_steady s t).cs
@[simp] theorem raiseCause_cs (s : State) (c : Cause) : (s.raiseCause c).cs = s.cs := (raiseCause_steady s c).cs
@[simp] theorem takeRaised_cs (s : State) (c : Cause) : (s.takeRaised c).cs = s.cs := (takeRaised_steady s c).cs
@[simp] theorem outcome_cs (s : State) (o : Outstanding) (d : Bool) (c : Cause) : (s.outcome o d c).cs = s.cs :=
  (outcome_steady s o d c).cs
@[simp] theorem takeAck_cs (s : State) (t : Token) (o : AckOutcome) : (s.takeAck t o).cs = s.cs :=
  (takeAck_steady s t o).cs

@[simp] theorem requestAutoResume_cs (s : State) : s.requestAutoResume.cs = s.cs := by
  unfold State.requestAutoResume; split <;> simp

@[simp] theorem requestCloseDrain_cs (s : State) : s.requestCloseDrain.cs = s.cs := by
  unfold State.requestCloseDrain; split <;> simp

/-! ### Acknowledgement timeouts (R158) -/

@[simp] theorem timedOut_cs (s : State) (o : Outstanding) : (s.timedOut o).cs = s.cs := by
  unfold State.timedOut; repeat' split
  all_goals simp

@[simp] theorem ackTimeout_cs (s : State) (t : Token) (f : Command → Bool) : (s.ackTimeout t f).cs = s.cs := by
  unfold State.ackTimeout; repeat' split
  all_goals simp

/-! ### Handoffs (chapter 6) -/

@[simp] theorem serve_cs (s : State) (e : Service) : (s.serve e).cs = s.cs := by simp [State.serve]

@[simp] theorem judgeHandoff_cs (s : State) (a : Station) (tag kind : Byte) (k : Point) :
    (s.judgeHandoff a tag kind k).cs = s.cs := by
  unfold State.judgeHandoff State.serveWork; repeat' split
  all_goals simp

@[simp] theorem takeHandoff_cs (s : State) (a : Station) (p : List Byte) : (s.takeHandoff a p).cs = s.cs := by
  unfold State.takeHandoff; repeat' split
  all_goals simp

@[simp] theorem answerSuccess_cs (s : State) (h : HandoffRec) : (s.answerSuccess h).cs = s.cs := by
  simp [State.answerSuccess]

@[simp] theorem answerFailed_cs (s : State) (h : HandoffRec) : (s.answerFailed h).cs = s.cs := by
  unfold State.answerFailed; repeat' split
  all_goals simp

@[simp] theorem takeHandoffDone_cs (s : State) (a : Station) (p : List Byte) : (s.takeHandoffDone a p).cs = s.cs := by
  unfold State.takeHandoffDone; repeat' split
  all_goals simp

@[simp] theorem confirmed_cs (s : State) : s.confirmed.cs = s.cs := by simp [State.confirmed]

@[simp] theorem handoffExpires_cs (s : State) (h : HandoffRec) : (s.handoffExpires h).cs = s.cs := by
  unfold State.handoffExpires; split <;> simp

/-! ### The rate interval (chapter 3) -/

@[simp] theorem integrate_cs (s : State) : s.integrate.cs = s.cs := rfl
@[simp] theorem compute_cs (s : State) : s.compute.1.cs = s.cs := rfl
@[simp] theorem computeDone_cs (s : State) (b : Bool) : (s.computeDone b).1.cs = s.cs := rfl

@[simp] theorem computeRunOut_cs (s : State) : s.computeRunOut.1.cs = s.cs := by
  unfold State.computeRunOut; repeat' split
  all_goals simp

@[simp] theorem judgeResume_cs (s : State) : s.judgeResume.1.cs = s.cs := by
  unfold State.judgeResume; repeat' split
  all_goals simp

@[simp] theorem judgeInterval_cs (s : State) : s.judgeInterval.1.cs = s.cs := by
  unfold State.judgeInterval; repeat' split
  all_goals simp

@[simp] theorem takeTrain_cs (s : State) (o : Outputs) : (s.takeTrain o).cs = s.cs := by
  unfold State.takeTrain State.formTrain; split <;> simp

@[simp] theorem takeRequests_cs (s : State) (o : Outputs) : (s.takeRequests o).cs = s.cs := by
  unfold State.takeRequests; dsimp only; repeat' split
  all_goals simp

@[simp] theorem handOn_cs (s : State) (o : Outputs) : (s.handOn o).cs = s.cs := by
  unfold State.handOn; dsimp only; repeat' split
  all_goals simp

@[simp] theorem rateExpiry_cs (s : State) : s.rateExpiry.cs = s.cs := by simp [State.rateExpiry]

@[simp] theorem holdIfStands_cs (s : State) : s.holdIfStands.cs = s.cs := by
  unfold State.holdIfStands; split <;> simp

/-! ### The directives (chapter 5) -/

@[simp] theorem refuse_cs (s : State) (q : Requester) (c : RefusalCode) : (s.refuse q c).cs = s.cs := by
  simp [State.refuse]

@[simp] theorem request_cs (s : State) (r : SlotRec) : (s.request r).cs = s.cs := by
  unfold State.request; split <;> simp

@[simp] theorem storeLimit_cs (s : State) (a : Authority) (n : Nat) : (s.storeLimit a n).cs = s.cs := by
  unfold State.storeLimit; split <;> simp

@[simp] theorem feedFilled_cs (s : State) (q : Requester) (a : Authority) (n : Nat) :
    (s.feedFilled q a n).cs = s.cs := by
  unfold State.feedFilled; dsimp only; split <;> simp

@[simp] theorem raiseOwner_cs (s : State) (a : Authority) : (s.raiseOwner a).cs = s.cs := by
  unfold State.raiseOwner; dsimp only; repeat' split
  all_goals simp

@[simp] theorem startRecovery_cs (s : State) (p : Phase) (tag : Byte) : (s.startRecovery p tag).cs = s.cs := by
  simp [State.startRecovery]

@[simp] theorem cancelled_cs (s : State) (r : SlotRec) (q : Requester) : (s.cancelled r q).cs = s.cs := by
  unfold State.cancelled; dsimp only; split <;> simp

@[simp] theorem rowFeed_cs (s : State) (q : Requester) (a : Authority) (n : Nat) : (s.rowFeed q a n).cs = s.cs := by
  unfold State.rowFeed; repeat' split
  all_goals simp

@[simp] theorem rowHold_cs (s : State) (q : Requester) (a : Authority) : (s.rowHold q a).cs = s.cs := by
  unfold State.rowHold; repeat' split
  all_goals simp

@[simp] theorem rowResume_cs (s : State) (q : Requester) (a : Authority) : (s.rowResume q a).cs = s.cs := by
  unfold State.rowResume; repeat' split
  all_goals simp

@[simp] theorem rowRunOut_cs (s : State) (q : Requester) (a : Authority) (d : RunOut) :
    (s.rowRunOut q a d).cs = s.cs := by
  unfold State.rowRunOut; repeat' split
  all_goals simp

@[simp] theorem rowStop_cs (s : State) (q : Requester) (a : Authority) : (s.rowStop q a).cs = s.cs := by
  unfold State.rowStop; repeat' split
  all_goals simp

@[simp] theorem rowDrain_cs (s : State) (q : Requester) (a : Authority) : (s.rowDrain q a).cs = s.cs := by
  unfold State.rowDrain; dsimp only; repeat' split
  all_goals simp

@[simp] theorem rowTrip_cs (s : State) (q : Requester) : (s.rowTrip q).cs = s.cs := by
  unfold State.rowTrip; split <;> simp

@[simp] theorem rowClear_cs (s : State) (q : Requester) : (s.rowClear q).cs = s.cs := by
  unfold State.rowClear; repeat' split
  all_goals simp

@[simp] theorem rowConfirm_cs (s : State) (q : Requester) : (s.rowConfirm q).cs = s.cs := by
  unfold State.rowConfirm; split <;> simp

@[simp] theorem rowCancel_cs (s : State) (q : Requester) (a : Authority) : (s.rowCancel q a).cs = s.cs := by
  unfold State.rowCancel State.cancelAtIssue; repeat' split
  all_goals simp

@[simp] theorem row_cs (s : State) (q : Requester) (a : Authority) (d : Directive) : (s.row q a d).cs = s.cs := by
  cases d with
  | startCampaign => simp only [State.row, State.rowStart]; split <;> simp
  | fill => simp only [State.row, State.rowFill]; split <;> simp
  | bank => simp only [State.row, State.rowBank]; split <;> simp
  | endCampaign => simp only [State.row, State.rowEnd]; split <;> simp
  | feed n => exact rowFeed_cs s q a n
  | hold => exact rowHold_cs s q a
  | resume => exact rowResume_cs s q a
  | runOut d => exact rowRunOut_cs s q a d
  | stopRunOut => exact rowStop_cs s q a
  | drain => exact rowDrain_cs s q a
  | trip => exact rowTrip_cs s q
  | clearTrip => exact rowClear_cs s q
  | confirm => exact rowConfirm_cs s q
  | cancel => exact rowCancel_cs s q a

@[simp] theorem judgeKind_cs (s : State) (q : Requester) (a : Authority) (d : Directive) :
    (s.judgeKind q a d).cs = s.cs := by
  unfold State.judgeKind; repeat' split
  all_goals simp

@[simp] theorem judgeLine_cs (s : State) (a : Station) (tag : Byte) (d : Option Directive) :
    (s.judgeLine a tag d).cs = s.cs := by
  unfold State.judgeLine; repeat' split
  all_goals simp

@[simp] theorem judgePort_cs (s : State) (tag : Byte) (d : Option Directive) : (s.judgePort tag d).cs = s.cs := by
  unfold State.judgePort; repeat' split
  all_goals simp

@[simp] theorem takeDirective_cs (s : State) (src : Source) (d : Option Directive) :
    (s.takeDirective src d).cs = s.cs := by
  unfold State.takeDirective; repeat' split
  all_goals simp

@[simp] theorem takeRaw_cs (s : State) (raw : RawDirective) : (s.takeRaw raw).cs = s.cs := by
  unfold State.takeRaw; repeat' split
  all_goals simp

/-! ### Timers -/

@[simp] theorem dwellEnds_cs (s : State) : s.dwellEnds.cs = s.cs := by
  unfold State.dwellEnds; dsimp only; repeat' split
  all_goals simp

@[simp] theorem settleEnds_cs (s : State) (r : SlotRec) : (s.settleEnds r).cs = s.cs := by simp [State.settleEnds]

@[simp] theorem deadlineInPrereq_cs (s : State) (r : SlotRec) (l : ListName) : (s.deadlineInPrereq r l).cs = s.cs := by
  unfold State.deadlineInPrereq; dsimp only; repeat' split
  all_goals simp

@[simp] theorem prereqDeadline_cs (s : State) (r : SlotRec) : (s.prereqDeadline r).cs = s.cs := by
  unfold State.prereqDeadline; split <;> simp

@[simp] theorem holdMaximum_cs (s : State) : s.holdMaximum.cs = s.cs := by
  unfold State.holdMaximum; dsimp only; repeat' split
  all_goals simp

@[simp] theorem turnoverExpires_cs (s : State) : s.turnoverExpires.cs = s.cs := by
  unfold State.turnoverExpires; dsimp only; repeat' split
  all_goals simp

@[simp] theorem statusPeriod_cs (s : State) : s.statusPeriod.cs = s.cs := by simp [State.statusPeriod]

/-! ### The line (chapter 9) -/

@[simp] theorem lineIdle_cs (s : State) : s.lineIdle.cs = s.cs := by
  unfold State.lineIdle; dsimp only; repeat' split
  all_goals simp

@[simp] theorem startsSending_cs (s : State) (r : Resource) (f : AllotFrame) : (s.startsSending r f).cs = s.cs := by
  cases f <;> rfl

@[simp] theorem beginFrame_cs (s : State) (t : Tx) : (s.beginFrame t).cs = s.cs := by
  unfold State.beginFrame; dsimp only; repeat' split
  all_goals simp

@[simp] theorem withCell_cs (s : State) (r : Resource) (c : Cell) : (s.withCell r c).cs = s.cs := by
  simp [State.withCell]

@[simp] theorem outcomeTaken_cs (s : State) (r : Resource) (c : Cell) : (s.outcomeTaken r c).cs = s.cs := by
  simp [State.outcomeTaken]

@[simp] theorem allotDone_cs (s : State) (r : Resource) (f : AllotFrame) : (s.allotDone r f).cs = s.cs := by
  cases f <;> simp [State.allotDone]

@[simp] theorem allotLong_cs (s : State) (n : Notice) : (s.allotLong n).cs = s.cs :=
  foldl_cs _ (fun _ _ => setCell_cs _ _ _) _ s

@[simp] theorem isolateCells_cs (s : State) : s.isolateCells.cs = s.cs :=
  (judgeStanding_cs _).trans (foldl_cs _ (fun _ _ => setCell_cs _ _ _) _ s)

@[simp] theorem rejoinCells_cs (s : State) : s.rejoinCells.cs = s.cs := foldl_cs _ (fun _ _ => setCell_cs _ _ _) _ s

@[simp] theorem retest_cs (s : State) : s.retest.cs = s.cs := by
  unfold State.retest; split <;> simp

@[simp] theorem noticeDone_cs (s : State) (n : Notice) (b : Bool) : (s.noticeDone n b).cs = s.cs := by
  unfold State.noticeDone; dsimp only; split <;> simp

@[simp] theorem frameDone_cs (s : State) (t : Tx) : (s.frameDone t).cs = s.cs := by
  unfold State.frameDone; dsimp only; split <;> simp

@[simp] theorem isolate_cs (s : State) (k : TxSlot) : (s.isolate k).cs = s.cs := by
  unfold State.isolate; dsimp only; split <;> simp

@[simp] theorem returned_cs (s : State) (t : Tx) : (s.returned t).cs = s.cs := by
  unfold State.returned; repeat' split
  all_goals simp

@[simp] theorem frameFailed_cs (s : State) (t : Tx) : (s.frameFailed t).cs = s.cs := by
  unfold State.frameFailed State.attemptFailed; dsimp only; repeat' split
  all_goals simp

@[simp] theorem faulted_cs (s : State) (t : Tx) : (s.faulted t).cs = s.cs := by
  unfold State.faulted State.attemptFailed; dsimp only; repeat' split
  all_goals simp

theorem whileOffered_cs (s : State) (f : Tx → State) (h : ∀ t, (f t).cs = s.cs) : (s.whileOffered f).cs = s.cs := by
  unfold State.whileOffered; repeat' split
  all_goals simp [h]

theorem whileBegun_cs (s : State) (f : Tx → State) (h : ∀ t, (f t).cs = s.cs) : (s.whileBegun f).cs = s.cs := by
  unfold State.whileBegun; repeat' split
  all_goals simp [h]

/-! ### The peer table (chapter 2) -/

@[simp] theorem setPeer_cs (s : State) (a : Station) (e : PeerEntry) : (s.setPeer a e).cs = s.cs := by
  unfold State.setPeer; repeat' split
  all_goals simp

@[simp] theorem allotReport_cs (s : State) (f : Resource → Bool) : (s.allotReport f).cs = s.cs := by
  simp [State.allotReport]

@[simp] theorem takeReport_cs (s : State) (f : Resource → Bool) : (s.takeReport f).cs = s.cs := by
  unfold State.takeReport; dsimp only; repeat' split
  all_goals simp

@[simp] theorem writePeer_cs (s : State) (a : Station) (e : PeerEntry) : (s.writePeer a e).cs = s.cs := by
  unfold State.writePeer State.noteProviders; dsimp only; split <;> simp

@[simp] theorem deliverPeer_cs (s : State) (a : Station) (f : PeerEntry → Option PeerEntry) :
    (s.deliverPeer a f).cs = s.cs := by
  unfold State.deliverPeer; repeat' split
  all_goals simp

@[simp] theorem lineError_cs (s : State) : s.lineError.cs = s.cs := rfl

/-! ### The configuration store's own operations, once locked (R179, R181, R186) -/

theorem takeItem_refused (s : State) (h : s.cs.locked = true) (item v0 v1 v2 v3 v4 : Byte) :
    s.takeItem item v0 v1 v2 v3 v4 = s.configResult item (.refused .configLocked) 0 := by
  simp [State.takeItem, h]

theorem takeLock_refused (s : State) (h : s.cs.locked = true) :
    s.takeLock = s.configResult 0 (.refused .configLocked) 0 := by
  simp [State.takeLock, h]

theorem takeItem_cs_locked (s : State) (h : s.cs.locked = true) (item v0 v1 v2 v3 v4 : Byte) :
    (s.takeItem item v0 v1 v2 v3 v4).cs = s.cs := by
  rw [takeItem_refused s h, configResult_cs]

theorem takeLock_cs_locked (s : State) (h : s.cs.locked = true) : s.takeLock.cs = s.cs := by
  rw [takeLock_refused s h, configResult_cs]

theorem restartLocked_cs (s : State) : s.restartLocked.cs = s.cs := by
  unfold State.restartLocked State.replyCancelled State.cleared; repeat' split
  all_goals simp

theorem takeRestart_cs_locked (s : State) (h : s.cs.locked = true) : s.takeRestart.cs = s.cs := by
  unfold State.takeRestart; rw [if_pos h]; split
  · rfl
  · exact restartLocked_cs s

theorem takeConfig_cs_locked (s : State) (h : s.cs.locked = true) (c : ConfigPart) : (s.takeConfig c).cs = s.cs := by
  cases c with
  | item number v0 v1 v2 v3 v4 => exact takeItem_cs_locked s h number v0 v1 v2 v3 v4
  | lock => exact takeLock_cs_locked s h
  | restart => exact takeRestart_cs_locked s h

/-! ### Exchanges and reports (chapter 8) -/

@[simp] theorem startExchange_cs (s : State) : s.startExchange.cs = s.cs := by
  unfold State.startExchange; split <;> simp

@[simp] theorem takeLookAhead_cs (s : State) (b : Bool) : (s.takeLookAhead b).cs = s.cs := by
  unfold State.takeLookAhead; dsimp only; split <;> simp

@[simp] theorem takeAcks_cs (s : State) (l : List (Token × AckOutcome)) : (s.takeAcks l).cs = s.cs :=
  foldl_cs _ (fun _ _ => by simp) _ s

@[simp] theorem takeFreeze_cs (s : State) (b : Bool) : (s.takeFreeze b).cs = s.cs := by
  unfold State.takeFreeze State.freezes State.thaws State.resumeSlot; dsimp only; repeat' split
  all_goals simp

@[simp] theorem takeSelfTurnover_cs (s : State) (b : Bool) : (s.takeSelfTurnover b).cs = s.cs := by
  unfold State.takeSelfTurnover; repeat' split
  all_goals simp

@[simp] theorem takeTripRequest_cs (s : State) (b : Bool) : (s.takeTripRequest b).cs = s.cs := by
  unfold State.takeTripRequest; dsimp only; split <;> simp

@[simp] theorem takeHoldup_cs (s : State) (n : Nat) : (s.takeHoldup n).cs = s.cs := rfl

@[simp] theorem capacityChanged_cs (s : State) (r : Resource) : (s.capacityChanged r).cs = s.cs := by
  unfold State.capacityChanged; dsimp only; split <;> simp

@[simp] theorem takeCapacity_cs (s : State) (b : Byte) (n : Nat) : (s.takeCapacity b n).cs = s.cs := by
  unfold State.takeCapacity; dsimp only; repeat' split
  all_goals simp

theorem part_cs {α : Type} (s : State) (f : State → α → State) (h : ∀ s x, (f s x).cs = s.cs) (x : Option α) :
    (s.part f x).cs = s.cs := by
  cases x <;> simp [State.part, h]

@[simp] theorem takeFlags_cs (s : State) (r : Report) : (s.takeFlags r).cs = s.cs := by
  simp [State.takeFlags, State.noteReport]

@[simp] theorem takeReadings_cs (s : State) (r : Report) : (s.takeReadings r).cs = s.cs := by
  unfold State.takeReadings; split
  · rw [part_cs _ _ fun _ _ => takeCapacity_cs _ _ _, part_cs _ _ takeHoldup_cs]
  · rfl

theorem takeParts_cs_locked (s : State) (h : s.cs.locked = true) (r : Report) : (s.takeParts r).cs = s.cs := by
  have upToDirective : (((s.takeFlags r).takeReadings r).part State.takeRaw r.directive).cs = s.cs := by
    rw [part_cs _ _ takeRaw_cs, takeReadings_cs, takeFlags_cs]
  unfold State.takeParts; dsimp only; split
  · rw [takeConfig_cs_locked _ (by rw [upToDirective, h]), upToDirective]
  · exact upToDirective

theorem arrival_cs_locked (s : State) (h : s.cs.locked = true) (b : List Byte) : (s.arrival b).cs = s.cs := by
  have seen (x : Option Exchange) : (s.endExchange.noteSeen x).cs = s.cs := by cases x <;> rfl
  unfold State.arrival; dsimp only; split
  · rfl
  · rw [takeParts_cs_locked _ (by rw [seen, h]), seen]

/-! ### The clock -/

@[simp] theorem quarterSecond_cs (s : State) : s.quarterSecond.cs = s.cs := by
  unfold State.quarterSecond; dsimp only; split <;> rfl

@[simp] theorem enqueue_cs (s : State) (i : Instr) : (s.enqueue i).cs = s.cs := by
  unfold State.enqueue; split <;> rfl

@[simp] theorem idle_cs (s : State) : s.idle.cs = s.cs := (foldl_cs _ enqueue_cs _ _).trans (quarterSecond_cs s)

/-! ### Every command and every step -/

/-- A locked configuration store stands through every command but a power-on reset. -/
theorem exec_keeps_locked_cs (c : Instr) (s : State) (h : s.cs.locked = true) (hc : c ≠ .powerOnReset) :
    ∃ t, exec c s = .next t ∧ t.cs = s.cs := by
  cases c with
  | powerOnReset => exact absurd rfl hc
  | reportArrival sdi =>
    exact ⟨_, rfl, (arrival_cs_locked _ (by rw [startExchange_cs, h]) _).trans (startExchange_cs s)⟩
  | configItem item v0 v1 v2 v3 v4 => exact ⟨_, rfl, takeItem_cs_locked s h item v0 v1 v2 v3 v4⟩
  | lockConfig => exact ⟨_, rfl, takeLock_cs_locked s h⟩
  | restartNode => exact ⟨_, rfl, takeRestart_cs_locked s h⟩
  | arbitrationLost => exact ⟨_, rfl, whileOffered_cs _ _ fun _ => rfl⟩
  | transmitFault => exact ⟨_, rfl, whileOffered_cs _ _ (faulted_cs s)⟩
  | transmissionBegin => exact ⟨_, rfl, whileOffered_cs _ _ (beginFrame_cs s)⟩
  | frameCompletion => exact ⟨_, rfl, whileBegun_cs _ _ (frameDone_cs s)⟩
  | frameFailure => exact ⟨_, rfl, whileBegun_cs _ _ (frameFailed_cs s)⟩
  | _ => -- an operation with a lemma above, published where its condition holds
    refine ⟨_, rfl, ?_⟩
    repeat' split
    all_goals simp

/-- A locked configuration store stands through every step but a power-on reset's. -/
theorem step_keeps_locked_cs (s t : State) (h : s.cs.locked = true) (hp : ∀ rest, s.pending ≠ .powerOnReset :: rest)
    (hs : step s = .next t) : t.cs = s.cs := by
  unfold step at hs
  split at hs
  · cases hs
    exact idle_cs s
  · rename_i c rest hq
    have hc : c ≠ .powerOnReset := by rintro rfl; exact hp rest hq
    obtain ⟨u, hu, hcs⟩ := exec_keeps_locked_cs c { s with pending := rest } h hc
    rw [hu] at hs
    cases hs
    exact hcs

end Sys2Proof.Machine
end

section
/-!
SUPPORT. The stored items by their numbers (R178) and the checks of the lock (R181).
-/

namespace Sys2Proof.Machine

/-! ### The items 58 to 107: the entries of the five lists -/

/-- An item of the five lists is the entry of its list and index. -/
theorem Settings.item_entry (c : Settings) {k : Nat} (h : 58 ≤ k) (h' : k ≤ 107) :
    c.item k = .entry ((c.entries.get (.ofIndex ((k - 58) / 10))).toList.getD ((k - 58) % 10) none) := by
  interval_cases k <;> rfl

/-- The check of an item of the five lists: never loaded below its list's length. -/
theorem Settings.lockFails_entry (c : Settings) {k : Nat} (h : 58 ≤ k) (h' : k ≤ 107) :
    c.LockFails k ↔ c.item k = .entry none ∧ (k - 58) % 10 < c.lengths.get (.ofIndex ((k - 58) / 10)) := by
  have general : c.LockFails k ↔ 58 ≤ k ∧ k ≤ 107 ∧ c.item k = .entry none
      ∧ (k - 58) % 10 < c.lengths.get (.ofIndex ((k - 58) / 10)) := by
    interval_cases k <;> exact Iff.rfl
  simp only [general, h, h', true_and]

/-! ### The failing items -/

/-- The failing items among the entries of one list are those of its ten items whose check fails. -/
theorem Settings.mem_entryFailures (c : Settings) (j : Nat) (hj : j < 5) (k : Nat) :
    k ∈ c.entryFailures (58 + 10 * j) (.ofIndex j) ↔ (58 + 10 * j ≤ k ∧ k < 68 + 10 * j) ∧ c.LockFails k := by
  simp only [Settings.entryFailures, List.mem_map, List.mem_filter, List.mem_range, Bool.and_eq_true,
    decide_eq_true_eq, Option.isNone_iff_eq_none]
  constructor
  · rintro ⟨i, ⟨hi, hlen, hnone⟩, rfl⟩
    have hdiv : (58 + 10 * j + i - 58) / 10 = j := by omega
    have hmod : (58 + 10 * j + i - 58) % 10 = i := by omega
    rw [c.lockFails_entry (by omega) (by omega), c.item_entry (by omega) (by omega), hdiv, hmod, hnone]
    exact ⟨by omega, rfl, hlen⟩
  · rintro ⟨⟨hlo, hhi⟩, hfails⟩
    have hdiv : (k - 58) / 10 = j := by omega
    rw [c.lockFails_entry (by omega) (by omega), c.item_entry (by omega) (by omega), hdiv] at hfails
    obtain ⟨hnone, hlen⟩ := hfails
    exact ⟨(k - 58) % 10, ⟨by omega, hlen, ItemValue.entry.inj hnone⟩, by omega⟩

/-- The items the failing checks name are those whose check fails. -/
theorem Settings.mem_failures (c : Settings) (k : Nat) : k ∈ c.failures ↔ c.LockFails k := by
  have fill := c.mem_entryFailures 0 (by decide) k
  have feed := c.mem_entryFailures 1 (by decide) k
  have resume := c.mem_entryFailures 2 (by decide) k
  have drain := c.mem_entryFailures 3 (by decide) k
  have endList := c.mem_entryFailures 4 (by decide) k
  simp only [Nat.reduceMul, Nat.reduceAdd, ListName.ofIndex] at fill feed resume drain endList
  unfold Settings.failures
  simp only [List.mem_append, fill, feed, resume, drain, endList, List.mem_ite_nil_left, List.mem_singleton, or_assoc,
    decide_eq_true_eq, Bool.and_eq_true, Bool.or_eq_true, not_or, ne_eq, not_not, ← Nat.dvd_iff_mod_eq_zero]
  constructor
  · rintro (⟨h, rfl⟩ | ⟨h, rfl⟩ | ⟨h, rfl⟩ | ⟨h, rfl⟩ | ⟨h, rfl⟩ | ⟨h, rfl⟩ | ⟨h, rfl⟩ | ⟨h, rfl⟩ | ⟨h, rfl⟩ | ⟨h, rfl⟩
      | ⟨h, rfl⟩ | ⟨h, rfl⟩ | ⟨h, rfl⟩ | ⟨h, rfl⟩ | ⟨h, rfl⟩ | ⟨_, h⟩ | ⟨_, h⟩ | ⟨_, h⟩ | ⟨_, h⟩ | ⟨_, h⟩
      | ⟨h, rfl⟩ | ⟨h, rfl⟩ | ⟨h, rfl⟩ | ⟨h, rfl⟩)
    all_goals exact h
  · intro hk
    have h := hk
    unfold Settings.LockFails at h
    split at h
    case h_20 =>
      obtain ⟨hlo, hhi, _⟩ := h
      simp only [hk, and_true]
      omega
    all_goals simp [h]

/-- The items that a check can name, in rising order (R181). -/
def checkedItems : List Nat :=
  [1] ++ [6] ++ [7] ++ [8] ++ [9] ++ [13] ++ [14] ++ [18] ++ [22] ++ [23] ++ [53] ++ [54] ++ [55] ++ [56] ++ [57]
    ++ (List.range 10).map (58 + ·) ++ (List.range 10).map (68 + ·) ++ (List.range 10).map (78 + ·)
    ++ (List.range 10).map (88 + ·) ++ (List.range 10).map (98 + ·) ++ [108] ++ [109] ++ [110] ++ [111]

/-- A check names its item or none. -/
theorem ite_nil_sublist (p : Prop) [Decidable p] (k : Nat) : (if p then [] else [k]).Sublist [k] := by
  split
  · exact List.nil_sublist _
  · exact List.Sublist.refl _

theorem Settings.entryFailures_sublist (c : Settings) (base : Nat) (l : ListName) :
    (c.entryFailures base l).Sublist ((List.range 10).map (base + ·)) := List.filter_sublist.map _

theorem Settings.failures_sublist (c : Settings) : c.failures.Sublist checkedItems := by
  unfold Settings.failures
  repeat' apply List.Sublist.append
  all_goals first | exact ite_nil_sublist _ _ | exact c.entryFailures_sublist _ _

/-- The failing items stand in rising order. -/
theorem Settings.failures_sorted (c : Settings) : c.failures.Pairwise (· < ·) :=
  List.Pairwise.sublist c.failures_sublist (by decide)

/-- Where no check fails, no item is named. -/
theorem Settings.failures_eq_nil (c : Settings) (h : ∀ k, ¬ c.LockFails k) : c.failures = [] :=
  List.eq_nil_iff_forall_not_mem.mpr fun k hk => h k ((c.mem_failures k).mp hk)

/-- Of the failing items the lowest stands first. -/
theorem Settings.failures_lowest (c : Settings) {k : Nat} (h : c.LockFails k) (low : ∀ m < k, ¬ c.LockFails m) :
    ∃ rest, c.failures = k :: rest := by
  have hk := (c.mem_failures k).mpr h
  have sorted := c.failures_sorted
  cases e : c.failures with
  | nil => simp [e] at hk
  | cons first rest =>
    rw [e] at hk sorted
    have firstFails : c.LockFails first := (c.mem_failures first).mp (by simp [e])
    rcases List.mem_cons.mp hk with rfl | hrest
    · exact ⟨rest, rfl⟩
    · exact absurd firstFails (low first (List.rel_of_pairwise_cons sorted hrest))

/-! ### LOCK_CONFIG (R181) -/

theorem takeLock_locks (s : State) (hu : s.cs.locked = false) (h : s.cs.set.failures = []) :
    s.takeLock = s.locks.configResult 0 .taken 0 := by
  simp [State.takeLock, hu, h]

theorem takeLock_inconsistent (s : State) (hu : s.cs.locked = false) {k : Nat} {rest : List Nat}
    (h : s.cs.set.failures = k :: rest) : s.takeLock = s.configResult 0 (.refused .inconsistent) (byteOf k) := by
  simp [State.takeLock, hu, h]

/-- Settles O46: the failing items stand in rising order, and a locked store stands through every command. -/
theorem theLockChecksTheItems : Obligations.TheLockChecksTheItems := by
  intro s
  refine ⟨fun hl => ?_, fun hu hall => ?_, fun k hu hk low => ?_, fun t hl hp => step_keeps_locked_cs s t hl hp⟩
  · exact congrArg Host.Outcome.next (takeLock_refused s hl)
  · exact congrArg Host.Outcome.next (takeLock_locks s hu (s.cs.set.failures_eq_nil hall))
  · obtain ⟨rest, hfirst⟩ := s.cs.set.failures_lowest hk low
    exact congrArg Host.Outcome.next (takeLock_inconsistent s hu hfirst)

end Sys2Proof.Machine
end

section
/-!
SUPPORT. A configuration item stored (R178 to R180): what each item's storing writes, and that it leaves the other
items. The items that hold a number are read as one list in the order of their numbers, in which a storing replaces one
place.
-/

namespace Sys2Proof.Machine

/-! ### Lists and points -/

@[simp] theorem PerList.get_set_self {α : Type} (p : PerList α) (l : ListName) (v : α) : (p.set l v).get l = v := by
  cases l <;> rfl

theorem PerList.get_set_ne {α : Type} (p : PerList α) {l x : ListName} (v : α) (h : x ≠ l) :
    (p.set l v).get x = p.get x := by
  cases l <;> cases x <;> first | rfl | exact absurd rfl h

@[simp] theorem PerPoint.get_set_self {α : Type} (p : PerPoint α) (k : Point) (v : α) : (p.set k v).get k = v := by
  cases k <;> rfl

theorem PerPoint.get_set_ne {α : Type} (p : PerPoint α) {k x : Point} (v : α) (h : x ≠ k) :
    (p.set k v).get x = p.get x := by
  cases k <;> cases x <;> first | rfl | exact absurd rfl h

theorem ListName.ofIndex_inj : ∀ i < 5, ∀ j < 5, ListName.ofIndex i = ListName.ofIndex j → i = j := by decide

/-- The handoff point of an item 108 to 111 (R178). -/
def pointOfItem (k : Nat) : Point := (Point.ofCode (k - 108)).getD .drain

theorem pointOfItem_inj {i k : Nat} (hi : 108 ≤ i) (hi' : i ≤ 111) (hk : 108 ≤ k) (hk' : k ≤ 111)
    (h : pointOfItem i = pointOfItem k) : i = k := by
  revert h
  interval_cases i <;> interval_cases k <;> decide

/-! ### The items by what they hold (R178) -/

/-- The items that hold a number: 1 to 57 but the provider set and the authority set. -/
def IsScalar (k : Nat) : Prop := 1 ≤ k ∧ k ≤ 57 ∧ k ≠ 5 ∧ k ≠ 10

/-- The numbers of the items that hold one, each at the place of its item's number. -/
def Settings.scalars (c : Settings) : List Nat :=
  [0, c.ownAddress.val, c.sectionClass.code, c.chainPosition, c.rank, 0, c.up1.val, c.up2.val, c.down1.val,
   c.down2.val, 0, c.bitRate, c.statusPeriod, c.rMax, c.rMin, c.q, c.rampUp, c.rampDown, c.maxStep, c.tInt,
   c.publishDeadband, c.hMax, c.hSet, c.hDr, c.tLevel, c.rCorrMax, c.mismatchBand, c.standing.steam,
   c.standing.power, c.standing.lime, c.standing.water, c.fullRate.steam, c.fullRate.power, c.fullRate.lime,
   c.fullRate.water, c.capacityDeadband, c.tFillMin, c.tDrainRest, c.tHoldMax, c.tTurnover, c.tBankExit,
   c.tFreezeMax, c.tPrereqWait, c.tClaimWait, c.tAckPhase, c.tAckRate, c.tAckTurnover, c.tPortSilence,
   c.tFillMax, c.tDrainMax, c.tStarve, c.tHandoff, c.depth, c.lengths.fill, c.lengths.feed, c.lengths.resume,
   c.lengths.drain, c.lengths.endList]

theorem Settings.item_scalar (c : Settings) {k : Nat} (h : IsScalar k) : c.item k = .number (c.scalars.getD k 0) := by
  obtain ⟨h1, h57, h5, h10⟩ := h
  interval_cases k <;> first | rfl | contradiction

theorem Settings.item_point (c : Settings) {k : Nat} (h : 108 ≤ k) (h' : k ≤ 111) :
    c.item k = .point (c.points.get (pointOfItem k)) := by
  interval_cases k <;> rfl

/-- An item is the same in two stores that agree on where it is kept. -/
theorem Settings.item_congr {c d : Settings} {k : Nat} (h1 : 1 ≤ k) (h111 : k ≤ 111)
    (scalar : IsScalar k → c.scalars.getD k 0 = d.scalars.getD k 0)
    (provider : k = 5 → c.provider = d.provider) (authority : k = 10 → c.authoritySet = d.authoritySet)
    (entry : 58 ≤ k → k ≤ 107 → (c.entries.get (.ofIndex ((k - 58) / 10))).toList.getD ((k - 58) % 10) none
      = (d.entries.get (.ofIndex ((k - 58) / 10))).toList.getD ((k - 58) % 10) none)
    (point : 108 ≤ k → c.points.get (pointOfItem k) = d.points.get (pointOfItem k)) : c.item k = d.item k := by
  by_cases hs : IsScalar k
  · rw [c.item_scalar hs, d.item_scalar hs, scalar hs]
  by_cases h5 : k = 5
  · subst h5
    exact congrArg ItemValue.resources (provider rfl)
  by_cases h10 : k = 10
  · subst h10
    exact congrArg ItemValue.addresses (authority rfl)
  have h58 : 58 ≤ k := by unfold IsScalar at hs; omega
  by_cases h107 : k ≤ 107
  · rw [c.item_entry h58 h107, d.item_entry h58 h107, entry h58 h107]
  · rw [c.item_point (by omega) h111, d.item_point (by omega) h111, point (by omega)]

/-! ### Numbers stored, saturated (R178, R179) -/

theorem addressOf_val (n : Nat) : (addressOf n).val = min 31 n :=
  Nat.mod_eq_of_lt (by omega)

theorem sectionClass_code_ofCode : ∀ m < 12, ((SectionClass.ofCode m).getD .utility).code = m := by decide

/-- A number is stored as a set's member: the largest not above it, or the smallest where all lie above it. -/
def StoredIn (set : List Nat) (n v : Nat) : Prop :=
  v ∈ set ∧ (v ≤ n ∧ (∀ m ∈ set, m ≤ n → m ≤ v) ∨ ∀ m ∈ set, n < m ∧ v ≤ m)

/-- The member of a rising set that R179 gives. -/
theorem storedIn_memberOf {set : List Nat} (n : Nat) (hne : set ≠ []) (sorted : set.Pairwise (· < ·)) :
    StoredIn set n (memberOf set n) := by
  unfold memberOf
  cases hlast : (set.filter (· ≤ n)).getLast? with
  | none =>
    have above : ∀ m ∈ set, n < m := by simpa using List.getLast?_eq_none_iff.mp hlast
    obtain ⟨first, rest, rfl⟩ := List.exists_cons_of_ne_nil hne
    refine ⟨List.mem_cons_self, .inr fun m hm => ⟨above m hm, ?_⟩⟩
    rcases List.mem_cons.mp hm with rfl | hrest
    · exact Nat.le_refl _
    · exact (List.rel_of_pairwise_cons sorted hrest).le
  | some v =>
    obtain ⟨hv, hvn⟩ : v ∈ set ∧ v ≤ n := by simpa using List.mem_of_getLast? hlast
    refine ⟨hv, .inl ⟨hvn, fun m hm hmn => ?_⟩⟩
    have hin : m ∈ set.filter (· ≤ n) := by simpa using ⟨hm, hmn⟩
    obtain ⟨front, hfront⟩ := List.getLast?_eq_some_iff.mp hlast
    have sortedFilter := sorted.filter (· ≤ n)
    rw [hfront] at hin sortedFilter
    obtain ⟨_, _, frontBelow⟩ := List.pairwise_append.mp sortedFilter
    rcases List.mem_append.mp hin with hf | hl
    · exact (frontBelow m hf v List.mem_cons_self).le
    · exact (List.mem_singleton.mp hl).le

/-- An item that holds a number out of a range is stored saturated to it. -/
theorem storeScalar_scalars_range (c : Settings) {i n lo hi : Nat} (hn : n ≤ 65535)
    (h : numberRange i = some (lo, hi)) : (c.storeScalar i n).scalars = c.scalars.set i (max lo (min hi n)) := by
  by_cases h2 : i = 2
  · subst h2
    cases h
    rw [Nat.zero_max]
    exact congrArg (c.scalars.set 2) (sectionClass_code_ofCode _ (by omega))
  unfold numberRange at h
  split at h
  case h_6 => exact absurd rfl h2
  case h_1 | h_2 | h_3 | h_4 | h_5 =>
    cases h
    rw [← addressOf_val]
    rfl
  case h_24 | h_25 | h_26 | h_27 =>
    cases h
    rw [Nat.min_eq_right hn]
    rfl
  case h_53 => cases h
  all_goals
    cases h
    unfold Settings.storeScalar
    rfl

/-- An item that holds a number out of a set is stored as a member of it. -/
theorem storeScalar_scalars_set (c : Settings) {i n : Nat} {set : List Nat} (h : numberSet i = some set) :
    (c.storeScalar i n).scalars = c.scalars.set i (memberOf set n) := by
  unfold numberSet at h
  split at h <;> cases h <;> rfl

theorem numberSet_sorted {i : Nat} {set : List Nat} (h : numberSet i = some set) :
    set ≠ [] ∧ set.Pairwise (· < ·) := by
  unfold numberSet at h
  split at h <;> cases h <;> decide

/-- Every item that holds a number has its range or its set. -/
theorem IsScalar.range_or_set {i : Nat} (h : IsScalar i) :
    (∃ lo hi, numberRange i = some (lo, hi)) ∨ ∃ set, numberSet i = some set := by
  have table : ∀ i < 58, i ≠ 0 → i ≠ 5 → i ≠ 10 → (numberRange i).isSome ∨ (numberSet i).isSome := by decide
  obtain ⟨h1, h57, h5, h10⟩ := h
  rcases table i (by omega) (by omega) h5 h10 with hr | hs
  · obtain ⟨⟨lo, hi⟩, e⟩ := Option.isSome_iff_exists.mp hr
    exact .inl ⟨lo, hi, e⟩
  · exact .inr (Option.isSome_iff_exists.mp hs)

/-- The number stored in an item (R178, R179). -/
def NumberStored (i n v : Nat) : Prop :=
  (∃ lo hi, numberRange i = some (lo, hi) ∧ v = max lo (min hi n)) ∨ ∃ set, numberSet i = some set ∧ StoredIn set n v

/-- Storing a number replaces it alone among the numbers, by the number saturated. -/
theorem storeScalar_scalars (c : Settings) {i n : Nat} (hn : n ≤ 65535) (h : IsScalar i) :
    ∃ v, (c.storeScalar i n).scalars = c.scalars.set i v ∧ NumberStored i n v := by
  rcases h.range_or_set with ⟨lo, hi, hr⟩ | ⟨set, hs⟩
  · exact ⟨_, storeScalar_scalars_range c hn hr, .inl ⟨lo, hi, hr, rfl⟩⟩
  · obtain ⟨hne, sorted⟩ := numberSet_sorted hs
    exact ⟨_, storeScalar_scalars_set c hs, .inr ⟨set, hs, storedIn_memberOf n hne sorted⟩⟩

/-- Storing a number leaves what the other items hold. -/
theorem storeScalar_rest (c : Settings) (i n : Nat) :
    (c.storeScalar i n).provider = c.provider ∧ (c.storeScalar i n).authoritySet = c.authoritySet
      ∧ (c.storeScalar i n).entries = c.entries ∧ (c.storeScalar i n).points = c.points := by
  unfold Settings.storeScalar
  split <;> exact ⟨rfl, rfl, rfl, rfl⟩

/-! ### What a storing is, by the item (R179, R180) -/

theorem word16_le (a b : Byte) : word16 a b ≤ 65535 := by
  have := a.isLt
  have := b.isLt
  unfold word16
  omega

theorem store_scalar (c : Settings) {i : Nat} (h : IsScalar i) (v0 v1 v2 v3 v4 : Byte) :
    c.store i v0 v1 v2 v3 v4 = c.storeScalar i (word16 v0 v1) := by
  obtain ⟨h1, h57, h5, h10⟩ := h
  unfold Settings.store
  rw [if_neg h5, if_neg h10, if_pos (by omega)]

theorem store_entry (c : Settings) {i : Nat} (h : 58 ≤ i) (h' : i ≤ 107) (v0 v1 v2 v3 v4 : Byte) :
    c.store i v0 v1 v2 v3 v4
      = c.storeEntry (.ofIndex ((i - 58) / 10)) ((i - 58) % 10) (entryOf v0 v1 v2 v3 v4) := by
  unfold Settings.store
  rw [if_neg (by omega), if_neg (by omega), if_neg (by omega), if_pos (by omega)]

theorem store_point (c : Settings) {i : Nat} (h : 108 ≤ i) (v0 v1 v2 v3 v4 : Byte) :
    c.store i v0 v1 v2 v3 v4 = { c with points := c.points.set (pointOfItem i) (pointOf v0 v1 v2) } := by
  unfold Settings.store
  rw [if_neg (by omega), if_neg (by omega), if_neg (by omega), if_neg (by omega)]
  rfl

/-- An item is a number, the provider set, the authority set, a list entry or a handoff point (R178). -/
theorem item_kinds {i : Nat} (h1 : 1 ≤ i) (h111 : i ≤ 111) :
    IsScalar i ∨ i = 5 ∨ i = 10 ∨ (58 ≤ i ∧ i ≤ 107) ∨ 108 ≤ i := by
  unfold IsScalar
  omega

/-! ### The other items -/

theorem storeScalar_item_of_ne (c : Settings) {i k n : Nat} (hn : n ≤ 65535) (hi : IsScalar i) (h1 : 1 ≤ k)
    (h111 : k ≤ 111) (hne : k ≠ i) : (c.storeScalar i n).item k = c.item k := by
  obtain ⟨v, hv, _⟩ := storeScalar_scalars c hn hi
  obtain ⟨provider, authority, entries, points⟩ := storeScalar_rest c i n
  refine Settings.item_congr h1 h111 (fun _ => ?_) (fun _ => provider) (fun _ => authority)
    (fun _ _ => by rw [entries]) (fun _ => by rw [points])
  rw [hv, List.getD_eq_getElem?_getD, List.getD_eq_getElem?_getD, List.getElem?_set_ne hne.symm]

theorem storeEntry_item_of_ne (c : Settings) {i k : Nat} (e : PrereqEntry) (h58 : 58 ≤ i) (h107 : i ≤ 107)
    (h1 : 1 ≤ k) (h111 : k ≤ 111) (hne : k ≠ i) :
    (c.storeEntry (.ofIndex ((i - 58) / 10)) ((i - 58) % 10) e).item k = c.item k := by
  refine Settings.item_congr h1 h111 (fun _ => rfl) (fun _ => rfl) (fun _ => rfl) (fun hk hk' => ?_) (fun _ => rfl)
  unfold Settings.storeEntry
  by_cases hl : ListName.ofIndex ((k - 58) / 10) = .ofIndex ((i - 58) / 10)
  · have sameList := ListName.ofIndex_inj _ (by omega) _ (by omega) hl
    have otherIndex : (i - 58) % 10 ≠ (k - 58) % 10 := by omega
    rw [hl, PerList.get_set_self, Vector.toList_setIfInBounds, List.getD_eq_getElem?_getD,
      List.getElem?_set_ne otherIndex, List.getD_eq_getElem?_getD]
  · rw [PerList.get_set_ne _ _ hl]

/-- Storing an item leaves every other (R179). -/
theorem store_item_of_ne (c : Settings) {i k : Nat} (v0 v1 v2 v3 v4 : Byte) (hi : 1 ≤ i) (hi' : i ≤ 111) (h1 : 1 ≤ k)
    (h111 : k ≤ 111) (hne : k ≠ i) : (c.store i v0 v1 v2 v3 v4).item k = c.item k := by
  rcases item_kinds hi hi' with hs | rfl | rfl | ⟨h58, h107⟩ | h108
  · rw [store_scalar c hs]
    exact storeScalar_item_of_ne c (word16_le v0 v1) hs h1 h111 hne
  · exact Settings.item_congr h1 h111 (fun _ => rfl) (absurd · hne) (fun _ => rfl) (fun _ _ => rfl) (fun _ => rfl)
  · exact Settings.item_congr h1 h111 (fun _ => rfl) (fun _ => rfl) (absurd · hne) (fun _ _ => rfl) (fun _ => rfl)
  · rw [store_entry c h58 h107]
    exact storeEntry_item_of_ne c _ h58 h107 h1 h111 hne
  · rw [store_point c h108]
    refine Settings.item_congr h1 h111 (fun _ => rfl) (fun _ => rfl) (fun _ => rfl) (fun _ _ => rfl) (fun hk => ?_)
    exact PerPoint.get_set_ne _ _ fun h => hne (pointOfItem_inj hk h111 h108 hi' h)

/-! ### The item itself -/

theorem word16_eq (a b : Byte) : word16 a b = 256 * a.toNat + b.toNat := by
  rw [word16, Nat.mul_comm]

theorem subjectOf_code : ∀ n, SubjectOfCode n (subjectOf n)
  | 0 | 1 | 2 | 3 => rfl
  | n + 4 => ⟨Nat.le_add_left 4 n, addressOf_val _⟩

theorem resource_code_ofCode : ∀ m < 4, ((Resource.ofCode m).getD .water).code = m := by decide

theorem testOf_code (resource arg : Nat) : ∀ n, TestOfCode n resource arg (testOf n resource arg)
  | 0 => ⟨rfl, fun i hi => by rw [BitVec.getLsbD_ofNat, decide_eq_true hi, Bool.true_and]⟩
  | 1 | 2 | 3 => ⟨rfl, rfl⟩
  | 4 => ⟨rfl, resource_code_ofCode _ (by omega), rfl⟩
  | n + 5 => Nat.le_add_left 5 n

theorem authorityOf_bits (v0 v1 v2 v3 : Byte) :
    (authorityOf v0 v1 v2 v3).getLsbD 0 = false
      ∧ ∀ i < 32, i ≠ 0 → (authorityOf v0 v1 v2 v3).getLsbD i = (v0 ++ v1 ++ v2 ++ v3).getLsbD i := by
  have mask : ∀ i < 32, i ≠ 0 → (0xFFFFFFFE#32).getLsbD i = true := by decide
  have clear : (0xFFFFFFFE#32).getLsbD 0 = false := by decide
  refine ⟨?_, fun i hi h0 => ?_⟩
  · rw [authorityOf, BitVec.getLsbD_and, clear, Bool.and_false]
  · rw [authorityOf, BitVec.getLsbD_and, mask i hi h0, Bool.and_true]

theorem entryOf_loads (v0 v1 v2 v3 v4 : Byte) :
    SubjectOfCode v0.toNat (entryOf v0 v1 v2 v3 v4).subject
      ∧ TestOfCode (v1.toNat % 128) v2.toNat (256 * v3.toNat + v4.toNat) (entryOf v0 v1 v2 v3 v4).test
      ∧ (entryOf v0 v1 v2 v3 v4).absentIsMet = decide (128 ≤ v1.toNat) := by
  have code : bitsOf v1 0 7 = v1.toNat % 128 := by simp [bitsOf]
  refine ⟨subjectOf_code _, ?_, (BitVec.msb_eq_getLsbD_last v1).symm.trans (BitVec.msb_eq_decide v1)⟩
  rw [← code, ← word16_eq]
  exact testOf_code _ _ _

theorem pointModeOf_byte (v : Byte) :
    pointModeOf v.toNat = if v = 0 then .none else if v = 1 then .confirmOnly else .coUnit := by
  by_cases h0 : v = 0
  · subst h0
    rfl
  by_cases h1 : v = 1
  · subst h1
    rfl
  rw [if_neg h0, if_neg h1]
  unfold pointModeOf
  split
  · exact absurd (BitVec.eq_of_toNat_eq ‹_›) h0
  · exact absurd (BitVec.eq_of_toNat_eq ‹_›) h1
  · rfl

theorem pointOf_loads (v0 v1 v2 : Byte) :
    (pointOf v0 v1 v2).mode = (if v0 = 0 then .none else if v0 = 1 then .confirmOnly else .coUnit)
      ∧ (pointOf v0 v1 v2).coUnit.val = min 31 v1.toNat ∧ (pointOf v0 v1 v2).work.val = min 15 v2.toNat :=
  ⟨pointModeOf_byte v0, addressOf_val _, Nat.mod_eq_of_lt (by omega)⟩

theorem storeScalar_item_self (c : Settings) {i n : Nat} (hn : n ≤ 65535) (h : IsScalar i) :
    ∃ v, (c.storeScalar i n).item i = .number v ∧ NumberStored i n v := by
  obtain ⟨v, hv, stored⟩ := storeScalar_scalars c hn h
  have inList : i < c.scalars.length := by
    obtain ⟨_, h57, _⟩ := h
    exact Nat.lt_of_le_of_lt h57 (Nat.lt_succ_self 57)
  refine ⟨v, ?_, stored⟩
  rw [Settings.item_scalar _ h, hv, List.getD_eq_getElem?_getD, List.getElem?_set_self inList, Option.getD_some]

theorem storeEntry_item_self (c : Settings) {i : Nat} (e : PrereqEntry) (h58 : 58 ≤ i) (h107 : i ≤ 107) :
    (c.storeEntry (.ofIndex ((i - 58) / 10)) ((i - 58) % 10) e).item i = .entry (some e) := by
  rw [Settings.item_entry _ h58 h107, Settings.storeEntry, PerList.get_set_self, Vector.toList_setIfInBounds,
    List.getD_eq_getElem?_getD, List.getElem?_set_self (by rw [Vector.length_toList]; omega), Option.getD_some]

/-- What an item holds once it is stored (R179, R180, 11.3). -/
theorem store_item_self (c : Settings) {i : Nat} (v0 v1 v2 v3 v4 : Byte) (hi : 1 ≤ i) (hi' : i ≤ 111) :
    Loads i v0 v1 v2 v3 v4 ((c.store i v0 v1 v2 v3 v4).item i) := by
  rcases item_kinds hi hi' with hs | rfl | rfl | ⟨h58, h107⟩ | h108
  · obtain ⟨v, hv, stored⟩ := storeScalar_item_self c (word16_le v0 v1) hs
    rw [store_scalar c hs, hv]
    rw [word16_eq] at stored
    exact stored
  · exact ⟨rfl, fun r => PerRes.get_of _ r⟩
  · exact ⟨rfl, authorityOf_bits v0 v1 v2 v3⟩
  · rw [store_entry c h58 h107, storeEntry_item_self c _ h58 h107]
    exact ⟨h58, h107, entryOf_loads v0 v1 v2 v3 v4⟩
  · rw [store_point c h108, Settings.item_point _ h108 hi', PerPoint.get_set_self]
    exact ⟨h108, hi', pointOf_loads v0 v1 v2⟩

/-! ### CONFIG_ITEM (R179) -/

theorem takeItem_badItem (s : State) (hu : s.cs.locked = false) (item v0 v1 v2 v3 v4 : Byte)
    (h : item.toNat = 0 ∨ 111 < item.toNat) :
    s.takeItem item v0 v1 v2 v3 v4 = s.configResult item (.refused .badItem) 0 := by
  simp [State.takeItem, hu, h]

theorem takeItem_stores (s : State) (hu : s.cs.locked = false) (item v0 v1 v2 v3 v4 : Byte) (h1 : 1 ≤ item.toNat)
    (h111 : item.toNat ≤ 111) :
    s.takeItem item v0 v1 v2 v3 v4 = State.configResult
      (s.setCs { s.cs with set := s.cs.set.store item.toNat v0 v1 v2 v3 v4 }) item .taken 0 := by
  have named : ¬(item.toNat = 0 ∨ 111 < item.toNat) := by omega
  simp [State.takeItem, hu, named]

/-- Settles O45: a storing replaces its own item by the saturated value and leaves the others. -/
theorem configurationItemsAreStoredSaturated : Obligations.ConfigurationItemsAreStoredSaturated := by
  intro item v0 v1 v2 v3 v4 s
  refine ⟨fun hl => ?_, fun hu hn => ?_, fun hu h1 h111 => ⟨s.cs.set.store item.toNat v0 v1 v2 v3 v4, ?_, ?_, ?_⟩⟩
  · exact congrArg Host.Outcome.next (takeItem_refused s hl item v0 v1 v2 v3 v4)
  · exact congrArg Host.Outcome.next (takeItem_badItem s hu item v0 v1 v2 v3 v4 hn)
  · exact congrArg Host.Outcome.next (takeItem_stores s hu item v0 v1 v2 v3 v4 h1 h111)
  · exact store_item_self s.cs.set v0 v1 v2 v3 v4 h1 h111
  · exact fun k hk hk' hne => store_item_of_ne s.cs.set v0 v1 v2 v3 v4 h1 h111 hk hk' hne

end Sys2Proof.Machine
end

section
/-!
SUPPORT. What every operation of the model does to the two things that the invariants speak of. Each keeps the values of
the blocks in their ranges, and each moves the cells of the allotment unit by the unit's own work alone: a target change,
a change report, or what follows an outcome. One lemma for each operation, composed by transitivity; the outcomes of the
node's own frames and the resets, which write cells by themselves, are treated with the commands.
-/

namespace Sys2Proof.Machine

/-! ### The ranges, block by block -/

/-- The throughput unit's data are in range (R50, R63, R68). -/
structure TU.Fits (t : TU) : Prop where
  holdup : t.holdup ≤ 99999999
  limitC : t.limitC ≤ 1000
  limitS : t.limitS ≤ 1000
  good : t.good ≤ 2
  interval : ∀ n, t.interval = some n → n ≤ 60
  parts : ∀ x, t.parts.get x ≤ 4000
  runOut : ∀ d, t.runOut = some d → d.rem ≤ 65535
  train : ∀ v, t.train = some v → v ≤ 1000
  held : ∀ o a, t.held = some (o, a) → o ≤ 1000 ∧ a ≤ 1000

/-- The run-out times that a hold link and a transition keep are in range (R3, R17). -/
structure PS.Fits (p : PS) : Prop where
  link : ∀ d, p.link = some (.runOut d) → d.rem ≤ 65535
  slot : ∀ r d, p.slot = some r → r.runOut = some d → d.rem ≤ 65535

/-- An outstanding list holds at most two commands with distinct tokens, a SET_PHASE alone, and rates in range (R149 to
R151). -/
structure OutstandingFits (l : List Outstanding) : Prop where
  length : l.length ≤ 2
  tokens : (l.map Outstanding.token).Nodup
  alone : (∃ o ∈ l, ∃ p w, o.command = .setPhase p w) → l.length = 1
  rates : ∀ o ∈ l, ∀ v b, o.command = .setRate v b → v ≤ 1000

/-- The section port's rates, counts and outstanding list are in range (R144, R149 to R151, R154). -/
structure SP.Fits (p : SP) : Prop where
  rIss : p.rIss ≤ 1000
  rAck : p.rAck ≤ 1000
  rateReq : ∀ v, p.rateReq = some v → v ≤ 1000
  pairReq : ∀ v, p.pairReq = some v → v ≤ 1000
  pairRate : ∀ v, p.pairRate = some v → v ≤ 1000
  strayCount : p.strayCount ≤ 255
  reportErrors : p.reportErrors ≤ 255
  list : OutstandingFits p.outstanding

/-- The amounts of an allotment frame and the values of a notice are in range (R65 to R68, R74, R172). -/
def Frame.Fits : Frame → Prop
  | .allot _ (.claim n) => n ≤ 4000
  | .allot _ (.release n) => n ≤ 4000
  | .status n => n.offer ≤ 1000 ∧ n.acceptance ≤ 1000 ∧ ∀ x, n.holdings.get x ≤ 4000 ∧ n.capacities.get x ≤ 4000
  | .tripNotice _ => True
  | .message _ => True

/-- The line controller's FIFO, counts, published rates and frame are in range (R164, R171, R172, R175). -/
structure LC.Fits (l : LC) : Prop where
  fifo : l.fifo.length ≤ 8
  failures : l.failures < 8
  lineErrors : l.lineErrors ≤ 255
  lastOffer : l.lastOffer ≤ 1000
  lastAcceptance : l.lastAcceptance ≤ 1000
  frame : ∀ y, l.tx = some y → y.frame.Fits

/-- The amounts of a resource and of its slot are in range (R74, R78, R168). -/
structure Cell.Fits (c : Cell) : Prop where
  holding : c.a.holding ≤ 4000
  announced : c.a.announced ≤ 4000
  longCapacity : c.a.longCapacity ≤ 4000
  raised : ∀ n, c.a.raised = some n → n ≤ 4000
  claimValue : ∀ n, c.a.claimValue = some n → n ≤ 4000
  reading : ∀ n, c.a.reading = some n → n ≤ 4000
  claim : ∀ n, c.slot = some (.claim n) → n ≤ 4000
  release : ∀ n, c.slot = some (.release n) → n ≤ 4000

/-- A peer entry's fields are in range (R30). -/
structure PeerEntry.Fits (e : PeerEntry) : Prop where
  offer : e.offer ≤ 1000
  acceptance : e.acceptance ≤ 1000
  holdup : ∀ n, e.holdup = some n → n ≤ 65535
  chainPosition : ∀ n, e.chainPosition = some n → n ≤ 63
  rank : ∀ n, e.rank = some n → n ≤ 15
  statusPeriod : ∀ n, e.statusPeriod = some n → 1 ≤ n ∧ n ≤ 10
  amounts : ∀ x n, e.holdings.get x = some n ∨ e.capacities.get x = some n → n ≤ 4000

/-- The values of every block are in range: InBounds by blocks, without the rates that are computed from them. -/
structure State.Sound (s : State) : Prop where
  clock : s.now < 4294967296
  items : s.cs.set.InRange
  tu : s.tu.Fits
  ps : s.ps.Fits
  sp : s.sp.Fits
  lc : s.lc.Fits
  services : s.hu.queue.length ≤ 2
  trip : ∀ r, s.tr.record = some r → r.later.length ≤ 4
  cells : ∀ x, (s.cell x).Fits
  peers : ∀ a, (s.stored a).Fits

/-! ### What the cells may do -/

/-- The moves of a resource's cell that the allotment unit makes of itself, the frame in transmission or not and the
line state ACTIVE or not: its mark, its raised target and its reading aside, a target change, a change report and what
follows an outcome. -/
inductive Cell.Moves (begun active : Bool) : Cell → Cell → Prop
  | aside {c d : Cell} (ha : d.a = { c.a with
      raised := d.a.raised, heldReport := d.a.heldReport, reading := d.a.reading }) (hs : d.slot = c.slot) :
    Moves begun active c d
  | refresh {c : Cell} (target : Nat) (new : Tally) (before : Nat) (h : target ≤ 4000) :
    Moves begun active c (c.refresh ⟨target, begun, active⟩ new before)
  | report {c : Cell} (target : Nat) (new : Tally) (before : Nat) (h : target ≤ 4000) (hb : begun = false) :
    Moves begun active c (c.report ⟨target, begun, active⟩ new before)
  | outcome {c : Cell} (target : Nat) (new : Tally) (before : Nat) (h : target ≤ 4000) (hb : begun = false) :
    Moves begun active c (c.afterOutcome ⟨target, begun, active⟩ new before)
  | trans {c d e : Cell} (h : Moves begun active c d) (k : Moves begun active d e) : Moves begun active c e

theorem Cell.Moves.refl {b a : Bool} (c : Cell) : Cell.Moves b a c c := .aside rfl rfl

/-- The line controller's slots, line state and frame on the line are the same. -/
structure LC.SameLine (l m : LC) : Prop where
  line : m.line = l.line
  allot : m.allot = l.allot
  tx : m.tx.map Tx.onLine = l.tx.map Tx.onLine

theorem LC.SameLine.refl (l : LC) : l.SameLine l := ⟨rfl, rfl, rfl⟩

theorem LC.SameLine.trans {l m n : LC} (h : l.SameLine m) (k : m.SameLine n) : l.SameLine n :=
  ⟨k.line.trans h.line, k.allot.trans h.allot, k.tx.trans h.tx⟩

/-- The cells have moved by the allotment unit's own work, the line being as it was. -/
structure CellsMove (s t : State) : Prop where
  line : t.lc.line = s.lc.line
  tx : t.lc.tx.map Tx.onLine = s.lc.tx.map Tx.onLine
  cell : ∀ x, Cell.Moves (s.allotBegun x) (decide (s.lc.line = .active)) (s.cell x) (t.cell x)

theorem allotBegun_onLine {s t : State} (h : t.lc.tx.map Tx.onLine = s.lc.tx.map Tx.onLine) (x : Resource) :
    t.allotBegun x = s.allotBegun x := begun_onLine h (.allot x)

theorem CellsMove.trans {s t u : State} (h : CellsMove s t) (k : CellsMove t u) : CellsMove s u := by
  refine ⟨k.line.trans h.line, k.tx.trans h.tx, fun x => (h.cell x).trans ?_⟩
  have := k.cell x
  rwa [allotBegun_onLine h.tx, h.line] at this

/-- The operation that leads from one state to another moves the cells by the allotment unit's own work and, where `b`
holds, keeps the ranges. `b` stands for what is known of the state that a whole chain of operations began in. -/
structure Works (b : Prop) (s t : State) : Prop where
  moves : CellsMove s t
  sound : b → s.Sound → t.Sound

section
variable {b : Prop}

theorem Works.trans {s t u : State} (h : Works b s t) (k : Works b t u) : Works b s u :=
  ⟨h.moves.trans k.moves, fun x y => k.sound x (h.sound x y)⟩

/-- What is known of the first state may be that its values are in range. -/
theorem Works.of_sound {s t : State} (h : Works s.Sound s t) : Works b s t := ⟨h.moves, fun _ k => h.sound k k⟩

theorem Works.ranges {s t : State} (h : Works True s t) (k : s.Sound) : t.Sound := h.sound trivial k

theorem CellsMove.of_same {s t : State} (hr : t.au.res = s.au.res) (hl : s.lc.SameLine t.lc) : CellsMove s t := by
  refine ⟨hl.line, hl.tx, fun x => ?_⟩
  have : t.cell x = s.cell x := by simp only [State.cell, hr, hl.allot]
  rw [this]
  exact .refl _

theorem Works.refl (s : State) : Works b s s := ⟨.of_same rfl (.refl _), fun _ => id⟩

theorem Works.foldl {α : Type} (f : State → α → State) (h : ∀ s a, Works b s (f s a)) (l : List α) :
    ∀ s, Works b s (l.foldl f s) := by
  induction l with
  | nil => exact fun s => .refl s
  | cons a l ih => exact fun s => (h s a).trans (ih _)

/-! ### One block written -/

theorem setPs_works (s : State) (x : PS) (h : b → s.ps.Fits → x.Fits) : Works b s (s.setPs x) :=
  ⟨.of_same rfl (.refl _), fun i k => { k with ps := h i k.ps }⟩

theorem setTu_works (s : State) (x : TU) (h : b → s.Sound → x.Fits) : Works b s (s.setTu x) :=
  ⟨.of_same rfl (.refl _), fun i k => { k with tu := h i k }⟩

theorem setSp_works (s : State) (x : SP) (h : b → s.Sound → x.Fits) : Works b s (s.setSp x) :=
  ⟨.of_same rfl (.refl _), fun i k => { k with sp := h i k }⟩

theorem setDu_works (s : State) (x : DU) : Works b s (s.setDu x) := ⟨.of_same rfl (.refl _), fun _ k => { k with }⟩

theorem setHu_works (s : State) (x : HU) (h : s.hu.queue.length ≤ 2 → x.queue.length ≤ 2) : Works b s (s.setHu x) :=
  ⟨.of_same rfl (.refl _), fun _ k => { k with services := h k.services }⟩

theorem setTr_works (s : State) (x : TR)
    (h : (∀ r, s.tr.record = some r → r.later.length ≤ 4) → ∀ r, x.record = some r → r.later.length ≤ 4) :
    Works b s (s.setTr x) :=
  ⟨.of_same rfl (.refl _), fun _ k => { k with trip := h k.trip }⟩

/-- The trip unit written but for its record. -/
theorem setTr_works_record (s : State) (x : TR) (h : x.record = s.tr.record) : Works b s (s.setTr x) :=
  setTr_works s x fun k => h ▸ k

theorem setWatches_works (s : State) (w : List (Station × Nat)) : Works b s (s.setPv { s.pv with watches := w }) :=
  ⟨.of_same rfl (.refl _), fun _ k => { k with }⟩

theorem useFree_works (s : State) : Works b s s.useFree := ⟨.of_same rfl (.refl _), fun _ k => { k with }⟩

/-- The flag of UNDER_STANDING and its timer written. -/
theorem setStanding_works (s : State) (f : Bool) (t : Timer) :
    Works b s (s.setAu { s.au with underStanding := f, underTimer := t }) :=
  ⟨.of_same rfl (.refl _), fun _ k => { k with }⟩

theorem setLc_works (s : State) (x : LC) (hl : s.lc.SameLine x) (h : s.lc.Fits → x.Fits) : Works b s (s.setLc x) :=
  ⟨.of_same rfl hl, fun _ k => { k with
    lc := h k.lc
    cells := fun y => by
      have e : (s.setLc x).cell y = s.cell y := by simp only [State.cell, State.setLc_au, State.setLc_lc, hl.allot]
      rw [e]; exact k.cells y }⟩

/-! ### Marks, replies, cells -/

theorem markLong_works (s : State) : Works b s s.markLong := by
  unfold State.markLong; split
  · exact setLc_works _ _ ⟨rfl, rfl, rfl⟩ fun k => { k with }
  · exact .refl _

theorem markShort_works (s : State) : Works b s s.markShort := by
  unfold State.markShort; split
  · exact setLc_works _ _ ⟨rfl, rfl, rfl⟩ fun k => { k with }
  · exact .refl _

theorem LC.overflow_sameLine (l : LC) : l.SameLine l.overflow := by
  refine ⟨rfl, rfl, ?_⟩
  simp only [LC.overflow, Option.map_map]
  rfl

theorem LC.Fits.overflow {l : LC} (h : l.Fits) : l.overflow.Fits where
  fifo := h.fifo
  failures := h.failures
  lineErrors := h.lineErrors
  lastOffer := h.lastOffer
  lastAcceptance := h.lastAcceptance
  frame y hy := by
    obtain ⟨z, hz, rfl⟩ := Option.map_eq_some_iff.mp hy
    exact h.frame z hz

theorem place_works (s : State) (m : MsgFrame) : Works b s (s.place m) := by
  unfold State.place
  rcases LC.place_cases s.lc m with ⟨hl, e⟩ | ⟨_, e⟩ <;> rw [e]
  · refine setLc_works _ _ ⟨rfl, rfl, rfl⟩ fun k => { k with fifo := ?_ }
    unfold fifoSize at hl
    simp only [List.length_append, List.length_singleton]
    omega
  · exact setLc_works _ _ (LC.overflow_sameLine _) LC.Fits.overflow

theorem replyWith_works (s : State) (q : Requester) (o : Reply) (d : Byte) : Works b s (s.replyWith q o d) := by
  rcases replyWith_cases s q o d with ⟨a, t, _, e⟩ | ⟨t, _, e⟩ | e <;> rw [e]
  · exact place_works s _
  · exact setDu_works _ _
  · exact .refl _

theorem reply_works (s : State) (q : Requester) (o : Reply) : Works b s (s.reply q o) := replyWith_works _ _ _ _

theorem refuse_works (s : State) (q : Requester) (c : RefusalCode) : Works b s (s.refuse q c) := reply_works _ _ _

theorem configResult_works (s : State) (t : Byte) (o : Reply) (d : Byte) : Works b s (s.configResult t o d) :=
  setDu_works _ _

theorem noteChange_works (s t : State) : Works b t (s.noteChange t) := by
  unfold State.noteChange; split
  · exact markShort_works _
  · exact .refl _

/-! ### The work on a cell -/

theorem Cell.Fits.setHolding {c : Cell} (h : c.Fits) {n : Nat} (hn : n ≤ c.a.holding) :
    Cell.Fits { c with a := { c.a with holding := n } } := { h with holding := hn.trans h.holding }

theorem Cell.Fits.withdraw {c : Cell} (h : c.Fits) : c.withdraw.Fits :=
  { h with claimValue := nofun, claim := nofun, release := nofun }

theorem Cell.Fits.withdrawBelow {c : Cell} (h : c.Fits) (v : CellView) : (c.withdrawBelow v).Fits := by
  unfold Cell.withdrawBelow; split
  · exact h.withdraw
  · exact h

theorem Cell.Fits.evaluate {c : Cell} (h : c.Fits) (v : CellView) (hv : v.target ≤ 4000) : (c.evaluate v).Fits := by
  have hm : c.claimable v ≤ 4000 := (min_le_left _ _).trans hv
  unfold Cell.evaluate
  repeat' split
  · exact { h with }
  · exact { h with }
  · refine { h with claimValue := fun n e => ?_, claim := fun n e => ?_, release := nofun }
    · cases e; exact hm
    · cases e; exact hm
  · exact h

theorem Cell.Fits.judgeRelease {c : Cell} (h : c.Fits) (v : CellView) : (c.judgeRelease v).Fits := by
  unfold Cell.judgeRelease; split
  · refine { h with claim := nofun, release := fun n e => ?_ }
    cases e; exact h.holding
  · exact h

theorem Cell.Fits.shed {c : Cell} (h : c.Fits) (n : Nat) : (c.shed n).Fits := by
  unfold Cell.shed; split
  · exact h
  · exact h.setHolding (min_le_left _ _)

theorem Cell.Fits.report {c : Cell} (h : c.Fits) (v : CellView) (hv : v.target ≤ 4000) (new : Tally) (before : Nat) :
    (c.report v new before).Fits := by
  have taken : Cell.Fits { c with a := { c.a with tally := new, heldReport := false } } := { h with }
  unfold Cell.report; dsimp only
  split
  · exact ((taken.withdraw.shed before).evaluate v hv).judgeRelease v
  · exact ((taken.shed before).evaluate v hv).judgeRelease v

theorem Cell.Fits.refresh {c : Cell} (h : c.Fits) (v : CellView) (hv : v.target ≤ 4000) (new : Tally) (before : Nat) :
    (c.refresh v new before).Fits := by
  have hr : (c.retarget v).Fits :=
    (((h.setHolding (min_le_left _ _)).withdrawBelow v).evaluate v hv).judgeRelease v
  unfold Cell.refresh Cell.ownReport
  repeat' split
  · exact hr
  · exact { hr with }
  · exact hr.report v hv new before

theorem Cell.Fits.afterOutcome {c : Cell} (h : c.Fits) (v : CellView) (hv : v.target ≤ 4000) (new : Tally)
    (before : Nat) : (c.afterOutcome v new before).Fits := by
  unfold Cell.afterOutcome; split
  · exact h.report v hv new before
  · exact (h.evaluate v hv).judgeRelease v

theorem target_le (s : State) (r : Resource) : s.target r ≤ 4000 := min_le_left _ _

theorem setCell_cell_self (s : State) (r : Resource) (c : Cell) : (s.setCell r c).cell r = c := by
  cases c; simp [State.cell]

theorem setCell_cell_ne (s : State) {r x : Resource} (c : Cell) (h : x ≠ r) : (s.setCell r c).cell x = s.cell x := by
  simp [State.cell, PerRes.get_set_ne _ _ h]

/-- One cell replaced keeps the ranges where the new one is in range. -/
theorem State.Sound.setCell {s : State} (h : s.Sound) (r : Resource) (c : Cell) (hc : c.Fits) :
    (s.setCell r c).Sound :=
  { h with
    lc := { h.lc with }
    cells := fun x => by
      by_cases e : x = r
      · subst e; rwa [setCell_cell_self]
      · rw [setCell_cell_ne s c e]; exact h.cells x }

/-- One cell moved by the unit's own work. -/
theorem setCell_works (s : State) (r : Resource) (c : Cell)
    (hm : Cell.Moves (s.allotBegun r) (decide (s.lc.line = .active)) (s.cell r) c) (hf : (s.cell r).Fits → c.Fits) :
    Works b s (s.setCell r c) := by
  refine ⟨⟨rfl, rfl, fun x => ?_⟩, fun _ k => k.setCell r c (hf (k.cells r))⟩
  by_cases e : x = r
  · subst e; rwa [setCell_cell_self]
  · rw [setCell_cell_ne s c e]; exact .refl _

theorem refreshCell_works (s : State) (r : Resource) : Works b s (s.refreshCell r) :=
  setCell_works s r _ (.refresh _ _ _ (target_le s r)) fun h => h.refresh _ (target_le s r) _ _

theorem refreshCells_works (s : State) : Works b s s.refreshCells := Works.foldl _ refreshCell_works _ _

theorem reportCell_works (s : State) (r : Resource) : Works b s (s.reportCell r) := by
  unfold State.reportCell; dsimp only; split
  · exact setCell_works s r _ (.aside rfl rfl) fun h => { h with }
  · rename_i hb
    exact setCell_works s r _ (.report _ _ _ (target_le s r) (Bool.not_eq_true _ ▸ hb))
      fun h => h.report _ (target_le s r) _ _

theorem reportCells_works (s : State) (f : Resource → Bool) : Works b s (s.reportCells f) :=
  Works.foldl _ reportCell_works _ _

theorem judgeStanding_works (s : State) : Works b s s.judgeStanding := by
  rcases judgeStanding_cases s with e | ⟨f, t, e⟩ <;> rw [e]
  · exact .refl _
  · exact setStanding_works _ _ _

theorem setRaised_works (s : State) (f : Resource → Option Nat) : Works b s (s.setRaised f) := by
  have e : ∀ x, (s.setRaised f).cell x = { s.cell x with a := { (s.cell x).a with raised := (f x).map (min 4000) } } :=
    fun x => by simp [State.cell, State.setRaised]
  refine ⟨⟨rfl, rfl, fun x => ?_⟩, fun _ k => { k with cells := fun x => ?_ }⟩
  · rw [e]; exact .aside rfl rfl
  · rw [e]
    refine { k.cells x with raised := fun n hn => ?_ }
    obtain ⟨m, _, rfl⟩ := Option.map_eq_some_iff.mp hn
    exact min_le_left _ _

end

end Sys2Proof.Machine
end

section
/-!
SUPPORT. What the phase changes and the arbiter keep (1.3, 3.9, 8.3), and the lists of outstanding commands.
-/

namespace Sys2Proof.Machine

section
variable {b : Prop}

/-! ### Stored items in range (R178) -/

theorem Settings.InRange.number {c : Settings} (h : c.InRange) (item : Nat) {lo hi n : Nat}
    (hc : c.item item = .number n) (hr : numberRange item = some (lo, hi)) : lo ≤ n ∧ n ≤ hi :=
  (h item n hc).1 lo hi hr

theorem Settings.InRange.rMax {c : Settings} (h : c.InRange) : c.rMax ≤ 1000 := (h.number 13 rfl rfl).2
theorem Settings.InRange.rMin {c : Settings} (h : c.InRange) : c.rMin ≤ 1000 := (h.number 14 rfl rfl).2
theorem Settings.InRange.tInt {c : Settings} (h : c.InRange) : c.tInt ≤ 60 := (h.number 19 rfl rfl).2

theorem Settings.InRange.fullRate {c : Settings} (h : c.InRange) (x : Resource) : c.fullRate.get x ≤ 4000 := by
  cases x with
  | steam => exact (h.number 31 rfl rfl).2
  | power => exact (h.number 32 rfl rfl).2
  | lime => exact (h.number 33 rfl rfl).2
  | water => exact (h.number 34 rfl rfl).2

/-- A rate part of a full-rate need and a rate in range is in range. -/
theorem ratePart_le {f v : Nat} (hf : f ≤ 4000) (hv : v ≤ 1000) : ceilDiv (f * v) 1000 ≤ 4000 := by
  have h : f * v ≤ 4000 * 1000 := Nat.mul_le_mul hf hv
  unfold ceilDiv
  omega

/-! ### Phase changes -/

/-- The run-out data that an entry brings are in range. -/
structure EntryInfo.Fits (e : EntryInfo) : Prop where
  runOut : ∀ d, e.runOut = some d → d.rem ≤ 65535
  link : ∀ d, e.link = some (.runOut d) → d.rem ≤ 65535

theorem EntryInfo.none_fits : EntryInfo.none.Fits := ⟨nofun, nofun⟩

theorem recoveryInfo_fits : recoveryInfo.Fits := ⟨nofun, nofun⟩

theorem PS.Fits.enter {p : PS} (h : p.Fits) {e : EntryInfo} (he : e.Fits) (c : Settings) (now : Nat) (new : Phase) :
    (p.enter c now new e).Fits where
  link d hd := by
    simp only [PS.enter, heldThrough] at hd
    cases new <;> simp only [reduceCtorEq] at hd
    · exact he.link d hd
    · exact h.link d hd
  slot r d hr hd := h.slot r d hr hd

theorem TU.Fits.enter {t : TU} (h : t.Fits) {c : Settings} (hc : c.InRange) {e : EntryInfo} (he : e.Fits)
    (old new : Phase) : (t.enter c old new e).Fits := by
  have interval : ∀ n, intervalAt c old new t.interval = some n → n ≤ 60 := by
    intro n hn
    have start : ∀ {m : Nat}, some c.tInt = some m → m ≤ 60 := fun e => by cases e; exact hc.tInt
    unfold intervalAt at hn
    cases new <;> simp only [reduceCtorEq] at hn
    · exact start hn
    · split at hn
      · exact start hn
      · exact h.interval n hn
    · exact h.interval n hn
    · exact h.interval n hn
  refine { h with holdup := ?_, good := Nat.zero_le 2, interval := interval, parts := ?_, runOut := ?_, train := ?_,
                  held := ?_ }
  all_goals simp only [TU.enter]
  · split
    · exact Nat.zero_le _
    · exact h.holdup
  · intro x
    repeat' split
    · rw [PerRes.get_of]; exact ratePart_le (hc.fullRate x) hc.rMin
    · exact h.parts x
    · rw [PerRes.get_same]; exact Nat.zero_le _
  · split
    · exact he.runOut
    · exact nofun
  · split
    · exact h.train
    · exact nofun
  · split
    · exact nofun
    · exact h.held

theorem SP.Fits.enter {p : SP} (h : p.Fits) (c : Settings) (old new : Phase) : (p.enter c old new).Fits := by
  refine { h with rIss := ?_, rAck := ?_, rateReq := ?_ }
  all_goals simp only [SP.enter]
  · split
    · exact Nat.zero_le _
    · exact h.rIss
  · split
    · exact Nat.zero_le _
    · exact h.rAck
  · split
    · exact h.rateReq
    · exact nofun

theorem enterPhase_works (s : State) (p : Phase) (e : EntryInfo) (he : b → e.Fits) :
    Works b s (s.enterPhase p e) := by
  have blocks : Works b s (((s.setPs (s.ps.enter s.cs.set s.now p e)).setTu
      (s.tu.enter s.cs.set s.ps.phase p e)).setSp (s.sp.enter s.cs.set s.ps.phase p)) :=
    ((setPs_works s _ fun i k => k.enter (he i) _ _ _).trans
      (setTu_works _ _ fun i k => k.tu.enter k.items (he i) _ _)).trans
      (setSp_works _ _ fun _ k => k.sp.enter _ _ _)
  exact (blocks.trans (markLong_works _)).trans (markShort_works _)

theorem keepRaised_works (s t : State) : Works b t (s.keepRaised t) := setTr_works_record _ _ rfl

theorem changePhase_works (s : State) (p : Phase) (e : EntryInfo) (he : b → e.Fits) :
    Works b s (s.changePhase p e) :=
  ((((enterPhase_works s p e he).trans (refreshCells_works _)).trans
    (reportCells_works _ _)).trans (judgeStanding_works _)).trans (keepRaised_works _ _)

/-! ### The outstanding list -/

theorem OutstandingFits.nil : OutstandingFits [] := ⟨by simp, by simp, by simp, by simp⟩

/-- The arbiter passes over every token in use, at most one being so (R150). -/
theorem SP.nextToken_unused (p : SP) (h : p.outstanding.length ≤ 1) : p.tokenUsed p.nextToken = false := by
  have tokens : ∀ t, p.tokenUsed t = p.outstanding.any fun o => decide (o.token = t) := fun _ => rfl
  have succ : ∀ t : Token, t + 1 ≠ t := by decide
  cases hl : p.outstanding with
  | nil => simp [tokens, hl]
  | cons o l =>
    have hn : l = [] := by rw [hl] at h; simpa using h
    have used : ∀ t, p.tokenUsed t = decide (o.token = t) := fun t => by simp [tokens, hl, hn]
    simp only [SP.nextToken, SP.tokenFrom, used, decide_eq_true_eq]
    repeat' split
    · rename_i h1 h2
      exact absurd (h2.symm.trans h1) (succ _)
    · rename_i h1 h2
      simp [h2]
    · rename_i h1
      simp [h1]

/-- A command that may issue enters the list (R149 to R151): a SET_PHASE an empty one, any other one with room and
without a SET_PHASE. -/
theorem OutstandingFits.append {l : List Outstanding} (h : OutstandingFits l) {o : Outstanding}
    (hl : l.length ≤ 1) (new : ∀ x ∈ l, x.token ≠ o.token)
    (alone : l = [] ∨ (o.command.isSetPhase = false ∧ ∀ x ∈ l, x.command.isSetPhase = false))
    (rate : ∀ v f, o.command = .setRate v f → v ≤ 1000) : OutstandingFits (l ++ [o]) where
  length := by simp only [List.length_append, List.length_singleton]; omega
  tokens := by
    rw [List.map_append, List.nodup_append]
    refine ⟨h.tokens, by simp, ?_⟩
    intro a ha c hc
    obtain ⟨x, hx, rfl⟩ := List.mem_map.mp ha
    simp only [List.map_cons, List.map_nil, List.mem_singleton] at hc
    subst hc
    exact new x hx
  alone := by
    rintro ⟨x, hx, p, w, hc⟩
    rcases alone with rfl | ⟨ho, hrest⟩
    · rfl
    · have sp : x.command.isSetPhase = true := by rw [hc]; rfl
      rcases List.mem_append.mp hx with hx | hx
      · rw [hrest x hx] at sp; cases sp
      · rw [List.mem_singleton.mp hx, ho] at sp; cases sp
  rates x hx v f hc := by
    rcases List.mem_append.mp hx with hx | hx
    · exact h.rates x hx v f hc
    · rw [List.mem_singleton.mp hx] at hc; exact rate v f hc

theorem OutstandingFits.sublist {l m : List Outstanding} (h : OutstandingFits l) (hs : m.Sublist l) :
    OutstandingFits m where
  length := hs.length_le.trans h.length
  tokens := h.tokens.sublist (hs.map _)
  alone := by
    rintro ⟨x, hx, hc⟩
    have one := h.alone ⟨x, hs.subset hx, hc⟩
    have := hs.length_le
    have : m.length ≠ 0 := by simp [List.ne_nil_of_mem hx]
    omega
  rates x hx := h.rates x (hs.subset hx)

/-- Marks and timers do not matter to the list. -/
theorem OutstandingFits.map {l : List Outstanding} (h : OutstandingFits l) (f : Outstanding → Outstanding)
    (hf : ∀ o, (f o).token = o.token ∧ (f o).command = o.command) : OutstandingFits (l.map f) where
  length := by rw [List.length_map]; exact h.length
  tokens := by
    have e : (l.map f).map Outstanding.token = l.map Outstanding.token := by
      rw [List.map_map]; exact List.map_congr_left fun o _ => (hf o).1
    rw [e]; exact h.tokens
  alone := by
    rintro ⟨x, hx, p, w, hc⟩
    obtain ⟨o, ho, rfl⟩ := List.mem_map.mp hx
    rw [List.length_map]
    exact h.alone ⟨o, ho, p, w, (hf o).2 ▸ hc⟩
  rates x hx v g hc := by
    obtain ⟨o, ho, rfl⟩ := List.mem_map.mp hx
    exact h.rates o ho v g ((hf o).2 ▸ hc)

/-- The issue of a command keeps the section port's values in range. -/
theorem SP.Fits.emit {p : SP} (h : p.Fits) (c : Settings) (cmd : Command) (hl : p.outstanding.length ≤ 1)
    (alone : p.outstanding = [] ∨ (cmd.isSetPhase = false ∧ p.setPhaseOut = false))
    (rate : ∀ v f, cmd = .setRate v f → v ≤ 1000) : (p.emit c cmd).Fits := by
  have unused := p.nextToken_unused hl
  simp only [SP.tokenUsed, List.any_eq_false, decide_eq_true_eq] at unused
  refine { h with list := h.list.append hl unused ?_ rate }
  rcases alone with e | ⟨e1, e2⟩
  · exact .inl e
  · refine .inr ⟨e1, ?_⟩
    simpa [SP.setPhaseOut, List.any_eq_false] using e2

/-! ### The arbiter -/

theorem nextStep_le {maxStep issued target : Nat} (hi : issued ≤ 1000) (ht : target ≤ 1000) :
    ∀ v, nextStep maxStep issued target = some v → v ≤ 1000 := by
  intro v hv
  unfold nextStep at hv
  repeat' split at hv
  all_goals cases hv
  all_goals omega

theorem slotIssued_works (s : State) : Works b s s.slotIssued := by
  unfold State.slotIssued; split
  · rename_i r hr
    have h : Works b s (s.setPs { s.ps with slot := some { r with stage := .waitAck, deadline := none } }) :=
      setPs_works _ _ fun _ k => { k with slot := fun x d hx hd => by cases hx; exact k.slot r d hr hd }
    dsimp only; split
    · exact h
    · exact h.trans (reply_works _ _ _)
  · exact .refl _

/-- A sequencer whose slot is emptied. -/
theorem PS.Fits.emptied {p q : PS} (h : p.Fits) (hl : q.link = p.link) (hs : q.slot = none) : q.Fits where
  link d hd := h.link d (hl ▸ hd)
  slot r d hr := by rw [hs] at hr; cases hr

theorem completeAtIssue_works (s : State) (p : Phase) : Works b s (s.completeAtIssue p) := by
  unfold State.completeAtIssue; dsimp only
  have h : Works b s _ :=
    ((setPs_works s { s.ps with slot := none, waiting := ⟨false, false, false, false⟩ }
      fun _ k => k.emptied rfl rfl).trans (setRaised_works _ fun _ => none)).trans
      (changePhase_works _ p .none fun _ => EntryInfo.none_fits)
  split
  · exact h.trans (reply_works _ _ _)
  · exact h

/-- The issue of a SET_PHASE into an empty list, with the section port's own records of it. -/
theorem emitPhase_works (s : State) (hl : s.sp.outstanding = []) (p : Phase) (u : Purpose) (x : SP)
    (hx : s.Sound → (s.sp.emit s.cs.set (.setPhase p u)).Fits → x.Fits) : Works b s (s.setSp x) :=
  setSp_works _ _ fun _ k => hx k (k.sp.emit _ _ (by simp [hl]) (.inl hl) nofun)

theorem issuePhase_works (s : State) (p : Phase) (u : Purpose) (hl : s.sp.outstanding = []) :
    Works b s (s.issuePhase p u) := by
  have h : Works b s (s.setSp { s.sp.emit s.cs.set (.setPhase p u) with psReq := none }) :=
    emitPhase_works s hl p u _ fun _ k => { k with }
  cases u with
  | completion => exact h.trans (completeAtIssue_works _ _)
  | transition | trip | recovery => exact h.trans (slotIssued_works _)

theorem issuePair_works (s : State) (v : Nat) (hl : s.sp.outstanding = []) (hv : s.sp.pairReq = some v) :
    Works b s (s.issuePair v) := by
  refine (emitPhase_works s hl .running .transition _ fun i k => ?_).trans (slotIssued_works _)
  exact { k with pairReq := nofun, pairRate := fun w e => by cases e; exact i.sp.pairReq v hv }

theorem issueRecovery_works (s : State) (p : Phase) (hl : s.sp.outstanding = []) :
    Works b s (s.issueRecovery p) := by
  have h : Works b s (s.setSp { s.sp.emit s.cs.set (.setPhase p .recovery) with recoveryReq := none }) :=
    emitPhase_works s hl p .recovery _ fun _ k => { k with }
  unfold State.issueRecovery; dsimp only; split
  · refine Works.trans (h.trans ?_) (reply_works _ _ _)
    exact setTr_works_record _ _ rfl
  · exact h

theorem issueTrip_works (s : State) (hl : s.sp.outstanding = []) : Works b s s.issueTrip :=
  emitPhase_works s hl .tripped .trip _ fun _ k => { k with }

/-- What a request below the SET_PHASEs finds when it issues (R151). -/
def SP.HasRoom (p : SP) : Prop := p.outstanding.length ≤ 1 ∧ p.setPhaseOut = false

theorem issueTurnover_works (s : State) (h : s.sp.HasRoom) : Works b s s.issueTurnover :=
  setSp_works _ _ fun _ k => { k.sp.emit s.cs.set .turnover h.1 (.inr ⟨rfl, h.2⟩) nofun with }

theorem takeWaiting_length (t : Token) (q : List Service) (e : Service) (q' : List Service)
    (h : takeWaiting t q = some (e, q')) : q'.length = q.length := by
  induction q generalizing e q' with
  | nil => cases h
  | cons x q ih =>
    unfold takeWaiting at h
    split at h
    · cases h; rfl
    · obtain ⟨⟨f, l⟩, hf, he⟩ := Option.map_eq_some_iff.mp h
      cases he
      simp [ih _ _ hf]

theorem issueWork?_works (s t : State) (h : s.sp.HasRoom) (ht : s.issueWork? = some t) : Works b s t := by
  unfold State.issueWork? at ht
  obtain ⟨⟨e, q⟩, hq, rfl⟩ := Option.map_eq_some_iff.mp ht
  refine (setSp_works _ _ fun _ k => k.sp.emit s.cs.set (.handoffWork _ _ _) h.1 (.inr ⟨rfl, h.2⟩) nofun).trans
    (setHu_works _ _ fun k => ?_)
  rw [takeWaiting_length _ _ _ _ hq]; exact k

theorem issueRate_works (s : State) (v : Nat) (pair : Bool) (h : b → s.sp.HasRoom) (hv : b → s.Sound → v ≤ 1000) :
    Works b s (s.issueRate v pair) :=
  setSp_works _ _ fun i k =>
    { k.sp.emit s.cs.set (.setRate v pair) (h i).1 (.inr ⟨rfl, (h i).2⟩)
        (fun w f e => by cases e; exact hv i k) with rIss := hv i k }

theorem issueStep_works (s : State) (v : Nat) (h : s.sp.HasRoom) (hv : s.sp.rateReq = some v) :
    Works b s (s.issueStep v) := by
  refine (issueRate_works s v false (fun _ => h) fun _ k => k.sp.rateReq v hv).trans
    (setSp_works _ _ fun _ k => { k.sp with rateReq := fun w hw => ?_ })
  obtain ⟨target, ht, hs⟩ := Option.bind_eq_some_iff.mp hw
  exact nextStep_le k.sp.rIss (k.tu.train target ht) w hs

theorem issueLower_works (s : State) (h : s.sp.HasRoom) : Works b s s.issueLower := by
  unfold State.issueLower; split
  · exact issueTurnover_works s h
  · split
    · exact issueWork?_works s _ h ‹_›
    · split
      · exact issueStep_works s _ h ‹_›
      · exact .refl _

theorem issueNext_works (s : State) : Works b s s.issueNext := by
  have empty : s.sp.outstanding.isEmpty = true → s.sp.outstanding = [] := List.isEmpty_iff.mp
  have room : s.sp.room ≤ 2 := by unfold SP.room; split <;> simp
  unfold State.issueNext; dsimp only
  split
  · split
    · exact issueTrip_works s (empty ‹_›)
    · exact .refl _
  split
  · split
    · exact issuePhase_works s _ _ (empty ‹_›)
    · exact .refl _
  split
  · split
    · exact issuePair_works s _ (empty ‹_›) ‹_›
    · exact .refl _
  split
  · split
    · exact issueRecovery_works s _ (empty ‹_›)
    · exact .refl _
  split
  · rename_i h
    exact issueLower_works s ⟨by omega, h.2⟩
  · exact .refl _

theorem arbitrate_works (s : State) : Works b s s.arbitrate := (issueNext_works _).trans (issueNext_works _)

end

end Sys2Proof.Machine
end

section
/-!
SUPPORT. What the transition slot, the trips and the acknowledgements keep (1.2, 7.2 to 7.4, 8.4).
-/

namespace Sys2Proof.Machine

section
variable {b : Prop}

/-! ### The slot -/

/-- The run-out time that a transition carries is in range (R3). -/
def SlotRec.Fits (r : SlotRec) : Prop := ∀ d, r.runOut = some d → d.rem ≤ 65535

theorem State.Sound.slotFits {s : State} (h : s.Sound) {r : SlotRec} (hr : s.ps.slot = some r) : r.Fits :=
  fun d hd => h.ps.slot r d hr hd

/-- A sequencer whose slot takes a transition in range. -/
theorem PS.Fits.filled {p q : PS} (h : p.Fits) {r : SlotRec} (hr : r.Fits) (hl : q.link = p.link)
    (hs : q.slot = some r) : q.Fits where
  link d hd := h.link d (hl ▸ hd)
  slot x d hx hd := by rw [hs] at hx; cases hx; exact hr d hd

/-- A sequencer whose slot and link stay. -/
theorem PS.Fits.of_same {p q : PS} (h : p.Fits) (hl : q.link = p.link) (hs : q.slot = p.slot) : q.Fits where
  link d hd := h.link d (hl ▸ hd)
  slot r d hr hd := h.slot r d (hs ▸ hr) hd

theorem setPs_works_same (s : State) (x : PS) (hl : x.link = s.ps.link) (hs : x.slot = s.ps.slot) :
    Works b s (s.setPs x) := setPs_works _ _ fun _ k => k.of_same hl hs

theorem setPs_works_emptied (s : State) (x : PS) (hl : x.link = s.ps.link) (hs : x.slot = none) :
    Works b s (s.setPs x) := setPs_works _ _ fun _ k => k.emptied hl hs

theorem setPs_works_filled (s : State) (x : PS) {r : SlotRec} (hr : b → r.Fits) (hl : x.link = s.ps.link)
    (hs : x.slot = some r) : Works b s (s.setPs x) := setPs_works _ _ fun i k => k.filled (hr i) hl hs

theorem setSlot_works (s : State) (r : SlotRec) (h : b → r.Fits) : Works b s (s.setSlot r) :=
  setPs_works_filled s _ h rfl rfl

/-- The transition in the slot rewritten without a change of its run-out data. -/
theorem setSlot_works_same (s : State) {r w : SlotRec} (hr : s.ps.slot = some r) (hw : w.runOut = r.runOut) :
    Works b s (s.setSlot w) :=
  Works.of_sound (setSlot_works s w fun k d hd => k.slotFits hr d (hw ▸ hd))

theorem notePending_works (s : State) : Works b s s.notePending := by
  unfold State.notePending; split
  · rename_i r hr
    split
    · refine Works.trans ?_ (reply_works _ _ _)
      exact setSlot_works_same s hr rfl
    · exact .refl _
  · exact .refl _

theorem toIssue_works (s : State) (r : SlotRec) (h : b → r.Fits) : Works b s (s.toIssue r) := by
  unfold State.toIssue; dsimp only
  refine Works.trans ?_ (arbitrate_works _)
  have slot : Works b s (s.setSlot { r with stage := .waitIssue, deadline := none }) := setSlot_works s _ h
  split
  · refine slot.trans (setSp_works _ _ fun _ k => { k.sp with pairReq := fun v e => ?_ })
    cases e; exact k.items.rMin
  · exact slot.trans (setSp_works _ _ fun _ k => { k.sp with })

/-- The handoff unit written but for its queue. -/
theorem setHu_works_queue (s : State) (x : HU) (h : x.queue = s.hu.queue) : Works b s (s.setHu x) :=
  setHu_works s x fun k => h ▸ k

theorem takePoint_works (s : State) (k : Point) : Works b s (s.takePoint k) := by
  unfold State.takePoint; dsimp only; split
  · exact .refl _
  · split <;> exact setHu_works_queue _ _ rfl
  · refine Works.trans ?_ (place_works _ _)
    exact setHu_works_queue _ _ rfl

theorem toHandoff_works (s : State) (r : SlotRec) (h : b → r.Fits) : Works b s (s.toHandoff r) := by
  unfold State.toHandoff; split
  · exact toIssue_works _ _ h
  · split
    · exact setSlot_works _ _ h
    · exact (takePoint_works _ _).trans (toIssue_works _ _ h)

theorem toClaim_works (s : State) (r : SlotRec) (h : b → r.Fits) : Works b s (s.toClaim r) := by
  unfold State.toClaim; split
  · exact toHandoff_works _ _ h
  · dsimp only
    have claims : ∀ (w : SlotRec) (f : Resource → Option Nat), (b → w.Fits) →
        Works b s ((s.setSlot w).setRaised f).refreshCells.judgeStanding := fun w f hw =>
      (((setSlot_works s w hw).trans (setRaised_works _ f)).trans (refreshCells_works _)).trans (judgeStanding_works _)
    have waits := claims { r with stage := .waitClaim, deadline := some s.cs.set.tClaimWait }
      (fun x => some (‹Resource → Nat› x)) h
    split
    · refine waits.trans (toHandoff_works _ _ ?_)
      exact h
    · exact waits

theorem evaluateList_works (s : State) (r : SlotRec) (l : ListName) (h : b → r.Fits) :
    Works b s (s.evaluateList r l) := by
  unfold State.evaluateList; split
  · exact (setWatches_works _ _).trans (toClaim_works _ _ h)
  · exact setWatches_works _ _

theorem toPrereq_works (s : State) (r : SlotRec) (h : b → r.Fits) : Works b s (s.toPrereq r) := by
  unfold State.toPrereq; split
  · exact toClaim_works _ _ h
  · refine (setSlot_works _ _ ?_).trans (evaluateList_works _ _ _ ?_) <;> exact h

theorem toDwell_works (s : State) (r : SlotRec) (h : b → r.Fits) : Works b s (s.toDwell r) := by
  have slot : ∀ w : SlotRec, w.runOut = r.runOut → Works b s (s.setSlot w) := fun w hw =>
    setSlot_works s w fun i d hd => h i d (hw ▸ hd)
  unfold State.toDwell; split
  iterate 2
    split
    · exact slot _ rfl
    · exact toPrereq_works _ _ h
  iterate 2
    split
    · exact slot _ rfl
    · exact toPrereq_works _ _ h
  all_goals exact toPrereq_works _ _ h

theorem enterSlot_works (s : State) (r : SlotRec) (h : b → r.Fits) : Works b s (s.enterSlot r) :=
  (toDwell_works _ _ h).trans (notePending_works _)

/-- A record without run-out data is in range. -/
theorem SlotRec.new_fits (p : Phase) (k : TransKind) (q : Requester) (a : Authority) :
    (SlotRec.new p k q a none).Fits := nofun

theorem forcedRec_fits : forcedRec.Fits := fun d hd => by cases hd; exact Nat.zero_le _

theorem setWaiting_works (s : State) (w : Waiting) : Works b s (s.setWaiting w) := setPs_works_same s _ rfl rfl

theorem giveSlot_works (s : State) : Works b s s.giveSlot := by
  have enter : ∀ (w : Waiting) (r : SlotRec), r.Fits → Works b s ((s.setWaiting w).enterSlot r) := fun w r hr =>
    (setWaiting_works s w).trans (enterSlot_works _ r fun _ => hr)
  unfold State.giveSlot; dsimp only
  split
  · exact enter _ _ forcedRec_fits
  split
  · exact enter _ _ (SlotRec.new_fits _ _ _ _)
  split
  · exact enter _ _ (SlotRec.new_fits _ _ _ _)
  split
  · exact enter _ _ (SlotRec.new_fits _ _ _ _)
  · exact setWaiting_works _ _

theorem reexamine_works (s : State) : Works b s s.reexamine := by
  unfold State.reexamine
  split
  · exact .refl _
  split
  · exact setWaiting_works _ _
  · exact giveSlot_works _

theorem requestAutoHold_works (s : State) : Works b s s.requestAutoHold := by
  unfold State.requestAutoHold; split
  · exact setWaiting_works _ _
  · exact enterSlot_works _ _ fun _ => SlotRec.new_fits _ _ _ _

theorem requestAutoResume_works (s : State) : Works b s s.requestAutoResume := by
  unfold State.requestAutoResume; split
  · exact setWaiting_works _ _
  · exact enterSlot_works _ _ fun _ => SlotRec.new_fits _ _ _ _

theorem requestCloseDrain_works (s : State) : Works b s s.requestCloseDrain := by
  unfold State.requestCloseDrain; split
  · exact setWaiting_works _ _
  · exact enterSlot_works _ _ fun _ => SlotRec.new_fits _ _ _ _

theorem withdrawPhase_works (s : State) : Works b s s.withdrawPhase := by
  unfold State.withdrawPhase; split
  · refine Works.trans ?_ (arbitrate_works _)
    exact setSp_works _ _ fun _ k => { k.sp with pairReq := fun _ => nofun }
  · exact .refl _

theorem removeTransition_works (s : State) : Works b s s.removeTransition := by
  unfold State.removeTransition; dsimp only
  have emptied : Works b s ((s.setPs { s.ps with slot := none }).setPv { s.pv with watches := [] }) :=
    (setPs_works_emptied s { s.ps with slot := none } rfl rfl).trans (setWatches_works _ _)
  exact (((emptied.trans (setRaised_works _ _)).trans (refreshCells_works _)).trans (judgeStanding_works _)).trans
    (withdrawPhase_works _)

/-- The count of good expiries started afresh (R71). -/
theorem setGood_works (s : State) : Works b s (s.setTu { s.tu with good := 0 }) :=
  setTu_works _ _ fun _ k => { k.tu with good := Nat.zero_le 2 }

theorem refuseTransition_works (s : State) (r : SlotRec) (c : RefusalCode) (d : Byte) :
    Works b s (s.refuseTransition r c d) := by
  unfold State.refuseTransition; dsimp only
  have h : Works b s _ := (removeTransition_works s).trans (replyWith_works _ r.requester (.refused c) d)
  split
  · exact (h.trans (setGood_works _)).trans (reexamine_works _)
  · exact h.trans (reexamine_works _)

theorem pollList_works (s : State) : Works b s s.pollList := by
  refine Works.of_sound ?_
  unfold State.pollList
  split
  · rename_i r hr
    split
    · exact .refl _
    split
    · exact (evaluateList_works _ _ _ fun k => k.slotFits hr).trans (notePending_works _)
    · exact .refl _
  · exact .refl _

theorem pollClaim_works (s : State) : Works b s s.pollClaim := by
  refine Works.of_sound ?_
  unfold State.pollClaim
  split
  · rename_i r hr
    split
    · dsimp only; split
      · exact setSlot_works_same _ hr rfl
      · have fits : s.Sound → r.Fits := fun k => k.slotFits hr
        exact (toHandoff_works _ { r with claimReached := true } fits).trans (notePending_works _)
    · exact .refl _
  · exact .refl _

theorem pollHandoff_works (s : State) : Works b s s.pollHandoff := by
  refine Works.of_sound ?_
  unfold State.pollHandoff
  split
  · rename_i r hr
    split
    · exact toHandoff_works _ _ fun k => k.slotFits hr
    · exact .refl _
  · exact .refl _

theorem testCompletion_works (s : State) : Works b s s.testCompletion := by
  have complete : ∀ (t : State) (q : Phase × Purpose), Works b s t →
      Works b s (State.arbitrate (t.setSp { t.sp with psReq := some q })) := fun t q h =>
    (h.trans (setSp_works t { t.sp with psReq := some q } fun _ k => { k.sp with })).trans (arbitrate_works _)
  unfold State.testCompletion
  split
  · rename_i r hr
    have slot : ∀ (x : PS), x.link = s.ps.link → x.slot = some { r with stage := .waitIssue } →
        Works b s (s.setPs x) := fun x hl hs =>
      have fits : s.Sound → r.Fits := fun k => k.slotFits hr
      Works.of_sound (setPs_works_filled s x (r := { r with stage := .waitIssue }) fits hl hs)
    split
    · exact .refl _
    split
    · exact complete _ _ (slot _ rfl rfl)
    split
    · exact complete _ _ (slot _ rfl rfl)
    · exact .refl _
  · exact .refl _

theorem fulfilHandoff_works (s : State) : Works b s s.fulfilHandoff := by
  unfold State.fulfilHandoff
  split
  · rename_i r hr
    split
    · exact setSlot_works_same _ hr rfl
    · exact .refl _
  · exact .refl _

theorem handoffEnded_works (s : State) (f : Bool) : Works b s (s.handoffEnded f) := by
  unfold State.handoffEnded
  refine Works.trans ?_ (pollHandoff_works _)
  split
  · exact (fulfilHandoff_works s).trans (testCompletion_works _)
  · exact .refl _

theorem resumeSlot_works (s : State) : Works b s s.resumeSlot :=
  (((pollList_works s).trans (pollClaim_works _)).trans (pollHandoff_works _)).trans (testCompletion_works _)

theorem publish_works (s t : State) : Works b t (s.publish t) := by
  unfold State.publish; split
  · exact (pollList_works _).trans (noteChange_works _ _)
  · exact noteChange_works _ _

theorem standingRises_works (s t : State) : Works b t (s.standingRises t) := by
  unfold State.standingRises; split
  · exact requestAutoHold_works _
  · exact .refl _

theorem afterAllotment_works (s t : State) : Works b t (s.afterAllotment t) :=
  (standingRises_works s t).trans (pollClaim_works _)

/-! ### Trips -/

theorem replyTripped_works (s : State) (o : Option SlotRec) : Works b s (s.replyTripped o) := by
  cases o with
  | none => exact .refl _
  | some r => exact reply_works _ _ _

theorem answerNotReady_works (s : State) (l : List Service) : Works b s (s.answerNotReady l) :=
  Works.foldl _ (fun _ _ => place_works _ _) _ _

theorem tripAnswers_works (s : State) : Works b s s.tripAnswers := by
  unfold State.tripAnswers; dsimp only
  split
  · split
    · exact (useFree_works s).trans ((replyTripped_works _ _).trans (answerNotReady_works _ _))
    · exact (useFree_works s).trans ((answerNotReady_works _ _).trans (replyTripped_works _ _))
  · exact (replyTripped_works _ _).trans (answerNotReady_works _ _)

theorem SP.Fits.preempt {p : SP} (h : p.Fits) : p.preempt.Fits where
  rIss := Nat.zero_le _
  rAck := Nat.zero_le _
  rateReq := nofun
  pairReq := nofun
  pairRate := nofun
  strayCount := h.strayCount
  reportErrors := h.reportErrors
  list := .nil

theorem placeTrip_works (s : State) (c : Cause) : Works b s (s.setLc (s.lc.placeTrip c)) := by
  obtain ⟨e, _⟩ := placeTrip_eq s.lc c
  rw [e]
  exact setLc_works _ _ ⟨rfl, rfl, rfl⟩ fun k => { k with }

theorem tripEntry_works (s : State) (c : Cause) : Works b s (s.tripEntry c) := by
  unfold State.tripEntry; dsimp only
  refine (tripAnswers_works s).trans (Works.trans ?_ (arbitrate_works _))
  generalize s.tripAnswers = t
  have cleared : Works b t ((((((t.setPs t.ps.atTrip).setPv { t.pv with watches := [] }).setHu t.hu.atTrip).setTr
      { t.tr with record := some ⟨c, [], false⟩ }).setSp t.sp.preempt).setLc (t.lc.placeTrip c)) :=
    (((((setPs_works_emptied t t.ps.atTrip rfl rfl).trans (setWatches_works _ [])).trans
      (setHu_works _ t.hu.atTrip fun _ => Nat.zero_le _)).trans
      (setTr_works _ { t.tr with record := some ⟨c, [], false⟩ }
        fun _ r hr => by cases hr; exact Nat.zero_le _)).trans
      (setSp_works _ t.sp.preempt fun _ k => k.sp.preempt)).trans (placeTrip_works _ c)
  exact ((cleared.trans (setRaised_works _ fun _ => none)).trans
    (changePhase_works _ .tripped .none fun _ => EntryInfo.none_fits)).trans
    (setSp_works _ _ fun _ k => { k.sp with })

theorem laterCause_works (s : State) (c : Cause) : Works b s (s.laterCause c) := by
  refine setTr_works _ _ fun k r hr => ?_
  obtain ⟨t, ht, rfl⟩ := Option.map_eq_some_iff.mp hr
  have := k t ht
  unfold TripRec.add
  split
  · exact this
  split
  · simp only [List.length_append, List.length_singleton]; omega
  · exact this

theorem spoilRecovery_works (s : State) (c : Cause) : Works b s (s.spoilRecovery c) := by
  unfold State.spoilRecovery
  split
  · exact .refl _
  split
  · refine Works.trans (Works.trans ?_ (arbitrate_works _)) (reply_works _ _ _)
    exact (setTr_works_record s { s.tr with recovery := none } rfl).trans
      (setSp_works _ { s.sp with recoveryReq := none } fun _ k => { k.sp with })
  · exact setTr_works_record s _ rfl

theorem raiseCause_works (s : State) (c : Cause) : Works b s (s.raiseCause c) := by
  unfold State.raiseCause; split
  · exact .refl _
  · exact (laterCause_works _ _).trans (spoilRecovery_works _ _)
  all_goals exact tripEntry_works _ _

theorem takeRaised_works (s : State) (c : Cause) : Works b s (s.takeRaised c) := by
  unfold State.takeRaised; split
  · refine Works.trans (Works.trans ?_ (raiseCause_works _ _)) (publish_works _ _)
    exact setTr_works_record s _ rfl
  · exact .refl _

theorem startRecovery_works (s : State) (p : Phase) (tag : Byte) : Works b s (s.startRecovery p tag) := by
  unfold State.startRecovery
  refine Works.trans ?_ (arbitrate_works _)
  exact (setTr_works_record s { s.tr with recovery := some ⟨p, tag, .waiting, none⟩ } rfl).trans
    (setSp_works _ { s.sp with recoveryReq := some p } fun _ k => { k.sp with })

/-! ### Acknowledgements -/

/-- What an entry brings comes from the slot's own data, the hold link or the throughput unit (R17, R72). -/
theorem entryInfo_fits {s : State} (h : s.Sound) {r : SlotRec} (hr : r.Fits) : (s.entryInfo r).Fits := by
  have data : s.tu.data.rem ≤ 65535 := by
    unfold TU.data
    cases e : s.tu.runOut with
    | none => exact Nat.zero_le _
    | some d => exact h.tu.runOut d e
  unfold State.entryInfo
  cases r.kind with
  | hold =>
    refine ⟨nofun, fun d hd => ?_⟩
    simp only [Option.some.injEq] at hd
    split at hd
    · cases hd; exact data
    · cases hd
  | resume =>
    refine ⟨fun d hd => ?_, nofun⟩
    simp only at hd
    split at hd
    · rename_i e hl
      cases hd; exact h.ps.link _ hl
    · cases hd
  | runOut | forcedRunOut => exact ⟨hr, nofun⟩
  | stopRunOut => exact ⟨nofun, nofun⟩
  | start | fill | feed | bank | drain | endCampaign | closeDrain => exact EntryInfo.none_fits

/-- The start pair's SET_RATE issues with the list empty: its SET_PHASE was alone in it (R152). -/
theorem issuePairRate_works (s : State) (h : b → s.sp.outstanding = []) : Works b s s.issuePairRate := by
  unfold State.issuePairRate; split
  · rename_i v hv
    refine ⟨⟨rfl, rfl, fun _ => .refl _⟩, fun i k => ?_⟩
    have t : Works b s ((s.setSp { s.sp with pairRate := none }).issueRate v true) := by
      refine Works.trans (setSp_works s { s.sp with pairRate := none } fun _ k => { k.sp with pairRate := nofun })
        (issueRate_works _ v true (fun i => ?_) fun _ _ => k.sp.pairRate v hv)
      simp [SP.HasRoom, SP.setPhaseOut, h i]
    exact t.sound i k
  · exact .refl _

theorem transitionDone_works (s : State) (p : Phase) (h : b → s.sp.outstanding = []) :
    Works b s (s.transitionDone p) := by
  unfold State.transitionDone
  split
  · exact changePhase_works _ _ _ fun _ => EntryInfo.none_fits
  rename_i r hr
  have info : s.Sound → (s.entryInfo r).Fits := fun k => entryInfo_fits k (k.slotFits hr)
  split
  · exact Works.of_sound ((setSlot_works_same s (w := { r with stage := .waitCompletion }) hr rfl).trans
      (changePhase_works _ p _ info))
  · dsimp only
    have changed : Works b s _ := Works.of_sound (((setPs_works_emptied s { s.ps with slot := none } rfl rfl).trans
      (setRaised_works _ fun _ => none)).trans (changePhase_works _ p _ info))
    refine ((changed.trans (issuePairRate_works _ fun i => ?_)).trans (reply_works _ _ _)).trans (reexamine_works _)
    rw [(changePhase_blocks _ _ _).2.2.1]
    exact h i

theorem transitionFailed_works (s : State) (c : Cause) : Works b s (s.transitionFailed c) := by
  unfold State.transitionFailed
  split
  · split
    · exact ((setPs_works_emptied s { s.ps with slot := none } rfl rfl).trans (reply_works _ _ _)).trans
        (reexamine_works _)
    · exact .refl _
  · exact raiseCause_works _ _

theorem recoveryDone_works (s : State) (p : Phase) : Works b s (s.recoveryDone p) := by
  unfold State.recoveryDone; split
  · exact .refl _
  · rename_i r _
    have h : Works b s (((s.setTr { s.tr with record := none, recovery := none }).changePhase p recoveryInfo).reply
        (.port r.tag) .done) :=
      ((setTr_works s { s.tr with record := none, recovery := none } fun _ => nofun).trans
        (changePhase_works _ _ _ fun _ => recoveryInfo_fits)).trans (reply_works _ _ _)
    dsimp only; split
    · exact h.trans (tripEntry_works _ _)
    · exact h

theorem recoveryFailed_works (s : State) (c : Cause) : Works b s (s.recoveryFailed c) := by
  unfold State.recoveryFailed; split
  · exact .refl _
  · refine Works.trans ((laterCause_works s c).trans ?_) (reply_works _ _ _)
    exact setTr_works_record _ _ rfl

theorem phaseOutcome_works (s : State) (p : Phase) (u : Purpose) (d : Bool) (c : Cause)
    (h : b → s.sp.outstanding = []) : Works b s (s.phaseOutcome p u d c) := by
  cases u <;> cases d
  case transition.false => exact transitionFailed_works _ _
  case transition.true => exact transitionDone_works _ _ h
  case completion.true | trip.true => exact .refl _
  case completion.false | trip.false => exact raiseCause_works _ _
  case recovery.false => exact recoveryFailed_works _ _
  case recovery.true => exact recoveryDone_works _ _

theorem startInterval_works (s : State) (f : Bool) : Works b s (s.startInterval f) := by
  unfold State.startInterval; split
  · refine setTu_works _ _ fun _ k => { k.tu with interval := fun n e => ?_ }
    cases e; exact k.items.tInt
  · exact .refl _

theorem turnoverDone_works (s : State) : Works b s s.turnoverDone := by
  unfold State.turnoverDone; split
  · exact setPs_works_same s _ rfl rfl
  · exact .refl _

theorem turnoverMissed_works (s : State) : Works b s s.turnoverMissed := by
  unfold State.turnoverMissed
  split
  · split
    · exact raiseCause_works _ _
    · exact setPs_works_same s _ rfl rfl
  · exact .refl _

theorem workEnded_works (s : State) (t : Token) (o : DoneOutcome) : Works b s (s.workEnded t o) := by
  unfold State.workEnded; split
  · refine Works.trans ?_ (place_works _ _)
    exact setHu_works _ _ fun k => (List.length_filter_le _ _).trans k
  · exact .refl _

/-- The outcome of a command already out of the list: of a SET_PHASE with the list empty, of a SET_RATE with the rate it
carried in range. -/
theorem outcome_works (s : State) (o : Outstanding) (d : Bool) (c : Cause)
    (alone : b → o.command.isSetPhase = true → s.sp.outstanding = [])
    (rate : b → ∀ v f, o.command = .setRate v f → v ≤ 1000) : Works b s (s.outcome o d c) := by
  unfold State.outcome
  split
  · rename_i hc
    exact phaseOutcome_works _ _ _ _ _ fun i => alone i (by rw [hc]; rfl)
  · rename_i v f hc
    split
    · exact .refl _
    split
    · refine Works.trans ?_ (startInterval_works _ _)
      exact setSp_works _ _ fun i k => { k.sp with rAck := rate i v f hc }
    · refine Works.trans ?_ (startInterval_works _ _)
      exact setSp_works _ _ fun _ k => { k.sp with }
  · split
    · exact turnoverDone_works _
    · exact turnoverMissed_works _
  · exact workEnded_works _ _ _

/-- The list without the command of a token. -/
theorem OutstandingFits.filter {l : List Outstanding} (h : OutstandingFits l) (f : Outstanding → Bool) :
    OutstandingFits (l.filter f) := h.sublist List.filter_sublist

/-- A list in which a SET_PHASE stands is empty without it. -/
theorem OutstandingFits.emptied {l : List Outstanding} (h : OutstandingFits l) {o : Outstanding} (ho : o ∈ l)
    (hc : o.command.isSetPhase = true) : l = [o] := by
  have one : l.length = 1 := by
    refine h.alone ⟨o, ho, ?_⟩
    cases e : o.command <;> rw [e] at hc
    case setPhase p w => exact ⟨p, w, rfl⟩
    all_goals cases hc
  obtain ⟨x, hx⟩ := List.length_eq_one_iff.mp one
  rw [hx] at ho ⊢
  rw [List.mem_singleton.mp ho]

theorem SP.Fits.remove {p : SP} (h : p.Fits) (t : Token) : (p.remove t).Fits := { h with list := h.list.filter _ }

theorem OutstandingFits.removeRate {l : List Outstanding} (h : OutstandingFits l) (t : Token) :
    OutstandingFits ((l.takeWhile fun o => o.token ≠ t).map Outstanding.supersede
      ++ (l.dropWhile fun o => o.token ≠ t).drop 1) := by
  have same : ∀ o : Outstanding, o.supersede.token = o.token ∧ o.supersede.command = o.command := by
    intro o; unfold Outstanding.supersede; split <;> exact ⟨rfl, rfl⟩
  have part : ((l.takeWhile fun o => o.token ≠ t) ++ (l.dropWhile fun o => o.token ≠ t).drop 1).Sublist l := by
    conv_rhs => rw [← List.takeWhile_append_dropWhile (p := fun o : Outstanding => decide (o.token ≠ t)) (l := l)]
    exact (List.Sublist.refl _).append (List.drop_sublist _ _)
  have small := h.sublist part
  refine ⟨?_, ?_, ?_, ?_⟩
  · have := small.length; simpa using this
  · have e : Outstanding.token ∘ Outstanding.supersede = Outstanding.token := funext fun o => (same o).1
    rw [List.map_append, List.map_map, e, ← List.map_append]
    exact small.tokens
  · rintro ⟨x, hx, p, w, hc⟩
    have := small.alone
    simp only [List.length_append, List.length_map] at this ⊢
    apply this
    rcases List.mem_append.mp hx with hx | hx
    · obtain ⟨o, ho, rfl⟩ := List.mem_map.mp hx
      exact ⟨o, List.mem_append_left _ ho, p, w, (same o).2 ▸ hc⟩
    · exact ⟨x, List.mem_append_right _ hx, p, w, hc⟩
  · intro x hx v g hc
    rcases List.mem_append.mp hx with hx | hx
    · obtain ⟨o, ho, rfl⟩ := List.mem_map.mp hx
      exact small.rates o (List.mem_append_left _ ho) v g ((same o).2 ▸ hc)
    · exact small.rates x (List.mem_append_right _ hx) v g hc

theorem SP.Fits.acknowledge {p : SP} (h : p.Fits) (o : Outstanding) (d : Bool) : (p.acknowledge o d).Fits := by
  unfold SP.acknowledge; split
  · exact { h with list := h.list.removeRate _ }
  · exact h.remove _

theorem SP.find_mem {p : SP} {t : Token} {o : Outstanding} (h : p.find t = some o) :
    o ∈ p.outstanding ∧ o.token = t := by
  unfold SP.find at h
  exact ⟨List.mem_of_find?_eq_some h, by simpa using List.find?_some h⟩

/-- Without a SET_PHASE that stood in the list, the list is empty. -/
theorem remove_alone {p : SP} (h : p.Fits) {o : Outstanding} (ho : o ∈ p.outstanding)
    (hc : o.command.isSetPhase = true) : (p.remove o.token).outstanding = [] := by
  rw [SP.remove, h.list.emptied ho hc]
  simp

theorem setRateCommand_rate {p : SP} (h : p.Fits) {o : Outstanding} (ho : o ∈ p.outstanding) :
    ∀ v f, o.command = .setRate v f → v ≤ 1000 := fun v f hc => h.list.rates o ho v f hc

theorem takeAck_works (s : State) (t : Token) (a : AckOutcome) : Works b s (s.takeAck t a) := by
  refine Works.of_sound ?_
  unfold State.takeAck; dsimp only
  split
  · exact setSp_works _ _ fun _ k => { k.sp with strayCount := min_le_left _ _ }
  rename_i o ho
  obtain ⟨mem, _⟩ := SP.find_mem ho
  refine ((setSp_works _ _ fun _ k => k.sp.acknowledge o _).trans (outcome_works _ o _ _ (fun i hc => ?_)
    fun i => setRateCommand_rate i.sp mem)).trans (arbitrate_works _)
  have notRate : o.command.isSetRate = false := by
    cases e : o.command <;> rw [e] at hc <;> first | rfl | cases hc
  simp only [SP.acknowledge, notRate, Bool.false_and, Bool.false_eq_true, if_false, State.setSp_sp]
  exact remove_alone i.sp mem hc

theorem timedOut_works (s : State) (o : Outstanding) (alone : b → o.command.isSetPhase = true → s.sp.outstanding = [])
    (rate : b → ∀ v f, o.command = .setRate v f → v ≤ 1000) : Works b s (s.timedOut o) := by
  unfold State.timedOut
  split
  · split
    · exact .refl _
    · exact raiseCause_works _ _
  all_goals exact outcome_works _ _ _ _ alone rate

theorem ackTimeout_works (s : State) (t : Token) (f : Command → Bool) : Works b s (s.ackTimeout t f) := by
  refine Works.of_sound ?_
  unfold State.ackTimeout
  split
  · exact .refl _
  rename_i o ho
  obtain ⟨mem, tok⟩ := SP.find_mem ho
  split
  · refine ((setSp_works _ _ fun _ k => k.sp.remove t).trans (timedOut_works _ o (fun i hc => ?_)
      fun i => setRateCommand_rate i.sp mem)).trans (arbitrate_works _)
    rw [← tok]
    exact remove_alone i.sp mem hc
  · exact .refl _

end

end Sys2Proof.Machine
end

section
/-!
SUPPORT. What the directives, the expiries, the peer frames, the store and the report keep (chapters 2 to 6, 8, 10).
-/

namespace Sys2Proof.Machine

section
variable {b : Prop}

/-! ### Handoffs (chapter 6) -/

theorem serve_works (s : State) (e : Service) (h : s.hu.queue.length < 2) : Works b s (s.serve e) := by
  unfold State.serve
  refine Works.trans ?_ (arbitrate_works _)
  refine setHu_works _ _ fun _ => ?_
  simp only [List.length_append, List.length_singleton]
  omega

theorem judgeHandoff_works (s : State) (a : Station) (tag kind : Byte) (k : Point) :
    Works b s (s.judgeHandoff a tag kind k) := by
  unfold State.judgeHandoff
  split
  · exact .refl _
  split
  · exact place_works _ _
  split
  · exact place_works _ _
  · rename_i h
    have room : s.hu.queue.length < 2 := by omega
    unfold State.serveWork
    split
    · exact serve_works _ _ room
    · exact (useFree_works s).trans (serve_works _ _ room)

theorem takeHandoff_works (s : State) (a : Station) (p : List Byte) : Works b s (s.takeHandoff a p) := by
  unfold State.takeHandoff
  split
  · split
    · exact judgeHandoff_works _ _ _ _ _
    · exact .refl _
  · exact .refl _

theorem answerSuccess_works (s : State) (h : HandoffRec) : Works b s (s.answerSuccess h) := by
  unfold State.answerSuccess
  refine Works.trans ?_ (handoffEnded_works _ _)
  exact setHu_works_queue s _ rfl

theorem answerFailed_works (s : State) (h : HandoffRec) : Works b s (s.answerFailed h) := by
  unfold State.answerFailed
  split
  · split
    · exact setHu_works_queue s _ rfl
    · refine Works.trans ?_ (handoffEnded_works _ _)
      exact setHu_works_queue s _ rfl
  · exact .refl _

theorem takeHandoffDone_works (s : State) (a : Station) (p : List Byte) : Works b s (s.takeHandoffDone a p) := by
  unfold State.takeHandoffDone
  split
  · split
    · split
      · split
        · exact answerSuccess_works _ _
        split
        · exact answerFailed_works _ _
        · exact .refl _
      · exact .refl _
    · exact .refl _
  · exact .refl _

theorem confirmed_works (s : State) : Works b s s.confirmed := by
  unfold State.confirmed
  refine Works.trans ?_ (handoffEnded_works _ _)
  exact setHu_works_queue s _ rfl

theorem handoffExpires_works (s : State) (h : HandoffRec) : Works b s (s.handoffExpires h) := by
  unfold State.handoffExpires
  split
  · exact setHu_works_queue s _ rfl
  · refine Works.trans ?_ (handoffEnded_works _ _)
    exact setHu_works_queue s _ rfl

/-! ### The rate interval (chapter 3) -/

theorem holdupAfter_le (h i o t : Nat) : holdupAfter h i o t ≤ 99999999 := by
  unfold holdupAfter clampInt holdupMax
  omega

theorem integrate_works (s : State) : Works b s s.integrate :=
  setTu_works _ _ fun _ k =>
    { k.tu with holdup := holdupAfter_le _ _ _ _, interval := fun n e => by cases e; exact k.items.tInt }

/-- The desired rate lies within R_max (R59). -/
theorem desired_le {s : State} (h : s.Sound) (u : Nat) : s.desired u ≤ 1000 := by
  have := h.items.rMax
  unfold State.desired
  omega

theorem foldl_min_le (l : List Nat) (n : Nat) : l.foldl min n ≤ n := by
  induction l generalizing n with
  | nil => exact le_refl n
  | cons a l ih => exact (ih (min n a)).trans (min_le_left n a)

/-- The budgeted rate lies within the desired one (R59). -/
theorem budgeted_le (s : State) (d : Nat) : s.budgeted d ≤ d := foldl_min_le _ _

/-- The new rate is in range (R60). -/
theorem newRate_le {c : Settings} (h : c.InRange) {g r : Nat} (hg : g ≤ 1000) (hr : r ≤ 1000) :
    newRate c g r ≤ 1000 := by
  have := h.rMin
  have ramped : clamp (r - c.rampDown) (r + c.rampUp) g ≤ 1000 := by unfold clamp; omega
  have whole := Nat.div_mul_le_self (clamp (r - c.rampDown) (r + c.rampUp) g) c.q
  unfold newRate
  dsimp only
  split
  · exact Nat.zero_le _
  split
  · assumption
  · exact whole.trans ramped

theorem TU.Fits.flagged {t : TU} (h : t.Fits) (c : Settings) (p : Phase) (x : Binding) : (t.flagged c p x).Fits :=
  { h with }

theorem compute_works (s : State) : Works b s s.compute.1 := by
  unfold State.compute
  refine setTu_works _ _ fun _ k => ?_
  have d := desired_le k s.upstream
  have flagged := k.tu.flagged s.cs.set s.ps.phase
    (s.binding s.upstream (s.desired s.upstream) (s.budgeted (s.desired s.upstream)))
  refine { flagged with parts := fun x => ?_, train := fun v e => ?_ }
  · rw [PerRes.get_of]
    exact ratePart_le (k.items.fullRate x) (max_le d k.sp.rAck)
  · cases e
    exact newRate_le k.items ((budgeted_le _ _).trans d) k.sp.rAck

theorem computeDone_works (s : State) (f : Bool) : Works b s (s.computeDone f).1 := by
  unfold State.computeDone
  refine setTu_works _ _ fun _ k => { k.tu.flagged s.cs.set s.ps.phase .clear with
    parts := fun x => ?_, train := fun v e => ?_ }
  · rw [PerRes.get_same]; exact Nat.zero_le _
  · cases e; exact Nat.zero_le _

theorem computeRunOut_works (s : State) : Works b s s.computeRunOut.1 := by
  unfold State.computeRunOut
  split
  · split
    · exact computeDone_works _ _
    · exact (setTu_works s { s.tu with runoutDone := false } fun _ k => { k.tu with }).trans (compute_works _)
  split
  · exact computeDone_works _ _
  · exact compute_works _

theorem judgeResume_works (s : State) : Works b s s.judgeResume.1 := by
  unfold State.judgeResume
  split
  · split
    · exact setTu_works _ _ fun _ k => { k.tu with good := Nat.le_succ 1 }
    · exact setGood_works s
  · exact setGood_works s

theorem judgeInterval_works (s : State) : Works b s s.judgeInterval.1 := by
  unfold State.judgeInterval
  split
  · exact compute_works _
  · exact computeRunOut_works _
  · split
    · exact judgeResume_works _
    · exact .refl _
  all_goals exact .refl _

/-- The target that an expiry hands on is the train's (R63). -/
theorem computed_target {t : State × Outputs} (h : t.2.target = t.1.tu.train ∨ t.2.target = none) (k : t.1.Sound) :
    ∀ v, t.2.target = some v → v ≤ 1000 := by
  intro v hv
  rcases h with h | h <;> rw [h] at hv
  · exact k.tu.train v hv
  · cases hv

theorem compute_target (s : State) : s.compute.2.target = s.compute.1.tu.train := rfl

theorem computeRunOut_target (s : State) : s.computeRunOut.2.target = s.computeRunOut.1.tu.train := by
  unfold State.computeRunOut
  repeat' split
  all_goals rfl

theorem judgeInterval_target (s : State) :
    s.judgeInterval.2.target = s.judgeInterval.1.tu.train ∨ s.judgeInterval.2.target = none := by
  unfold State.judgeInterval
  split
  · exact .inl (compute_target s)
  · exact .inl (computeRunOut_target s)
  · split
    · right
      unfold State.judgeResume
      repeat' split
      all_goals rfl
    · exact .inr rfl
  all_goals exact .inr rfl

theorem formTrain_works (s : State) (target : Nat) (h : b → target ≤ 1000) : Works b s (s.formTrain target) := by
  unfold State.formTrain
  refine Works.trans ?_ (arbitrate_works _)
  refine setSp_works _ _ fun i k => { k.sp with rateReq := fun v hv => ?_ }
  unfold State.firstStep at hv
  split at hv
  · cases hv; exact h i
  · exact nextStep_le k.sp.rIss (h i) v hv

theorem takeTrain_works (s : State) (o : Outputs) (h : b → ∀ v, o.target = some v → v ≤ 1000) :
    Works b s (s.takeTrain o) := by
  unfold State.takeTrain
  split
  · rename_i v hv
    exact formTrain_works _ _ fun i => h i v hv
  · exact .refl _

theorem takeRequests_works (s : State) (o : Outputs) : Works b s (s.takeRequests o) := by
  unfold State.takeRequests
  dsimp only
  refine Works.trans (t := if o.closeDrain then s.requestCloseDrain else s) ?_ ?_
  · split
    · exact requestCloseDrain_works _
    · exact .refl _
  generalize (if o.closeDrain then s.requestCloseDrain else s) = t
  refine Works.trans (t := if o.autoHold then t.requestAutoHold else t) ?_ ?_
  · split
    · exact requestAutoHold_works _
    · exact .refl _
  generalize (if o.autoHold then t.requestAutoHold else t) = u
  split
  · exact requestAutoResume_works _
  · exact .refl _

theorem handOn_works (s : State) (o : Outputs) (h : b → ∀ v, o.target = some v → v ≤ 1000) :
    Works b s (s.handOn o) := by
  unfold State.handOn
  split
  · dsimp only; split
    · exact (useFree_works s).trans ((takeTrain_works _ o h).trans (takeRequests_works _ o))
    · exact (useFree_works s).trans ((takeRequests_works _ o).trans (takeTrain_works _ o h))
  · exact (takeTrain_works _ o h).trans (takeRequests_works _ o)

theorem rateExpiry_works (s : State) : Works b s s.rateExpiry := by
  refine Works.of_sound ?_
  unfold State.rateExpiry
  dsimp only
  have judged : ∀ {p : Prop}, Works p s s.integrate.judgeInterval.1 :=
    (integrate_works s).trans (judgeInterval_works _)
  refine ((((judged.trans (refreshCells_works _)).trans (judgeStanding_works _)).trans
    (standingRises_works _ _))).trans (handOn_works _ _ fun k => ?_)
  exact computed_target (judgeInterval_target _) (judged.ranges k)

theorem holdIfStands_works (s : State) : Works b s s.holdIfStands := by
  unfold State.holdIfStands; split
  · exact requestAutoHold_works _
  · exact .refl _

/-! ### The directives (chapter 5) -/

/-- The arguments of a directive are in range (R94). -/
def Directive.Fits : Directive → Prop
  | .feed n => n ≤ 1000
  | .runOut d => d.rem ≤ 65535
  | _ => True

theorem feedLimit_le (w : BitVec 16) : feedLimit w ≤ 1000 := min_le_left _ _

theorem runOutData_le (w : BitVec 16) (f : Bool) : (runOutData w f).rem ≤ 65535 := by
  have := w.isLt
  unfold runOutData
  split
  · exact Nat.zero_le _
  · simp only; omega

theorem Directive.ofCode_fits {code : Byte} {arg : BitVec 16} {f : Bool} {d : Directive}
    (h : Directive.ofCode code arg f = some d) : d.Fits := by
  unfold Directive.ofCode at h
  split at h <;> cases h
  case h_3 => exact feedLimit_le arg
  case h_7 => exact runOutData_le arg f
  all_goals trivial

theorem request_works (s : State) (r : SlotRec) (h : b → r.Fits) : Works b s (s.request r) := by
  unfold State.request; split
  · exact refuse_works _ _ _
  · exact enterSlot_works _ _ h

/-- A request without run-out data. -/
theorem request_works_new (s : State) (p : Phase) (k : TransKind) (q : Requester) (a : Authority) :
    Works b s (s.request (.new p k q a none)) := request_works _ _ fun _ => SlotRec.new_fits p k q a

theorem storeLimit_works (s : State) (a : Authority) {n : Nat} (h : n ≤ 1000) : Works b s (s.storeLimit a n) := by
  unfold State.storeLimit; split
  · exact setTu_works _ _ fun _ k => { k.tu with limitC := h }
  · exact setTu_works _ _ fun _ k => { k.tu with limitS := h }

theorem rowFeed_works (s : State) (q : Requester) (a : Authority) {n : Nat} (h : n ≤ 1000) :
    Works b s (s.rowFeed q a n) := by
  have stored : Works b s ((s.storeLimit a n).reply q .taken) := (storeLimit_works s a h).trans (reply_works _ _ _)
  unfold State.rowFeed
  split
  · split
    · exact refuse_works _ _ _
    · unfold State.feedFilled
      dsimp only; split
      · exact (storeLimit_works s a h).trans (refuse_works _ _ _)
      · exact (storeLimit_works s a h).trans (enterSlot_works _ _ fun _ => SlotRec.new_fits _ _ _ _)
  iterate 3 exact stored
  · split
    · exact refuse_works _ _ _
    · exact stored
  all_goals exact refuse_works _ _ _

theorem raiseOwner_works (s : State) (a : Authority) : Works b s (s.raiseOwner a) := by
  unfold State.raiseOwner
  split
  · have raised : Works b s ((s.setPs { s.ps with owner := some a }).setTu { s.tu with good := 0 }) :=
      (setPs_works_same s { s.ps with owner := some a } rfl rfl).trans (setGood_works _)
    dsimp only; split
    · split
      · exact raised.trans (refuseTransition_works _ _ _ _)
      · exact raised
    · exact raised
  · exact .refl _

theorem rowHold_works (s : State) (q : Requester) (a : Authority) : Works b s (s.rowHold q a) := by
  unfold State.rowHold
  split
  · exact request_works_new _ _ _ _ _
  · split
    · exact refuse_works _ _ _
    · exact request_works_new _ _ _ _ _
  iterate 2 exact (raiseOwner_works _ _).trans (reply_works _ _ _)
  all_goals exact refuse_works _ _ _

theorem rowResume_works (s : State) (q : Requester) (a : Authority) : Works b s (s.rowResume q a) := by
  unfold State.rowResume
  split
  · exact refuse_works _ _ _
  split
  · exact refuse_works _ _ _
  · exact request_works_new _ _ _ _ _

theorem rowRunOut_works (s : State) (q : Requester) (a : Authority) {d : RunOut} (h : d.rem ≤ 65535) :
    Works b s (s.rowRunOut q a d) := by
  have linked : Works b s ((s.setPs { s.ps with link := some (.runOut d) }).reply q .taken) :=
    (setPs_works s { s.ps with link := some (.runOut d) }
      fun _ k => { k with link := fun x e => by cases e; exact h }).trans (reply_works _ _ _)
  unfold State.rowRunOut
  split
  · exact request_works _ _ fun _ x e => by cases e; exact h
  · split
    · exact refuse_works _ _ _
    · refine Works.trans ?_ (reply_works _ _ _)
      exact setTu_works _ _ fun _ k => { k.tu with runOut := fun x e => by cases e; exact h }
  iterate 2
    split
    · exact refuse_works _ _ _
    · exact linked
  all_goals exact refuse_works _ _ _

theorem rowStop_works (s : State) (q : Requester) (a : Authority) : Works b s (s.rowStop q a) := by
  unfold State.rowStop
  split
  · exact refuse_works _ _ _
  split
  · exact refuse_works _ _ _
  split
  · exact refuse_works _ _ _
  · exact request_works_new _ _ _ _ _

theorem rowDrain_works (s : State) (q : Requester) (a : Authority) : Works b s (s.rowDrain q a) := by
  unfold State.rowDrain
  dsimp only
  split
  iterate 3
    split
    · exact request_works_new _ _ _ _ _
    · exact refuse_works _ _ _
  all_goals exact refuse_works _ _ _

theorem rowClear_works (s : State) (q : Requester) : Works b s (s.rowClear q) := by
  unfold State.rowClear
  split
  · exact refuse_works _ _ _
  split
  · exact refuse_works _ _ _
  split
  · exact refuse_works _ _ _
  · exact startRecovery_works _ _ _

theorem cancelled_works (s : State) (r : SlotRec) (q : Requester) : Works b s (s.cancelled r q) := by
  unfold State.cancelled
  dsimp only
  have removed : Works b s (s.removeTransition.reply r.requester (.refused .cancelled)) :=
    (removeTransition_works s).trans (reply_works _ _ _)
  split
  · exact ((removed.trans (setGood_works _)).trans (reply_works _ _ _)).trans (reexamine_works _)
  · exact (removed.trans (reply_works _ _ _)).trans (reexamine_works _)

theorem rowCancel_works (s : State) (q : Requester) (a : Authority) : Works b s (s.rowCancel q a) := by
  unfold State.rowCancel
  split
  · exact refuse_works _ _ _
  split
  · exact refuse_works _ _ _
  split
  · exact cancelled_works _ _ _
  split
  · unfold State.cancelAtIssue
    split
    · exact (useFree_works s).trans (cancelled_works _ _ _)
    · exact (useFree_works s).trans (refuse_works _ _ _)
  · exact refuse_works _ _ _

theorem row_works (s : State) (q : Requester) (a : Authority) (d : Directive) (h : d.Fits) :
    Works b s (s.row q a d) := by
  have plain : ∀ (c : Prop) [Decidable c] (p : Phase) (k : TransKind),
      Works b s (if c then s.request (.new p k q a none) else s.refuse q .illegalInPhase) := by
    intro c _ p k
    split
    · exact request_works_new _ _ _ _ _
    · exact refuse_works _ _ _
  cases d with
  | startCampaign => exact plain _ _ _
  | fill => exact plain _ _ _
  | bank => exact plain _ _ _
  | endCampaign => exact plain _ _ _
  | feed n => exact rowFeed_works s q a h
  | hold => exact rowHold_works s q a
  | resume => exact rowResume_works s q a
  | runOut d => exact rowRunOut_works s q a h
  | stopRunOut => exact rowStop_works s q a
  | drain => exact rowDrain_works s q a
  | trip =>
    change Works b s (s.rowTrip q)
    unfold State.rowTrip
    split
    · exact refuse_works _ _ _
    · exact (raiseCause_works _ _).trans (reply_works _ _ _)
  | clearTrip => exact rowClear_works s q
  | confirm =>
    change Works b s (s.rowConfirm q)
    unfold State.rowConfirm
    split
    · exact (confirmed_works s).trans (reply_works _ _ _)
    · exact refuse_works _ _ _
  | cancel => exact rowCancel_works s q a

theorem judgeKind_works (s : State) (q : Requester) (a : Authority) (d : Directive) (h : d.Fits) :
    Works b s (s.judgeKind q a d) := by
  unfold State.judgeKind
  split
  · exact refuse_works _ _ _
  split
  · exact refuse_works _ _ _
  · exact row_works s q a d h

theorem takeDirective_works (s : State) (src : Source) (d : Option Directive) (h : ∀ x, d = some x → x.Fits) :
    Works b s (s.takeDirective src d) := by
  unfold State.takeDirective
  split
  · split
    · unfold State.judgeLine
      split
      · exact refuse_works _ _ _
      · split
        · exact judgeKind_works _ _ _ _ (h _ rfl)
        · exact refuse_works _ _ _
    · exact .refl _
  · unfold State.judgePort
    split
    · exact refuse_works _ _ _
    · split
      · exact refuse_works _ _ _
      · exact judgeKind_works _ _ _ _ (h _ rfl)

theorem takeRaw_works (s : State) (raw : RawDirective) : Works b s (s.takeRaw raw) := by
  unfold State.takeRaw
  split
  · split
    · exact takeDirective_works _ _ _ fun x e => Directive.ofCode_fits e
    · exact .refl _
  · exact takeDirective_works _ _ _ fun x e => Directive.ofCode_fits e

/-! ### The expiries of chapter 1 -/

theorem dwellEnds_works (s : State) : Works b s s.dwellEnds := by
  refine Works.of_sound ?_
  have ended : Works s.Sound s (s.setPs { s.ps with dwell := none }) := setPs_works_same s _ rfl rfl
  unfold State.dwellEnds
  dsimp only
  split
  · rename_i r hr
    split
    · exact (ended.trans (toPrereq_works _ _ fun k => k.slotFits hr)).trans (notePending_works _)
    · exact ended
  · exact ended

theorem settleEnds_works (s : State) {r : SlotRec} (hr : s.ps.slot = some r) : Works b s (s.settleEnds r) := by
  have fits : s.Sound → r.Fits := fun k => k.slotFits hr
  refine Works.of_sound ?_
  exact (toPrereq_works s { r with settle := none } fits).trans (notePending_works _)

theorem prereqDeadline_works (s : State) {r : SlotRec} (hr : s.ps.slot = some r) : Works b s (s.prereqDeadline r) := by
  refine Works.of_sound ?_
  unfold State.prereqDeadline
  split
  · exact refuseTransition_works _ _ _ _
  · unfold State.deadlineInPrereq
    split
    · exact refuseTransition_works _ _ _ _
    · dsimp only; split
      · exact (((useFree_works s).trans (setWatches_works _ [])).trans
          (toClaim_works _ _ fun k => k.slotFits hr)).trans (notePending_works _)
      · exact (useFree_works s).trans (refuseTransition_works _ _ _ _)
  · exact .refl _

theorem holdMaximum_works (s : State) : Works b s s.holdMaximum := by
  have expired : Works b s (s.setPs { s.ps with
      holdMax := none, holdExpired := true, waiting := { s.ps.waiting with forced := true } }) :=
    setPs_works_same s _ rfl rfl
  unfold State.holdMaximum
  dsimp only
  split
  · exact expired.trans (reexamine_works _)
  · split
    · exact ((expired.trans (removeTransition_works _)).trans (reply_works _ _ _)).trans (reexamine_works _)
    · exact expired

theorem turnoverExpires_works (s : State) : Works b s s.turnoverExpires := by
  unfold State.turnoverExpires
  split
  · have restarted : Works b s (s.setPs { s.ps with turnover := some s.cs.set.tTurnover }) :=
      setPs_works_same s _ rfl rfl
    dsimp only; split
    · exact restarted
    · refine restarted.trans (Works.trans ?_ (arbitrate_works _))
      exact setSp_works _ _ fun _ k => { k.sp with }
  · refine Works.trans ?_ (raiseCause_works _ _)
    exact setPs_works_same s _ rfl rfl
  all_goals exact .refl _

theorem statusPeriod_works (s : State) : Works b s s.statusPeriod := by
  unfold State.statusPeriod
  refine Works.trans ?_ (markLong_works _)
  exact setLc_works s _ ⟨rfl, rfl, rfl⟩ fun k => { k with }

/-! ### The peer table (chapter 2) -/

theorem unheard_fits : PeerEntry.unheard.Fits where
  offer := Nat.zero_le _
  acceptance := Nat.zero_le _
  holdup := nofun
  chainPosition := nofun
  rank := nofun
  statusPeriod := nofun
  amounts x n := by simp [PeerEntry.unheard]

theorem setPeer_works (s : State) (a : Station) (e : PeerEntry) (h : b → s.Sound → e.Fits) :
    Works b s (s.setPeer a e) := by
  refine ⟨by rw [setPeer_eq]; exact .of_same rfl (.refl _), fun i k => ?_⟩
  have peers : ∀ x, ((s.setPeer a e).stored x).Fits := by
    intro x
    by_cases hx : x = a
    · subst hx
      by_cases h0 : x = 0
      · subst h0; exact unheard_fits
      · rw [setPeer_stored s x e h0]; exact h i k
    · rw [setPeer_stored_ne s a x e hx]; exact k.peers x
  rw [setPeer_eq] at peers ⊢
  exact { k with peers := peers }

theorem allotReport_works (s : State) (f : Resource → Bool) : Works b s (s.allotReport f) :=
  ((reportCells_works s f).trans (judgeStanding_works _)).trans (afterAllotment_works _ _)

theorem takeReport_works (s : State) (f : Resource → Bool) : Works b s (s.takeReport f) := by
  unfold State.takeReport
  split
  · dsimp only; split
    · exact (useFree_works s).trans ((allotReport_works _ _).trans (pollList_works _))
    · exact (useFree_works s).trans ((pollList_works _).trans (allotReport_works _ _))
  · exact (allotReport_works _ _).trans (pollList_works _)

theorem writePeer_works (s : State) (a : Station) (e : PeerEntry) (h : b → s.Sound → e.Fits) :
    Works b s (s.writePeer a e) := by
  unfold State.writePeer
  dsimp only; split
  · refine (setPeer_works s a e h).trans (Works.trans ?_ (takeReport_works _ _))
    exact setSp_works _ _ fun _ k => { k.sp with }
  · exact setPeer_works s a e h

theorem deliverPeer_works (s : State) (a : Station) (f : PeerEntry → Option PeerEntry)
    (h : ∀ e x, e.Fits → f e = some x → x.Fits) : Works b s (s.deliverPeer a f) := by
  unfold State.deliverPeer
  split
  · split
    · rename_i e he
      exact writePeer_works s a e fun _ k => h _ _ (k.peers a) he
    · exact .refl _
  · exact .refl _

theorem wordAt_le (p : List Byte) (k : Nat) : wordAt p k ≤ 65535 := word16_le _ _

theorem withStatus_fits {e : PeerEntry} (h : e.Fits) (q : Phase) (p : List Byte) (now : Nat) :
    (e.withStatus q p now).Fits :=
  { h with offer := min_le_left _ _, acceptance := min_le_left _ _ }

theorem takeLong_fits (now : Nat) (p : List Byte) (e x : PeerEntry) (h : e.Fits) (hx : e.takeLong now p = some x) :
    x.Fits := by
  unfold PeerEntry.takeLong at hx
  split at hx
  · cases hx
  split at hx
  · rename_i q cls _ _
    obtain ⟨c, _, rfl⟩ := Option.map_eq_some_iff.mp hx
    refine { withStatus_fits h q p now with
      holdup := fun n e => ?_, chainPosition := fun n e => ?_, rank := fun n e => ?_, statusPeriod := fun n e => ?_,
      amounts := fun x n e => ?_ }
    · cases e; exact wordAt_le _ _
    · cases e; unfold bitsOf; omega
    · cases e; unfold bitsOf; omega
    · cases e; unfold clamp; omega
    · simp only [PerRes.get_of] at e
      rcases e with e | e
      · cases e; exact min_le_left _ _
      · split at e <;> cases e
        exact min_le_left _ _
  · cases hx

theorem takeShort_fits (now : Nat) (p : List Byte) (e x : PeerEntry) (h : e.Fits) (hx : e.takeShort now p = some x) :
    x.Fits := by
  unfold PeerEntry.takeShort at hx
  split at hx
  · cases hx
  · obtain ⟨q, _, rfl⟩ := Option.map_eq_some_iff.mp hx
    exact { withStatus_fits h q p now with }

theorem takeHolding_fits (now : Nat) (p : List Byte) (e x : PeerEntry) (h : e.Fits)
    (hx : e.takeHolding now p = some x) : x.Fits := by
  unfold PeerEntry.takeHolding at hx
  split at hx
  · cases hx
  · obtain ⟨r, _, rfl⟩ := Option.map_eq_some_iff.mp hx
    refine { h with amounts := fun y n e => ?_ }
    by_cases hy : y = r
    · subst hy
      rcases e with e | e
      · rw [PerRes.get_set_self] at e; cases e; exact min_le_left _ _
      · exact h.amounts y n (.inr e)
    · rw [PerRes.get_set_ne _ _ hy] at e
      exact h.amounts y n e

theorem takeTrip_fits (now : Nat) (p : List Byte) (e x : PeerEntry) (h : e.Fits) (hx : e.takeTrip now p = some x) :
    x.Fits := by
  unfold PeerEntry.takeTrip at hx
  split at hx
  · cases hx
  · obtain ⟨r, _, rfl⟩ := Option.map_eq_some_iff.mp hx
    exact { h with }

theorem silence_fits {e : PeerEntry} (h : e.Fits) : e.silence.Fits :=
  { h with
    offer := Nat.zero_le _, acceptance := Nat.zero_le _
    amounts := fun x n e => by simp [PeerEntry.silence] at e }

/-! ### The configuration store (chapter 10) -/

theorem numberRange_le {i lo hi : Nat} (h : numberRange i = some (lo, hi)) : lo ≤ hi := by
  unfold numberRange at h
  split at h <;> cases h <;> omega

/-- An item with a range or a set is an item (R178). -/
theorem item_of_number {i : Nat} (h : (numberRange i).isSome ∨ (numberSet i).isSome) : 1 ≤ i ∧ i ≤ 111 := by
  unfold numberRange numberSet at h
  split at h <;> (try split at h) <;> simp_all

theorem range_xor_set {i : Nat} {x : Nat × Nat} {l : List Nat} (h : numberRange i = some x)
    (k : numberSet i = some l) : False := by
  unfold numberSet at k
  split at k
  iterate 3 simp [numberRange] at h
  cases k

/-- A storing keeps every item in its range or set (R178, R179). -/
theorem store_inRange {c : Settings} (h : c.InRange) {i : Nat} (hi : 1 ≤ i) (hi' : i ≤ 111) (v0 v1 v2 v3 v4 : Byte) :
    (c.store i v0 v1 v2 v3 v4).InRange := by
  intro k n hn
  have old : k ≠ i → 1 ≤ k ∧ k ≤ 111 → c.item k = .number n := fun hne hk =>
    (store_item_of_ne c v0 v1 v2 v3 v4 hi hi' hk.1 hk.2 hne) ▸ hn
  have new : k = i → Loads i v0 v1 v2 v3 v4 (.number n) := fun e => by
    subst e; rw [← hn]; exact store_item_self c v0 v1 v2 v3 v4 hi hi'
  refine ⟨fun lo up hr => ?_, fun l hs => ?_⟩
  · by_cases e : k = i
    · rcases new e with ⟨lo', up', hr', rfl⟩ | ⟨l, hs, _⟩
      · rw [← e, hr] at hr'
        cases hr'
        have := numberRange_le hr
        omega
      · exact (range_xor_set hr (e ▸ hs)).elim
    · exact (h k n (old e (item_of_number (.inl (by rw [hr]; rfl))))).1 lo up hr
  · by_cases e : k = i
    · rcases new e with ⟨lo', up', hr', _⟩ | ⟨l', hs', hm, _⟩
      · exact (range_xor_set hr' (e ▸ hs)).elim
      · rw [← e, hs] at hs'
        cases hs'
        exact hm
    · exact (h k n (old e (item_of_number (.inr (by rw [hs]; rfl))))).2 l hs

theorem setCs_works (s : State) (x : CS) (h : s.cs.set.InRange → x.set.InRange) : Works b s (s.setCs x) :=
  ⟨.of_same rfl (.refl _), fun _ k => { k with items := h k.items }⟩

theorem takeItem_works (s : State) (item v0 v1 v2 v3 v4 : Byte) : Works b s (s.takeItem item v0 v1 v2 v3 v4) := by
  unfold State.takeItem
  split
  · exact configResult_works _ _ _ _
  split
  · exact configResult_works _ _ _ _
  · rename_i h
    have named : ¬(item.toNat = 0 ∨ 111 < item.toNat) := by simpa using h
    refine Works.trans ?_ (configResult_works _ _ _ _)
    exact setCs_works s _ fun k => store_inRange k (by omega) (by omega) v0 v1 v2 v3 v4

theorem takeLock_works (s : State) : Works b s s.takeLock := by
  unfold State.takeLock
  split
  · exact configResult_works _ _ _ _
  · split
    · exact configResult_works _ _ _ _
    · refine Works.trans ?_ (configResult_works _ _ _ _)
      exact (setCs_works s { s.cs with locked := true } id).trans
        (setLc_works _ { s.lc with joined := false, statusTimer := some s.cs.set.statusPeriod, longDue := true }
          ⟨rfl, rfl, rfl⟩ fun k => { k with })

/-! ### The report (chapter 8) -/

theorem takeLookAhead_works (s : State) (f : Bool) : Works b s (s.takeLookAhead f) := by
  have noted : Works b s (s.setSp { s.sp with lookAhead := f }) := setSp_works _ _ fun _ k => { k.sp with }
  unfold State.takeLookAhead
  dsimp only; split
  · exact noted.trans (arbitrate_works _)
  · exact noted

theorem takeAcks_works (s : State) (l : List (Token × AckOutcome)) : Works b s (s.takeAcks l) :=
  Works.foldl _ (fun _ _ => (takeAck_works _ _ _).trans (publish_works _ _)) _ _

/-- The published offer and acceptance are in range (R65 to R68). -/
theorem State.Sound.published {s : State} (h : s.Sound) : s.offer ≤ 1000 ∧ s.acceptance ≤ 1000 := by
  constructor
  · unfold State.offer
    split
    · rename_i e
      exact (h.tu.held _ _ e).1
    · split
      · exact h.sp.rAck
      · exact Nat.zero_le _
  · unfold State.acceptance
    split
    · rename_i e
      exact (h.tu.held _ _ e).2
    · unfold State.ownAcceptance
      split
      iterate 3 exact min_le_left _ _
      exact Nat.zero_le _

theorem takeFreeze_works (s : State) (f : Bool) : Works b s (s.takeFreeze f) := by
  unfold State.takeFreeze
  split
  · unfold State.freezes
    exact ((setPs_works_same s { s.ps with frozen := true, freezeMax := some s.cs.set.tFreezeMax } rfl rfl).trans
      (setTu_works _ { s.tu with held := some (s.offer, s.acceptance) }
        fun _ k => { k.tu with held := fun o a e => by cases e; exact k.published })).trans (setWatches_works _ [])
  split
  · unfold State.thaws
    dsimp only
    refine Works.trans (Works.trans ?_ (resumeSlot_works _)) (reexamine_works _)
    exact (setPs_works_same s { s.ps with frozen := false, freezeMax := none } rfl rfl).trans
      (setTu_works _ { s.tu with held := none } fun _ k => { k.tu with held := fun _ _ => nofun })
  · exact .refl _

theorem takeSelfTurnover_works (s : State) (f : Bool) : Works b s (s.takeSelfTurnover f) := by
  unfold State.takeSelfTurnover
  split
  · split
    iterate 2 exact setPs_works_same s _ rfl rfl
    all_goals exact .refl _
  · exact .refl _

theorem takeTripRequest_works (s : State) (f : Bool) : Works b s (s.takeTripRequest f) := by
  have noted : Works b s (s.setTr { s.tr with memory := f }) := setTr_works_record s _ rfl
  unfold State.takeTripRequest
  dsimp only; split
  · exact noted.trans (raiseCause_works _ _)
  · exact noted

theorem takeHoldup_works (s : State) {n : Nat} (h : n ≤ 65535) : Works b s (s.takeHoldup n) := by
  unfold State.takeHoldup
  dsimp only
  refine (setTu_works s { s.tu with
    holdup := n * 60
    mismatch := mismatches s.cs.set s.tu.holdup n
    runoutDone := s.tu.runoutDone && !(decide (s.ps.phase = .runOut) && decide (s.cs.set.hDr * 60 < n * 60)) }
    fun _ k => { k.tu with holdup := ?_ }).trans (setPs_works_same _ { s.ps with
      drainReading := if s.ps.phase = .draining then some n else s.ps.drainReading } rfl rfl)
  simp only
  omega

theorem capacityChanged_works (s : State) (r : Resource) : Works b s (s.capacityChanged r) := by
  unfold State.capacityChanged
  dsimp only
  refine Works.trans ?_ (allotReport_works _ _)
  split
  · exact markLong_works _
  · exact .refl _

/-- One resource's reading written. -/
theorem setReading_works (s : State) (r : Resource) {n : Nat} (h : n ≤ 4000) :
    Works b s (s.setAu { s.au with res := s.au.res.set r { s.au.res.get r with reading := some n } }) := by
  have e : s.setAu { s.au with res := s.au.res.set r { s.au.res.get r with reading := some n } }
      = s.setCell r { s.cell r with a := { (s.cell r).a with reading := some n } } := by
    have same : s.lc.allot.set r (s.lc.allot.get r) = s.lc.allot := by cases r <;> rfl
    simp only [State.setCell, State.cell, same]
    rfl
  rw [e]
  exact setCell_works s r _ (.aside rfl rfl) fun k => { k with reading := fun m e => by cases e; exact h }

theorem takeCapacity_works (s : State) (c : Byte) (n : Nat) : Works b s (s.takeCapacity c n) := by
  unfold State.takeCapacity
  split
  · rename_i r _
    split
    · have read : Works b s _ := setReading_works s r (min_le_left 4000 n)
      dsimp only; split
      · exact read
      · exact read.trans (capacityChanged_works _ _)
    · exact .refl _
  · exact .refl _

theorem noteReport_works (s : State) (f : ReportFlags) : Works b s (s.noteReport f) :=
  setSp_works _ _ fun _ k => { k.sp with }

theorem takeFlags_works (s : State) (r : Report) : Works b s (s.takeFlags r) := by
  unfold State.takeFlags
  dsimp only
  exact (((((((noteReport_works s r.flags).trans (takeLookAhead_works _ _)).trans (publish_works _ _)).trans
    (takeAcks_works _ _)).trans ((takeFreeze_works _ _).trans (publish_works _ _))).trans
    ((testCompletion_works _).trans ((takeSelfTurnover_works _ _).trans (publish_works _ _)))).trans
    ((takeTripRequest_works _ _).trans (publish_works _ _)))

theorem part_works {α : Type} (s : State) (f : State → α → State) (o : Option α)
    (h : ∀ x, o = some x → Works b s (f s x)) : Works b s (s.part f o) := by
  unfold State.part
  split
  · exact (h _ rfl).trans (publish_works _ _)
  · exact .refl _

/-- A report's holdup reading is a 16-bit field (11.3). -/
theorem fieldsOf_holdup {flags header : Byte} {l : List Byte} {r : Report} (h : fieldsOf flags header l = some r) :
    ∀ n, r.holdup = some n → n ≤ 65535 := by
  unfold fieldsOf at h
  simp only [Option.bind_eq_bind] at h
  split at h
  · cases h
  obtain ⟨⟨a, l1⟩, _, h⟩ := Option.bind_eq_some_iff.mp h
  obtain ⟨acks, _, h⟩ := Option.bind_eq_some_iff.mp h
  obtain ⟨⟨holdup, l2⟩, hh, h⟩ := Option.bind_eq_some_iff.mp h
  obtain ⟨⟨capacity, l3⟩, _, h⟩ := Option.bind_eq_some_iff.mp h
  obtain ⟨⟨directive, l4⟩, _, h⟩ := Option.bind_eq_some_iff.mp h
  obtain ⟨⟨config, l5⟩, _, h⟩ := Option.bind_eq_some_iff.mp h
  split at h <;> cases h
  intro n hn
  simp only at hn
  subst hn
  unfold optionalField at hh
  split at hh
  · obtain ⟨⟨f, rest⟩, _, e⟩ := Option.map_eq_some_iff.mp hh
    cases e
    exact wordAt_le _ _
  · cases hh

theorem parseReport_holdup {bytes : List Byte} {r : Report} (h : parseReport bytes = some r) :
    ∀ n, r.holdup = some n → n ≤ 65535 := by
  unfold parseReport at h
  dsimp only at h
  split at h
  · cases h
  split at h
  · cases h
  · exact fieldsOf_holdup h

theorem takeReadings_works (s : State) (r : Report) (h : ∀ n, r.holdup = some n → n ≤ 65535) :
    Works b s (s.takeReadings r) := by
  unfold State.takeReadings
  split
  · exact (part_works s _ _ fun n hn => takeHoldup_works s (h n hn)).trans
      (part_works _ _ _ fun c _ => takeCapacity_works _ c.1 c.2)
  · exact .refl _

theorem startExchange_works (s : State) : Works b s s.startExchange := by
  unfold State.startExchange; split
  · exact .refl _
  · exact setSp_works _ _ fun _ k => { k.sp with }

theorem endExchange_works (s : State) : Works b s s.endExchange := setSp_works _ _ fun _ k => { k.sp with }

theorem noteSeen_works (s : State) (x : Option Exchange) : Works b s (s.noteSeen x) := by
  unfold State.noteSeen; split
  · exact setSp_works _ _ fun _ k => { k.sp with }
  · exact .refl _

theorem lineError_works (s : State) : Works b s s.lineError :=
  setLc_works _ _ ⟨rfl, rfl, rfl⟩ fun k => { k with lineErrors := min_le_left _ _ }

end

end Sys2Proof.Machine
end

section
/-!
SUPPORT. The two invariants of the allotment unit, resource by resource, through the moves of a cell (4.3, 4.4).
-/

namespace Sys2Proof.Machine

/-! ### The invariants of the claims and the releases, resource by resource -/

/-- The frame of a resource that the line carries. -/
def State.carried (s : State) (x : Resource) : Option AllotFrame :=
  match s.lc.tx with
  | some ⟨_, .allot r f, true, _⟩ => if r = x then some f else none
  | _ => none

/-- What ClaimsFit says of one resource, by the frame of it that the line carries and by the line state. -/
structure Cell.ClaimFits (carried : Option AllotFrame) (active : Bool) (c : Cell) : Prop where
  slot : ∀ v, c.slot = some (.claim v) →
    (c.a.engine = .reserved ∨ c.a.engine = .sending) ∧ c.a.claimValue = some v
  engine : c.a.engine = .reserved ∨ c.a.engine = .sending → ∃ v, c.slot = some (.claim v)
  fits : ∀ v, c.a.claimValue = some v →
    (c.a.engine = .reserved ∨ c.a.engine = .sending) ∧ v ≤ 4000
      ∧ c.a.tally.others + v ≤ c.a.tally.capacity ∧ c.a.tally.unknown = false
  sending : c.a.engine = .sending ↔ ∃ v, carried = some (.claim v)
  begun : ∀ f, carried = some f → c.slot = some f
  isolated : active = false → c.a.engine = .suspended ∧ c.slot = none

/-- What ReleasesPlaced says of one resource. -/
def Cell.ReleaseFits (begun active : Bool) (c : Cell) : Prop :=
  active = true → begun = false → c.a.engine ≠ .reserved → c.a.engine ≠ .sending → c.a.announced ≠ c.a.holding →
    c.slot = some (.release c.a.holding)

/-- A frame of an allotment slot on the line is that slot's. -/
def LC.FrameOfSlot (l : LC) : Prop := ∀ y x, l.tx = some y → (y.slot = .allot x ↔ ∃ f, y.frame = .allot x f)

theorem carried_eq_some {s : State} {x : Resource} {f : AllotFrame} :
    s.carried x = some f ↔ ∃ y, s.lc.tx = some y ∧ y.begun = true ∧ y.frame = .allot x f := by
  unfold State.carried
  rcases s.lc.tx with _ | ⟨k, g, u, o⟩
  · simp
  · cases g <;> cases u <;> simp

theorem active_false {l : LineState} : decide (l = .active) = false ↔ l = .isolated := by cases l <;> simp

theorem active_true {l : LineState} : decide (l = .active) = true ↔ l = .active := by simp

theorem claimsFit_iff (s : State) :
    s.ClaimsFit ↔ s.lc.FrameOfSlot
      ∧ ∀ x, (s.cell x).ClaimFits (s.carried x) (decide (s.lc.line = .active)) := by
  have sent : ∀ x, (∃ v, s.carried x = some (.claim v))
      ↔ ∃ y v, s.lc.tx = some y ∧ y.begun = true ∧ y.frame = .allot x (.claim v) := by
    intro x
    simp only [carried_eq_some]
    exact exists_comm
  constructor
  · intro h
    exact ⟨h.line, fun x => ⟨h.slot x, h.engine x, h.fits x, (h.sending x).trans (sent x).symm,
      fun f hf => by
        obtain ⟨y, h1, h2, h3⟩ := carried_eq_some.mp hf
        exact h.begun y x f h1 h2 h3,
      fun ha => h.isolated (active_false.mp ha) x⟩⟩
  · rintro ⟨hl, h⟩
    exact ⟨fun x => (h x).slot, fun x => (h x).engine, fun x => (h x).fits,
      fun x => (h x).sending.trans (sent x), hl,
      fun y x f h1 h2 h3 => (h x).begun f (carried_eq_some.mpr ⟨y, h1, h2, h3⟩),
      fun ha x => (h x).isolated (active_false.mpr ha)⟩

theorem releasesPlaced_iff (s : State) :
    s.ReleasesPlaced ↔ ∀ x, (s.cell x).ReleaseFits (s.allotBegun x) (decide (s.lc.line = .active)) := by
  unfold State.ReleasesPlaced Cell.ReleaseFits
  simp only [active_true]
  rfl

/-- The frame in transmission of a resource's slot is the one that the line carries. -/
theorem allotBegun_eq {s : State} (h : s.lc.FrameOfSlot) (x : Resource) :
    s.allotBegun x = (s.carried x).isSome := by
  unfold State.allotBegun State.carried
  cases e : s.lc.tx with
  | none => rfl
  | some y =>
    have k := h y x e
    obtain ⟨slot, frame, begun, after⟩ := y
    cases begun with
    | false => cases frame <;> simp
    | true =>
      simp only at k
      cases frame with
      | allot r f =>
        by_cases hr : r = x
        · subst hr
          simp [k.mpr ⟨f, rfl⟩]
        · have : slot ≠ .allot x := fun hs => by
            obtain ⟨g, hg⟩ := k.mp hs
            cases hg; exact hr rfl
          simp [hr, this]
      | tripNotice c | message m | status n =>
        have : slot ≠ .allot x := fun hs => by
          obtain ⟨g, hg⟩ := k.mp hs
          cases hg
        simp [this]

/-! ### What a cell's own moves keep -/

section
variable {line : Option AllotFrame} {active : Bool} {c : Cell}

/-- Only the engine, the claim, the tallies and the slot matter to the claims. -/
theorem Cell.ClaimFits.congr {d : Cell} (h : c.ClaimFits line active) (he : d.a.engine = c.a.engine)
    (hv : d.a.claimValue = c.a.claimValue) (ht : d.a.tally = c.a.tally) (hs : d.slot = c.slot) :
    d.ClaimFits line active where
  slot := by rw [he, hv, hs]; exact h.slot
  engine := by rw [he, hs]; exact h.engine
  fits := by rw [he, hv, ht]; exact h.fits
  sending := by rw [he]; exact h.sending
  begun := by rw [hs]; exact h.begun
  isolated := by rw [he, hs]; exact h.isolated

theorem Cell.ClaimFits.active_of_reserved (h : c.ClaimFits line active) (he : c.a.engine = .reserved) :
    active = true := by
  cases active with
  | true => rfl
  | false =>
    have := (h.isolated rfl).1
    rw [he] at this; cases this

/-- While RESERVED the line carries no frame of the resource. -/
theorem Cell.ClaimFits.carries_none (h : c.ClaimFits line active) (he : c.a.engine = .reserved) : line = none := by
  cases e : line with
  | none => rfl
  | some f =>
    obtain ⟨v, hv⟩ := h.engine (.inl he)
    have hf := h.begun f e
    rw [hv] at hf
    cases hf
    have := h.sending.mpr ⟨v, e⟩
    rw [he] at this; cases this

theorem Cell.ClaimFits.withdraw (h : c.ClaimFits line active) (he : c.a.engine = .reserved) :
    c.withdraw.ClaimFits line active := by
  have hl := h.carries_none he
  have ha := h.active_of_reserved he
  subst hl; subst ha
  exact ⟨nofun, by simp [Cell.withdraw], nofun, by simp [Cell.withdraw], nofun, nofun⟩

theorem Cell.ClaimFits.withdrawBelow (h : c.ClaimFits line active) (v : CellView) :
    (c.withdrawBelow v).ClaimFits line active := by
  unfold Cell.withdrawBelow; split
  · rename_i e
    exact h.withdraw e.1
  · exact h

/-- An engine that is IDLE or WAITING has no claim, and the line is ACTIVE. -/
theorem Cell.ClaimFits.of_evaluating (h : c.ClaimFits line active) (he : c.a.engine = .idle ∨ c.a.engine = .waiting) :
    c.a.claimValue = none ∧ (∀ v, c.slot ≠ some (.claim v)) ∧ active = true ∧ ∀ v, line ≠ some (.claim v) := by
  have none : ¬(c.a.engine = .reserved ∨ c.a.engine = .sending) := by rcases he with e | e <;> simp [e]
  refine ⟨?_, fun v hv => none (h.slot v hv).1, ?_, fun v hv => none (.inr (h.sending.mpr ⟨v, hv⟩))⟩
  · cases e : c.a.claimValue with
    | none => rfl
    | some v => exact (none (h.fits v e).1).elim
  · cases ha : active with
    | true => rfl
    | false =>
      have := (h.isolated ha).1
      rcases he with e | e <;> rw [e] at this <;> cases this

theorem Cell.ClaimFits.evaluate (h : c.ClaimFits line active) (v : CellView) (hv : v.target ≤ 4000)
    (hb : v.begun = line.isSome) : (c.evaluate v).ClaimFits line active := by
  unfold Cell.evaluate
  split
  · rename_i he
    obtain ⟨hn, hs, ha, hl⟩ := h.of_evaluating he
    subst ha
    -- an engine that is, and stays, without a claim
    have still : ∀ e : Engine, e ≠ .reserved → e ≠ .sending →
        Cell.ClaimFits line true { c with a := { c.a with engine := e } } := fun e h1 h2 =>
      ⟨fun v hv => (hs v hv).elim, fun k => by rcases k with k | k; exacts [(h1 k).elim, (h2 k).elim],
        fun v hv => by simp [hn] at hv, ⟨fun k => (h2 k).elim, fun ⟨v, k⟩ => (hl v k).elim⟩, h.begun, nofun⟩
    split
    · exact still .idle nofun nofun
    split
    · exact still .waiting nofun nofun
    · rename_i k
      simp only [Bool.or_eq_true, decide_eq_true_eq, not_or, Bool.not_eq_true] at k
      obtain ⟨⟨ku, kb⟩, km⟩ := k
      have hline : line = none := by
        rw [hb] at kb
        cases line with
        | none => rfl
        | some _ => cases kb
      subst hline
      have room : c.a.tally.others + c.claimable v ≤ c.a.tally.capacity := by unfold Cell.claimable at km ⊢; omega
      have small : c.claimable v ≤ 4000 := (min_le_left _ _).trans hv
      refine ⟨fun w e => ⟨.inl rfl, ?_⟩, fun _ => ⟨_, rfl⟩, fun w e => ?_, by simp, nofun, nofun⟩
      · cases e; rfl
      · cases e; exact ⟨.inl rfl, small, room, ku⟩
  · exact h

theorem Cell.ClaimFits.judgeRelease (h : c.ClaimFits line active) (v : CellView) (hb : v.begun = line.isSome)
    (ha : v.active = active) : (c.judgeRelease v).ClaimFits line active := by
  unfold Cell.judgeRelease
  split
  · rename_i k
    simp only [Cell.releaseDue, Bool.and_eq_true, decide_eq_true_eq, Bool.not_eq_true'] at k
    obtain ⟨⟨⟨⟨_, k2⟩, k3⟩, k4⟩, k5⟩ := k
    have none : ¬(c.a.engine = .reserved ∨ c.a.engine = .sending) := by simp_all
    have hline : line = .none := by rw [hb] at k5; simpa using k5
    refine ⟨nofun, fun k => (none k).elim, h.fits, h.sending, ?_, ?_⟩
    · rw [hline]; nofun
    · intro e; rw [← ha, k4] at e; cases e
  · exact h

theorem Cell.ClaimFits.shed (h : c.ClaimFits line active) (n : Nat) : (c.shed n).ClaimFits line active := by
  unfold Cell.shed; split
  · exact h
  · exact h.congr rfl rfl rfl rfl

/-- New tallies are taken where a claim gives way to worse ones (R83). -/
theorem Cell.ClaimFits.report (h : c.ClaimFits none active) (v : CellView) (hv : v.target ≤ 4000)
    (hb : v.begun = false) (ha : v.active = active) (new : Tally) (before : Nat) :
    (c.report v new before).ClaimFits none active := by
  have rest : ∀ d : Cell, d.ClaimFits none active →
      (((d.shed before).evaluate v).judgeRelease v).ClaimFits none active := fun d hd =>
    ((hd.shed before).evaluate v hv hb).judgeRelease v hb ha
  have notSending : c.a.engine ≠ .sending := fun e => by
    obtain ⟨_, k⟩ := h.sending.mp e
    cases k
  unfold Cell.report
  dsimp only
  apply rest
  by_cases he : c.a.engine = .reserved
  · have hact := h.active_of_reserved he
    subst hact
    by_cases hw : new.worsens c.a.tally
    · rw [if_pos ⟨he, hw⟩]
      exact ⟨nofun, by simp [Cell.withdraw], nofun, by simp [Cell.withdraw], nofun, nofun⟩
    · rw [if_neg fun k => hw k.2]
      simp only [Tally.worsens, Bool.or_eq_true, decide_eq_true_eq, Bool.and_eq_true, Bool.not_eq_true', not_or,
        not_and, Bool.not_eq_false] at hw
      obtain ⟨⟨h1, h2⟩, h3⟩ := hw
      refine ⟨h.slot, h.engine, fun w e => ?_, h.sending, h.begun, nofun⟩
      obtain ⟨e1, e2, e3, e4⟩ := h.fits w e
      refine ⟨e1, e2, ?_, ?_⟩
      · simp only; omega
      · cases hu : new.unknown with
        | false => rfl
        | true => rw [h3 hu] at e4; cases e4
  · rw [if_neg fun k => he k.1]
    exact ⟨h.slot, h.engine, fun w e => (h.fits w e).1.elim (fun k => (he k).elim) (fun k => (notSending k).elim),
      h.sending, h.begun, h.isolated⟩

theorem Cell.ClaimFits.refresh (h : c.ClaimFits line active) (v : CellView) (hv : v.target ≤ 4000)
    (hb : v.begun = line.isSome) (ha : v.active = active) (new : Tally) (before : Nat) :
    (c.refresh v new before).ClaimFits line active := by
  have capped : (c.capToTarget v).ClaimFits line active := h.congr rfl rfl rfl rfl
  have hr : (c.retarget v).ClaimFits line active :=
    ((capped.withdrawBelow v).evaluate v hv hb).judgeRelease v hb ha
  unfold Cell.refresh Cell.ownReport
  split
  · exact hr
  split
  · exact hr.congr rfl rfl rfl rfl
  · rename_i k
    have hline : line = none := by rw [hb] at k; simpa using k
    subst hline
    exact hr.report v hv hb ha new before

theorem Cell.ClaimFits.afterOutcome (h : c.ClaimFits none active) (v : CellView) (hv : v.target ≤ 4000)
    (hb : v.begun = false) (ha : v.active = active) (new : Tally) (before : Nat) :
    (c.afterOutcome v new before).ClaimFits none active := by
  unfold Cell.afterOutcome; split
  · exact h.report v hv hb ha new before
  · exact (h.evaluate v hv hb).judgeRelease v hb ha

/-- The allotment unit's own work keeps a claim within its headroom. -/
theorem Cell.ClaimFits.moves {d : Cell} (m : Cell.Moves line.isSome active c d) (h : c.ClaimFits line active) :
    d.ClaimFits line active := by
  induction m with
  | aside ha hs => rw [Allot.mk.injEq] at ha; exact h.congr ha.2.2.1 ha.2.2.2.1 ha.2.2.2.2.2.2.2.2 hs
  | refresh target new before ht => exact h.refresh _ ht rfl rfl new before
  | report target new before ht hb =>
    have hline : line = none := by simpa using hb
    subst hline
    exact h.report _ ht rfl rfl new before
  | outcome target new before ht hb =>
    have hline : line = none := by simpa using hb
    subst hline
    exact h.afterOutcome _ ht rfl rfl new before
  | trans _ _ ih1 ih2 => exact ih2 (ih1 h)

/-- A judgement of the release leaves one in the slot where it is due (R86). -/
theorem Cell.judgeRelease_fits (v : CellView) (c : Cell) : (c.judgeRelease v).ReleaseFits v.begun v.active := by
  intro ha hb h1 h2 h3
  simp only [Cell.judgeRelease_a] at h1 h2 h3 ⊢
  have due : (c.releaseDue v && !v.begun) = true := by simp [Cell.releaseDue, h1, h2, h3, ha, hb]
  simp [Cell.judgeRelease, due]

theorem Cell.report_releaseFits (v : CellView) (new : Tally) (before : Nat) (c : Cell) :
    (c.report v new before).ReleaseFits v.begun v.active := Cell.judgeRelease_fits v _

theorem Cell.afterOutcome_releaseFits (v : CellView) (new : Tally) (before : Nat) (c : Cell) :
    (c.afterOutcome v new before).ReleaseFits v.begun v.active := by
  unfold Cell.afterOutcome; split
  · exact Cell.report_releaseFits _ _ _ _
  · exact Cell.judgeRelease_fits _ _

theorem Cell.refresh_releaseFits (v : CellView) (new : Tally) (before : Nat) (c : Cell) :
    (c.refresh v new before).ReleaseFits v.begun v.active := by
  unfold Cell.refresh Cell.ownReport
  split
  · exact Cell.judgeRelease_fits _ _
  split
  · rename_i hb
    intro _ k
    rw [hb] at k; cases k
  · exact Cell.report_releaseFits _ _ _ _

/-- The allotment unit's own work keeps a RELEASE that is due in its slot. -/
theorem Cell.ReleaseFits.moves {begun : Bool} {d : Cell} (m : Cell.Moves begun active c d)
    (h : c.ReleaseFits begun active) : d.ReleaseFits begun active := by
  induction m with
  | aside ha hs =>
    rw [Allot.mk.injEq] at ha
    obtain ⟨h1, _, h3, _, h5, _⟩ := ha
    unfold Cell.ReleaseFits
    rw [h1, h3, h5, hs]
    exact h
  | refresh target new before _ => exact Cell.refresh_releaseFits ⟨target, begun, active⟩ new before _
  | report target new before _ _ => exact Cell.report_releaseFits ⟨target, begun, active⟩ new before _
  | outcome target new before _ _ => exact Cell.afterOutcome_releaseFits ⟨target, begun, active⟩ new before _
  | trans _ _ ih1 ih2 => exact ih2 (ih1 h)

end

/-! ### The invariants through an operation -/

theorem carried_onLine {s t : State} (h : t.lc.tx.map Tx.onLine = s.lc.tx.map Tx.onLine) (x : Resource) :
    t.carried x = s.carried x := by
  unfold State.carried
  cases hs : s.lc.tx <;> cases ht : t.lc.tx <;> rw [hs, ht] at h <;>
    simp only [Option.map_none, Option.map_some, Option.some.injEq, reduceCtorEq, Tx.onLine, Prod.mk.injEq] at h ⊢
  rename_i y z
  obtain ⟨k, f, u, o⟩ := y
  obtain ⟨k', f', u', o'⟩ := z
  obtain ⟨rfl, rfl, rfl⟩ := h
  cases f' <;> cases u' <;> rfl

theorem LC.FrameOfSlot.onLine {l m : LC} (h : l.FrameOfSlot) (e : m.tx.map Tx.onLine = l.tx.map Tx.onLine) :
    m.FrameOfSlot := by
  intro y x hy
  rw [hy, Option.map_some] at e
  obtain ⟨z, hz, hzy⟩ := Option.map_eq_some_iff.mp e.symm
  simp only [Tx.onLine, Prod.mk.injEq] at hzy
  obtain ⟨h1, h2, _⟩ := hzy
  rw [← h1, ← h2]
  exact h z x hz

theorem CellsMove.claimsFit {s t : State} (m : CellsMove s t) (h : s.ClaimsFit) : t.ClaimsFit := by
  obtain ⟨hl, hc⟩ := (claimsFit_iff s).mp h
  refine (claimsFit_iff t).mpr ⟨hl.onLine m.tx, fun x => ?_⟩
  rw [carried_onLine m.tx, m.line]
  refine (hc x).moves ?_
  rw [← allotBegun_eq hl]
  exact m.cell x

/-- A RELEASE of one resource that is due stands in its slot. -/
def State.ReleaseAt (s : State) (x : Resource) : Prop :=
  (s.cell x).ReleaseFits (s.allotBegun x) (decide (s.lc.line = .active))

theorem CellsMove.releaseAt {s t : State} (m : CellsMove s t) {x : Resource} (h : s.ReleaseAt x) : t.ReleaseAt x := by
  unfold State.ReleaseAt
  rw [allotBegun_onLine m.tx, m.line]
  exact h.moves (m.cell x)

theorem CellsMove.releasesPlaced {s t : State} (m : CellsMove s t) (h : s.ReleasesPlaced) : t.ReleasesPlaced :=
  (releasesPlaced_iff t).mpr fun x => m.releaseAt ((releasesPlaced_iff s).mp h x)

end Sys2Proof.Machine
end

section
/-!
SUPPORT. The node's own frames until their outcome (9.2): the offer, the beginning, and what follows an allotment's outcome.
-/

namespace Sys2Proof.Machine

/-! ### The node's own frames (chapter 9) -/

/-- An event keeps the ranges and the two invariants of the claims and the releases. -/
structure Keeps (s t : State) : Prop where
  sound : s.Sound → t.Sound
  claims : s.ClaimsFit → t.ClaimsFit
  releases : s.ClaimsFit → s.ReleasesPlaced → t.ReleasesPlaced

theorem Keeps.trans {s t u : State} (h : Keeps s t) (k : Keeps t u) : Keeps s u :=
  ⟨fun x => k.sound (h.sound x), fun x => k.claims (h.claims x), fun x y => k.releases (h.claims x) (h.releases x y)⟩

theorem Works.keeps {s t : State} (h : Works True s t) : Keeps s t :=
  ⟨h.ranges, h.moves.claimsFit, fun _ => h.moves.releasesPlaced⟩

theorem Keeps.refl (s : State) : Keeps s s := ⟨id, id, fun _ => id⟩

theorem carried_of_none {s : State} (h : s.lc.tx = none) (x : Resource) : s.carried x = none := by
  unfold State.carried; rw [h]

theorem allotBegun_of_none {s : State} (h : s.lc.tx = none) (x : Resource) : s.allotBegun x = false := by
  unfold State.allotBegun; rw [h]

theorem frameOfSlot_of_none {l : LC} (h : l.tx = none) : l.FrameOfSlot := fun y x hy => by rw [h] at hy; cases hy

/-- The line controller written, its slots and its line state apart, where no allotment frame is in transmission before
or after. -/
theorem keeps_uncarried (s : State) (x : LC) (hl : x.line = s.lc.line) (ha : x.allot = s.lc.allot)
    (hs : s.ClaimsFit → ∀ r, s.carried r = none)
    (hx : s.ClaimsFit → x.FrameOfSlot ∧ ∀ r, (s.setLc x).carried r = none) (hf : s.Sound → x.Fits) :
    Keeps s (s.setLc x) := by
  have cell : ∀ r, (s.setLc x).cell r = s.cell r := fun r => by simp only [State.cell, State.setLc_au, State.setLc_lc, ha]
  refine ⟨fun k => { k with lc := hf k, cells := fun r => cell r ▸ k.cells r }, fun k => ?_, fun k h => ?_⟩
  · obtain ⟨_, hc⟩ := (claimsFit_iff s).mp k
    refine (claimsFit_iff _).mpr ⟨(hx k).1, fun r => ?_⟩
    have := hc r
    rw [hs k r] at this
    rw [(hx k).2 r, cell, State.setLc_lc, hl]
    exact this
  · refine (releasesPlaced_iff _).mpr fun r => ?_
    have := (releasesPlaced_iff s).mp h r
    rw [allotBegun_eq ((claimsFit_iff s).mp k).1, hs k r] at this
    rw [allotBegun_eq (hx k).1, (hx k).2 r, cell, State.setLc_lc, hl]
    exact this

/-- The line cleared where no allotment frame is in transmission. -/
theorem keeps_cleared (s : State) (x : LC) (hl : x.line = s.lc.line) (ha : x.allot = s.lc.allot) (ht : x.tx = none)
    (hs : s.ClaimsFit → ∀ r, s.carried r = none) (hf : s.Sound → x.Fits) : Keeps s (s.setLc x) :=
  keeps_uncarried s x hl ha hs (fun _ => ⟨frameOfSlot_of_none ht, carried_of_none ht⟩) hf

/-- The frame on the line replaced. -/
theorem LC.Fits.carrying {l : LC} (h : l.Fits) {o : Option Tx} (ho : ∀ y, o = some y → y.frame.Fits) :
    LC.Fits { l with tx := o } := { h with frame := ho }

theorem LC.Fits.cleared {l : LC} (h : l.Fits) : LC.Fits { l with tx := none } := h.carrying fun _ hy => by cases hy

theorem carried_unbegun {s : State} {y : Tx} (h : s.lc.tx = some y) (hb : y.begun = false) (r : Resource) :
    s.carried r = none := by
  unfold State.carried
  obtain ⟨k, f, u, o⟩ := y
  simp only at hb
  subst hb
  rw [h]
  cases f <;> rfl

/-- A frame that is not an allotment's. -/
theorem carried_other {s : State} {y : Tx} (h : s.lc.tx = some y) (hf : ∀ r f, y.frame ≠ .allot r f) (r : Resource) :
    s.carried r = none := by
  cases e : s.carried r with
  | none => rfl
  | some f =>
    obtain ⟨z, hz, _, k⟩ := carried_eq_some.mp e
    rw [h] at hz
    cases hz
    exact (hf r f k).elim

/-- While ISOLATED the line carries no allotment frame. -/
theorem carried_isolated {s : State} (h : s.ClaimsFit) (hi : s.lc.line = .isolated) (r : Resource) :
    s.carried r = none := by
  have hr := ((claimsFit_iff s).mp h).2 r
  cases e : s.carried r with
  | none => rfl
  | some f =>
    have := hr.begun f e
    rw [(hr.isolated (active_false.mpr hi)).2] at this
    cases this

/-! #### The offer -/

/-- A waiting frame of a slot is that slot's. -/
theorem frameIn_slot {l : LC} {k : TxSlot} {f : Frame} (h : l.frameIn k = some f) (x : Resource) :
    k = .allot x ↔ ∃ g, f = .allot x g := by
  cases k with
  | trip | allot r | fifo =>
    obtain ⟨g, _, rfl⟩ := Option.map_eq_some_iff.mp h
    simp
  | status => cases h

/-- A waiting frame is in range. -/
theorem frameIn_fits {s : State} (h : s.Sound) {k : TxSlot} {f : Frame} (hf : s.lc.frameIn k = some f) : f.Fits := by
  cases k with
  | trip | fifo =>
    obtain ⟨g, _, rfl⟩ := Option.map_eq_some_iff.mp hf
    trivial
  | allot r =>
    obtain ⟨g, hg, rfl⟩ := Option.map_eq_some_iff.mp hf
    cases g with
    | claim v => exact (h.cells r).claim v hg
    | release v => exact (h.cells r).release v hg
  | status => cases hf

theorem compose_fits {s : State} (h : s.Sound) (long : Bool) : (Frame.status (s.compose long)).Fits := by
  refine ⟨h.published.1, h.published.2, fun x => ⟨?_, ?_⟩⟩
  · simp only [State.compose, PerRes.get_of]
    exact (h.cells x).holding
  · simp only [State.compose, PerRes.get_of, State.publishedCapacity]
    split
    · cases e : (s.au.res.get x).reading with
      | none => exact Nat.zero_le _
      | some n => exact (h.cells x).reading n e
    · exact Nat.zero_le _

/-- What the arbiter offers is a slot's own frame, or a notice composed now (R169). -/
theorem arbiterOffer_cases {s : State} {k : TxSlot} {f : Frame} (h : s.arbiterOffer = some (k, f)) :
    s.lc.frameIn k = some f ∨ (k = .status ∧ ∃ long, f = .status (s.compose long)) := by
  have status : ∀ {o : Option (TxSlot × Frame)}, o = some (k, f) → (∀ z, o = some z →
      z.1 = .status ∧ ∃ long, z.2 = .status (s.compose long)) → k = .status ∧ ∃ long, f = .status (s.compose long) :=
    fun e k => k _ e
  unfold State.arbiterOffer at h
  split at h
  · split at h <;> cases h
    exact .inr ⟨rfl, _, rfl⟩
  · split at h
    · rename_i o ho
      cases h
      obtain ⟨z, _, hz⟩ := List.exists_of_findSome?_eq_some ho
      obtain ⟨g, hg, e⟩ := Option.map_eq_some_iff.mp hz
      cases e
      exact .inl hg
    · unfold State.statusOffer at h
      split at h
      · cases h; exact .inr ⟨rfl, _, rfl⟩
      split at h
      · cases h; exact .inr ⟨rfl, _, rfl⟩
      · cases h

theorem lineIdle_keeps (s : State) : Keeps s s.lineIdle := by
  have joined : Works True s (s.setLc { s.lc with joined := true }) := setLc_works s _ ⟨rfl, rfl, rfl⟩ fun k => { k with }
  unfold State.lineIdle
  dsimp only
  split
  · exact .refl s
  refine joined.keeps.trans ?_
  generalize s.setLc { s.lc with joined := true } = t
  split
  · exact .refl t
  · rename_i ht
    have offered : ∀ y, (t.arbiterOffer.map fun o => (⟨o.1, o.2, false, false⟩ : Tx)) = some y →
        ∃ k f, t.arbiterOffer = some (k, f) ∧ y = ⟨k, f, false, false⟩ := fun y hy => by
      obtain ⟨⟨k, f⟩, ho, rfl⟩ := Option.map_eq_some_iff.mp hy
      exact ⟨k, f, ho, rfl⟩
    refine keeps_uncarried t _ rfl rfl (fun _ => carried_of_none ht) (fun _ => ⟨?_, fun r => ?_⟩) fun k => ?_
    · intro y x hy
      obtain ⟨k, f, ho, rfl⟩ := offered y hy
      rcases arbiterOffer_cases ho with h | ⟨rfl, long, rfl⟩
      · exact frameIn_slot h x
      · simp
    · cases e : t.arbiterOffer with
      | none => exact carried_of_none rfl r
      | some o => exact carried_unbegun (y := ⟨o.1, o.2, false, false⟩) rfl rfl r
    · refine k.lc.carrying fun y hy => ?_
      obtain ⟨q, f, ho, rfl⟩ := offered y hy
      rcases arbiterOffer_cases ho with h | ⟨_, long, rfl⟩
      · exact frameIn_fits k h
      · exact compose_fits k long

/-! #### The beginning -/

/-- An allotment frame begins: the line carries it, and a claim's engine is SENDING (R84). -/
theorem beginAllot_keeps (s : State) (t : Tx) (ht : s.lc.tx = some t) (hb : t.begun = false) {k r : Resource}
    (hk : t.slot = .allot k) {g : AllotFrame} (hg : s.lc.frameIn t.slot = some (.allot r g)) :
    Keeps s ((s.setLc { s.lc with tx := some { t with frame := .allot r g, begun := true } }).startsSending r g) := by
  have hkr : k = r := by
    rw [hk] at hg
    obtain ⟨f, _, e⟩ := Option.map_eq_some_iff.mp hg
    cases e; rfl
  subst hkr
  have hslot : s.lc.allot.get k = some g := by
    rw [hk] at hg
    obtain ⟨f, hf, e⟩ := Option.map_eq_some_iff.mp hg
    cases e; exact hf
  let l : LC := { s.lc with tx := some { t with frame := .allot k g, begun := true } }
  -- the cell of the resource itself, and the others
  have self : ((s.setLc l).startsSending k g).cell k
      = match g with
        | .claim _ => { s.cell k with a := { (s.cell k).a with engine := .sending } }
        | .release _ => s.cell k := by
    cases g with
    | claim v => simp [State.startsSending, State.cell, l]
    | release v => rfl
  have other : ∀ x, x ≠ k → ((s.setLc l).startsSending k g).cell x = s.cell x := fun x hx => by
    cases g with
    | claim v => simp [State.startsSending, State.cell, l, PerRes.get_set_ne _ _ hx]
    | release v => rfl
  have lc : ((s.setLc l).startsSending k g).lc = l := by cases g <;> rfl
  have carried : ∀ x, ((s.setLc l).startsSending k g).carried x = if k = x then some g else none := fun x => by
    unfold State.carried
    rw [lc]
  have frame : l.FrameOfSlot := by
    intro y x hy
    cases hy
    simp [hk]
  refine ⟨fun h => ?_, fun h => ?_, fun h hr => ?_⟩
  · have fits := frameIn_fits h hg
    have cells : ∀ x, (((s.setLc l).startsSending k g).cell x).Fits := fun x => by
      by_cases hx : x = k
      · subst hx
        rw [self]
        cases g with
        | claim v => exact { h.cells x with }
        | release v => exact h.cells x
      · rw [other x hx]; exact h.cells x
    have written : l.Fits := h.lc.carrying fun _ hy => Option.some.inj hy ▸ fits
    cases g with
    | claim v => exact { h with lc := written, cells := cells }
    | release v => exact { h with lc := written, cells := cells }
  · obtain ⟨_, hc⟩ := (claimsFit_iff s).mp h
    have before := hc k
    rw [carried_unbegun ht hb] at before
    refine (claimsFit_iff _).mpr ⟨lc ▸ frame, fun x => ?_⟩
    rw [lc, carried]
    by_cases hx : x = k
    · subst hx
      rw [self, if_pos rfl]
      have notSuspended : decide (s.lc.line = .active) = true := by
        cases e : decide (s.lc.line = .active) with
        | true => rfl
        | false =>
          have := (before.isolated e).2
          rw [show (s.cell x).slot = some g from hslot] at this; cases this
      change Cell.ClaimFits (some g) (decide (s.lc.line = .active)) _
      rw [notSuspended] at before ⊢
      cases g with
      | claim v =>
        have value := (before.slot v hslot).2
        exact ⟨fun w e => ⟨.inr rfl, (before.slot w e).2⟩, fun _ => ⟨v, hslot⟩,
          fun w e => ⟨.inr rfl, (before.fits w e).2⟩, by simp, fun f e => by cases e; exact hslot, nofun⟩
      | release v =>
        refine ⟨before.slot, before.engine, before.fits, before.sending.trans ?_, fun f e => by cases e; exact hslot,
          nofun⟩
        simp
    · rw [other x hx, if_neg fun e => hx e.symm]
      have := hc x
      rwa [carried_unbegun ht hb] at this
  · refine (releasesPlaced_iff _).mpr fun x => ?_
    have before := (releasesPlaced_iff s).mp hr x
    rw [allotBegun_eq ((claimsFit_iff s).mp h).1, carried_unbegun ht hb] at before
    rw [allotBegun_eq (lc ▸ frame), lc, carried]
    by_cases hx : x = k
    · subst hx
      rw [if_pos rfl]
      intro _ e; cases e
    · rw [other x hx, if_neg fun e => hx e.symm]
      exact before

theorem beginFrame_keeps (s : State) (t : Tx) (ht : s.lc.tx = some t) (hb : t.begun = false) :
    Keeps s (s.beginFrame t) := by
  have free : s.ClaimsFit → ∀ r, s.carried r = none := fun _ => carried_unbegun ht hb
  -- a frame of another slot begins
  have other : ∀ (x : LC) (y : Tx), x.line = s.lc.line → x.allot = s.lc.allot → x.tx = some y →
      (s.ClaimsFit → (∀ r, y.slot ≠ .allot r) ∧ ∀ r f, y.frame ≠ .allot r f) → (s.Sound → x.Fits) →
      Keeps s (s.setLc x) := by
    intro x y hl ha hx hn hf
    refine keeps_uncarried s x hl ha free (fun h => ⟨fun z r hz => ?_, carried_other hx (hn h).2⟩) hf
    rw [hx] at hz
    cases hz
    exact ⟨fun e => ((hn h).1 r e).elim, fun ⟨f, e⟩ => ((hn h).2 r f e).elim⟩
  have notAllot : (∀ r, t.slot ≠ .allot r) → s.ClaimsFit → ∀ r f, t.frame ≠ .allot r f := fun hs h r f e =>
    hs r ((h.line t r ht).mpr ⟨f, e⟩)
  unfold State.beginFrame
  split
  · rename_i hs
    have hs' : ∀ r, t.slot ≠ .allot r := fun r => by rw [hs]; nofun
    refine other (s.lc.beginNotice t) { t with begun := true, afterOverflow := true } rfl rfl rfl
      (fun h => ⟨hs', notAllot hs' h⟩) fun k => ?_
    have fits := k.lc.frame t ht
    exact { k.lc with frame := fun _ hy => Option.some.inj hy ▸ fits }
  all_goals
    rename_i hs
    split
    · exact keeps_cleared s _ rfl rfl rfl free fun k => k.lc.cleared
    rename_i f hf
    dsimp only
    rw [hs] at hf
    obtain ⟨g, _, rfl⟩ := Option.map_eq_some_iff.mp hf
    dsimp only
  · refine other _ _ rfl rfl rfl (fun _ => ⟨fun r => by rw [hs]; nofun, nofun⟩) fun k =>
      k.lc.carrying fun _ hy => Option.some.inj hy ▸ trivial
  · exact beginAllot_keeps s t ht hb hs (by rw [hs]; exact hf)
  · refine other _ _ rfl rfl rfl (fun _ => ⟨fun r => by rw [hs]; nofun, nofun⟩) fun k =>
      k.lc.carrying fun _ hy => Option.some.inj hy ▸ trivial

/-! #### The outcome of an allotment frame -/

/-- An event that keeps the ranges and the claims, and the releases of every resource but one. -/
structure KeepsBut (r : Resource) (s t : State) : Prop where
  sound : s.Sound → t.Sound
  claims : s.ClaimsFit → t.ClaimsFit
  releases : s.ClaimsFit → s.ReleasesPlaced → ∀ x, x ≠ r → t.ReleaseAt x

theorem KeepsBut.works {r : Resource} {s t u : State} (h : KeepsBut r s t) (k : Works True t u) : KeepsBut r s u :=
  ⟨fun x => k.ranges (h.sound x), fun x => k.moves.claimsFit (h.claims x),
    fun x y z hz => k.moves.releaseAt (h.releases x y z hz)⟩

theorem setCell_setCell (s : State) (r : Resource) (c d : Cell) : (s.setCell r c).setCell r d = s.setCell r d := by
  have set : ∀ {α : Type} (p : PerRes α) (u v : α), (p.set r u).set r v = p.set r v := by
    intro α p u v; cases r <;> rfl
  simp only [State.setCell, set]

theorem setCell_cell_eta (s : State) (r : Resource) : s.setCell r (s.cell r) = s := by
  have set : ∀ {α : Type} (p : PerRes α), p.set r (p.get r) = p := by
    intro α p; cases r <;> rfl
  simp only [State.setCell, State.cell, set]

/-- What follows the outcome of a resource's frame, its cell being as the outcome leaves it (R85, R86). -/
theorem outcomeTaken_keeps {s w : State} {r : Resource} {c : Cell} (h : KeepsBut r s (w.setCell r c))
    (ht : w.lc.tx = none) : Keeps s (w.outcomeTaken r c) := by
  let d := c.afterOutcome (w.cellView r) (w.tally r) (w.sumBefore r)
  have begun : ∀ t : State, t.lc.tx = none → t.allotBegun r = false := fun t k => allotBegun_of_none k r
  have view : w.cellView r = ⟨w.target r, false, decide (w.lc.line = .active)⟩ := by
    rw [State.cellView, begun w ht]
  have moved : Works True (w.setCell r c) (w.setCell r d) := by
    rw [← setCell_setCell w r c d]
    refine setCell_works _ r d ?_ fun k => ?_
    · rw [begun (w.setCell r c) ht, setCell_cell_self]
      change Cell.Moves false _ c (c.afterOutcome (w.cellView r) (w.tally r) (w.sumBefore r))
      rw [view]
      exact .outcome _ _ _ (target_le w r) rfl
    · rw [setCell_cell_self] at k
      exact k.afterOutcome _ (target_le w r) _ _
  have rest : Works True (w.setCell r d) (w.outcomeTaken r c) :=
    (judgeStanding_works _).trans (afterAllotment_works _ _)
  have placed : (w.setCell r d).ReleaseAt r := by
    unfold State.ReleaseAt
    rw [setCell_cell_self, begun (w.setCell r d) ht]
    have fits := c.afterOutcome_releaseFits (w.cellView r) (w.tally r) (w.sumBefore r)
    rwa [show (w.cellView r).begun = false from begun w ht] at fits
  have all := h.works (moved.trans rest)
  refine ⟨all.sound, all.claims, fun k1 k2 => (releasesPlaced_iff _).mpr fun x => ?_⟩
  by_cases hx : x = r
  · subst hx; exact rest.moves.releaseAt placed
  · exact all.releases k1 k2 x hx

/-- The line cleared of a resource's frame, and its cell written. -/
theorem keepsBut_outcome {s : State} {r : Resource} {f : AllotFrame} (hf : s.ClaimsFit → s.carried r = some f) (x : LC)
    (hl : x.line = s.lc.line) (ha : x.allot = s.lc.allot) (ht : x.tx = none) (hx : s.Sound → x.Fits) (c : Cell)
    (hc : s.ClaimsFit → (s.cell r).ClaimFits (some f) (decide (s.lc.line = .active)) →
      c.ClaimFits none (decide (s.lc.line = .active)))
    (hs : s.Sound → c.Fits) : KeepsBut r s ((s.setLc x).setCell r c) := by
  have cell : ∀ y, (s.setLc x).cell y = s.cell y := fun y => by simp only [State.cell, State.setLc_au, State.setLc_lc, ha]
  have tx : ((s.setLc x).setCell r c).lc.tx = none := ht
  have line : ((s.setLc x).setCell r c).lc.line = s.lc.line := hl
  have elsewhere : s.ClaimsFit → ∀ y, y ≠ r → s.carried y = none := fun k y hy => by
    cases e : s.carried y with
    | none => rfl
    | some g =>
      obtain ⟨z, h1, _, h3⟩ := carried_eq_some.mp e
      obtain ⟨z', k1, _, k3⟩ := carried_eq_some.mp (hf k)
      rw [h1] at k1
      cases k1
      rw [h3] at k3
      cases k3
      exact (hy rfl).elim
  refine ⟨fun k => ?_, fun k => ?_, fun k kr y hy => ?_⟩
  · have cleared : (s.setLc x).Sound := { k with lc := hx k, cells := fun y => cell y ▸ k.cells y }
    exact cleared.setCell r c (hs k)
  · obtain ⟨_, hk⟩ := (claimsFit_iff s).mp k
    refine (claimsFit_iff _).mpr ⟨frameOfSlot_of_none tx, fun y => ?_⟩
    rw [carried_of_none tx, line]
    by_cases hy : y = r
    · subst hy
      rw [setCell_cell_self]
      exact hc k (hf k ▸ hk y)
    · rw [setCell_cell_ne _ _ hy, cell]
      exact elsewhere k y hy ▸ hk y
  · unfold State.ReleaseAt
    have before := (releasesPlaced_iff s).mp kr y
    rw [allotBegun_eq ((claimsFit_iff s).mp k).1, elsewhere k y hy] at before
    rw [allotBegun_of_none tx, line, setCell_cell_ne _ _ hy, cell]
    exact before

end Sys2Proof.Machine
end

section
/-!
SUPPORT. The completion of the node's own frames (9.2, 9.4), which write cells by themselves.
-/

namespace Sys2Proof.Machine

/-! ### The completion and the failure of the node's own frames (9.2) -/

/-- While the line carries a frame of a resource it is ACTIVE. -/
theorem Cell.ClaimFits.active_of_carried {f : AllotFrame} {a : Bool} {c : Cell} (h : c.ClaimFits (some f) a) :
    a = true := by
  cases a with
  | true => rfl
  | false =>
    have := (h.isolated rfl).2
    rw [h.begun f rfl] at this; cases this

/-- A completed CLAIM leaves its slot (R85). -/
theorem Cell.ClaimFits.claimed {v : Nat} {a : Bool} {c : Cell} (h : c.ClaimFits (some (.claim v)) a) (w : CellView) :
    (c.claimed w v).ClaimFits none a := by
  obtain rfl := h.active_of_carried
  exact ⟨nofun, by simp [Cell.claimed], nofun, by simp [Cell.claimed], nofun, nofun⟩

/-- The resource of a RELEASE on the line has no claim. -/
theorem Cell.ClaimFits.unclaimed {v : Nat} {a : Bool} {c : Cell} (h : c.ClaimFits (some (.release v)) a) :
    ¬(c.a.engine = .reserved ∨ c.a.engine = .sending) := fun e => by
  obtain ⟨w, hw⟩ := h.engine e
  rw [h.begun _ rfl] at hw; cases hw

/-- A RELEASE leaves its slot or returns to it without a claim. -/
theorem Cell.ClaimFits.released {v : Nat} {a : Bool} {c d : Cell} (h : c.ClaimFits (some (.release v)) a)
    (he : d.a.engine = c.a.engine) (hv : d.a.claimValue = c.a.claimValue) (hs : ∀ n, d.slot ≠ some (.claim n)) :
    d.ClaimFits none a := by
  obtain rfl := h.active_of_carried
  have none := h.unclaimed
  refine ⟨fun n k => (hs n k).elim, fun k => (none (he ▸ k)).elim, fun n k => (none (h.fits n (hv ▸ k)).1).elim,
    ⟨fun k => (none (.inr (he ▸ k))).elim, nofun⟩, nofun, nofun⟩

/-- A CLAIM that failed is RESERVED again, where the target has not fallen below it (R85). -/
theorem Cell.ClaimFits.reclaimed {v : Nat} {a : Bool} {c : Cell} (h : c.ClaimFits (some (.claim v)) a) (w : CellView) :
    (c.reclaimed w).ClaimFits none a := by
  obtain rfl := h.active_of_carried
  have hs := h.begun _ rfl
  refine ClaimFits.withdrawBelow (c := { c with a := { c.a with engine := .reserved } }) ?_ w
  exact ⟨fun n k => ⟨.inl rfl, (h.slot n k).2⟩, fun _ => ⟨v, hs⟩, fun n k => ⟨.inl rfl, (h.fits n k).2⟩, by simp, nofun,
    nofun⟩

/-! #### Completion -/

/-- The line controller with a frame taken off the line and a long notice marked due. -/
def LC.taken (l : LC) (f : Nat) (long : Bool) : LC := { l with tx := none, failures := f, longDue := long }

theorem LC.Fits.taken {l : LC} (h : l.Fits) {f : Nat} (hf : f < 8) (long : Bool) : (l.taken f long).Fits :=
  { h with failures := hf, frame := fun _ hy => by cases hy }

theorem carried_allot {s : State} {t : Tx} (ht : s.lc.tx = some t) (hb : t.begun = true) {r : Resource}
    {f : AllotFrame} (hf : t.frame = .allot r f) : s.carried r = some f := carried_eq_some.mpr ⟨t, ht, hb, hf⟩

/-- The completion of an allotment frame (R85, R86). -/
theorem allotDone_keeps (s : State) (t : Tx) (ht : s.lc.tx = some t) (hb : t.begun = true) {r : Resource}
    {f : AllotFrame} (hf : t.frame = .allot r f) :
    Keeps s ((s.setLc { s.lc with tx := none, failures := 0 }).allotDone r f) := by
  let u := s.setLc { s.lc with tx := none, failures := 0 }
  have marked : u.markLong = s.setLc (s.lc.taken 0 (s.lc.longDue || s.cs.locked)) := markLong_idle u rfl
  have carried : s.carried r = some f := carried_allot ht hb hf
  have fits : s.Sound → (Frame.allot r f).Fits := fun k => hf ▸ k.lc.frame t ht
  have off := fun k : s.Sound => k.lc.taken (f := 0) (by decide) (s.lc.longDue || s.cs.locked)
  unfold State.allotDone
  cases f with
  | claim v =>
    dsimp only
    have base : KeepsBut r s (u.markLong.setCell r ((s.cell r).claimed (u.cellView r) v)) := by
      rw [marked]
      refine keepsBut_outcome (fun _ => carried) (s.lc.taken 0 (s.lc.longDue || s.cs.locked)) rfl rfl rfl off _ (fun _ k => k.claimed _) fun k => ?_
      have c := k.cells r
      have hv : v ≤ 4000 := fits k
      exact { c with
        holding := (min_le_left _ _).trans hv, announced := hv, claimValue := nofun, claim := nofun, release := nofun }
    let w := u.markLong.withCell r ((s.cell r).claimed (u.cellView r) v)
    have rest : Works True (u.markLong.setCell r ((s.cell r).claimed (u.cellView r) v)) w :=
      (judgeStanding_works _).trans (afterAllotment_works _ _)
    have idle : w.lc.tx = none := by
      have := rest.moves.tx
      rw [marked] at this
      simpa [State.setCell, LC.taken] using this
    have whole : KeepsBut r s (w.setCell r (w.cell r)) := by rw [setCell_cell_eta]; exact base.works rest
    exact outcomeTaken_keeps whole idle
  | release v =>
    refine outcomeTaken_keeps ?_ (by rw [marked]; rfl)
    rw [marked]
    refine keepsBut_outcome (fun _ => carried) (s.lc.taken 0 (s.lc.longDue || s.cs.locked)) rfl rfl rfl off _ (fun _ k => k.released rfl rfl nofun) fun k => ?_
    exact { k.cells r with announced := fits k, claim := nofun, release := nofun }

/-- Every cell and the line controller written, no frame being left on the line. -/
theorem keeps_setCells (s : State) (x : LC) (f : Resource → Cell) (ht : x.tx = none) (hx : s.Sound → x.Fits)
    (hs : s.Sound → ∀ r, (f r).Fits) (hc : s.ClaimsFit → ∀ r, (f r).ClaimFits none (decide (x.line = .active)))
    (hr : ∀ r, (f r).ReleaseFits false (decide (x.line = .active))) : Keeps s ((s.setLc x).setCells f) := by
  have tx : ((s.setLc x).setCells f).lc.tx = none := ht
  refine ⟨fun k => ?_, fun k => ?_, fun k _ => ?_⟩
  · exact { k with lc := { hx k with }, cells := fun r => by rw [setCells_cell]; exact hs k r }
  · refine (claimsFit_iff _).mpr ⟨frameOfSlot_of_none tx, fun r => ?_⟩
    rw [carried_of_none tx, setCells_cell]
    exact hc k r
  · refine (releasesPlaced_iff _).mpr fun r => ?_
    rw [allotBegun_of_none tx, setCells_cell]
    exact hr r

/-- The line being ACTIVE again asks no more of a claim. -/
theorem Cell.ClaimFits.activated {line : Option AllotFrame} {a : Bool} {c : Cell} (h : c.ClaimFits line a) :
    c.ClaimFits line true := { h with isolated := nofun }

/-- A slot that holds no claim may be emptied. -/
theorem Cell.ClaimFits.unclaimed_cleared {a : Bool} {c : Cell} (h : c.ClaimFits none a)
    (hn : ¬(c.a.engine = .reserved ∨ c.a.engine = .sending)) : Cell.ClaimFits none a { c with slot := none } :=
  ⟨nofun, fun k => (hn k).elim, fun w k => (hn (h.fits w k).1).elim, h.sending, nofun,
    fun k => ⟨(h.isolated k).1, rfl⟩⟩

theorem Cell.ClaimFits.longDone {c : Cell} (h : c.ClaimFits none true) (v : CellView) (hb : v.begun = false)
    (ha : v.active = true) (n m : Nat) : (c.longDone v n m).ClaimFits none true := by
  have noted : Cell.ClaimFits none true { c with a := { c.a with announced := n, longCapacity := m } } :=
    h.congr rfl rfl rfl rfl
  unfold Cell.longDone
  dsimp only
  split
  · rename_i k e
    refine ClaimFits.judgeRelease ?_ v hb ha
    split
    · exact noted
    · have none : ¬(c.a.engine = .reserved ∨ c.a.engine = .sending) := fun k => by
        obtain ⟨w, hw⟩ := h.engine k
        rw [hw] at e; cases e
      exact noted.unclaimed_cleared none
  · exact noted.judgeRelease v hb ha

theorem Cell.longDone_releaseFits (v : CellView) (n m : Nat) (c : Cell) :
    (c.longDone v n m).ReleaseFits v.begun v.active := by
  unfold Cell.longDone
  dsimp only
  split <;> exact Cell.judgeRelease_fits _ _

theorem Cell.Fits.emptied {c : Cell} (h : c.Fits) : Cell.Fits { c with slot := none } :=
  { h with claim := nofun, release := nofun }

theorem Cell.Fits.longDone {c : Cell} (h : c.Fits) (v : CellView) {n m : Nat} (hn : n ≤ 4000) (hm : m ≤ 4000) :
    (c.longDone v n m).Fits := by
  have noted : Cell.Fits { c with a := { c.a with announced := n, longCapacity := m } } :=
    { h with announced := hn, longCapacity := hm }
  unfold Cell.longDone
  dsimp only
  split
  · split
    · exact noted.judgeRelease v
    · exact noted.emptied.judgeRelease v
  · exact noted.judgeRelease v

theorem Cell.ClaimFits.rejoin {c : Cell} (h : c.ClaimFits none true) (v : CellView) (hv : v.target ≤ 4000)
    (hb : v.begun = false) (ha : v.active = true) (new : Tally) : (c.rejoin v new).ClaimFits none true := by
  unfold Cell.rejoin
  split
  · rename_i e
    have none : ¬(c.a.engine = .reserved ∨ c.a.engine = .sending) := by simp [e]
    refine (ClaimFits.evaluate (c := { c with a := { c.a with engine := .waiting, tally := new } }) (line := .none) ?_
      v hv hb).judgeRelease v hb ha
    exact ⟨fun n k => (none (h.slot n k).1).elim, by simp, fun n k => (none (h.fits n k).1).elim, by simp, nofun,
      nofun⟩
  · exact h

theorem Cell.rejoin_releaseFits (v : CellView) (new : Tally) (c : Cell) (h : c.ReleaseFits v.begun v.active) :
    (c.rejoin v new).ReleaseFits v.begun v.active := by
  unfold Cell.rejoin; split
  · exact Cell.judgeRelease_fits _ _
  · exact h

theorem Cell.Fits.rejoin {c : Cell} (h : c.Fits) (v : CellView) (hv : v.target ≤ 4000) (new : Tally) :
    (c.rejoin v new).Fits := by
  unfold Cell.rejoin; split
  · exact (Fits.evaluate (c := { c with a := { c.a with engine := .waiting, tally := new } }) { h with } v
      hv).judgeRelease v
  · exact h

theorem retest_works {b : Prop} (s : State) : Works b s s.retest := by
  unfold State.retest; split
  · exact markShort_works s
  · exact .refl s

/-- The cells after a completed long notice, the line being ACTIVE (R79, R86, R92). -/
theorem longCells_keeps (s : State) (x : LC) (n : Notice) (hs : s.ClaimsFit → ∀ r, s.carried r = none)
    (hl : x.line = .active) (ha : x.allot = s.lc.allot) (ht : x.tx = none) (hx : s.Sound → x.Fits)
    (hn : s.Sound → (Frame.status n).Fits) :
    Keeps s ((s.setLc x).allotLong n).rejoinCells := by
  let u := s.setLc x
  let c := fun r => (u.cell r).longDone (u.cellView r) (n.holdings.get r) (n.capacities.get r)
  have cell : ∀ r, u.cell r = s.cell r := fun r => by
    simp only [u, State.cell, State.setLc_au, State.setLc_lc, ha]
  have view : ∀ r, (u.cellView r).begun = false ∧ (u.cellView r).active = true := fun r =>
    ⟨allotBegun_of_none ht r, by simp [State.cellView, u, hl]⟩
  have after : ∀ r, ((u.setCells c).cellView r).begun = false ∧ ((u.setCells c).cellView r).active = true := fun r =>
    ⟨allotBegun_of_none ht r, by simp [State.cellView, State.setCells, u, hl]⟩
  have active : decide (x.line = .active) = true := by rw [hl]; rfl
  rw [allotLong_eq, rejoinCells_eq]
  refine keeps_setCells s x _ ht hx (fun k r => ?_) (fun k r => ?_) fun r => ?_
  · obtain ⟨_, _, amounts⟩ := hn k
    rw [setCells_cell]
    exact Cell.Fits.rejoin (((cell r).symm ▸ k.cells r).longDone _ (amounts r).1 (amounts r).2) _ (target_le _ _) _
  · rw [setCells_cell, active]
    have before := ((claimsFit_iff s).mp k).2 r
    rw [hs k r, ← cell] at before
    exact (before.activated.longDone _ (view r).1 (view r).2 _ _).rejoin _ (target_le _ _) (after r).1 (after r).2 _
  · rw [setCells_cell, active]
    have placed := Cell.longDone_releaseFits (u.cellView r) (n.holdings.get r) (n.capacities.get r) (u.cell r)
    rw [(view r).1, (view r).2, ← (after r).1, ← (after r).2] at placed
    have := Cell.rejoin_releaseFits _ ((u.setCells c).tally r) _ placed
    rw [(after r).1] at this
    rwa [(after r).2] at this

/-- The completion of a status notice (R172, R176, R92). -/
theorem noticeDone_keeps (s : State) (t : Tx) (ht : s.lc.tx = some t) {n : Notice} (hf : t.frame = .status n)
    (o : Bool) : Keeps s ((s.setLc { s.lc with tx := none, failures := 0 }).noticeDone n o) := by
  have free : s.ClaimsFit → ∀ r, s.carried r = none := fun _ => carried_other ht fun r f => by rw [hf]; nofun
  have fits : s.Sound → (Frame.status n).Fits := fun k => hf ▸ k.lc.frame t ht
  have published := fun k : s.Sound => (fits k).1
  have accepted := fun k : s.Sound => (fits k).2.1
  unfold State.noticeDone
  split
  · refine Keeps.trans ?_ (afterAllotment_works _ _).keeps
    refine Keeps.trans ?_ ((judgeStanding_works _).trans (retest_works _)).keeps
    exact longCells_keeps s _ n free rfl rfl rfl (fun k => { k.lc with
      failures := Nat.succ_pos 7, lastOffer := published k, lastAcceptance := accepted k,
      frame := fun _ hy => by cases hy }) fits
  · refine Keeps.trans ?_ (retest_works _).keeps
    exact keeps_cleared s _ rfl rfl rfl free fun k => { k.lc with
      failures := Nat.succ_pos 7, lastOffer := published k, lastAcceptance := accepted k,
      frame := fun _ hy => by cases hy }

/-- A frame of another slot is no allotment's. -/
theorem carried_other_slot {s : State} {t : Tx} (ht : s.lc.tx = some t) (hs : ∀ r, t.slot ≠ .allot r)
    (h : s.ClaimsFit) (r : Resource) : s.carried r = none :=
  carried_other ht (fun x f e => hs x ((h.line t x ht).mpr ⟨f, e⟩)) r

theorem frameDone_keeps (s : State) (t : Tx) (ht : s.lc.tx = some t) (hb : t.begun = true) :
    Keeps s (s.frameDone t) := by
  have cleared : ∀ k : s.Sound, (s.lc.taken 0 s.lc.longDue).Fits := fun k => k.lc.taken (by decide) _
  unfold State.frameDone
  dsimp only
  split
  · rename_i hs
    exact keeps_cleared s _ rfl rfl rfl (carried_other_slot ht fun r => by rw [hs]; nofun) fun k => { cleared k with }
  · rename_i hs
    refine keeps_cleared s _ rfl rfl rfl (carried_other_slot ht fun r => by rw [hs]; nofun) fun k =>
      { cleared k with fifo := ?_ }
    have := k.lc.fifo
    simp only [State.setLc_lc, List.length_tail]
    omega
  · rename_i r f hf _ _
    exact allotDone_keeps s t ht hb hf
  · rename_i n hf _ _
    exact noticeDone_keeps s t ht hf _
  · rename_i _ _ h1 h2
    exact keeps_cleared s _ rfl rfl rfl
      (fun _ => carried_other ht fun r f e => by simp_all) fun k => { cleared k with }

end Sys2Proof.Machine
end

section
/-!
SUPPORT. The failures of the node's own frames, isolation (9.5), the resets (10.5, 10.6) and the arrival of a report (8.1).
-/

namespace Sys2Proof.Machine

/-! ### Failure and isolation (R167, R175, R176) -/

theorem Cell.Fits.reclaimed {c : Cell} (h : c.Fits) (v : CellView) : (c.reclaimed v).Fits :=
  Fits.withdrawBelow (c := { c with a := { c.a with engine := .reserved } }) { h with } v

/-- A failed frame that is not dropped (R170, R85, R86, R174). -/
theorem returned_keeps (s : State) (t : Tx) (ht : s.lc.tx = some t) (hb : t.begun = true)
    (hn : s.lc.failures + 1 < failureLimit) :
    Keeps s (State.returned (s.setLc { s.lc with tx := none, failures := s.lc.failures + 1 }) t) := by
  let l : LC := s.lc.taken (s.lc.failures + 1) s.lc.longDue
  have off : s.Sound → l.Fits := fun k => k.lc.taken hn _
  have other : (∀ r, t.slot ≠ .allot r) → s.ClaimsFit → ∀ r, s.carried r = none := carried_other_slot ht
  unfold State.returned
  split
  · rename_i hs
    have free := other fun r => by rw [hs]; nofun
    split
    · exact keeps_cleared s _ rfl rfl rfl free fun k => { off k with }
    · exact keeps_cleared s l rfl rfl rfl free off
  · rename_i r v hf _
    have carried := carried_allot ht hb hf
    refine outcomeTaken_keeps ?_ rfl
    refine keepsBut_outcome (fun _ => carried) l rfl rfl rfl off _ (fun _ k => k.reclaimed _) fun k => ?_
    exact (k.cells r).reclaimed _
  · rename_i r v hf _
    have carried := carried_allot ht hb hf
    refine outcomeTaken_keeps ?_ rfl
    refine keepsBut_outcome (fun _ => carried) l rfl rfl rfl off _ (fun _ k => k.released rfl rfl nofun) fun k => ?_
    exact { k.cells r with claim := nofun, release := fun n e => by cases e; exact (k.cells r).holding }
  · rename_i n hs hf
    have free := other fun r => by rw [hs]; nofun
    split
    · exact keeps_cleared s l rfl rfl rfl free off
    · exact keeps_cleared s _ rfl rfl rfl free fun k => { off k with }
  · rename_i h1 h2 _
    refine keeps_cleared s l rfl rfl rfl (fun _ => carried_other ht fun r f e => ?_) off
    cases f with
    | claim v => exact h1 r v e
    | release v => exact h2 r v e

theorem Cell.Fits.isolate {c : Cell} (h : c.Fits) (w : Tally) : (c.isolate w).Fits :=
  { h with holding := Nat.zero_le _, claimValue := nofun, claim := nofun, release := nofun }

theorem Cell.isolate_claimFits (c : Cell) (w : Tally) : (c.isolate w).ClaimFits none false :=
  ⟨nofun, by simp [Cell.isolate], nofun, by simp [Cell.isolate], nofun, fun _ => ⟨rfl, rfl⟩⟩

theorem LC.dropFrame_keeps (l : LC) (k : TxSlot) :
    (l.dropFrame k).tx = l.tx ∧ (l.dropFrame k).lineErrors = l.lineErrors ∧ (l.dropFrame k).lastOffer = l.lastOffer
      ∧ (l.dropFrame k).lastAcceptance = l.lastAcceptance ∧ (l.dropFrame k).fifo.length ≤ l.fifo.length := by
  cases k <;> simp [LC.dropFrame, LC.tripEnded]

/-- The amount in an allotment's slot, a dropped one aside. -/
theorem dropFrame_cell {s : State} (k : TxSlot) {x : LC} (hx : x.allot = (s.lc.dropFrame k).allot) (r : Resource)
    (h : (s.cell r).Fits) : ((s.setLc x).cell r).Fits := by
  have slot : ((s.setLc x).cell r).slot = (s.cell r).slot ∨ ((s.setLc x).cell r).slot = none := by
    change x.allot.get r = _ ∨ x.allot.get r = _
    rw [hx]
    cases k with
    | allot q =>
      by_cases e : r = q
      · subst e; exact .inr (PerRes.get_set_self _ _ _)
      · exact .inl (PerRes.get_set_ne _ _ e)
    | trip | fifo | status => exact .inl rfl
  have same : ((s.setLc x).cell r).a = (s.cell r).a := rfl
  refine { (show Cell.Fits ⟨((s.setLc x).cell r).a, (s.cell r).slot⟩ from h) with
    claim := fun n e => ?_, release := fun n e => ?_ } <;> rcases slot with k | k <;> rw [k] at e
  · exact h.claim n e
  · cases e
  · exact h.release n e
  · cases e

/-- The line becomes ISOLATED, whatever the failure count (R175, R91). -/
theorem isolate_keeps (s : State) (n : Nat) (k : TxSlot) :
    Keeps s (State.isolate (s.setLc { s.lc with tx := none, failures := n }) k) := by
  let l : LC := { s.lc with tx := none, failures := n }
  let x : LC := { l.dropFrame k with line := .isolated, failures := 0, attempt := false }
  obtain ⟨tx, errors, offer, acceptance, fifo⟩ := l.dropFrame_keeps k
  have cells : (s.setLc x).isolateCells
      = ((s.setLc x).setCells fun r => ((s.setLc x).cell r).isolate ((s.setLc x).tally r)).judgeStanding := by
    unfold State.isolateCells
    rw [foldSet_eq (fun t r => (t.cell r).isolate (t.tally r))
      fun t y c r h => by obtain ⟨a, _, d⟩ := setCell_other t y c r h; rw [a, d]]
  have given : Keeps s ((s.setLc x).setCells fun r => ((s.setLc x).cell r).isolate ((s.setLc x).tally r)) := by
    refine keeps_setCells s x _ tx (fun h => ?_) (fun h r => ?_) (fun _ r => Cell.isolate_claimFits _ _)
      fun r e => by cases e
    · exact {
        fifo := fifo.trans h.lc.fifo, failures := Nat.succ_pos 7, lineErrors := errors.trans_le h.lc.lineErrors,
        lastOffer := offer.trans_le h.lc.lastOffer, lastAcceptance := acceptance.trans_le h.lc.lastAcceptance,
        frame := fun y e => by rw [show x.tx = none from tx] at e; cases e }
    · exact (dropFrame_cell (s := s.setLc l) k (x := x) rfl r (h.cells r)).isolate _
  have rest : ∀ t : State, Works True t (if t.ps.phase.underRate then t.requestAutoHold else t) := fun t => by
    split
    · exact requestAutoHold_works t
    · exact .refl t
  change Keeps s (if (s.setLc x).isolateCells.ps.phase.underRate then _ else _)
  refine Keeps.trans ?_ (rest _).keeps
  rw [cells]
  exact given.trans (judgeStanding_works _).keeps

/-- A failed attempt while ISOLATED (R176). -/
theorem attemptFailed_keeps (s : State) (h : s.lc.line = .isolated) : Keeps s s.attemptFailed :=
  keeps_cleared s _ rfl rfl rfl (fun k => carried_isolated k h) fun k => { k.lc.cleared with }

theorem frameFailed_keeps (s : State) (t : Tx) (ht : s.lc.tx = some t) (hb : t.begun = true) :
    Keeps s (s.frameFailed t) := by
  unfold State.frameFailed
  split
  · rename_i h
    exact attemptFailed_keeps s h
  dsimp only
  split
  · rename_i h
    exact returned_keeps s t ht hb h
  · exact isolate_keeps s _ _

theorem faulted_keeps (s : State) (t : Tx) (ht : s.lc.tx = some t) (hb : t.begun = false) : Keeps s (s.faulted t) := by
  unfold State.faulted
  split
  · rename_i h
    exact attemptFailed_keeps s h
  dsimp only
  split
  · rename_i h
    exact keeps_cleared s (s.lc.taken (s.lc.failures + 1) s.lc.longDue) rfl rfl rfl
      (fun _ => carried_unbegun ht hb) fun k => k.lc.taken h _
  · exact isolate_keeps s _ _

/-- An event of an offered frame, with the change it publishes. -/
theorem whileOffered_keeps (s : State) (f : Tx → State)
    (h : ∀ t, s.lc.tx = some t → t.begun = false → Keeps s (f t)) : Keeps s (s.whileOffered f) := by
  unfold State.whileOffered
  split
  · rename_i t ht
    split
    · exact .refl s
    · rename_i hb
      exact (h t ht (by simpa using hb)).trans (publish_works _ _).keeps
  · exact .refl s

/-- An event of a frame in transmission, with the change it publishes. -/
theorem whileBegun_keeps (s : State) (f : Tx → State)
    (h : ∀ t, s.lc.tx = some t → t.begun = true → Keeps s (f t)) : Keeps s (s.whileBegun f) := by
  unfold State.whileBegun
  split
  · rename_i t ht
    split
    · rename_i hb
      exact (h t ht hb).trans (publish_works _ _).keeps
    · exact .refl s
  · exact .refl s

/-! ### The resets (R184 to R186) -/

theorem default_inRange : Settings.default.InRange := by
  intro item n h
  unfold Settings.item at h
  split at h <;> cases h <;> refine ⟨fun lo hi e => ?_, fun set e => ?_⟩ <;> cases e <;> decide

theorem unheard_stored {s : State} (h : s.pv = .reset) (a : Station) : s.stored a = .unheard := by
  unfold State.stored
  rw [h]
  split
  · exact Vector.getElem_replicate ..
  · rfl

/-- Every block but the store, the clock and the line controller at its reset value, and nothing on the line. -/
structure State.Cleared (s : State) : Prop where
  blocks : s.ps = .reset s.now ∧ s.pv = .reset ∧ s.tu = .reset ∧ s.hu = .reset ∧ s.tr = .reset ∧ s.sp = .reset
  cell : ∀ r, s.cell r = ⟨.reset, none⟩
  line : s.lc.line = .active
  tx : s.lc.tx = none

theorem State.Cleared.sound {s : State} (h : s.Cleared) (hn : s.now < 4294967296) (hi : s.cs.set.InRange)
    (hl : s.lc.Fits) : s.Sound := by
  obtain ⟨ps, pv, tu, hu, tr, sp⟩ := h.blocks
  refine ⟨hn, hi, ?_, ?_, ?_, hl, ?_, ?_, fun r => ?_, fun a => ?_⟩
  · rw [tu]
    exact ⟨by decide, by decide, by decide, by decide, nofun, fun x => by cases x <;> decide, nofun, nofun, nofun⟩
  · rw [ps]
    exact ⟨nofun, fun r d e => by cases e⟩
  · rw [sp]
    exact ⟨by decide, by decide, nofun, nofun, nofun, by decide, by decide, .nil⟩
  · rw [hu]; decide
  · rw [tr]; nofun
  · rw [h.cell]
    exact ⟨by decide, by decide, by decide, nofun, nofun, nofun, nofun, nofun⟩
  · rw [unheard_stored pv]
    exact unheard_fits

theorem State.Cleared.claims {s : State} (h : s.Cleared) : s.ClaimsFit := by
  refine (claimsFit_iff s).mpr ⟨frameOfSlot_of_none h.tx, fun r => ?_⟩
  rw [carried_of_none h.tx, h.cell, h.line]
  exact ⟨nofun, by simp [Allot.reset], nofun, by simp [Allot.reset], nofun, nofun⟩

theorem State.Cleared.releases {s : State} (h : s.Cleared) : s.ReleasesPlaced := by
  refine (releasesPlaced_iff s).mpr fun r => ?_
  rw [h.cell]
  exact fun _ _ _ _ e => (e rfl).elim

/-- A reset meets the three invariants. -/
theorem State.Cleared.keeps {t : State} (s : State) (h : t.Cleared) (hn : s.Sound → t.now < 4294967296)
    (hi : s.Sound → t.cs.set.InRange) (hl : s.Sound → t.lc.Fits) : Keeps s t :=
  ⟨fun k => h.sound (hn k) (hi k) (hl k), fun _ => h.claims, fun _ _ => h.releases⟩

theorem reset_cleared : State.reset.Cleared :=
  ⟨⟨rfl, rfl, rfl, rfl, rfl, rfl⟩, fun r => by cases r <;> rfl, rfl, rfl⟩

theorem LC.reset_fits : LC.reset.Fits :=
  ⟨by decide, by decide, by decide, by decide, by decide, fun _ hy => by cases hy⟩

theorem reset_sound : State.reset.Sound := reset_cleared.sound (by decide) default_inRange LC.reset_fits

theorem powerOn_keeps (s : State) : Keeps s s.powerOn :=
  State.Cleared.keeps s ⟨⟨rfl, rfl, rfl, rfl, rfl, rfl⟩, fun r => by cases r <;> rfl, rfl, rfl⟩ (fun _ => Nat.succ_pos _)
    (fun _ => default_inRange) fun _ => LC.reset_fits

theorem replyCancelled_works {b : Prop} (s : State) (o : Option SlotRec) : Works b s (s.replyCancelled o) := by
  unfold State.replyCancelled
  split
  · split
    · exact reply_works _ _ _
    all_goals exact .refl s
  · exact .refl s

theorem takeRestart_keeps (s : State) : Keeps s s.takeRestart := by
  unfold State.takeRestart
  split
  · exact (configResult_works _ _ _ _).keeps
  split
  · refine Keeps.trans ?_ ((replyCancelled_works _ _).trans (configResult_works _ _ _ _)).keeps
    exact State.Cleared.keeps s ⟨⟨rfl, rfl, rfl, rfl, rfl, rfl⟩, fun r => by cases r <;> rfl, rfl, rfl⟩ (fun k => k.clock)
      (fun k => k.items) fun _ => { LC.reset_fits with }
  · refine Keeps.trans ?_ (configResult_works _ _ _ _).keeps
    exact State.Cleared.keeps s ⟨⟨rfl, rfl, rfl, rfl, rfl, rfl⟩, fun r => by cases r <;> rfl, rfl, rfl⟩ (fun k => k.clock)
      (fun _ => default_inRange) fun _ => LC.reset_fits

/-! ### The report -/

theorem takeConfig_keeps (s : State) (c : ConfigPart) : Keeps s (s.takeConfig c) := by
  cases c with
  | item number v0 v1 v2 v3 v4 => exact (takeItem_works s _ _ _ _ _ _).keeps
  | lock => exact (takeLock_works s).keeps
  | restart => exact takeRestart_keeps s

theorem takeParts_keeps (s : State) (r : Report) (h : ∀ n, r.holdup = some n → n ≤ 65535) : Keeps s (s.takeParts r) := by
  have parts : Works True s (((s.takeFlags r).takeReadings r).part State.takeRaw r.directive) :=
    ((takeFlags_works s r).trans (takeReadings_works _ r h)).trans
      (part_works _ _ _ fun d _ => takeRaw_works _ d)
  unfold State.takeParts
  dsimp only
  split
  · exact parts.keeps.trans (takeConfig_keeps _ _)
  · exact parts.keeps

theorem arrival_keeps (s : State) (bytes : List Byte) : Keeps s (s.arrival bytes) := by
  have ended : Works True s s.endExchange := endExchange_works s
  unfold State.arrival
  dsimp only
  split
  · refine (ended.trans ?_).keeps
    exact setSp_works _ _ fun _ k => { k.sp with reportErrors := min_le_left _ _ }
  · rename_i r hr
    exact (ended.trans (noteSeen_works _ _)).keeps.trans (takeParts_keeps _ r (parseReport_holdup hr))

end Sys2Proof.Machine
end

section
/-!
SUPPORT. The step: every command's row and the clock keep the ranges and the two invariants.
-/

namespace Sys2Proof.Machine

theorem published_keeps {s t : State} (h : Works True s t) : Keeps s (s.publish t) := (h.trans (publish_works s t)).keeps

/-- A row with a condition. -/
theorem Keeps.given {s t u : State} {c : Prop} [Decidable c] (h : c → Keeps s t) (k : Keeps s u) :
    Keeps s (if c then t else u) := by
  split
  · rename_i hc
    exact h hc
  · exact k

/-- An expiry with a condition, and nothing without it. -/
theorem due_keeps {s t : State} {c : Prop} [Decidable c] (h : Works True s t) :
    Keeps s (if c then s.publish t else s) := .given (fun _ => published_keeps h) (.refl s)

/-- An event that the node takes as a directive. -/
theorem directive_keeps (s : State) (src : Source) (d : Directive) (h : d.Fits) :
    Keeps s (s.publish (s.takeDirective src (some d))) :=
  published_keeps (takeDirective_works s src _ fun x e => by cases e; exact h)

/-- A timer's expiry raises its cause, and one that stands raised is taken without it (R130, R132). -/
theorem cause_keeps {s t : State} {c : Prop} [Decidable c] (h : Works True s t) (x y : Cause) :
    Keeps s (if c then s.publish (t.raiseCause x) else s.takeRaised y) :=
  .given (fun _ => published_keeps (h.trans (raiseCause_works t x))) (takeRaised_works s y).keeps

/-- The row of an event of a station's frame. -/
theorem peer_keeps (s : State) (a : Station) (f : PeerEntry → Option PeerEntry)
    (h : ∀ e x, e.Fits → f e = some x → x.Fits) : Keeps s (s.publish (s.deliverPeer a f)) :=
  published_keeps (deliverPeer_works s a f h)

theorem acked_keeps (s : State) (t : Token) (a : AckOutcome) : Keeps s (s.publish (s.takeAck t a)) :=
  published_keeps (takeAck_works s t a)

theorem timeout_keeps (s : State) (t : Token) (f : Command → Bool) : Keeps s (s.publish (s.ackTimeout t f)) :=
  published_keeps (ackTimeout_works s t f)

theorem starveTimer_keeps (s : State) :
    Keeps s (s.publish (s.setTu { s.tu with starveTimer := none, starveExpired := true }).holdIfStands) := by
  refine published_keeps (.trans ?_ (holdIfStands_works _))
  exact setTu_works s { s.tu with starveTimer := none, starveExpired := true } fun _ k => { k.tu with }

theorem blockTimer_keeps (s : State) :
    Keeps s (s.publish (s.setTu { s.tu with blockTimer := none, blockExpired := true }).holdIfStands) := by
  refine published_keeps (.trans ?_ (holdIfStands_works _))
  exact setTu_works s { s.tu with blockTimer := none, blockExpired := true } fun _ k => { k.tu with }

theorem portSilence_works (s : State) : Works True s (s.setSp { s.sp with portSilence := none }) :=
  setSp_works s { s.sp with portSilence := none } fun _ k => { k.sp with }

theorem spacing_works (s : State) : Works True s (s.setLc { s.lc with spacing := none }) :=
  setLc_works s { s.lc with spacing := none } ⟨rfl, rfl, rfl⟩ fun k => { k with }

/-- Every command's row keeps the ranges and the two invariants. -/
theorem exec_keeps (c : Instr) (s t : State) (h : exec c s = .next t) : Keeps s t := by
  cases c <;> cases h
  case powerOnReset => exact powerOn_keeps s
  case exchangeStart => exact (startExchange_works s).keeps
  case reportArrival sdi => exact (startExchange_works s).keeps.trans (arrival_keeps _ _)
  case feed src limit => exact directive_keeps s src _ (feedLimit_le limit)
  case runOut src length close => exact directive_keeps s src _ (runOutData_le length close)
  case startCampaign | fill | hold | resume | bank | stopRunOut | drain | endCampaign | trip | clearTrip | confirm
      | cancel => exact directive_keeps s _ _ trivial
  case directiveBadCode raw => exact published_keeps (takeRaw_works s raw)
  case configItem => exact (takeItem_works s _ _ _ _ _ _).keeps
  case lockConfig => exact (takeLock_works s).keeps
  case restartNode => exact takeRestart_keeps s
  case commandIssue => exact published_keeps (arbitrate_works s)
  case ackSetPhase | ackSetRate | ackTurnover | ackHandoffWork => exact acked_keeps s _ _
  case setPhaseAckTimeout | setRateAckTimeout | turnoverAckTimeout | handoffWorkAckTimeout =>
    exact timeout_keeps s _ _
  case rateIntervalExpiry => exact due_keeps (rateExpiry_works s)
  case starveTimerExpiry => exact .given (fun _ => starveTimer_keeps s) (.refl s)
  case blockTimerExpiry => exact .given (fun _ => blockTimer_keeps s) (.refl s)
  case dwellExpiry => exact due_keeps (dwellEnds_works s)
  case settleExpiry =>
    split
    · rename_i r hr
      exact due_keeps (settleEnds_works s hr)
    · exact .refl s
  case prereqDeadlineExpiry =>
    split
    · rename_i r hr
      exact due_keeps (prereqDeadline_works s hr)
    · exact .refl s
  case claimDeadlineExpiry =>
    split
    · exact due_keeps (refuseTransition_works s _ _ _)
    · exact .refl s
  case fillTimeout => exact cause_keeps (setPs_works_same s { s.ps with fillMax := none } rfl rfl) _ _
  case drainTimeout => exact cause_keeps (setPs_works_same s { s.ps with drainMax := none } rfl rfl) _ _
  case holdMaximumExpiry => exact due_keeps (holdMaximum_works s)
  case turnoverTimerExpiry =>
    exact .given (fun _ => published_keeps (turnoverExpires_works s)) (takeRaised_works s _).keeps
  case freezeLong => exact due_keeps ((setPs_works_same s { s.ps with freezeMax := none } rfl rfl).trans (raiseCause_works _ _))
  case underStandingTimeout => exact cause_keeps (setStanding_works s _ none) _ _
  case portSilent => exact cause_keeps (portSilence_works s) _ _
  case handoffDeadlineExpiry =>
    split
    · exact due_keeps (handoffExpires_works s _)
    · exact .refl s
  case statusPeriodExpiry => exact due_keeps (statusPeriod_works s)
  case shortSpacingExpiry => exact due_keeps (spacing_works s)
  case peerSilence a => exact due_keeps (writePeer_works s a _ fun _ k => silence_fits (k.peers a))
  case ageWatchExpiry => exact due_keeps (pollList_works s)
  case statusLong a p => exact peer_keeps s a _ (takeLong_fits _ _)
  case statusShort a p => exact peer_keeps s a _ (takeShort_fits _ _)
  case claim a p => exact peer_keeps s a _ (takeHolding_fits _ _)
  case release a p => exact peer_keeps s a _ (takeHolding_fits _ _)
  case tripNotice a p => exact peer_keeps s a _ (takeTrip_fits _ _)
  case handoff a p => exact published_keeps (takeHandoff_works s a p)
  case handoffDone a p => exact published_keeps (takeHandoffDone_works s a p)
  case replyReceived => exact .refl s
  case lineFrameError => exact .given (fun _ => (lineError_works s).keeps) (.refl s)
  case lineIdle => exact lineIdle_keeps s
  case arbitrationLost =>
    exact whileOffered_keeps s _ fun t ht hb =>
      keeps_cleared s _ rfl rfl rfl (fun _ => carried_unbegun ht hb) fun k => k.lc.cleared
  case transmitFault => exact whileOffered_keeps s _ (faulted_keeps s)
  case transmissionBegin => exact whileOffered_keeps s _ (beginFrame_keeps s)
  case frameCompletion => exact whileBegun_keeps s _ (frameDone_keeps s)
  case frameFailure => exact whileBegun_keeps s _ (frameFailed_keeps s)

/-! ### The clock -/

theorem RunOut.tick_rem (d : RunOut) (f : Bool) : (d.tick f).rem ≤ d.rem := by
  unfold RunOut.tick; split
  · exact Nat.sub_le _ _
  · exact le_rfl

theorem Timer.tick_le {t : Timer} {n : Nat} (h : ∀ m, t = some m → m ≤ n) (f : Bool) : ∀ m, t.tick f = some m → m ≤ n := by
  unfold Timer.tick
  split
  · intro m hm
    obtain ⟨k, hk, rfl⟩ := Option.map_eq_some_iff.mp hm
    exact (Nat.sub_le _ _).trans (h k hk)
  · exact h

theorem TU.Fits.tick {t : TU} (h : t.Fits) (p : Phase) (f : Bool) : (t.tick p f).Fits :=
  { h with
    interval := Timer.tick_le h.interval _
    runOut := fun d hd => by
      obtain ⟨x, hx, rfl⟩ := Option.map_eq_some_iff.mp hd
      exact (x.tick_rem _).trans (h.runOut x hx) }

theorem PS.Fits.tick {p : PS} (h : p.Fits) : p.tick.Fits where
  link := h.link
  slot r d hr hd := by
    obtain ⟨x, hx, rfl⟩ := Option.map_eq_some_iff.mp hr
    exact h.slot x d hx hd

theorem SP.Fits.tick {p : SP} (h : p.Fits) : p.tick.Fits where
  rIss := h.rIss
  rAck := h.rAck
  rateReq := h.rateReq
  pairReq := h.pairReq
  pairRate := h.pairRate
  strayCount := h.strayCount
  reportErrors := h.reportErrors
  list := h.list.map _ fun _ => ⟨rfl, rfl⟩

theorem second_works (s : State) : Works True s s.second := by
  refine ⟨.of_same rfl ⟨rfl, rfl, rfl⟩, fun _ k => ?_⟩
  exact { k with
    clock := Nat.mod_lt _ (Nat.succ_pos 4294967295), tu := k.tu.tick _ _, ps := k.ps.tick, sp := k.sp.tick
    lc := { k.lc with } }

theorem quarterSecond_works (s : State) : Works True s s.quarterSecond := by
  have passed : Works True s { s with quarter := s.quarter + 1, lc := { s.lc with spacing := s.lc.spacing.tick true } } :=
    ⟨.of_same rfl ⟨rfl, rfl, rfl⟩, fun _ k => { k with lc := { k.lc with } }⟩
  unfold State.quarterSecond
  dsimp only
  split
  · exact passed.trans (second_works _)
  · exact passed

theorem enqueue_works (s : State) (i : Instr) : Works True s (s.enqueue i) := by
  unfold State.enqueue
  split
  · exact ⟨.of_same rfl (.refl _), fun _ k => { k with }⟩
  · exact ⟨.of_same rfl (.refl _), fun _ k => { k with }⟩

theorem idle_works (s : State) : Works True s s.idle :=
  (quarterSecond_works s).trans (Works.foldl _ enqueue_works _ _)

theorem step_keeps (s t : State) (h : step s = .next t) : Keeps s t := by
  unfold step at h
  split at h
  · cases h
    exact (idle_works s).keeps
  · rename_i c rest _
    have taken : Works True s { s with pending := rest } := ⟨.of_same rfl (.refl _), fun _ k => { k with }⟩
    exact taken.keeps.trans (exec_keeps c _ t h)

/-! ### The ranges as the obligation states them -/

theorem State.InBounds.sound {s : State} (h : s.InBounds) : s.Sound := by
  obtain ⟨holdup, limitC, limitS, good, interval, parts⟩ := h.throughput
  obtain ⟨rIss, rAck, rates⟩ := h.rates
  obtain ⟨_, _, lastOffer, lastAcceptance, held⟩ := h.published
  obtain ⟨failures, lineErrors, strays, reports⟩ := h.counts
  obtain ⟨length, tokens, alone⟩ := h.outstanding
  refine ⟨h.clock, h.items, ?_, ?_, ?_, ?_, h.services, h.trip, fun x => ?_, fun a => ?_⟩
  · exact ⟨holdup, limitC, limitS, good, interval, parts, fun d k => h.runOuts d (.inl k), fun v k => rates v (.inl k),
      held⟩
  · exact ⟨fun d k => h.runOuts d (.inr (.inl k)), fun r d k l => h.runOuts d (.inr (.inr ⟨r, k, l⟩))⟩
  · exact ⟨rIss, rAck, fun v k => rates v (.inr (.inl k)), fun v k => rates v (.inr (.inr (.inl k))),
      fun v k => rates v (.inr (.inr (.inr (.inl k)))), strays, reports, length, tokens, alone,
      fun o ho v b k => rates v (.inr (.inr (.inr (.inr ⟨o, ho, b, k⟩))))⟩
  · refine ⟨h.fifo, failures, lineErrors, lastOffer, lastAcceptance, fun y hy => ?_⟩
    obtain ⟨amount, notice⟩ := h.line y hy
    cases e : y.frame with
    | allot x f =>
      cases f with
      | claim n => exact amount x n (.inl e)
      | release n => exact amount x n (.inr e)
    | status n => exact notice n e
    | tripNotice c | message m => trivial
  · obtain ⟨holding, announced, long, other⟩ := h.amounts x
    exact ⟨holding, announced, long, fun n k => other n (.inl k), fun n k => other n (.inr (.inl k)),
      fun n k => other n (.inr (.inr (.inl k))), fun n k => other n (.inr (.inr (.inr (.inl k)))),
      fun n k => other n (.inr (.inr (.inr (.inr k))))⟩
  · obtain ⟨e1, e2, e3, e4, e5, e6, e7⟩ := h.peers a
    exact ⟨e1, e2, e3, e4, e5, e6, e7⟩

theorem State.Sound.inBounds {s : State} (h : s.Sound) : s.InBounds := by
  refine ⟨h.clock, h.items, ⟨h.tu.holdup, h.tu.limitC, h.tu.limitS, h.tu.good, h.tu.interval, h.tu.parts⟩, ?_,
    ⟨h.sp.rIss, h.sp.rAck, ?_⟩, ⟨h.published.1, h.published.2, h.lc.lastOffer, h.lc.lastAcceptance, h.tu.held⟩,
    h.lc.fifo, ⟨h.lc.failures, h.lc.lineErrors, h.sp.strayCount, h.sp.reportErrors⟩, h.services,
    ⟨h.sp.list.length, h.sp.list.tokens, h.sp.list.alone⟩, h.trip, fun x => ?_, fun y hy => ?_, fun a => ?_⟩
  · rintro d (k | k | ⟨r, k, l⟩)
    exacts [h.tu.runOut d k, h.ps.link d k, h.ps.slot r d k l]
  · rintro v (k | k | k | k | ⟨o, ho, b, k⟩)
    exacts [h.tu.train v k, h.sp.rateReq v k, h.sp.pairReq v k, h.sp.pairRate v k, h.sp.list.rates o ho v b k]
  · have c := h.cells x
    refine ⟨c.holding, c.announced, c.longCapacity, ?_⟩
    rintro n (k | k | k | k | k)
    exacts [c.raised n k, c.claimValue n k, c.reading n k, c.claim n k, c.release n k]
  · have fits := h.lc.frame y hy
    refine ⟨?_, fun n k => by rw [k] at fits; exact fits⟩
    rintro x n (k | k) <;> rw [k] at fits <;> exact fits
  · have e := h.peers a
    exact ⟨e.offer, e.acceptance, e.holdup, e.chainPosition, e.rank, e.statusPeriod, e.amounts⟩

/-! ### The obligations -/

/-- Settles O57: each block keeps its ranges through every operation. -/
theorem everyStepKeepsTheBounds : Obligations.EveryStepKeepsTheBounds := by
  intro s t h hs
  exact ((step_keeps s t hs).sound h.sound).inBounds

/-- Settles O58: a cell's own moves keep its claim, and so do the outcomes of the node's frames. -/
theorem everyStepKeepsClaimsWithinTheHeadroom : Obligations.EveryStepKeepsClaimsWithinTheHeadroom :=
  fun s t h hs => (step_keeps s t hs).claims h

/-- Settles O59: every work on a cell ends with the judgement of its release. -/
theorem everyStepKeepsReleasesPlaced : Obligations.EveryStepKeepsReleasesPlaced :=
  fun s t h k hs => (step_keeps s t hs).releases h k

/-- Settles O60. -/
theorem theResetStateMeetsTheInvariants : Obligations.TheResetStateMeetsTheInvariants :=
  ⟨reset_sound.inBounds, reset_cleared.claims, reset_cleared.releases⟩

/-- Settles O55. -/
theorem stepRunsTheFrontCommand : Obligations.StepRunsTheFrontCommand := by
  intro c rest s h
  unfold step
  rw [h]

end Sys2Proof.Machine
end

section
/-!
SUPPORT. The directives (chapter 5): the order of judgement, the refusals of the rows, and what each row that admits its
directive does.
-/

namespace Sys2Proof.Machine

/-! ### The order of judgement (R99) -/

theorem takeDirective_line (s : State) (a : Station) (m t1 t2 tag : Byte) (d : Option Directive) :
    s.takeDirective (.line a m t1 t2 tag) d = if s.receives && s.targeted m t1 t2 then s.judgeLine a tag d else s :=
  rfl

theorem takeDirective_unheard {s : State} {a : Station} {m t1 t2 tag : Byte} (d : Option Directive)
    (h : (s.receives && s.targeted m t1 t2) = false) : s.takeDirective (.line a m t1 t2 tag) d = s := by
  rw [takeDirective_line, if_neg (by simp [h])]

theorem judgeKind_disallowed {s : State} {d : Directive} {a : Authority} (q : Requester) (h : d.allows a = false) :
    s.judgeKind q a d = s.refuse q .notAuthorized := by
  simp [State.judgeKind, h]

theorem judgeKind_frozen {s : State} {d : Directive} {a : Authority} (q : Requester) (h : d.allows a = true)
    (hf : s.ps.frozen = true) (hp : d.passesFreeze s.ps.phase = false) : s.judgeKind q a d = s.refuse q .frozen := by
  simp [State.judgeKind, h, hf, hp]

/-- An admitted directive is its row, with the changes it publishes. -/
theorem exec_row {c : Instr} {src : Source} {d : Directive} {s : State} (hc : directiveOfCommand c = some (src, d))
    (h : s.admits src d = true) :
    exec c s = .next (s.publish (s.row (Source.requester src) (Source.authority src) d)) := by
  rw [exec_directive c src d s hc, takeDirective_row s src d h]

/-- Settles O1: each step of R99 refuses on its own and leaves the rest to the next. -/
theorem directivesAreJudgedInOrder : Obligations.DirectivesAreJudgedInOrder := by
  intro c src d s hc calm
  rw [exec_directive c src d s hc]
  have refused : ∀ q e, s.takeDirective src (some d) = s.refuse q e →
      ∃ t, Host.Outcome.next (s.publish (s.takeDirective src (some d))) = (.next t : Host.Outcome State Fault Refusal)
        ∧ Refused s t q e := fun q e k => ⟨_, rfl, k ▸ publish_refused s q e calm⟩
  refine ⟨?_, ?_, ?_, ?_⟩
  · rintro a m t1 t2 tag rfl
    refine ⟨fun h => ?_, fun h hs => refused _ _ ?_⟩
    · rw [takeDirective_unheard _ h, publish_self]
    · rw [takeDirective_line, if_pos h]
      simp [State.judgeLine, hs]
  · rintro tag rfl hl
    refine refused _ _ ?_
    change s.judgePort tag (some d) = _
    simp [State.judgePort, hl]
  · intro hh ha
    refine refused _ _ ?_
    rw [takeDirective_heard s src d hh, judgeKind_disallowed _ ha]
  · intro hh ha hf hp
    refine refused _ _ ?_
    rw [takeDirective_heard s src d hh, judgeKind_frozen _ ha hf hp]

/-- A code that names no directive (R94). -/
theorem ofCode_none {code : Byte} (h : code.toNat = 0 ∨ 14 < code.toNat) (arg : BitVec 16) (f : Bool) :
    Directive.ofCode code arg f = none := by
  unfold Directive.ofCode
  split <;> first | rfl | omega

/-- Settles O13: such a code fails the step before the row. -/
theorem badCodesAreRefused : Obligations.BadCodesAreRefused := by
  intro s calm
  have exec_raw : ∀ raw, exec (.directiveBadCode raw) s = .next (s.publish (s.takeRaw raw)) := fun _ => rfl
  refine ⟨fun a p hc hl hr ht => ?_, fun a p h => ?_, fun code tag h l x hc => ?_⟩
  · refine ⟨_, exec_raw _, ?_⟩
    have : s.takeRaw (.frame a p) = s.refuse (.line a (byteAt p 3)) .badCode := by
      unfold State.takeRaw
      simp only [hl, if_true, ofCode_none hc]
      rw [takeDirective_line, if_pos (by simp [hr, ht])]
      rfl
    rw [this]
    exact publish_refused s _ _ calm
  · have : s.takeRaw (.frame a p) = s := by
      unfold State.takeRaw
      dsimp only
      split
      · rename_i hl
        refine takeDirective_unheard _ ?_
        rcases h with h | h | h
        · exact (h hl).elim
        · simp [h]
        · simp [h]
      · rfl
    rw [exec_raw, this, publish_self]
  · refine ⟨_, exec_raw _, ?_⟩
    have : s.takeRaw (.part code tag h l x)
        = s.refuse (.port tag) (if s.cs.locked then .badCode else .configUnlocked) := by
      change s.judgePort tag (Directive.ofCode code (h ++ l) (x.getLsbD 0)) = _
      rw [ofCode_none hc]
      cases hl : s.cs.locked <;> simp [State.judgePort, hl]
    rw [this]
    exact publish_refused s _ _ calm

/-! ### The refusals of the rows -/

theorem request_busy {s : State} {r : SlotRec} (h : s.ps.slot ≠ none) : s.request r = s.refuse r.requester .busy := by
  unfold State.request
  rw [if_pos (Option.isSome_iff_ne_none.mpr h)]

theorem slot_busy {s : State} {legal : Prop} {c : RefusalCode} (h : BusyWhen s legal c) (r : SlotRec) :
    s.request r = s.refuse r.requester c := by
  obtain ⟨_, hs, rfl⟩ := h
  exact request_busy hs

theorem workedOff_iff (s : State) : s.workedOff = true ↔ s.tu.holdup ≤ s.cs.set.hDr * 60 := by
  simp [State.workedOff]

/-- A row that asks for a legal phase alone: its refusals. -/
theorem legalRow_refuses {s : State} {legal illegal : Prop} [Decidable legal] {c : RefusalCode} {r : SlotRec}
    (hi : illegal → ¬ legal) (h : (illegal ∧ c = .illegalInPhase) ∨ BusyWhen s legal c) :
    (if legal then s.request r else s.refuse r.requester .illegalInPhase) = s.refuse r.requester c := by
  rcases h with ⟨hl, rfl⟩ | h
  · rw [if_neg (hi hl)]
  · rw [if_pos h.1, slot_busy h]

section
variable {s : State} {q : Requester} {a : Authority} {c : RefusalCode}

theorem rowFeed_refuses {n : Nat} (h : RowRefuses s a (.feed n) c) : s.rowFeed q a n = s.refuse q c := by
  rcases h with ⟨hp, rfl⟩ | ⟨hp, hc, rfl⟩ | ⟨hp, hs, rfl⟩
  · unfold State.rowFeed
    split <;> first | rfl | (rename_i e; simp [e] at hp)
  · simp [State.rowFeed, hp, hc]
  · simp [State.rowFeed, hp, Option.isSome_iff_ne_none.mpr hs]

theorem rowHold_refuses (h : RowRefuses s a .hold c) : s.rowHold q a = s.refuse q c := by
  rcases h with ⟨hp, rfl⟩ | ⟨hp, hc, rfl⟩ | h
  · unfold State.rowHold
    split <;> first | rfl | (rename_i e; simp [e] at hp)
  · simp [State.rowHold, hp, hc]
  · have busy := slot_busy h (.new .hold .hold q a none)
    obtain ⟨hp | ⟨hp, hc⟩, _, _⟩ := h
    · simp only [State.rowHold, hp]; exact busy
    · simp only [State.rowHold, hp, hc]; exact busy

theorem rowResume_refuses (h : RowRefuses s a .resume c) : s.rowResume q a = s.refuse q c := by
  have inHold : s.ps.phase ∈ [Phase.hold, .banked] ↔ s.ps.phase.inHold = true := by cases s.ps.phase <;> decide
  unfold State.rowResume
  rcases h with ⟨hp, rfl⟩ | ⟨hp, hr, rfl⟩ | h
  · rw [if_pos (by simpa using fun e => hp (inHold.mpr e))]
  · rw [if_neg (by simp [inHold.mp hp]), if_pos hr]
  · obtain ⟨hp, hr⟩ := h.1
    rw [if_neg (by simp [inHold.mp hp]), if_neg (Nat.not_lt.mpr hr)]
    exact slot_busy h _

theorem rowRunOut_refuses {d : RunOut} (h : RowRefuses s a (.runOut d) c) : s.rowRunOut q a d = s.refuse q c := by
  rcases h with ⟨hp, rfl⟩ | ⟨hp, hc, rfl⟩ | ⟨hp, hr, rfl⟩ | h
  · unfold State.rowRunOut
    split <;> first | rfl | (rename_i e; simp [e] at hp)
  · simp [State.rowRunOut, hp, hc]
  · simp only [List.mem_cons, List.not_mem_nil, or_false] at hp
    rcases hp with hp | hp <;> simp [State.rowRunOut, hp, hr]
  · have busy := slot_busy h (.new .runOut .runOut q a (some d))
    simp only [State.rowRunOut, h.1]
    exact busy

theorem rowStop_refuses (h : RowRefuses s a .stopRunOut c) : s.rowStop q a = s.refuse q c := by
  unfold State.rowStop
  rcases h with ⟨hp, rfl⟩ | ⟨hp, hm, rfl⟩ | ⟨hp, hm, hc, rfl⟩ | h
  · rw [if_pos hp]
  · rw [if_neg (not_not.mpr hp), if_pos hm]
  · rw [if_neg (not_not.mpr hp), if_neg (not_not.mpr hm), if_pos hc]
  · obtain ⟨hp, hm, hc⟩ := h.1
    rw [if_neg (not_not.mpr hp), if_neg (not_not.mpr hm), if_neg (by simp [hc])]
    exact slot_busy h _

theorem rowDrain_refuses (h : RowRefuses s a .drain c) : s.rowDrain q a = s.refuse q c := by
  have worked := workedOff_iff s
  rcases h with ⟨hp, rfl⟩ | ⟨hp, hd, rfl⟩ | ⟨hp, hw, rfl⟩ | h
  · unfold State.rowDrain
    dsimp only
    split <;> first | rfl | (rename_i e; simp [e] at hp)
  · simp [State.rowDrain, hp, hd]
  · have hw' : s.workedOff = false := by
      rw [← Bool.not_eq_true, worked]; omega
    simp only [List.mem_cons, List.not_mem_nil, or_false] at hp
    rcases hp with hp | hp <;> simp [State.rowDrain, hp, hw']
  · have busy := slot_busy h (.new .draining .drain q a none)
    rcases h.1 with ⟨hp, hd⟩ | ⟨hp, hw⟩
    · simp only [State.rowDrain, hp, hd]; exact busy
    · simp only [List.mem_cons, List.not_mem_nil, or_false] at hp
      rcases hp with hp | hp <;> simp only [State.rowDrain, hp, worked.mpr hw] <;> exact busy

theorem rowClear_refuses (h : RowRefuses s a .clearTrip c) : s.rowClear q = s.refuse q c := by
  unfold State.rowClear
  rcases h with ⟨hp, rfl⟩ | ⟨hp, hs, rfl⟩ | ⟨hp, hs, hf, hr, rfl⟩
  · rw [if_pos hp]
  · rw [if_neg (not_not.mpr hp), if_pos (by simpa using hs)]
  · rw [if_neg (not_not.mpr hp), if_neg (by simp [hs, hf]), if_pos (Option.isSome_iff_ne_none.mpr hr)]

theorem rowCancel_refuses (h : RowRefuses s a .cancel c) : s.rowCancel q a = s.refuse q c := by
  unfold State.rowCancel
  rcases h with ⟨hs, rfl⟩ | ⟨r, hs, h⟩
  · rw [hs]
  · rw [hs]
    dsimp only
    rcases h with ⟨ha, hq, rfl⟩ | ⟨ha, hb, hi, rfl⟩
    · rw [if_pos (by simp [ha, hq])]
    · have own : (decide (a = .sectionPanel) && !r.requester.isPort) = false := by
        rcases ha with rfl | hq
        · rfl
        · simp [hq]
      have issued : s.awaitsIssue r = false := by
        unfold State.awaitsIssue
        by_cases e : r.stage = .waitIssue
        · obtain ⟨p, hp⟩ := hi e
          simp [e, hp]
        · simp [e]
      simp [own, hb, issued]

/-- A row that refuses places the refusal alone. -/
theorem row_refuses {d : Directive} (h : RowRefuses s a d c) : s.row q a d = s.refuse q c := by
  cases d with
  | startCampaign => exact legalRow_refuses (r := .new .primed .start q a none) id h
  | fill =>
    rw [RowRefuses, ← and_assoc] at h
    exact legalRow_refuses (r := .new .filling .fill q a none) not_or.mpr h
  | endCampaign =>
    rw [RowRefuses, ← and_assoc] at h
    exact legalRow_refuses (r := .new .cold .endCampaign q a none) not_or.mpr h
  | bank => exact legalRow_refuses (r := .new .banked .bank q a none) id h
  | feed n => exact rowFeed_refuses h
  | hold => exact rowHold_refuses h
  | resume => exact rowResume_refuses h
  | runOut d => exact rowRunOut_refuses h
  | stopRunOut => exact rowStop_refuses h
  | drain => exact rowDrain_refuses h
  | trip =>
    obtain ⟨hp, rfl⟩ := h
    exact if_pos hp
  | clearTrip => exact rowClear_refuses h
  | confirm =>
    obtain ⟨hw, rfl⟩ := h
    exact if_neg (by simp [hw])
  | cancel => exact rowCancel_refuses h

end

/-! ### The limit of a FEED (R103) -/

theorem storeLimit_blocks (s : State) (a : Authority) (n : Nat) :
    (s.storeLimit a n).lc = s.lc ∧ (s.storeLimit a n).du = s.du ∧ (s.storeLimit a n).cs = s.cs
      ∧ (s.storeLimit a n).ps = s.ps ∧ (s.storeLimit a n).sp = s.sp ∧ (s.storeLimit a n).au = s.au := by
  unfold State.storeLimit; split <;> exact ⟨rfl, rfl, rfl, rfl, rfl, rfl⟩

/-- A FEED in FILLED with the slot empty (R103). -/
theorem rowFeed_filled {s : State} {n : Nat} (q : Requester) (a : Authority) (hp : s.ps.phase = .filled)
    (hs : s.ps.slot = none) : s.rowFeed q a n = s.feedFilled q a n := by
  simp [State.rowFeed, hp, hs]

/-- Settles O12: the rows' guards are exclusive, each refusing before the next is judged. -/
theorem rowsRefuse : Obligations.RowsRefuse := by
  intro src s
  refine ⟨fun c d code hc ha calm hr => ⟨_, exec_row hc ha, ?_⟩, fun limit u ha hp hs hu hm => ?_⟩
  · rw [row_refuses hr]
    exact publish_refused s _ _ calm
  · subst hu
    obtain ⟨lc, du, cs, ps, _, _⟩ := storeLimit_blocks s (Source.authority src) (min 1000 limit.toNat)
    refine ⟨_, exec_row (c := .feed src limit) rfl ha, ?_⟩
    have row : s.row (Source.requester src) (Source.authority src) (.feed (feedLimit limit))
        = (s.storeLimit (Source.authority src) (min 1000 limit.toNat)).refuse (Source.requester src) .belowMin := by
      change s.rowFeed _ _ _ = _
      rw [rowFeed_filled _ _ hp hs]
      exact if_pos hm
    rw [row]
    refine publish_replied s _ _ _ _ lc du cs ?_
    unfold State.atStage
    rw [ps, hs]

end Sys2Proof.Machine
end

section
/-!
SUPPORT. The rows of chapter 5 that give a transition: where it stands once its directive is taken.
-/

namespace Sys2Proof.Machine

/-! ### The row of each directive that gives a transition (5.4) -/

section
variable {s : State} {q : Requester} {a : Authority}

theorem row_start (hp : s.ps.phase = .cold) (hs : s.ps.slot = none) :
    s.row q a .startCampaign = s.enterSlot (.new .primed .start q a none) := by
  change s.rowStart q a = _
  rw [State.rowStart, if_pos hp, request_empty _ _ hs]

theorem row_bank (hp : s.ps.phase = .hold) (hs : s.ps.slot = none) :
    s.row q a .bank = s.enterSlot (.new .banked .bank q a none) := by
  change s.rowBank q a = _
  rw [State.rowBank, if_pos hp, request_empty _ _ hs]

theorem row_fill (hp : s.ps.phase = .primed ∨ s.ps.phase = .drained) (hs : s.ps.slot = none) :
    s.row q a .fill = s.enterSlot (.new .filling .fill q a none) := by
  change s.rowFill q a = _
  rw [State.rowFill, if_pos hp, request_empty _ _ hs]

theorem row_end (hp : s.ps.phase = .primed ∨ s.ps.phase = .drained) (hs : s.ps.slot = none) :
    s.row q a .endCampaign = s.enterSlot (.new .cold .endCampaign q a none) := by
  change s.rowEnd q a = _
  rw [State.rowEnd, if_pos hp, request_empty _ _ hs]

theorem row_hold (hp : s.ps.phase = .running ∨ s.ps.phase = .runOut ∧ s.tu.data.closeAfter = false)
    (hs : s.ps.slot = none) : s.row q a .hold = s.enterSlot (.new .hold .hold q a none) := by
  change s.rowHold q a = _
  rw [← request_empty _ _ hs]
  rcases hp with hp | ⟨hp, hc⟩
  · simp [State.rowHold, hp]
  · simp [State.rowHold, hp, hc]

theorem row_stop (hp : s.ps.phase = .runOut) (hm : s.tu.data.mode = .toEmpty) (hc : s.tu.data.closeAfter = false)
    (hs : s.ps.slot = none) : s.row q a .stopRunOut = s.enterSlot (.new .hold .stopRunOut q a none) := by
  change s.rowStop q a = _
  rw [← request_empty _ _ hs]
  simp [State.rowStop, hp, hm, hc]

theorem row_runOut {d : RunOut} (hp : s.ps.phase = .running) (hs : s.ps.slot = none) :
    s.row q a (.runOut d) = s.enterSlot (.new .runOut .runOut q a (some d)) := by
  change s.rowRunOut q a d = _
  rw [← request_empty _ _ hs]
  simp [State.rowRunOut, hp]

theorem row_drain
    (hp : s.ps.phase = .runOut ∧ s.tu.runoutDone = true
      ∨ (s.ps.phase = .filled ∨ s.ps.phase = .hold) ∧ s.tu.holdup ≤ s.cs.set.hDr * 60)
    (hs : s.ps.slot = none) : s.row q a .drain = s.enterSlot (.new .draining .drain q a none) := by
  change s.rowDrain q a = _
  rw [← request_empty _ _ hs]
  rcases hp with ⟨hp, hd⟩ | ⟨hp | hp, hw⟩
  · simp [State.rowDrain, hp, hd]
  · simp [State.rowDrain, hp, (workedOff_iff s).mpr hw]
  · simp [State.rowDrain, hp, (workedOff_iff s).mpr hw]

theorem row_resume (hp : s.ps.phase = .hold ∨ s.ps.phase = .banked) (hr : s.ps.ownerRank ≤ a.rank)
    (hs : s.ps.slot = none) : s.row q a .resume = s.enterSlot (.new s.ps.linkPhase .resume q a none) := by
  have inHold : s.ps.phase.inHold = true := by rcases hp with hp | hp <;> rw [hp] <;> rfl
  change s.rowResume q a = _
  rw [State.rowResume, if_neg (by simp [inHold]), if_neg (Nat.not_lt.mpr hr), request_empty _ _ hs]

/-- A FEED in FILLED stores its limit and enters the slot (R103). -/
theorem row_feed {limit : BitVec 16} {u : State} (hp : s.ps.phase = .filled) (hs : s.ps.slot = none)
    (hu : u = s.storeLimit a (min 1000 limit.toNat)) (hm : u.cs.set.rMin ≤ min u.tu.limitC u.tu.limitS) :
    s.row q a (.feed (feedLimit limit)) = u.enterSlot (.new .running .feed q a none) := by
  subst hu
  change s.rowFeed q a _ = _
  rw [rowFeed_filled _ _ hp hs]
  exact if_neg (Nat.not_lt.mpr hm)

end

/-! ### The first stage of a kind (R5, R6) -/

/-- A transition that neither dwells nor settles goes to its list. -/
theorem enterSlot_listed {s : State} {r : SlotRec} (hd : r.kind = .fill ∨ r.kind = .feed → s.ps.dwell = none)
    (hb : r.kind = .resume ∨ r.kind = .forcedRunOut → s.ps.phase = .banked → s.cs.set.tBankExit = 0) :
    s.enterSlot r = (s.toPrereq r).notePending := by
  have : s.toDwell r = s.toPrereq r := by
    unfold State.toDwell
    split
    · rename_i e; simp [hd (.inl e)]
    · rename_i e; simp [hd (.inr e)]
    · rename_i e
      rw [if_neg fun k => k.2 (hb (.inl e) k.1)]
    · rename_i e
      rw [if_neg fun k => k.2 (hb (.inr e) k.1)]
    all_goals rfl
  rw [State.enterSlot, this]

/-- A kind without a list and without claims goes to its handoff point, and without a point to its SET_PHASE. -/
theorem toPrereq_pointless {s : State} {r : SlotRec} (hl : r.kind.list = none) (hc : r.claimTargets s.cs.set = none)
    (hp : ∀ k, r.kind.point = some k → (s.cs.set.points.get k).mode = .none) :
    s.toPrereq r = s.toIssue { r with handoff := .notNeeded } := by
  unfold State.toPrereq State.toClaim State.toHandoff
  rw [hl, hc]
  dsimp only
  cases hk : r.kind.point with
  | none => rfl
  | some k => simp [hp k hk, State.takePoint, State.waitOf]

/-- A met list of a kind without claims, its point of mode NONE. -/
theorem toPrereq_metPointless {s : State} {r w : SlotRec} {l : ListName} (hl : r.kind.list = some l)
    (hd : r.deadline = none) (hf : s.firstUnmet l = none)
    (hw : w = { r with stage := .waitPrereq, deadline := some s.cs.set.tPrereqWait })
    (hc : r.claimTargets s.cs.set = none)
    (hp : ∀ k, r.kind.point = some k → (s.cs.set.points.get k).mode = .none) :
    s.toPrereq r = (s.setSlot w).unwatched.toIssue { w with handoff := .notNeeded } := by
  have none : w.claimTargets s.cs.set = none := by subst hw; exact hc
  have point : ∀ k, w.kind.point = some k → (s.cs.set.points.get k).mode = .none := by subst hw; exact hp
  rw [toPrereq_met s r w l hl hd hw hf]
  unfold State.toClaim State.toHandoff
  rw [show w.claimTargets (s.setSlot w).unwatched.cs.set = .none from none]
  dsimp only
  cases hk : w.kind.point with
  | none => rfl
  | some k =>
    have : ((s.setSlot w).unwatched.cs.set.points.get k).mode = .none := point k hk
    simp [this, State.takePoint, State.waitOf]

/-- A new transition without a list whose point has mode NONE starts. -/
theorem enterSlot_started {s : State} (h : s.phaseFree) {r : SlotRec} (hk : r.kind.list = none)
    (hc : r.claimTargets s.cs.set = none) (hp : ∀ k, r.kind.point = some k → (s.cs.set.points.get k).mode = .none)
    (hf : r.kind ≠ .forcedRunOut) (ht : r.target ≠ .running) (hd : r.deadline = none) (hs : r.pendingSent = false) :
    Started s s (s.publish (s.enterSlot r)) { r with handoff := .notNeeded } := by
  obtain ⟨_, hq, htrip⟩ := h
  rw [enterSlot_listed (fun e => by rcases e with e | e <;> rw [e] at hk <;> cases hk)
    (fun e => by rcases e with e | e; exacts [(by rw [e] at hk; cases hk), (hf e).elim]), toPrereq_pointless hk hc hp]
  have started := toIssue_started s s { r with handoff := .notNeeded } ht hs htrip hq rfl rfl rfl rfl
  rwa [show ({ r with handoff := .notNeeded, deadline := none } : SlotRec) = { r with handoff := .notNeeded } by
    rw [← hd]] at started

/-- A new transition whose list is met, its point of mode NONE, starts with its watches gone. -/
theorem enterSlot_metStarted {s : State} (h : s.phaseFree) {r : SlotRec} {l : ListName} (hk : r.kind.list = some l)
    (hu : s.firstUnmet l = none) (hc : r.claimTargets s.cs.set = none)
    (hp : ∀ k, r.kind.point = some k → (s.cs.set.points.get k).mode = .none)
    (hn : r.kind = .drain ∨ r.kind = .endCampaign) (ht : r.target ≠ .running) (hd : r.deadline = none)
    (hs : r.pendingSent = false) :
    Started s s.unwatched (s.publish (s.enterSlot r)) { r with handoff := .notNeeded } := by
  obtain ⟨_, hq, htrip⟩ := h
  rw [enterSlot_listed (fun e => by rcases hn with n | n <;> rw [n] at e <;> simp at e)
    (fun e => by rcases hn with n | n <;> rw [n] at e <;> simp at e), toPrereq_metPointless hk hd hu rfl hc hp]
  let w : SlotRec := { r with stage := .waitPrereq, deadline := some s.cs.set.tPrereqWait }
  have started := toIssue_started s (s.setSlot w).unwatched { w with handoff := .notNeeded } ht hs htrip hq rfl rfl rfl
    rfl
  have back : ({ r with handoff := .notNeeded, deadline := none } : SlotRec) = { r with handoff := .notNeeded } := by
    rw [← hd]
  rw [← back]
  exact started

/-- Settles O2: a transition without a waiting stage reaches its SET_PHASE in the event that starts it. -/
theorem directivesStartTheirTransition : Obligations.DirectivesStartTheirTransition := by
  intro src s free
  have slot := free.1
  refine ⟨fun ha hp => ⟨_, exec_row (c := .startCampaign src) rfl ha, ?_⟩,
    fun ha hp => ⟨_, exec_row (c := .hold src) rfl ha, ?_⟩, fun ha hp => ⟨_, exec_row (c := .bank src) rfl ha, ?_⟩,
    fun ha hp hm hc => ⟨_, exec_row (c := .stopRunOut src) rfl ha, ?_⟩,
    fun length close ha hp hm => ⟨_, exec_row (c := .runOut src length close) rfl ha, ?_⟩,
    fun ha hp hu hm => ⟨_, exec_row (c := .drain src) rfl ha, ?_⟩,
    fun ha hp hu => ⟨_, exec_row (c := .endCampaign src) rfl ha, ?_⟩⟩
  · rw [row_start hp slot]
    exact enterSlot_started free rfl rfl nofun nofun nofun rfl rfl
  · rw [row_hold hp slot]
    exact enterSlot_started free rfl rfl nofun nofun nofun rfl rfl
  · rw [row_bank hp slot]
    exact enterSlot_started free rfl rfl nofun nofun nofun rfl rfl
  · rw [row_stop hp hm hc slot]
    exact enterSlot_started free rfl rfl nofun nofun nofun rfl rfl
  · rw [row_runOut hp slot]
    exact enterSlot_started free rfl rfl (fun k e => by cases e; exact hm) nofun nofun rfl rfl
  · rw [row_drain hp slot]
    exact enterSlot_metStarted free rfl hu rfl (fun k e => by cases e; exact hm) (.inl rfl) nofun rfl rfl
  · rw [row_end hp slot]
    exact enterSlot_metStarted free rfl hu rfl nofun (.inr rfl) nofun rfl rfl

/-! ### Waiting on the list, a dwell, a settle, the claims -/

/-- A new transition whose list is unmet waits on it. -/
theorem enterSlot_waits {s u : State} {r : SlotRec} {l : ListName} (hk : r.kind.list = some l)
    (hd : r.kind = .fill ∨ r.kind = .feed → u.ps.dwell = none)
    (hb : r.kind = .resume ∨ r.kind = .forcedRunOut → u.ps.phase = .banked → u.cs.set.tBankExit = 0)
    (hn : r.deadline = none) (hp : r.pendingSent = false) (hf : u.firstUnmet l ≠ none)
    (hl : u.lc = s.lc) (hu : u.du = s.du) (hc : u.cs = s.cs) :
    WaitsOnList s u (s.publish (u.enterSlot r)) r l := by
  rw [enterSlot_listed hd hb]
  exact toPrereq_waits s u r l hk hn hp hf hl hu hc

/-- A RESUME settles in BANKED alone, and where its time is not 0 (R6). -/
theorem settles_not {s : State} (h : s.ps.phase = .hold ∨ s.ps.phase = .banked ∧ s.cs.set.tBankExit = 0) :
    (s.ps.phase = .hold ∨ s.ps.phase = .banked) ∧ (s.ps.phase = .banked → s.cs.set.tBankExit = 0) := by
  rcases h with h | ⟨h, e⟩
  · exact ⟨.inl h, fun k => by rw [h] at k; cases k⟩
  · exact ⟨.inr h, fun _ => e⟩

/-- Settles O3: the evaluation of an unmet list leaves the transition in stage 2 with its watches. -/
theorem unmetListHoldsTheTransition : Obligations.UnmetListHoldsTheTransition := by
  intro src s slot
  refine ⟨fun ha hp hd hf => ⟨_, exec_row (c := .fill src) rfl ha, ?_⟩,
    fun limit u ha hp hd hu hm hf => ⟨_, exec_row (c := .feed src limit) rfl ha, ?_⟩,
    fun ha hp hr hf => ⟨_, exec_row (c := .resume src) rfl ha, ?_⟩,
    fun ha hp hf => ⟨_, exec_row (c := .drain src) rfl ha, ?_⟩,
    fun ha hp hf => ⟨_, exec_row (c := .endCampaign src) rfl ha, ?_⟩⟩
  · rw [row_fill hp slot]
    exact enterSlot_waits rfl (fun _ => hd) nofun rfl rfl hf rfl rfl rfl
  · obtain ⟨lc, du, cs, ps, _, _⟩ := storeLimit_blocks s (Source.authority src) (min 1000 limit.toNat)
    rw [row_feed hp slot hu hm]
    subst hu
    exact enterSlot_waits rfl (fun _ => by rw [ps]; exact hd) nofun rfl rfl hf lc du cs
  · obtain ⟨inHold, settled⟩ := settles_not hp
    rw [row_resume inHold hr slot]
    exact enterSlot_waits rfl nofun (fun _ => settled) rfl rfl hf rfl rfl rfl
  · rw [row_drain hp slot]
    exact enterSlot_waits rfl nofun nofun rfl rfl hf rfl rfl rfl
  · rw [row_end hp slot]
    exact enterSlot_waits rfl nofun nofun rfl rfl hf rfl rfl rfl

/-- A transition that stands in WAIT_DWELL owes its PENDING (R6, R11). -/
theorem dwelling_answered {s u : State} (w : SlotRec) (hw : w.stage = .waitDwell) (hp : w.pendingSent = false)
    (hl : u.lc = s.lc) (hu : u.du = s.du) (hc : u.cs = s.cs) :
    s.publish (u.setSlot w).notePending
        = { u with
            ps := { u.ps with slot := some { w with pendingSent := true } }
            du := (s.publish (u.setSlot w).notePending).du, lc := (s.publish (u.setSlot w).notePending).lc }
      ∧ Answered s (s.publish (u.setSlot w).notePending) w.requester .pending 0 := by
  let v : State := u.setSlot { w with pendingSent := true }
  have owed : (u.setSlot w).notePending = v.reply w.requester .pending :=
    notePending_owed (u.setSlot w) w rfl (by rw [hw]; rfl) hp
  have still : v.atStage .waitPrereq = false := by
    change decide (w.stage = .waitPrereq) = false
    rw [hw]; rfl
  rw [owed]
  exact publish_replied s v w.requester .pending 0 hl hu hc still

/-- Settles O4: a dwell that runs and a settle that is not 0 hold a transition ahead of its list. -/
theorem dwellAndSettleHoldTheTransition : Obligations.DwellAndSettleHoldTheTransition := by
  intro src s slot
  refine ⟨fun ha hp hd => ⟨_, exec_row (c := .fill src) rfl ha, ?_⟩,
    fun limit u ha hp hd hu hm => ⟨_, exec_row (c := .feed src limit) rfl ha, ?_⟩,
    fun ha hp ht hr => ⟨_, exec_row (c := .resume src) rfl ha, ?_⟩⟩
  · rw [row_fill hp slot]
    have dwells : ∀ r : SlotRec, r.kind = .fill →
        s.toDwell r = s.setSlot { r with stage := .waitDwell, deadline := some s.cs.set.tPrereqWait } := fun r hk => by
      simp [State.toDwell, hk, Option.isSome_iff_ne_none.mpr hd]
    rw [State.enterSlot, dwells _ rfl]
    exact dwelling_answered _ rfl rfl rfl rfl rfl
  · obtain ⟨lc, du, cs, ps, _, _⟩ := storeLimit_blocks s (Source.authority src) (min 1000 limit.toNat)
    rw [row_feed hp slot hu hm]
    subst hu
    have dwells : ∀ r : SlotRec, r.kind = .feed →
        (s.storeLimit (Source.authority src) (min 1000 limit.toNat)).toDwell r
          = (s.storeLimit (Source.authority src) (min 1000 limit.toNat)).setSlot { r with
              stage := .waitDwell
              deadline := some (s.storeLimit (Source.authority src) (min 1000 limit.toNat)).cs.set.tPrereqWait } :=
      fun r hk => by simp [State.toDwell, hk, ps, Option.isSome_iff_ne_none.mpr hd]
    rw [State.enterSlot, dwells _ rfl]
    exact dwelling_answered _ rfl rfl lc du cs
  · rw [row_resume (.inr hp) hr slot]
    have settles : ∀ r : SlotRec, r.kind = .resume →
        s.toDwell r = s.setSlot { r with stage := .waitDwell, settle := some s.cs.set.tBankExit } := fun r hk => by
      simp [State.toDwell, hk, hp, ht]
    rw [State.enterSlot, settles _ rfl]
    exact dwelling_answered _ rfl rfl rfl rfl rfl

/-- A new transition whose list is met and that has a claim to make waits in WAIT_CLAIM. -/
theorem enterSlot_claims {s u : State} {r : SlotRec} {l : ListName} {f : Resource → Nat} (hk : r.kind.list = some l)
    (hd : r.kind = .fill ∨ r.kind = .feed → u.ps.dwell = none)
    (hb : r.kind = .resume ∨ r.kind = .forcedRunOut → u.ps.phase = .banked → u.cs.set.tBankExit = 0)
    (hn : r.deadline = none) (hp : r.pendingSent = false) (hf : u.firstUnmet l = none)
    (ht : r.claimTargets u.cs.set = some f) (hx : ∃ x, (u.au.res.get x).holding < min 4000 (f x))
    (hl : u.lc = s.lc) (hu : u.du = s.du) (hc : u.cs = s.cs) :
    WaitsOnClaims s u (s.publish (u.enterSlot r)) r f := by
  rw [enterSlot_listed hd hb, toPrereq_met u r _ l hk hn rfl hf]
  exact toClaim_waits s u r _ f _ rfl ht hx hp (by rw [hl]) hu hc

/-- The targets of a RESUME by the phase it returns to (R5). -/
theorem resume_targets (c : Settings) (p : Phase) (q : Requester) (a : Authority) :
    (SlotRec.new p .resume q a none).claimTargets c
      = some (if p = .running then atMinimumRate c else c.standing.get) := by
  by_cases h : p = .running
  · simp only [SlotRec.claimTargets, SlotRec.new, h, if_true]
    rfl
  · simp only [SlotRec.claimTargets, SlotRec.new, h, if_false]

/-- Settles O5: the targets raised leave a holding short of them, so that the transition waits. -/
theorem claimStageHoldsTheTransition : Obligations.ClaimStageHoldsTheTransition := by
  intro src s slot
  refine ⟨fun ha hp hd hf hx => ⟨_, exec_row (c := .fill src) rfl ha, ?_⟩,
    fun limit u ha hp hd hu hm hf hx => ⟨_, exec_row (c := .feed src limit) rfl ha, ?_⟩,
    fun f ha hp hr hu hf hx => ⟨_, exec_row (c := .resume src) rfl ha, ?_⟩⟩
  · rw [row_fill hp slot]
    exact enterSlot_claims rfl (fun _ => hd) nofun rfl rfl hf rfl hx rfl rfl rfl
  · obtain ⟨lc, du, cs, ps, _, au⟩ := storeLimit_blocks s (Source.authority src) (min 1000 limit.toNat)
    rw [row_feed hp slot hu hm]
    subst hu
    exact enterSlot_claims rfl (fun _ => by rw [ps]; exact hd) nofun rfl rfl hf (by rw [cs]; rfl) (by rw [au]; exact hx)
      lc du cs
  · obtain ⟨inHold, settled⟩ := settles_not hp
    rw [row_resume inHold hr slot]
    exact enterSlot_claims rfl nofun (fun _ => settled) rfl rfl hu (by rw [resume_targets, hf]) hx rfl rfl rfl

/-- A new transition whose list is met and whose claims are held goes on to its SET_PHASE. -/
theorem enterSlot_held {s u : State} {r : SlotRec} {l : ListName} {f : Resource → Nat} (hk : r.kind.list = some l)
    (hd : r.kind = .fill ∨ r.kind = .feed → u.ps.dwell = none)
    (hb : r.kind = .resume ∨ r.kind = .forcedRunOut → u.ps.phase = .banked → u.cs.set.tBankExit = 0)
    (hn : r.deadline = none) (hp : r.pendingSent = false) (hf : u.firstUnmet l = none)
    (ht : r.claimTargets u.cs.set = some f) (hx : u.ClaimsHeld f)
    (hm : ∀ k, r.kind.point = some k → (u.cs.set.points.get k).mode = .none)
    (hsp : u.sp = s.sp) (free : s.sp.tripReq = false ∧ s.sp.psReq = none ∧ s.sp.pairReq = none)
    (hl : u.lc = s.lc) (hu : u.du = s.du) (hc : u.cs = s.cs) :
    StartedOnClaims s u (s.publish (u.enterSlot r)) r f := by
  obtain ⟨trip, phase, pair⟩ := free
  rw [← hsp] at trip phase pair
  rw [enterSlot_listed hd hb, toPrereq_met u r _ l hk hn rfl hf]
  exact toClaim_starts s u r _ f _ rfl ht hx hp hn trip phase pair (by rw [hsp]) hm hl hu hc

/-- Settles O6: claims that are held are reached in the event that raises their targets. -/
theorem claimsHeldStartTheTransition : Obligations.ClaimsHeldStartTheTransition := by
  intro src s ⟨slot, phase, trip⟩ pair
  have free := And.intro trip (And.intro phase pair)
  refine ⟨fun ha hp hd hf hm hx => ⟨_, exec_row (c := .fill src) rfl ha, ?_⟩,
    fun limit u ha hp hd hu hm hf hn hx => ⟨_, exec_row (c := .feed src limit) rfl ha, ?_⟩,
    fun f ha hp hr hu hf hx => ⟨_, exec_row (c := .resume src) rfl ha, ?_⟩⟩
  · rw [row_fill hp slot]
    exact enterSlot_held rfl (fun _ => hd) nofun rfl rfl hf rfl hx (fun k e => by cases e; exact hm) rfl free rfl rfl rfl
  · obtain ⟨lc, du, cs, ps, sp, au⟩ := storeLimit_blocks s (Source.authority src) (min 1000 limit.toNat)
    rw [row_feed hp slot hu hm]
    have held : u.ClaimsHeld (atMinimumRate s.cs.set) := by
      subst hu
      unfold State.storeLimit
      have target : ∀ t : TU, ∀ x, (s.setTu t).phaseTarget x = s.phaseTarget x := fun t x => by
        simp [State.phaseTarget, hp]
      split
      all_goals
        intro x
        obtain ⟨h1, h2⟩ := hx x
        exact ⟨h1, by rw [target]; exact h2⟩
    subst hu
    exact enterSlot_held rfl (fun _ => by rw [ps]; exact hd) nofun rfl rfl hf (by rw [cs]; rfl) held
      (fun k e => by cases e; rw [cs]; exact hn) sp free lc du cs
  · obtain ⟨inHold, settled⟩ := settles_not hp
    rw [row_resume inHold hr slot]
    exact enterSlot_held rfl nofun (fun _ => settled) rfl rfl hu (by rw [resume_targets, hf]) hx nofun rfl free rfl rfl rfl

/-! ### Directives that act at once -/

/-- A directive whose work places one reply and moves no waiting list. -/
theorem replied {s u : State} {q : Requester} {o : Reply} (hl : u.lc = s.lc) (hd : u.du = s.du) (hc : u.cs = s.cs)
    (hw : u.atStage .waitPrereq = false) : Replied s u (s.publish (u.reply q o)) q o 0 :=
  publish_replied s u q o 0 hl hd hc hw

theorem inHold_cases {p : Phase} (h : p.inHold = true) : p = .hold ∨ p = .banked := by
  cases p <;> first | exact .inl rfl | exact .inr rfl | cases h

theorem atStage_ps {s u : State} (h : u.ps.slot = s.ps.slot) (g : Stage) : u.atStage g = s.atStage g := by
  unfold State.atStage; rw [h]

/-- Settles O7: the row writes its block and replies. -/
theorem immediateDirectivesActAtOnce : Obligations.ImmediateDirectivesActAtOnce := by
  intro src s still
  refine ⟨fun limit ha hp => ⟨_, exec_row (c := .feed src limit) rfl ha, ?_⟩,
    fun ha hp ho => ⟨_, exec_row (c := .hold src) rfl ha, ?_⟩,
    fun length close ha hp hc => ⟨_, exec_row (c := .runOut src length close) rfl ha, ?_⟩,
    fun length close ha hp hr => ⟨_, exec_row (c := .runOut src length close) rfl ha, ?_⟩⟩
  · obtain ⟨lc, du, cs, ps, _, _⟩ := storeLimit_blocks s (Source.authority src) (min 1000 limit.toNat)
    have row : s.row (Source.requester src) (Source.authority src) (.feed (feedLimit limit))
        = (s.storeLimit (Source.authority src) (min 1000 limit.toNat)).reply (Source.requester src) .taken := by
      change s.rowFeed _ _ _ = _
      rcases hp with hp | hp | ⟨hp, hc⟩
      · simp only [State.rowFeed, hp]; rfl
      · rcases inHold_cases hp with e | e <;> simp only [State.rowFeed, e] <;> rfl
      · simp only [State.rowFeed, hp, hc]; rfl
    have stored : s.storeLimit (Source.authority src) (min 1000 limit.toNat)
        = { s with tu := if Source.authority src = .campaign
              then { s.tu with limitC := min 1000 limit.toNat } else { s.tu with limitS := min 1000 limit.toNat } } := by
      unfold State.storeLimit; split <;> rfl
    rw [row, ← stored]
    exact replied lc du cs ((atStage_ps (by rw [ps]) _).trans still)
  · have row : s.row (Source.requester src) (Source.authority src) .hold
        = (if s.ps.ownerRank < (Source.authority src).rank then
            { s with ps := { s.ps with owner := some (Source.authority src) }, tu := { s.tu with good := 0 } }
          else s).reply (Source.requester src) .taken := by
      have raised : s.raiseOwner (Source.authority src)
          = if s.ps.ownerRank < (Source.authority src).rank then
              { s with ps := { s.ps with owner := some (Source.authority src) }, tu := { s.tu with good := 0 } }
            else s := by
        unfold State.raiseOwner
        split
        · dsimp only
          split
          · rename_i r hr
            rw [if_neg (by simp [ho r hr])]
            rfl
          · rfl
        · rfl
      rw [← raised]
      change s.rowHold _ _ = _
      rcases inHold_cases hp with e | e <;> simp only [State.rowHold, e]
    rw [row]
    split
    · exact replied rfl rfl rfl still
    · exact replied rfl rfl rfl still
  · have row : s.row (Source.requester src) (Source.authority src) (.runOut (runOutData length close))
        = (s.setTu { s.tu with runOut := some (runOutData length close) }).reply (Source.requester src) .taken := by
      change s.rowRunOut _ _ _ = _
      simp [State.rowRunOut, hp, hc]
    rw [row]
    exact replied rfl rfl rfl still
  · have row : s.row (Source.requester src) (Source.authority src) (.runOut (runOutData length close))
        = (s.setPs { s.ps with link := some (.runOut (runOutData length close)) }).reply (Source.requester src)
            .taken := by
      change s.rowRunOut _ _ _ = _
      rcases inHold_cases hp with e | e <;> simp [State.rowRunOut, e, hr]
    rw [row]
    exact replied rfl rfl rfl still

end Sys2Proof.Machine
end

section
/-!
SUPPORT. Handoffs (chapter 6) and the start of a recovery: the points a transition takes, the end of a requester record,
the service of a HANDOFF.
-/

namespace Sys2Proof.Machine

/-- The short mark of an event whose work leaves the mark and the configuration alone (R174). -/
theorem shortMarked_of {s t : State} {l : LC} {c : CS}
    (h : t.lc.shortDue = (l.shortDue || (c.locked && s.shortCalled t))) (hl : l.shortDue = s.lc.shortDue)
    (hc : c = s.cs) : ShortMarked s t := by
  unfold ShortMarked
  rw [h, hl, hc]

/-! ### A handoff point on the way to the SET_PHASE (R9, R119) -/

/-- A transition whose record is empty takes its point and goes on. -/
theorem toHandoff_takes {u : State} {r : SlotRec} {k : Point} (hk : r.kind.point = some k) (hr : u.hu.record = none) :
    u.toHandoff r = (u.takePoint k).toIssue { r with handoff := u.waitOf k } := by
  unfold State.toHandoff
  rw [hk, hr]
  simp

/-- A transition waits while the record is occupied (R9). -/
theorem toHandoff_occupied {u : State} {r : SlotRec} {k : Point} (hk : r.kind.point = some k) (hr : u.hu.record ≠ none)
    (hm : (u.cs.set.points.get k).mode ≠ .none) :
    u.toHandoff r = u.setSlot { r with stage := .waitHandoffSlot, deadline := none } := by
  unfold State.toHandoff
  rw [hk]
  simp [hm, Option.isSome_iff_ne_none.mpr hr]

/-- At WAIT_ISSUE and past it no PENDING is owed. -/
theorem toIssue_notePending {u : State} {r : SlotRec} (hr : r.target ≠ .running) (ht : u.sp.tripReq = false) :
    (u.toIssue r).notePending = u.toIssue r := by
  rw [toIssue_eq u r hr ht]
  split
  · exact notePending_past _ _ (slotIssued_slot _ _ rfl) rfl
  · exact notePending_past _ _ rfl rfl

/-- The SET_PHASE of a transition that has not been told issues with its TAKEN, into the empty list. -/
theorem toIssue_taken {u : State} {r : SlotRec} (hr : r.target ≠ .running) (hp : r.pendingSent = false)
    (ht : u.sp.tripReq = false) (hq : u.sp.psReq = none) (ho : u.sp.outstanding = []) :
    u.toIssue r = State.reply { u with
      ps := { u.ps with slot := some { r with stage := .waitAck, deadline := none } }
      sp := u.sp.issued u.cs.set (.setPhase r.target .transition) } r.requester .taken := by
  have none : { u.sp.issued u.cs.set (.setPhase r.target .transition) with psReq := none }
      = u.sp.issued u.cs.set (.setPhase r.target .transition) := by unfold SP.issued; rw [hq]
  rw [toIssue_eq u r hr ht, if_pos ho, none]
  unfold State.slotIssued
  simp only [hp]
  rfl

/-- A transition that has not been told takes its point into the empty record and starts. -/
theorem toHandoff_started {s u : State} {r : SlotRec} {k : Point} (hk : r.kind.point = some k)
    (hr : r.target ≠ .running) (hp : r.pendingSent = false) (he : u.hu.record = none) (ht : u.sp.tripReq = false)
    (hq : u.sp.psReq = none) (ho : u.sp.outstanding = s.sp.outstanding) (hl : u.lc = s.lc) (hu : u.du = s.du)
    (hc : u.cs = s.cs) (hh : u.hu = s.hu) :
    StartedAtPoint s u (s.publish (u.toHandoff r).notePending) { r with deadline := none } k := by
  obtain ⟨h, l, taken, point, kept, short⟩ := takePoint_taken u k
  rw [toHandoff_takes hk he, taken, toIssue_notePending (by exact hr) (by exact ht)]
  rw [hh, hl, hc] at point
  rw [hl] at kept short
  by_cases empty : u.sp.outstanding = []
  · rw [toIssue_taken (by exact hr) (by exact hp) (by exact ht) (by exact hq) (by exact empty)]
    let v : State := { u with
      hu := h, lc := l
      ps := { u.ps with slot := some { r with stage := .waitAck, deadline := none, handoff := u.waitOf k } }
      sp := u.sp.issued u.cs.set (.setPhase r.target .transition) }
    obtain ⟨form, told, line, mark⟩ := publish_reply s v r.requester .taken 0
      (publish_calm _ _ (.inl (replyWith_atStage v _ _ _ _)))
    refine ⟨h, l, u.waitOf k, point, kept.trans line, shortMarked_of mark short hc, ?_⟩
    · rw [if_pos (ho ▸ empty)]
      exact ⟨form, hu ▸ told⟩
  · rw [toIssue_eq _ _ (by exact hr) (by exact ht), if_neg (by exact empty)]
    obtain ⟨form, line, none, mark⟩ := publish_noted s { u with
      hu := h, lc := l
      ps := { u.ps with slot := some { r with stage := .waitIssue, deadline := none, handoff := u.waitOf k } }
      sp := { u.sp with psReq := some (r.target, .transition) } } rfl
    refine ⟨h, l, u.waitOf k, point, kept.trans line, shortMarked_of mark short hc, ?_⟩
    · rw [if_neg (ho ▸ empty)]
      exact ⟨form, none⟩

/-- A transition that has not been told waits for the occupied record. -/
theorem toHandoff_waits {s u : State} {r : SlotRec} {k : Point} (hk : r.kind.point = some k)
    (hp : r.pendingSent = false) (he : u.hu.record ≠ none) (hm : (u.cs.set.points.get k).mode ≠ .none)
    (hl : u.lc = s.lc) (hu : u.du = s.du) (hc : u.cs = s.cs) :
    WaitsForTheRecord s u (s.publish (u.toHandoff r).notePending) { r with deadline := none } := by
  rw [toHandoff_occupied hk he hm,
    notePending_owed _ { r with stage := .waitHandoffSlot, deadline := none } rfl rfl hp]
  exact publish_replied s (u.setSlot { r with stage := .waitHandoffSlot, deadline := none, pendingSent := true })
    r.requester .pending 0 hl hu hc rfl

/-- The end of a record that a transition waits for: the transition takes its own point (R123). -/
theorem handoffEnded_taken {u : State} {r : SlotRec} {k : Point} (hs : u.ps.slot = some r)
    (hw : r.stage = .waitHandoffSlot) (hk : r.kind.point = some k) (hp : r.pendingSent = true)
    (hf : u.ps.frozen = false) (he : u.hu.record = none) (ht : u.sp.tripReq = false) (hq : u.sp.psReq = none)
    (hr : u.sp.pairReq = none) :
    ∃ h l w, PointTaken u.cs.set k u.hu h u.lc l w ∧ LineKept u.lc l ∧ l.shortDue = u.lc.shortDue
      ∧ u.handoffEnded true = { u.goesOn { r with handoff := w } with hu := h, lc := l } := by
  obtain ⟨h, l, taken, point, kept, short⟩ := takePoint_taken (u.setSlot r.fulfil) k
  refine ⟨h, l, u.waitOf k, point, kept, short, ?_⟩
  have fulfilled : u.fulfilHandoff = u.setSlot r.fulfil := by
    unfold State.fulfilHandoff
    rw [hs]; dsimp only
    by_cases e : r.handoff = .awaiting
    · rw [if_pos e]; unfold SlotRec.fulfil; rw [if_pos e]
    · rw [if_neg e]; unfold SlotRec.fulfil State.setSlot State.setPs; rw [if_neg e, ← hs]
  have untested : (u.setSlot r.fulfil).testCompletion = u.setSlot r.fulfil :=
    testCompletion_stays _ fun x hx hc => by
      cases hx
      exact nomatch hc.symm.trans hw
  have polled : (u.setSlot r.fulfil).pollHandoff = (u.setSlot r.fulfil).toHandoff r.fulfil := by
    have stage : r.fulfil.stage = .waitHandoffSlot := hw
    have record : (u.setSlot r.fulfil).hu.record = none := he
    have clear : (u.setSlot r.fulfil).ps.frozen = false := hf
    change (if _ then _ else _) = _
    rw [if_pos (by simp [stage, record, clear])]
  unfold State.handoffEnded
  rw [if_pos rfl, fulfilled, untested, polled, toHandoff_takes (u := u.setSlot r.fulfil) (r := r.fulfil) hk he, taken]
  exact toIssue_silent _ _ (.inl (by exact hp)) (by exact ht) (by exact hq) (by exact hr)

/-- A transition that has come to its list, its deadline started (R6, R7). -/
def SlotRec.onList (r : SlotRec) (c : Settings) : SlotRec :=
  { r with stage := .waitPrereq, deadline := some c.tPrereqWait }

/-- A transition without claims whose list is met reaches its point. -/
theorem enterSlot_metPoint {s : State} {r : SlotRec} {l : ListName} (hk : r.kind.list = some l)
    (hn : r.kind = .drain ∨ r.kind = .endCampaign) (hd : r.deadline = none) (hf : s.firstUnmet l = none)
    (hc : r.claimTargets s.cs.set = none) :
    s.enterSlot r = ((s.setSlot (r.onList s.cs.set)).unwatched.toHandoff (r.onList s.cs.set)).notePending := by
  have none : (r.onList s.cs.set).claimTargets (s.setSlot (r.onList s.cs.set)).unwatched.cs.set = none := hc
  rw [enterSlot_listed (fun e => by rcases hn with n | n <;> rw [n] at e <;> simp at e)
    (fun e => by rcases hn with n | n <;> rw [n] at e <;> simp at e), toPrereq_met s r _ l hk hd rfl hf, ← SlotRec.onList,
    State.toClaim, none]

/-- Settles O8: the point is taken on the way to the SET_PHASE, and a CONFIRM lets the record go. -/
theorem confirmEndsTheWait : Obligations.ConfirmEndsTheWait := by
  intro src s
  refine ⟨?_, ?_, ?_⟩
  · rintro length close _ ⟨slot, phase, trip⟩ ha hp rfl
    have row := exec_row (c := .runOut src length close) rfl ha
    rw [row_runOut hp slot, enterSlot_listed (by nofun) (by nofun)] at row
    exact ⟨fun hr => ⟨_, row, toHandoff_started rfl nofun rfl hr trip phase rfl rfl rfl rfl rfl⟩,
      fun hr hm => ⟨_, row, toHandoff_waits rfl rfl hr hm rfl rfl rfl⟩⟩
  · rintro _ ⟨slot, phase, trip⟩ ha hp hu rfl
    have row := exec_row (c := .drain src) rfl ha
    rw [row_drain hp slot, enterSlot_metPoint (l := .drain) rfl (.inl rfl) rfl hu rfl] at row
    let r : SlotRec := .new .draining .drain (Source.requester src) (Source.authority src) none
    refine ⟨fun hr => ⟨_, row, ?_⟩, fun hr hm => ⟨_, row, ?_⟩⟩
    · have started := toHandoff_started (s := s) (u := (s.setSlot (r.onList s.cs.set)).unwatched)
        (r := r.onList s.cs.set) (k := .drain) rfl nofun rfl hr trip phase rfl rfl rfl rfl rfl
      revert started
      generalize s.publish _ = t
      exact id
    · have waits := toHandoff_waits (s := s) (u := (s.setSlot (r.onList s.cs.set)).unwatched)
        (r := r.onList s.cs.set) (k := .drain) rfl rfl hr hm rfl rfl rfl
      revert waits
      generalize s.publish _ = t
      exact id
  · intro h w ha hr hw
    have row := exec_row (c := .confirm src) rfl ha
    have waits : s.hu.confirmWait = true := by simp [HU.confirmWait, HandoffRec.confirmable, hr, hw]
    rw [show s.row (Source.requester src) (Source.authority src) .confirm
      = s.confirmed.reply (Source.requester src) .taken from if_pos waits] at row
    refine ⟨fun stays => ⟨_, row, ?_⟩, fun r k hs hg hk hp hf ht hq hpair => ?_⟩
    · rw [State.confirmed, handoffEnded_stays _ _ (by exact stays), if_pos rfl]
      refine replied rfl rfl rfl ?_
      unfold State.atStage
      split
      · rename_i x hx
        obtain ⟨y, hy, rfl⟩ := Option.map_eq_some_iff.mp hx
        exact decide_eq_false (stays y hy).1
      · rfl
    · obtain ⟨h', l, w', point, kept, short, ended⟩ := handoffEnded_taken
        (u := s.setHu { s.hu with record := none, counitWait := false }) hs hg hk hp hf rfl ht hq hpair
      let v : State := { s.goesOn { r with handoff := w' } with hu := h', lc := l }
      have told : s.confirmed = v := ended
      obtain ⟨form, delivered, line, mark⟩ := publish_reply s v (Source.requester src) .taken 0
        (publish_calm _ _ (.inl (by
          rw [replyWith_atStage]
          unfold State.atStage
          change decide ((if _ then _ else _) = Stage.waitPrereq) = false
          split <;> rfl)))
      rw [told] at row
      exact ⟨_, h', l, w', row, point, form, delivered, kept.trans line, shortMarked_of mark short rfl⟩

/-! ### The start of a recovery (R137) -/

/-- Settles O9: the recovery's SET_PHASE goes out into the empty list, ahead of everything that may wait. -/
theorem clearTripStartsTheRecovery : Obligations.ClearTripStartsTheRecovery := by
  intro tag s p hl hp hs hq hf hr ht hps hpair hx
  have admitted : s.admits (.port tag) .clearTrip = true := by
    simp [State.admits, State.hears, hl, Source.authority, Directive.allows, hf]
  have target : (if s.workedOff then Phase.drained else .hold) = p := by
    rw [hx]
    by_cases w : s.tu.holdup ≤ s.cs.set.hDr * 60
    · rw [if_pos w, if_pos ((workedOff_iff s).mpr w)]
    · rw [if_neg w, if_neg (mt (workedOff_iff s).mp w)]
  have row : s.row (.port tag) .sectionPanel .clearTrip = s.startRecovery p tag := by
    change s.rowClear (.port tag) = _
    simp [State.rowClear, hp, hq, hf, hr, target, Requester.tag]
  have still : s.atStage .waitPrereq = false := by simp [State.atStage, hs]
  refine ⟨_, exec_row (c := .clearTrip (.port tag)) rfl admitted, fun empty => ?_, fun full => ?_⟩
  · change Replied s _ (s.publish (s.row (.port tag) .sectionPanel .clearTrip)) _ _ _
    let v : State := { s with
      tr := { s.tr with recovery := some ⟨p, tag, .outstanding s.sp.tokenCount, none⟩ }
      sp := { s.sp.issued s.cs.set (.setPhase p .recovery) with recoveryReq := none } }
    have begun : s.startRecovery p tag = v.reply (.port tag) .taken := by
      let w : State := { s with
        tr := { s.tr with recovery := some ⟨p, tag, .waiting, none⟩ }
        sp := { s.sp with recoveryReq := some p } }
      have issues : w.issueNext = v.reply (.port tag) .taken :=
        issueNext_recovery w p ⟨p, tag, .waiting, none⟩ ht hps hpair rfl empty rfl
      change w.issueNext.issueNext = _
      rw [issues]
      exact issueNext_blocked _ rfl
    rw [row, begun]
    exact replied rfl rfl rfl still
  · change Noted s _ (s.publish (s.row (.port tag) .sectionPanel .clearTrip))
    have waits : s.startRecovery p tag = { s with
        tr := { s.tr with recovery := some ⟨p, tag, .waiting, none⟩ }
        sp := { s.sp with recoveryReq := some p } } :=
      arbitrate_full _ full (.inr (.inr (.inr (.inr (.inl (Option.some_ne_none p))))))
    rw [row, waits]
    exact publish_noted s _ still

/-! ### A HANDOFF to the node (R126, R127) -/

theorem addressed_iff (s : State) (b : Byte) : s.addressed b = true ↔ b.toNat = s.cs.set.ownAddress.val := by
  simp [State.addressed]

theorem serves_iff (p : Phase) : p.serves = true ↔ p ∈ [.filled, .running, .hold, .runOut] := by
  cases p <;> simp [Phase.serves]

/-- The codes of the points (11.5). -/
theorem point_ofCode (k : Point) : Point.ofCode k.code = some k := by cases k <;> rfl

theorem point_ofCode_none {n : Nat} (h : 3 < n) : Point.ofCode n = none := by
  match n, h with
  | n + 4, _ => rfl

/-- A delivered HANDOFF with its fields read. -/
theorem takeHandoff_judged {s : State} {a : Station} {p : List Byte} {k : Point} (hr : s.receives = true)
    (hl : p.length = 4) (ha : (byteAt p 0).toNat = s.cs.set.ownAddress.val) (hk : (byteAt p 3).toNat = k.code) :
    s.takeHandoff a p = s.judgeHandoff a (byteAt p 1) (byteAt p 2) k := by
  simp [State.takeHandoff, hr, hl, (addressed_iff s _).mpr ha, hk, point_ofCode]

theorem takeHandoff_discarded {s : State} {a : Station} {p : List Byte}
    (h : s.receives = false ∨ p.length ≠ 4 ∨ (byteAt p 0).toNat ≠ s.cs.set.ownAddress.val ∨ 3 < (byteAt p 3).toNat) :
    s.takeHandoff a p = s := by
  unfold State.takeHandoff
  split
  · rename_i c
    simp only [Bool.and_eq_true, decide_eq_true_eq, addressed_iff] at c
    obtain ⟨⟨hr, hl⟩, ha⟩ := c
    rcases h with h | h | h | h
    · simp [hr] at h
    · exact (h hl).elim
    · exact (h ha).elim
    · rw [point_ofCode_none h]
  · rfl

/-- The HANDOFF_WORK of a new entry, alone to wait, issues into the empty list (R127). -/
theorem serve_issues {s : State} {e : Service} (he : e.state = .waiting) (ho : s.sp.outstanding = [])
    (hq : s.sp.Quiet) (hn : s.hu.NoneWaiting) :
    s.serve e = { s with
      hu := { s.hu with queue := s.hu.queue ++ [{ e with state := .outstanding s.sp.tokenCount }] }
      sp := s.sp.issued s.cs.set (.handoffWork e.work e.point e.requester) } := by
  have taken : ∀ q : List Service, q.all (fun e => e.state ≠ .waiting) = true → ∀ k,
      takeWaiting k (q ++ [e]) = some (e, q ++ [{ e with state := .outstanding k }]) := fun q => by
    induction q with
    | nil => intro _ k; simp [takeWaiting, he]
    | cons x q ih =>
      intro h k
      obtain ⟨hx, hq⟩ : x.state ≠ .waiting ∧ q.all (fun e => e.state ≠ .waiting) = true := by simpa using h
      cases hs : x.state with
      | waiting => exact (hx hs).elim
      | outstanding y => simp [takeWaiting, hs, ih hq k]
  obtain ⟨trip, phase, pair, recovery, turnover, rate⟩ := hq
  let v : State := { s with
    hu := { s.hu with queue := s.hu.queue ++ [{ e with state := .outstanding s.sp.tokenCount }] }
    sp := s.sp.issued s.cs.set (.handoffWork e.work e.point e.requester) }
  have first : (s.setHu { s.hu with queue := s.hu.queue ++ [e] }).issueNext = v := by
    have room : s.sp.outstanding.length < s.sp.room := by
      rw [ho]; unfold SP.room; split <;> decide
    have clear : s.sp.setPhaseOut = false := by simp [SP.setPhaseOut, ho]
    have next : s.sp.nextToken = s.sp.tokenCount := nextToken_empty _ ho
    simp [State.issueNext, State.issueLower, State.issueWork?, State.setHu, State.setSp, trip, phase, pair, recovery,
      turnover, room, clear, next, taken _ hn, emit_empty _ _ _ ho, v]
  have second : v.issueNext = v := by
    have quiet : v.sp.Quiet := ⟨trip, phase, pair, recovery, turnover, rate⟩
    have none : v.hu.NoneWaiting := by
      unfold HU.NoneWaiting at hn ⊢
      simp only [v, List.all_append, hn]
      rfl
    have still := takeWaiting_none v.sp.nextToken _ none
    unfold State.issueNext State.issueLower State.issueWork?
    simp [quiet.trip, quiet.phase, quiet.pair, quiet.recovery, quiet.turnover, quiet.rate, still]
  rw [State.serve, State.arbitrate, first, second]

/-- The HANDOFF_WORK of a new entry waits while a command is outstanding. -/
theorem serve_waits {s : State} (e : Service) (ho : s.sp.outstanding ≠ []) (hl : s.sp.lookAhead = false) :
    s.serve e = { s with hu := { s.hu with queue := s.hu.queue ++ [e] } } :=
  arbitrate_full _ ho (.inl hl)

/-- Settles O43, in the order of R126. -/
theorem handoffsAreServedOrAnswered : Obligations.HandoffsAreServedOrAnswered := by
  intro s a p
  refine ⟨fun h => ?_, fun k hr hl ha hk => ?_⟩
  · change Host.Outcome.next (s.publish (s.takeHandoff a p)) = _
    rw [takeHandoff_discarded h, publish_self]
  have run : exec (.handoff a p) s = .next (s.publish (s.judgeHandoff a (byteAt p 1) (byteAt p 2) k)) := by
    change Host.Outcome.next (s.publish (s.takeHandoff a p)) = _
    rw [takeHandoff_judged hr hl ha hk]
  rw [run]
  refine ⟨fun known => ?_, fun new => ?_⟩
  · have held : s.judgeHandoff a (byteAt p 1) (byteAt p 2) k = s := if_pos (by simpa using known)
    rw [held, publish_self]
  have fresh : (s.hu.queue.any fun e => e.requester = a && e.tag = byteAt p 1) = false := by
    rw [List.any_eq_false]
    intro e he
    simpa using new e he
  refine ⟨fun hp still => ⟨_, rfl, ?_⟩, fun hp => ⟨fun full still => ⟨_, rfl, ?_⟩, ?_⟩⟩
  · have : s.judgeHandoff a (byteAt p 1) (byteAt p 2) k = s.place (.handoffDone a (byteAt p 1) .notReady) := by
      simp [State.judgeHandoff, fresh, mt (serves_iff s.ps.phase).mp hp]
    rw [this]
    exact publish_sent s s _ still
  · have : s.judgeHandoff a (byteAt p 1) (byteAt p 2) k = s.place (.handoffDone a (byteAt p 1) .busy) := by
      simp [State.judgeHandoff, fresh, (serves_iff s.ps.phase).mpr hp, full]
    rw [this]
    exact publish_sent s s _ still
  intro e room he ht hk he' ahead
  obtain ⟨w, rfl⟩ : ∃ w, e = ⟨a, byteAt p 1, w, k, .waiting⟩ := ⟨e.work, by rw [← he, ← ht, ← hk, ← he']⟩
  have served : s.judgeHandoff a (byteAt p 1) (byteAt p 2) k = s.serveWork a (byteAt p 1) (byteAt p 2) k := by
    simp [State.judgeHandoff, fresh, (serves_iff s.ps.phase).mpr hp, Nat.not_le.mpr room]
  rw [served]
  refine ⟨fun hw => ?_, fun high full => ?_⟩
  · have kind : s.serveWork a (byteAt p 1) (byteAt p 2) k = s.serve ⟨a, byteAt p 1, w, k, .waiting⟩ := by
      have low : (byteAt p 2).toNat ≤ 15 := hw ▸ Nat.le_of_lt_succ w.isLt
      have same : Fin.ofNat 16 (byteAt p 2).toNat = w := by rw [← hw]; exact Fin.ofNat_val_eq_self w
      rw [State.serveWork, if_pos low, same]
    rw [kind]
    refine ⟨fun full => ?_, fun empty quiet none => ?_⟩
    · rw [serve_waits _ full ahead, publish_own s _ (by rfl)]
    · rw [serve_issues rfl empty quiet none, publish_own s _ (by rfl)]
  · refine ⟨Config.workKindAbove s.free (byteAt p 2), ?_⟩
    rw [State.serveWork, if_neg (Nat.not_le.mpr high), serve_waits (s := s.useFree) _ full ahead,
      publish_own s _ (by rfl)]
    rfl

/-! ### A HANDOFF_DONE to the node (R120) -/

/-- A delivered HANDOFF_DONE that answers the record. -/
theorem takeHandoffDone_answers {s : State} {a : Station} {p : List Byte} {h : HandoffRec} {x : HandoffCall}
    (hr : s.receives = true) (hl : p.length = 4) (ha : (byteAt p 0).toNat = s.cs.set.ownAddress.val)
    (hh : s.hu.record = some h) (hx : h.call = some x) (hu : x.coUnit = a) (ht : x.tag = byteAt p 1) :
    s.takeHandoffDone a p
      = if byteAt p 2 = 0 then s.answerSuccess h else if byteAt p 2 = 1 then s.answerFailed h else s := by
  simp [State.takeHandoffDone, hr, hl, (addressed_iff s _).mpr ha, hh, HandoffRec.answeredBy, hx, hu, ht]

/-- One that answers nothing changes nothing. -/
theorem takeHandoffDone_discarded {s : State} {a : Station} {p : List Byte}
    (h : s.receives = false ∨ p.length ≠ 4 ∨ (byteAt p 0).toNat ≠ s.cs.set.ownAddress.val ∨ 1 < (byteAt p 2).toNat
      ∨ ∀ h x, s.hu.record = some h → h.call = some x → x.coUnit ≠ a ∨ x.tag ≠ byteAt p 1) :
    s.takeHandoffDone a p = s := by
  unfold State.takeHandoffDone
  split
  · rename_i c
    simp only [Bool.and_eq_true, decide_eq_true_eq, addressed_iff] at c
    obtain ⟨⟨hr, hl⟩, ha⟩ := c
    split
    · rename_i y hy
      split
      · rename_i answered
        rcases h with h | h | h | h | h
        · simp [hr] at h
        · exact (h hl).elim
        · exact (h ha).elim
        · rw [if_neg (by rintro e; rw [e] at h; exact absurd h (by decide)),
            if_neg (by rintro e; rw [e] at h; exact absurd h (by decide))]
        · unfold HandoffRec.answeredBy at answered
          split at answered
          · rename_i x hx
            simp only [Bool.and_eq_true, decide_eq_true_eq] at answered
            exact ((h y x hy hx).elim (· answered.1) (· answered.2)).elim
          · cases answered
      · rfl
    · rfl
  · rfl

/-- Settles O44, by outcome and by the state of the record. -/
theorem handoffAnswersEndTheRecord : Obligations.HandoffAnswersEndTheRecord := by
  intro s a p
  have run : exec (.handoffDone a p) s = .next (s.publish (s.takeHandoffDone a p)) := rfl
  rw [run]
  refine ⟨fun h => by rw [takeHandoffDone_discarded h, publish_self], fun h x hr hl ha hh hx hu ht stays => ?_⟩
  rw [takeHandoffDone_answers hr hl ha hh hx hu ht]
  have still : s.atStage .waitPrereq = false := by
    unfold State.atStage
    split
    · rename_i r hs
      exact decide_eq_false (stays r hs).1
    · rfl
  refine ⟨fun e hb => ?_, fun e hb => ?_, fun d e hd => ⟨fun hb => ?_, fun hb => ?_⟩, fun w e hw => ?_⟩
  · rw [if_pos e, State.answerSuccess, hb, handoffEnded_stays _ _ (by exact stays), if_pos rfl, Bool.not_true,
      Bool.and_false]
    refine ⟨_, rfl, publish_noted s _ ?_⟩
    unfold State.atStage
    split
    · rename_i r hs
      obtain ⟨y, hy, rfl⟩ := Option.map_eq_some_iff.mp hs
      exact decide_eq_false (stays y hy).1
    · rfl
  · rw [if_pos e, State.answerSuccess, hb, handoffEnded_stays _ _ (by exact stays), if_neg nofun, Bool.not_false,
      Bool.and_true, publish_own s _ (by rfl)]
    rfl
  all_goals rw [if_neg (by rw [e]; decide), if_pos e]
  · rw [State.answerFailed, hd]
    dsimp only
    rw [if_pos hb]
    exact ⟨_, rfl, publish_noted s _ still⟩
  · rw [State.answerFailed, hd]
    dsimp only
    rw [if_neg (by simp [hb]), handoffEnded_stays _ _ (by exact stays), if_neg nofun]
    exact ⟨_, rfl, publish_noted s _ still⟩
  · rw [State.answerFailed, hw, publish_self]

end Sys2Proof.Machine
end

section
/-!
SUPPORT. The removals of a transition: by a CANCEL, by a higher hold owner, at a stage deadline.
-/

namespace Sys2Proof.Machine

/-! ### The removal and its replies (R11, R12) -/

/-- The state of a removal once the requester is told and an auto resume's good expiries are counted afresh. -/
def State.toldAway (s : State) (q : Requester) (o : Reply) (d : Byte) : State :=
  { s.withdrawing with
    du := (s.withdrawing.replyWith q o d).du, lc := (s.withdrawing.replyWith q o d).lc, tu := s.tu.recount q }

/-- The recount of an auto resume as the model writes it. -/
theorem recount_reply (u : State) (q : Requester) (o : Reply) (d : Byte) :
    (if q = .autoResume then
        (u.withdrawing.replyWith q o d).setTu { (u.withdrawing.replyWith q o d).tu with good := 0 }
      else u.withdrawing.replyWith q o d) = u.toldAway q o d := by
  rw [State.toldAway, ← withdrawn_reply]
  unfold TU.recount
  split <;> rfl

/-- The clean-ups of a removal and the reply to its requester. -/
theorem withdrawn_told (s : State) (q : Requester) (o : Reply) (d : Byte) :
    s.withdrawing.replyWith q o d = { s with
        ps := { s.ps with slot := none }, pv := { s.pv with watches := [] }
        au := (s.withdrawing.replyWith q o d).au, du := (s.withdrawing.replyWith q o d).du
        lc := (s.withdrawing.replyWith q o d).lc }
      ∧ TargetsWithdrawn s (s.withdrawing.replyWith q o d)
      ∧ LineKeptButAllot s.lc (s.withdrawing.replyWith q o d).lc
      ∧ (s.withdrawing.replyWith q o d).lc.shortDue = s.lc.shortDue
      ∧ Delivered s.du s.lc (s.withdrawing.replyWith q o d).du (s.withdrawing.replyWith q o d).lc q o d := by
  obtain ⟨kept, short, told⟩ := replyWith_line s.withdrawing q o d
  obtain ⟨fifo, overflow, due⟩ := withdrawing_fifo s
  obtain ⟨judged, timer⟩ := withdrawing_standing s
  have form := replyWith_eq s.withdrawing q o d
  have e := withdrawing_eq s
  have line : s.withdrawing.lc = { s.lc with allot := s.withdrawing.lc.allot } := congrArg State.lc e
  have au : (s.withdrawing.replyWith q o d).au = s.withdrawing.au := by rw [form]; rfl
  have below : (s.withdrawing.replyWith q o d).belowStanding = s.withdrawing.belowStanding := by rw [form]; rfl
  have cells : ∀ x, (s.withdrawing.replyWith q o d).cell x = s.withdrawing.cell x := fun x => by
    unfold State.cell
    rw [au, kept.1]
  refine ⟨?_, ⟨fun x => (cells x).trans (withdrawing_cell s x), ?_, ?_⟩, ⟨?_, ?_⟩, short.trans due,
    told.congr (withdrawing_du s).symm rfl fifo.symm overflow.symm rfl rfl⟩
  · rw [au]
    generalize (s.withdrawing.replyWith q o d).du = du, (s.withdrawing.replyWith q o d).lc = lc at form
    rw [form, e]
    rfl
  · rw [au, below]; exact judged
  · rw [au]; exact timer
  · have first := kept.1
    rw [line] at first
    generalize s.withdrawing.lc.allot = a at first
    generalize (s.withdrawing.replyWith q o d).lc = l at first ⊢
    rw [first]
  · exact kept.2.trans (by rw [line])

/-- A transition that is told of its removal has left the slot. -/
theorem toldAway_takenOut (s : State) (q : Requester) (o : Reply) (d : Byte) :
    TakenOut s (s.toldAway q o d) q
      ∧ Delivered s.du s.lc (s.toldAway q o d).du (s.toldAway q o d).lc q o d := by
  obtain ⟨form, ⟨cells, standing⟩, line, short, told⟩ := withdrawn_told s q o d
  have away : s.toldAway q o d
      = (s.withdrawing.replyWith q o d).setTu ((s.withdrawing.replyWith q o d).tu.recount q) :=
    (withdrawn_reply s q o d).symm
  generalize s.withdrawing.replyWith q o d = w at away form cells standing line short told
  rw [away]
  refine ⟨⟨?_, ⟨fun x => ?_, standing⟩, line, short⟩, told⟩
  · generalize w.au = a, w.du = u, w.lc = l at form
    rw [form]
    rfl
  · exact cells x

/-! ### CANCEL and a higher owner (R18, R111) -/

/-- A removal that both requesters are told of leaves the slot empty where no request arises. -/
theorem cancelled_told {u m : State} {r : SlotRec} (q : Requester) (hm : u.removeTransition = m.withdrawing)
    (h : m.noneArises) :
    u.cancelled r q = (m.toldAway r.requester (.refused .cancelled) 0).reply q .taken := by
  have told : u.cancelled r q
      = ((m.toldAway r.requester (.refused .cancelled) 0).reply q .taken).reexamine := by
    rw [← recount_reply, State.cancelled, hm]
    rfl
  have form : (m.toldAway r.requester (.refused .cancelled) 0).reply q .taken
      = { m.withdrawing with
          du := ((m.toldAway r.requester (.refused .cancelled) 0).reply q .taken).du
          lc := ((m.toldAway r.requester (.refused .cancelled) 0).reply q .taken).lc
          tu := m.tu.recount r.requester } := replyWith_eq _ q .taken 0
  have line : ((m.toldAway r.requester (.refused .cancelled) 0).reply q .taken).lc.line = m.lc.line := by
    have first := (replyWith_line m.withdrawing r.requester (.refused .cancelled) 0).1
    have second := (replyWith_line (m.toldAway r.requester (.refused .cancelled) 0) q .taken 0).1
    have both : LineKept m.withdrawing.lc _ := first.trans second
    change ((m.toldAway r.requester (.refused .cancelled) 0).replyWith q .taken 0).lc.line = _
    rw [both.1, withdrawing_eq]
  rw [told, form]
  exact reexamine_removed m _ _ r.requester h line

/-- The withdrawal of a waiting SET_PHASE while a command is outstanding (R12). -/
theorem withdrawPhase_full {u : State} (ho : u.sp.outstanding ≠ []) (hl : u.sp.lookAhead = false) :
    u.withdrawPhase = { u with sp := { u.sp with psReq := none, pairReq := none } } := by
  unfold State.withdrawPhase
  split
  · exact arbitrate_full _ ho (.inl hl)
  · rename_i none
    simp only [Bool.or_eq_true, not_or, Bool.not_eq_true, Option.isSome_eq_false_iff, Option.isNone_iff_eq_none] at none
    obtain ⟨phase, pair⟩ := none
    rw [← phase]
    conv => rhs; rw [← pair]

/-- The clean-ups of a removal do not touch the section port. -/
theorem withdrawing_setSp (u : State) (p : SP) : (u.setSp p).withdrawing = u.withdrawing.setSp p := by
  unfold State.withdrawing
  rw [judgeStanding_au, refreshCells_eq, judgeStanding_au, refreshCells_eq]
  rfl

/-- A removal at WAIT_ISSUE while a command is outstanding withdraws the SET_PHASE. -/
theorem removeTransition_withdrawn {u : State} (ho : u.sp.outstanding ≠ []) (hl : u.sp.lookAhead = false) :
    u.removeTransition = (u.setSp { u.sp with psReq := none, pairReq := none }).withdrawing := by
  have sp : u.withdrawing.sp = u.sp := by rw [withdrawing_eq]
  change u.withdrawing.withdrawPhase = _
  rw [withdrawPhase_full (by rw [sp]; exact ho) (by rw [sp]; exact hl), sp, withdrawing_setSp]
  rfl

theorem row_cancel (s : State) (q : Requester) (a : Authority) : s.row q a .cancel = s.rowCancel q a := rfl

theorem rowCancel_slot {s : State} {r : SlotRec} {q : Requester} {a : Authority} (hs : s.ps.slot = some r)
    (ha : a = .campaign ∨ r.requester.isPort = true) :
    s.rowCancel q a = if r.stage.beforeIssue then s.cancelled r q
      else if s.awaitsIssue r then s.cancelAtIssue r q else s.refuse q .tooLate := by
  have passes : (decide (a = .sectionPanel) && !r.requester.isPort) = false := by
    rcases ha with h | h <;> simp [h]
  simp [State.rowCancel, hs, passes]

/-- Settles O10: a removal tells its requester and then the sender. -/
theorem cancelAndOwnerRemoveTheTransition : Obligations.CancelAndOwnerRemoveTheTransition := by
  intro src s r hs arises
  refine ⟨fun hn ha hb hq => ⟨_, exec_row (c := .cancel src) rfl ha, ?_⟩,
    fun u ha hw hp hq ho hl hu => ⟨_, exec_row (c := .cancel src) rfl ha, ?_⟩,
    fun hn ha hh hr hk hb hq => ⟨_, exec_row (c := .hold src) rfl ha, ?_⟩⟩
  · rw [row_cancel, rowCancel_slot hs hq, if_pos hb, cancelled_told _ (removeTransition_eq s hn) arises]
    exact publish_removedTwice s s _ r (.refused .cancelled) _ .taken rfl rfl rfl rfl
  · have awaits : s.awaitsIssue r = true := by
      unfold State.awaitsIssue
      rw [hw]
      split
      · rename_i p e; exact (hp p e).elim
      · rfl
    rw [row_cancel, rowCancel_slot hs hq, if_neg (by rw [hw]; exact nofun), if_pos awaits, State.cancelAtIssue]
    have free : s.useFree = u := hu.symm
    rw [free]
    split
    · left
      let m : State := u.setSp { u.sp with psReq := none, pairReq := none }
      have removed : u.removeTransition = m.withdrawing := removeTransition_withdrawn (hu ▸ ho) (hu ▸ hl)
      have none : m.noneArises := by subst hu; exact arises
      rw [cancelled_told _ removed none]
      exact publish_removedTwice s m _ r (.refused .cancelled) _ .taken (by subst hu; rfl) (by subst hu; rfl)
        (by subst hu; rfl) rfl
    · right
      subst hu
      refine replied rfl rfl rfl ?_
      unfold State.atStage
      rw [hs]
      exact decide_eq_false (by rw [hw]; exact nofun)
  · let u : State := { s with
      ps := { s.ps with owner := some (Source.authority src) }, tu := { s.tu with good := 0 } }
    have raised : s.raiseOwner (Source.authority src) = u.refuseTransition r .holdOwner 0 := by
      have outranked : r.outranked (Source.authority src) = true := by simp [SlotRec.outranked, hk, hb, hq]
      unfold State.raiseOwner
      rw [if_pos hr]
      have slot : ((s.setPs { s.ps with owner := some (Source.authority src) }).setTu { s.tu with good := 0 }).ps.slot
          = some r := hs
      simp only [slot]
      exact if_pos outranked
    have row : s.row (Source.requester src) (Source.authority src) .hold
        = (u.toldAway r.requester (.refused .holdOwner) 0).reply (Source.requester src) .taken := by
      have told := refuseTransition_eq u r .holdOwner 0 hn arises
      rw [State.toldAway, ← told, ← raised]
      change s.rowHold _ _ = _
      rcases inHold_cases hh with e | e <;> simp only [State.rowHold, e]
    rw [row]
    exact publish_removedTwice s u _ r (.refused .holdOwner) _ .taken rfl rfl rfl rfl

/-! ### The stage deadlines (R6 to R8) -/

/-- A refused transition, its slot examined again. -/
theorem refuseTransition_told {s : State} (r : SlotRec) (c : RefusalCode) (d : Byte) (hn : s.sp.NoPhaseWaits) :
    s.refuseTransition r c d = (s.toldAway r.requester (.refused c) d).reexamine := by
  rw [State.refuseTransition, removeTransition_eq s hn, ← recount_reply]

/-- The deadline of a stage refuses its transition. -/
theorem exec_deadline {s : State} {r : SlotRec} {c : Instr} {code : RefusalCode} {detail : Byte}
    (hs : s.ps.slot = some r) (hf : s.ps.frozen = false) (hd : r.deadline = some 0)
    (h : DeadlineRefuses s r c code detail) :
    exec c s = .next (s.publish (s.refuseTransition r code detail)) := by
  have due : r.deadline.due = true := by rw [hd]; rfl
  unfold DeadlineRefuses at h
  cases hg : r.stage <;> rw [hg] at h <;> dsimp only at h
  case waitDwell =>
    obtain ⟨rfl, rfl, rfl⟩ := h
    change execPrereqDeadlineExpiry s = _
    simp [execPrereqDeadlineExpiry, hs, due, hf, State.prereqDeadline, hg]
  case waitPrereq =>
    obtain ⟨rfl, rfl, l, i, hl, hi, rfl⟩ := h
    change execPrereqDeadlineExpiry s = _
    simp [execPrereqDeadlineExpiry, hs, due, hf, State.prereqDeadline, hg, hl, State.deadlineInPrereq, hi]
  case waitClaim =>
    obtain ⟨rfl, rfl, rfl⟩ := h
    change execClaimDeadlineExpiry s = _
    simp [execClaimDeadlineExpiry, hs, due, hf, hg]

/-- Settles O11: the refusal removes the transition, and its end gives the slot again. -/
theorem stageDeadlinesRefuseTheTransition : Obligations.StageDeadlinesRefuseTheTransition := by
  intro s r c code detail hs hn hf hd hc
  have run := exec_deadline hs hf hd hc
  refine ⟨fun arises => ⟨_, run, publish_refusedAway s s r code detail hn arises rfl rfl rfl⟩, fun ht => ?_⟩
  obtain ⟨out, told⟩ := toldAway_takenOut s r.requester (.refused code) detail
  have form := withdrawing_eq s
  have ps : (s.toldAway r.requester (.refused code) detail).ps = { s.ps with slot := none } := by
    change s.withdrawing.ps = _
    rw [form]
  have sp : (s.toldAway r.requester (.refused code) detail).sp = s.sp := by
    change s.withdrawing.sp = _
    rw [form]
  obtain ⟨phase, pair⟩ := hn
  obtain ⟨given, noted⟩ := reexamine_given s (s.toldAway r.requester (.refused code) detail) (by rw [ps])
    (by rw [ps]; exact hf) (by rw [sp]; exact ht) (by rw [sp]; exact phase) (by rw [sp]; exact pair)
  exact ⟨_, _, _, refuseTransition_told r code detail ⟨phase, pair⟩ ▸ run, out, told, given, noted⟩

end Sys2Proof.Machine
end

section
/-!
SUPPORT. Causes (chapter 7): which command takes which cause, the trip entry it makes outside COLD and TRIPPED, and what
it does there.
-/

namespace Sys2Proof.Machine

/-! ### The cause a command takes (R130, R132) -/

theorem Timer.due_iff (t : Timer) : t.due = true ↔ t = some 0 := by simp [Timer.due]

/-- A cause that stands raised is taken where its timer is not due (R132; log 45). -/
theorem takeRaised_standing {s u : State} {x : Cause} (h : s.StillRaised u x) :
    s.takeRaised x = s.publish (u.raiseCause x) := by
  obtain ⟨held, rfl⟩ := h
  exact if_pos held

/-- A timer's cause, taken at its expiry or as it stands raised. -/
theorem timer_raises {s u v : State} {x : Cause} {b : Bool} {p : Prop} [Decidable p] (hb : b = true ↔ p)
    (h : if p then u = v else s.StillRaised u x) :
    (if b then s.publish (v.raiseCause x) else s.takeRaised x) = s.publish (u.raiseCause x) := by
  by_cases hp : p
  · rw [if_pos hp] at h
    rw [if_pos (hb.mpr hp), h]
  · rw [if_neg hp] at h
    rw [if_neg (mt hb.mp hp), takeRaised_standing h]

theorem find_token {p : SP} {k : Token} {o : Outstanding} (h : p.find k = some o) : o.token = k := by
  simpa using List.find?_some h

/-- A failed command other than a SET_RATE leaves the list at its outcome (R154). -/
theorem takeAck_failed {s : State} {k : Token} {o : Outstanding} (h : s.sp.find k = some o) :
    s.takeAck k .failed = ((s.setSp (s.sp.remove k)).outcome o false .phaseRefused).arbitrate := by
  simp [State.takeAck, h, SP.acknowledge, find_token h]

theorem ackTimeout_due {s : State} {k : Token} {o : Outstanding} {kind : Command → Bool} (h : s.sp.find k = some o)
    (hk : kind o.command = true) (hl : o.left = some 0) :
    s.ackTimeout k kind = ((s.setSp (s.sp.remove k)).timedOut o).arbitrate := by
  simp [State.ackTimeout, h, hk, hl, Timer.due]

/-- The failure of a SET_PHASE that is not a recovery's raises its cause, but for a START's in COLD (R155, R130). -/
theorem phaseOutcome_raises {s : State} {w : Purpose} (p : Phase) (c : Cause) (hw : w ≠ .recovery)
    (hc : s.ps.phase ≠ .cold ∨ s.ps.slot = none) : s.phaseOutcome p w false c = s.raiseCause c := by
  cases w with
  | transition =>
    change s.transitionFailed c = _
    unfold State.transitionFailed
    split
    · rename_i e
      rw [hc.resolve_left (not_not.mpr e), State.raiseCause, e]
    · rfl
  | completion | trip => rfl
  | recovery => exact (hw rfl).elim

/-- A second TURNOVER missed in HOLD is STAGNATION (R25). -/
theorem turnoverMissed_raises {s : State} (hp : s.ps.phase = .hold) (hm : s.ps.missed = true) :
    s.turnoverMissed = s.raiseCause .stagnation := by
  simp [State.turnoverMissed, hp, hm]

/-- A command that raises a cause takes it, and an acknowledgement's or a timeout's lets the arbiter judge after it. -/
theorem exec_raises {c : Instr} {s u : State} {x : Cause} (h : Raises c s u x)
    (hc : s.ps.phase ≠ .cold ∨ s.ps.slot = none) :
    exec c s = .next (s.publish (u.raiseCause x)) ∨ exec c s = .next (s.publish (u.raiseCause x).arbitrate) := by
  unfold Raises at h
  split at h
  case h_1 =>
    obtain ⟨rfl, h⟩ := h
    exact .inl (congrArg _ (timer_raises (by simp [Timer.due]) h))
  case h_2 =>
    obtain ⟨rfl, h⟩ := h
    exact .inl (congrArg _ (timer_raises (by simp [Timer.due]) h))
  case h_3 =>
    obtain ⟨due, rfl, rfl⟩ := h
    exact .inl (congrArg _ (if_pos ((Timer.due_iff _).mpr due)))
  case h_4 =>
    obtain ⟨rfl, h⟩ := h
    exact .inl (congrArg _ (timer_raises (Timer.due_iff _) h))
  case h_5 =>
    obtain ⟨rfl, h⟩ := h
    exact .inl (congrArg _ (timer_raises (Timer.due_iff _) h))
  case h_6 =>
    obtain ⟨rfl, h⟩ := h
    refine .inl (congrArg Host.Outcome.next (?_ : (if s.ps.turnover.due then s.publish s.turnoverExpires
      else s.takeRaised .stagnation) = _))
    by_cases due : s.ps.turnover = some 0
    · rw [if_pos due] at h
      obtain ⟨hp, rfl⟩ := h
      rw [if_pos ((Timer.due_iff _).mpr due)]
      simp [State.turnoverExpires, hp, State.setPs]
    · rw [if_neg due] at h
      rw [if_neg (mt (Timer.due_iff _).mp due), takeRaised_standing h]
  case h_7 k =>
    obtain ⟨o, ⟨found, p, w, command, hw⟩, left, rfl, rfl⟩ := h
    right
    change Host.Outcome.next (s.publish (s.ackTimeout k Command.isSetPhase)) = _
    rw [ackTimeout_due found (by rw [command]; rfl) left, State.timedOut, command]
    dsimp only
    rw [State.outcome, command]
    dsimp only
    rw [phaseOutcome_raises p _ hw (by exact hc)]
    rfl
  case h_8 k =>
    obtain ⟨o, ⟨found, p, w, command, hw⟩, rfl, rfl⟩ := h
    right
    change Host.Outcome.next (s.publish (s.takeAck k .failed)) = _
    rw [takeAck_failed found, State.outcome, command]
    dsimp only
    rw [phaseOutcome_raises p _ hw (by exact hc)]
    rfl
  case h_9 k =>
    obtain ⟨o, v, pair, found, command, current, left, rfl, rfl⟩ := h
    right
    change Host.Outcome.next (s.publish (s.ackTimeout k Command.isSetRate)) = _
    rw [ackTimeout_due found (by rw [command]; rfl) left, State.timedOut, command]
    dsimp only
    rw [if_neg (by simp [current])]
    rfl
  case h_10 k =>
    obtain ⟨o, found, command, hp, hm, rfl, rfl⟩ := h
    right
    change Host.Outcome.next (s.publish (s.takeAck k .failed)) = _
    rw [takeAck_failed found, State.outcome, command]
    dsimp only
    rw [if_neg nofun, turnoverMissed_raises (by exact hp) (by exact hm)]
    rfl
  case h_11 k =>
    obtain ⟨o, found, command, left, hp, hm, rfl, rfl⟩ := h
    right
    change Host.Outcome.next (s.publish (s.ackTimeout k Command.isTurnover)) = _
    rw [ackTimeout_due found (by rw [command]; rfl) left, State.timedOut, command]
    dsimp only
    rw [State.outcome, command]
    dsimp only
    rw [if_neg nofun, turnoverMissed_raises (by exact hp) (by exact hm)]
    rfl
  case h_12 => exact h.elim

/-- What the taking of a cause leaves of the state in which it is raised. -/
structure RaisedIn (s u : State) : Prop where
  phase : u.ps.phase = s.ps.phase
  slot : u.ps.slot = s.ps.slot
  waiting : u.ps.waiting = s.ps.waiting
  record : u.tr.record = s.tr.record
  recovery : u.tr.recovery = s.tr.recovery
  config : u.cs = s.cs
  directives : u.du = s.du
  line : u.lc = s.lc

theorem RaisedIn.refl (s : State) : RaisedIn s s := ⟨rfl, rfl, rfl, rfl, rfl, rfl, rfl, rfl⟩

theorem StillRaised.raisedIn {s u : State} {x : Cause} (h : s.StillRaised u x) : RaisedIn s u := by
  obtain ⟨_, rfl⟩ := h
  exact ⟨rfl, rfl, rfl, rfl, rfl, rfl, rfl, rfl⟩

theorem timer_raisedIn {s u v : State} {x : Cause} {p : Prop} [Decidable p]
    (h : if p then u = v else s.StillRaised u x) (kept : RaisedIn s v) : RaisedIn s u := by
  split at h
  · exact h ▸ kept
  · exact StillRaised.raisedIn h

theorem Raises.raisedIn {c : Instr} {s u : State} {x : Cause} (h : Raises c s u x) : RaisedIn s u := by
  unfold Raises at h
  split at h
  case h_1 | h_2 | h_4 | h_5 => exact timer_raisedIn h.2 ⟨rfl, rfl, rfl, rfl, rfl, rfl, rfl, rfl⟩
  case h_3 =>
    obtain ⟨_, rfl, _⟩ := h
    exact ⟨rfl, rfl, rfl, rfl, rfl, rfl, rfl, rfl⟩
  case h_6 =>
    obtain ⟨_, h⟩ := h
    split at h
    · obtain ⟨_, rfl⟩ := h
      exact ⟨rfl, rfl, rfl, rfl, rfl, rfl, rfl, rfl⟩
    · exact StillRaised.raisedIn h
  case h_7 =>
    obtain ⟨_, _, _, rfl, _⟩ := h
    exact ⟨rfl, rfl, rfl, rfl, rfl, rfl, rfl, rfl⟩
  case h_8 =>
    obtain ⟨_, _, rfl, _⟩ := h
    exact ⟨rfl, rfl, rfl, rfl, rfl, rfl, rfl, rfl⟩
  case h_9 =>
    obtain ⟨_, _, _, _, _, _, _, rfl, _⟩ := h
    exact ⟨rfl, rfl, rfl, rfl, rfl, rfl, rfl, rfl⟩
  case h_10 =>
    obtain ⟨_, _, _, _, _, rfl, _⟩ := h
    exact ⟨rfl, rfl, rfl, rfl, rfl, rfl, rfl, rfl⟩
  case h_11 =>
    obtain ⟨_, _, _, _, _, _, rfl, _⟩ := h
    exact ⟨rfl, rfl, rfl, rfl, rfl, rfl, rfl, rfl⟩
  case h_12 => exact h.elim

/-! ### Trip entry (R133) -/

/-- Outside COLD and TRIPPED a cause is a trip entry (R132). -/
theorem raiseCause_trips {s : State} (x : Cause) (hc : s.ps.phase ≠ .cold) (ht : s.ps.phase ≠ .tripped) :
    s.raiseCause x = s.tripEntry x := by
  unfold State.raiseCause
  cases hp : s.ps.phase <;> first | rfl | contradiction

/-- The SET_PHASE TRIPPED of a trip entry holds everything back (R159). -/
theorem tripEntry_arbitrate (s : State) (x : Cause) : (s.tripEntry x).arbitrate = s.tripEntry x := by
  have held : (s.tripEntry x).sp.setPhaseOut = true := by
    rw [tripEntry_eq]; rfl
  rw [State.arbitrate, issueNext_blocked _ held, issueNext_blocked _ held]

theorem tripCause_requester (src : Source) : (Source.requester src).tripCause = Source.cause src := by
  cases src <;> rfl

/-- Settles O14: every cause is taken by the one trip entry. -/
theorem raisedCausesTripTheSection : Obligations.RaisedCausesTripTheSection := by
  intro s hc ht
  refine ⟨fun c u x h => ?_, fun src ha => ⟨_, exec_row (c := .trip src) rfl ha, ?_⟩⟩
  · have trips : u.raiseCause x = u.tripEntry x := raiseCause_trips x (h.raisedIn.phase ▸ hc) (h.raisedIn.phase ▸ ht)
    have run : exec c s = .next (s.publish (u.tripEntry x)) := by
      rcases exec_raises h (.inl hc) with e | e
      · rw [e, trips]
      · rw [e, trips, tripEntry_arbitrate]
    exact ⟨_, run, publish_entry s u x⟩
  · have row : s.row (Source.requester src) (Source.authority src) .trip
        = (s.tripEntry (Source.cause src)).reply (Source.requester src) .taken := by
      change s.rowTrip (Source.requester src) = _
      rw [State.rowTrip, if_neg hc, tripCause_requester, raiseCause_trips _ hc ht]
    obtain ⟨entered, replies⟩ := tripEntry_entered s (Source.cause src)
    have calm : (s.tripEntry (Source.cause src)).atStage .waitPrereq = false := by
      unfold State.atStage; rw [entered.sequencer]; rfl
    obtain ⟨form, told, kept, mark⟩ := publish_reply s (s.tripEntry (Source.cause src)) (Source.requester src) .taken 0
      (publish_calm _ _ (.inl ((replyWith_atStage _ _ _ _ _).trans calm)))
    rw [row]
    exact ⟨entered.after kept form fun due => mark.trans (by rw [due]; rfl), _, _, replies, told⟩

/-! ### Causes in TRIPPED and in COLD (R130, R135, R139) -/

/-- A record takes a later cause as R135 has it. -/
theorem TripRec.add_eq (r : TripRec) (x : Cause) : r.add x = r.with x := by
  unfold TripRec.add TripRec.with
  simp only [Bool.or_eq_true, decide_eq_true_eq, List.contains_iff_mem]

theorem laterCause_eq {s : State} {r : TripRec} (x : Cause) (h : s.tr.record = some r) :
    s.laterCause x = { s with tr := { s.tr with record := some (r.with x) } } := by
  rw [State.laterCause, h, Option.map_some, TripRec.add_eq]
  rfl

/-- In TRIPPED with no recovery a cause joins the record alone. -/
theorem raiseCause_joins {s : State} {r : TripRec} (x : Cause) (hp : s.ps.phase = .tripped)
    (hr : s.tr.record = some r) (hy : s.tr.recovery = none) :
    s.raiseCause x = { s with tr := { s.tr with record := some (r.with x) } } := by
  simp [State.raiseCause, hp, laterCause_eq x hr, State.spoilRecovery, hy]

/-- It spoils a recovery that is outstanding (R139). -/
theorem raiseCause_spoils {s : State} {r : TripRec} {y : Recovery} {k : Token} (x : Cause) (hp : s.ps.phase = .tripped)
    (hr : s.tr.record = some r) (hy : s.tr.recovery = some y) (hk : y.state = .outstanding k) :
    s.raiseCause x = { s with tr := { s.tr with
      record := some (r.with x)
      recovery := some { y with spoil := if y.spoil = none then some x else y.spoil } } } := by
  have spoil : y.spoil.or (some x) = if y.spoil = none then some x else y.spoil := by cases y.spoil <;> rfl
  simp [State.raiseCause, hp, laterCause_eq x hr, State.spoilRecovery, hy, hk, spoil, State.setTr]

/-- It ends a recovery that waits, its requester told (R139). -/
theorem raiseCause_ends {s : State} {r : TripRec} {y : Recovery} (x : Cause) (hp : s.ps.phase = .tripped)
    (hr : s.tr.record = some r) (hy : s.tr.recovery = some y) (hk : y.state = .waiting)
    (hq : ({ s.sp with recoveryReq := none } : SP).Quiet) (hn : s.hu.NoneWaiting) :
    s.raiseCause x = State.reply { s with
      tr := { s.tr with record := some (r.with x), recovery := none }
      sp := { s.sp with recoveryReq := none } } (.port y.tag) (.refused .tripped) := by
  let v : State := { s with
    tr := { s.tr with record := some (r.with x), recovery := none }, sp := { s.sp with recoveryReq := none } }
  have still : v.arbitrate = v := arbitrate_still v hq hn
  rw [State.raiseCause, hp]
  dsimp only
  rw [laterCause_eq x hr, State.spoilRecovery]
  dsimp only
  rw [hy]
  dsimp only
  rw [hk]
  exact congrArg (fun w : State => w.reply (.port y.tag) (.refused .tripped)) still

/-- A reply leaves nothing more for the arbiter. -/
theorem arbitrate_reply {s : State} (q : Requester) (o : Reply) (hq : s.sp.Quiet) (hn : s.hu.NoneWaiting) :
    (s.reply q o).arbitrate = s.reply q o := by
  have form := replyWith_eq s q o 0
  refine arbitrate_still _ ?_ ?_
  · change (s.replyWith q o 0).sp.Quiet
    rw [form]; exact hq
  · change (s.replyWith q o 0).hu.NoneWaiting
    rw [form]; exact hn

/-- The end of the command that takes a cause where nothing waits at the section port. -/
theorem exec_raises_quiet {c : Instr} {s u v : State} {x : Cause} (h : Raises c s u x)
    (hc : s.ps.phase ≠ .cold ∨ s.ps.slot = none) (hv : u.raiseCause x = v) (still : v.arbitrate = v) :
    exec c s = .next (s.publish v) := by
  rcases exec_raises h hc with e | e
  · rw [e, hv]
  · rw [e, hv, still]

/-- In COLD the failure of a START's SET_PHASE ends it REFUSED TRIPPED (R130). -/
theorem exec_startFails {c : Instr} {s u : State} {x : Cause} {r : SlotRec} {k : Token} {o : Outstanding} {p : Phase}
    (h : Raises c s u x) (hc : c = .ackSetPhase k .failed ∨ c = .setPhaseAckTimeout k) (hp : s.ps.phase = .cold)
    (hs : s.ps.slot = some r) (hf : s.sp.find k = some o) (ho : o.command = .setPhase p .transition) :
    exec c s = .next (s.publish
      (((u.setPs { u.ps with slot := none }).reply r.requester (.refused .tripped)).reexamine).arbitrate) := by
  have failed : ∀ y, (s.setSp (s.sp.remove k)).transitionFailed y
      = (((s.setSp (s.sp.remove k)).setPs { s.ps with slot := none }).reply r.requester (.refused .tripped)).reexamine :=
    fun y => by
      have slot : (s.setSp (s.sp.remove k)).ps.slot = some r := hs
      unfold State.transitionFailed
      rw [if_pos (by exact hp), slot]
      rfl
  rcases hc with rfl | rfl
  · obtain ⟨o', ⟨_, _⟩, rfl, _⟩ := h
    change Host.Outcome.next (s.publish (s.takeAck k .failed)) = _
    rw [takeAck_failed hf, State.outcome, ho]
    exact congrArg (fun w : State => Host.Outcome.next (s.publish w.arbitrate)) (failed _)
  · obtain ⟨o', ⟨found, _⟩, left, rfl, _⟩ := h
    have same : o' = o := Option.some.inj (found.symm.trans hf)
    rw [same] at left
    change Host.Outcome.next (s.publish (s.ackTimeout k Command.isSetPhase)) = _
    rw [ackTimeout_due hf (by rw [ho]; rfl) left, State.timedOut, ho]
    dsimp only
    rw [State.outcome, ho]
    exact congrArg (fun w : State => Host.Outcome.next (s.publish w.arbitrate)) (failed _)

/-- Settles O15: in TRIPPED the record and the recovery take the cause, in COLD nothing does. -/
theorem causesInTrippedAndInCold : Obligations.CausesInTrippedAndInCold := by
  intro s
  refine ⟨fun r hp hs hr => ⟨fun src ha hy => ⟨_, exec_row (c := .trip src) rfl ha, ?_⟩, fun c u x h hq hn => ?_⟩,
    fun c u x hp h hq hn hw => ?_⟩
  · have row : s.row (Source.requester src) (Source.authority src) .trip
        = State.reply { s with tr := { s.tr with record := some (r.with (Source.cause src)) } } (Source.requester src)
            .taken := by
      change s.rowTrip (Source.requester src) = _
      rw [State.rowTrip, if_neg (by rw [hp]; exact nofun), tripCause_requester, raiseCause_joins _ hp hr hy]
    rw [row]
    exact replied rfl rfl rfl (by simp [State.atStage, hs])
  · obtain ⟨phase, slot, waiting, record, recovery, config, directives, line⟩ := h.raisedIn
    have warm : s.ps.phase ≠ .cold ∨ s.ps.slot = none := .inr hs
    have calm : ∀ v : State, v.ps = u.ps → v.atStage .waitPrereq = false := fun v e => by
      simp [State.atStage, e, slot, hs]
    have quiet : u.sp.recoveryReq = none → u.sp.Quiet := fun e =>
      ⟨hq.trip, hq.phase, hq.pair, e, hq.turnover, hq.rate⟩
    rw [← record] at hr
    rw [← phase] at hp
    rw [← recovery]
    refine ⟨fun hy hz => ?_, fun y k hy hk hz => ?_, fun y hy hk => ?_⟩
    · exact ⟨_, exec_raises_quiet h warm (raiseCause_joins x hp hr hy) (arbitrate_still _ (quiet hz) hn),
        publish_noted s _ (calm _ rfl)⟩
    · exact ⟨_, exec_raises_quiet h warm (raiseCause_spoils x hp hr hy hk) (arbitrate_still _ (quiet hz) hn),
        publish_noted s _ (calm _ rfl)⟩
    · exact ⟨_, exec_raises_quiet h warm (raiseCause_ends x hp hr hy hk hq hn) (arbitrate_reply _ _ hq hn),
        replied line directives config (calm _ rfl)⟩
  · obtain ⟨phase, slot, waiting, record, recovery, config, directives, line⟩ := h.raisedIn
    refine ⟨fun hs => ?_, fun r k o p hs hc hf ho => ?_⟩
    · have none : u.raiseCause x = u := by rw [State.raiseCause, phase, hp]
      exact ⟨_, exec_raises_quiet h (.inr hs) none (arbitrate_still _ hq hn),
        publish_noted s _ (by simp [State.atStage, slot, hs])⟩
    · let v : State := { u with ps := { s.ps with slot := none } }
      have emptied : u.setPs { u.ps with slot := none } = v := by
        rcases hc with rfl | rfl
        · obtain ⟨_, _, rfl, _⟩ := h; rfl
        · obtain ⟨_, _, _, rfl, _⟩ := h; rfl
      have settled : (v.reply r.requester (.refused .tripped)).reexamine = v.reply r.requester (.refused .tripped) := by
        have form := replyWith_eq v r.requester (.refused .tripped) 0
        have ps : (v.reply r.requester (.refused .tripped)).ps = v.ps := by
          change (v.replyWith _ _ 0).ps = _
          rw [form]; rfl
        refine reexamine_none _ (by rw [ps]) (by rw [ps]; exact hw) ?_
        unfold State.autoHoldStands
        have cold : v.ps.phase = .cold := hp
        rw [ps, cold]
        rfl
      refine ⟨_, exec_startFails h hc hp hs hf ho, ?_⟩
      rw [emptied, settled, arbitrate_reply _ _ (by exact hq) (by exact hn)]
      exact replied (by exact line) (by exact directives) (by exact config) rfl

end Sys2Proof.Machine
end

section
/-!
SUPPORT. Phase changes at an acknowledgement (1.2, 7.4, 8.4), and the entry actions of the blocks.
-/

namespace Sys2Proof.Machine

/-! ### What a phase change leaves to the rest of its event -/

/-- A phase change leaves the line controller's FIFO and the directive unit. -/
theorem changePhase_line (u : State) (p : Phase) (e : EntryInfo) :
    (u.changePhase p e).du = u.du ∧ (u.changePhase p e).lc.fifo = u.lc.fifo
      ∧ (u.changePhase p e).lc.replyOverflow = u.lc.replyOverflow ∧ (u.changePhase p e).lc.line = u.lc.line := by
  have form := changePhase_eq u p e
  have line := enterPhase_lc u p e
  have lc : (u.changePhase p e).lc = { (u.enterPhase p e).lc with allot := (u.changePhase p e).lc.allot } := by
    conv => lhs; rw [form]
  have kept : (u.enterPhase p e).lc.fifo = u.lc.fifo ∧ (u.enterPhase p e).lc.replyOverflow = u.lc.replyOverflow
      ∧ (u.enterPhase p e).lc.line = u.lc.line := by
    rw [line]; split <;> exact ⟨rfl, rfl, rfl⟩
  rw [lc]
  exact ⟨(changePhase_blocks u p e).2.2.2.2.2, kept⟩

/-- What is left to issue after a phase change: nothing that was not waiting before. -/
theorem SP.Quiet.enter {p : SP} (h : p.Quiet) (c : Settings) (old new : Phase) : (p.enter c old new).Quiet :=
  ⟨h.trip, h.phase, h.pair, h.recovery, by simp [SP.enter, h.turnover], by simp [SP.enter, h.rate]⟩

/-- The publication after a phase change adds the note of change alone. -/
theorem publish_phase {s u m y : State} {p : Phase} {e : EntryInfo} {sp : SP} (h : PhaseEntered u m p e sp)
    (hl : LineKept m.lc y.lc) (hy : y = { m with sp := y.sp, du := y.du, lc := y.lc })
    (hs : y.lc.shortDue = m.lc.shortDue) (hp : y.sp.portSilence = m.sp.portSilence)
    (hw : y.atStage .waitPrereq = false) :
    PhaseEntered u (s.publish y) p e y.sp ∧ (s.publish y).du = y.du ∧ (s.publish y).lc.fifo = y.lc.fifo
      ∧ (s.publish y).lc.replyOverflow = y.lc.replyOverflow := by
  obtain ⟨form, line, ⟨fifo, overflow⟩, mark⟩ := publish_noted s y hw
  have du : (s.publish y).du = y.du := by rw [form]
  have sp : (s.publish y).sp = y.sp := by rw [form]
  refine ⟨?_, du, fifo, overflow⟩
  rw [← sp]
  refine h.after (hl.trans line) ?_ (fun due => by rw [mark, hs, due]; rfl) (by rw [sp]; exact hp)
  rw [du, sp]
  generalize (s.publish y).lc = l at form
  rw [form]
  generalize y.sp = a, y.du = b, y.lc = c at hy
  rw [hy]

/-- A phase change keeps the capacity readings. -/
theorem PhaseEntered.reading {u t : State} {p : Phase} {e : EntryInfo} {sp : SP} (h : PhaseEntered u t p e sp)
    (x : Resource) : (t.au.res.get x).reading = (u.au.res.get x).reading := by
  change (t.cell x).a.reading = (u.cell x).a.reading
  rw [h.cells x]
  dsimp only
  split
  · exact Cell.refresh_reading _ _ _ _
  · split
    · exact Cell.refresh_reading _ _ _ _
    · rw [Cell.report_reading]; exact Cell.refresh_reading _ _ _ _

/-- Under rate control holdings that cover their standing requirement cover it after the entry, where the section
publishes no capacity (R75, R78, R89). -/
theorem PhaseEntered.covers {u t : State} {p : Phase} {e : EntryInfo} {sp : SP} (h : PhaseEntered u t p e sp)
    (hp : p.underRate = true) (hc : u.standsCovered)
    (hz : ∀ x, u.cs.set.provider.get x = false ∨ (u.au.res.get x).reading.getD 0 = 0) : t.belowStanding = false := by
  have cs : t.cs = u.cs := by rw [h.kept]
  have ps : t.ps.phase = p := by rw [h.kept]; rfl
  have peers : t.pv = u.pv := by rw [h.kept]
  have published : ∀ x, t.publishedCapacity x = 0 ∧ u.publishedCapacity x = 0 := fun x => by
    unfold State.publishedCapacity
    rw [cs, h.reading x]
    rcases hz x with z | z <;> simp [z]
  have capacity : ∀ x, (t.tally x).capacity = (u.tally x).capacity := fun x => by
    unfold State.tally State.livePeers State.isOwn State.stored
    simp only [(published x).1, (published x).2, cs, peers]
  have sums : ∀ x, t.sumBefore x = u.sumBefore x := fun x => sumBefore_eq t u x (by rw [peers]) cs
  unfold State.belowStanding
  rw [List.any_eq_false]
  intro x _
  obtain ⟨covered, small, room⟩ := hc x
  have needed : t.required x ≤ u.cs.set.standing.get x := by
    unfold State.required
    rw [cs]
    split
    · exact le_refl _
    · exact Nat.zero_le _
  have target : u.cs.set.standing.get x ≤ t.target x := by
    have := phaseTarget_standing t x (by rw [ps]; exact hp)
    rw [cs] at this
    unfold State.target
    omega
  have cell : t.cell x = Cell.refresh ⟨t.target x, u.allotBegun x, u.lc.line = .active⟩ (t.tally x) (t.sumBefore x)
      (u.cell x) := by
    rw [h.cells x]
    dsimp only
    rw [if_pos ((published x).1.trans (published x).2.symm)]
  have holds : u.cs.set.standing.get x ≤ (t.cell x).a.holding := by
    rw [cell]
    exact Cell.le_refresh_holding _ _ _ _ _ covered target (.inr (by rw [sums x, capacity x]; exact room))
  simp only [decide_eq_true_eq, not_lt]
  exact needed.trans holds

/-- No auto hold arises from such an entry (R70). -/
theorem PhaseEntered.noHold {u t : State} {p : Phase} {e : EntryInfo} {sp : SP} (h : PhaseEntered u t p e sp)
    (hf : p.underRate = true → u.ratesFreely) : t.autoHoldStands = false := by
  have ps : t.ps.phase = p := by rw [h.kept]; rfl
  have starve : t.tu.starveExpired = false := by rw [h.kept]; rfl
  have line : t.lc.line = u.lc.line := by rw [h.line.1]
  unfold State.autoHoldStands
  rw [ps, starve, line]
  by_cases hp : p.underRate = true
  · obtain ⟨active, block, covered, none⟩ := hf hp
    have below : t.au.underStanding = false := h.standing.1.trans (h.covers hp covered none)
    have blocked : t.tu.blockExpired = false := by rw [h.kept]; simp [TU.enter, block]
    simp [below, blocked, active]
  · simp only [Bool.not_eq_true] at hp
    simp [hp]

/-! ### The acknowledgement of a SET_PHASE (R154, R155) -/

/-- A SET_PHASE acknowledged DONE leaves the list before its outcome. -/
theorem takeAck_phaseDone {s : State} {k : Token} {o : Outstanding} {p : Phase} {w : Purpose}
    (h : s.sp.find k = some o) (ho : o.command = .setPhase p w) :
    s.takeAck k .done = ((s.setSp (s.sp.remove k)).phaseOutcome p w true .phaseRefused).arbitrate := by
  simp [State.takeAck, h, SP.acknowledge, find_token h, State.outcome, ho, Command.isSetRate]

/-- A phase change that ends a transition, with what follows it up to the reply (R10, R16). -/
theorem issuePairRate_eq (s : State) : s.issuePairRate = s.setSp (s.sp.pairIssued s.cs.set) := by
  unfold State.issuePairRate SP.pairIssued
  cases s.sp.pairRate with
  | none => rfl
  | some v => rfl

theorem pairIssued_quiet {p : SP} (h : p.Quiet) (c : Settings) :
    (p.pairIssued c).Quiet ∧ (p.pairIssued c).portSilence = p.portSilence := by
  unfold SP.pairIssued
  split
  · exact ⟨h, rfl⟩
  · exact ⟨⟨h.trip, h.phase, h.pair, h.recovery, h.turnover, h.rate⟩, rfl⟩

/-- A phase change that ends with an issue at the section port and a DONE, once published. -/
theorem publish_phaseDone {s u : State} {p : Phase} {e : EntryInfo} {sp : SP} (q : Requester)
    (hs : u.ps.slot = none) (hp : sp.portSilence = (u.changePhase p e).sp.portSilence) :
    PhaseEntered u (s.publish (((u.changePhase p e).setSp sp).reply q .done)) p e sp
      ∧ Delivered u.du u.lc (s.publish (((u.changePhase p e).setSp sp).reply q .done)).du
          (s.publish (((u.changePhase p e).setSp sp).reply q .done)).lc q .done 0 := by
  obtain ⟨ps, _, _, _, _, du⟩ := changePhase_blocks u p e
  obtain ⟨_, fifo, overflow, _⟩ := changePhase_line u p e
  have entered := changePhase_entered u p e
  generalize u.changePhase p e = x at hp ps du fifo overflow entered
  have form : (x.setSp sp).reply q .done
      = { x with sp := sp, du := ((x.setSp sp).reply q .done).du, lc := ((x.setSp sp).reply q .done).lc } :=
    replyWith_eq (x.setSp sp) q .done 0
  obtain ⟨kept, short, told⟩ := replyWith_line (x.setSp sp) q .done 0
  change LineKept _ ((x.setSp sp).reply q .done).lc at kept
  change ((x.setSp sp).reply q .done).lc.shortDue = _ at short
  change Delivered _ _ ((x.setSp sp).reply q .done).du ((x.setSp sp).reply q .done).lc _ _ _ at told
  generalize (x.setSp sp).reply q .done = z at form kept short told
  have port : z.sp = sp := by rw [form]
  have calm : z.atStage .waitPrereq = false := by
    have slot : z.ps.slot = none := by rw [form, ps]; exact hs
    simp [State.atStage, slot]
  obtain ⟨final, fdu, ffifo, foverflow⟩ := publish_phase (s := s) (y := z) entered (by exact kept)
    (by rw [port]; exact form) (by exact short) (by rw [port]; exact hp) calm
  exact ⟨port ▸ final, told.congr (by exact du.symm) fdu fifo.symm overflow.symm ffifo foverflow⟩

/-- The withdrawal of the raised targets takes nothing from what keeps an auto hold off. -/
theorem afterAck_ratesFreely {s : State} (k : Token) (h : s.ratesFreely) : (s.afterAck k).ratesFreely := by
  obtain ⟨active, block, covered, none⟩ := h
  refine ⟨active, block, fun x => ?_, fun x => ?_⟩
  · have := covered x
    cases x <;> exact this
  · have := none x
    cases x <;> exact this

/-- The DONE of a SET_PHASE hands the transition on to its phase change (R10, R16). -/
theorem transitionDone_ends {s : State} {r : SlotRec} (k : Token) (p : Phase) (hs : s.ps.slot = some r)
    (hk : r.kind.completes = false) :
    (s.setSp (s.sp.remove k)).transitionDone p = State.reexamine
      (((s.afterAck k).changePhase p (s.entryInfo r)).issuePairRate.reply r.requester .done) := by
  have slot : (s.setSp (s.sp.remove k)).ps.slot = some r := hs
  unfold State.transitionDone
  rw [slot]
  dsimp only
  rw [if_neg (by simp [hk])]
  rfl

/-- After such a reply no request takes the slot and the arbiter has nothing to issue. -/
theorem phaseDone_settled {u x : State} {p : Phase} {e : EntryInfo} {sp sp' : SP} (h : PhaseEntered u x p e sp')
    (q : Requester) (hf : p.underRate = true → u.ratesFreely) (hs : u.ps.slot = none) (hw : u.ps.NoneWaits)
    (hq : sp.Quiet) (hn : u.hu.NoneWaiting) :
    ((x.setSp sp).reply q .done).reexamine = (x.setSp sp).reply q .done
      ∧ ((x.setSp sp).reply q .done).arbitrate = (x.setSp sp).reply q .done := by
  have hold := h.noHold hf
  have slot : x.ps.slot = none := by rw [h.kept]; exact hs
  have waiting : x.ps.waiting = ⟨false, false, false, false⟩ := by rw [h.kept]; exact hw
  have queue : x.hu.NoneWaiting := by rw [h.kept]; exact hn
  refine ⟨?_, arbitrate_reply _ _ hq queue⟩
  have form : (x.setSp sp).reply q .done
      = { x with sp := sp, du := ((x.setSp sp).reply q .done).du, lc := ((x.setSp sp).reply q .done).lc } :=
    replyWith_eq (x.setSp sp) q .done 0
  have line : ((x.setSp sp).reply q .done).lc.line = x.lc.line := by
    have kept := (replyWith_line (x.setSp sp) q .done 0).1.1
    change ((x.setSp sp).replyWith q .done 0).lc.line = _
    rw [kept]; rfl
  generalize (x.setSp sp).reply q .done = z at form line
  refine reexamine_none z (by rw [form]; exact slot) (by rw [form]; exact waiting) ?_
  unfold State.autoHoldStands at hold ⊢
  rw [line]
  generalize z.lc = l at form
  rw [form]
  exact hold

/-- Settles O16: the phase change, the start pair's SET_RATE, DONE, and a slot that no waiting request takes. -/
theorem acknowledgedTransitionsEnterTheirPhase : Obligations.AcknowledgedTransitionsEnterTheirPhase := by
  intro s k o p r hf ho hs hk hw ⟨quiet, still⟩ free
  have freely : p.underRate = true → (s.afterAck k).ratesFreely := fun e => afterAck_ratesFreely k (free e)
  have entered := changePhase_entered (s.afterAck k) p (s.entryInfo r)
  obtain ⟨_, _, port, _⟩ := changePhase_blocks (s.afterAck k) p (s.entryInfo r)
  have cs : ((s.afterAck k).changePhase p (s.entryInfo r)).cs = s.cs := by rw [entered.kept]; rfl
  obtain ⟨pairQuiet, silence⟩ := pairIssued_quiet (quiet.enter s.cs.set s.ps.phase p) s.cs.set
  obtain ⟨reexamined, judged⟩ := phaseDone_settled entered r.requester freely rfl hw pairQuiet still
  have outcome : s.takeAck k .done = (((s.afterAck k).changePhase p (s.entryInfo r)).setSp
      (((s.sp.remove k).enter s.cs.set s.ps.phase p).pairIssued s.cs.set)).reply r.requester .done := by
    rw [takeAck_phaseDone hf ho]
    change ((s.setSp (s.sp.remove k)).transitionDone p).arbitrate = _
    rw [transitionDone_ends k p hs hk, issuePairRate_eq, port, cs]
    exact (congrArg State.arbitrate reexamined).trans judged
  refine ⟨_, congrArg (fun u => Host.Outcome.next (s.publish u)) outcome, ?_⟩
  exact publish_phaseDone r.requester rfl (silence.trans (by rw [port]; rfl))

/-- A kind with a stage 7 brings nothing with its entry. -/
theorem entryInfo_completes (s : State) {r : SlotRec} (h : r.kind.completes = true) : s.entryInfo r = .none := by
  unfold State.entryInfo
  cases hk : r.kind <;> rw [hk] at h <;> first | rfl | cases h

/-- Settles O17: the transition stays in the slot for its completion conditions. -/
theorem fillAndDrainWaitForCompletion : Obligations.FillAndDrainWaitForCompletion := by
  intro s k o p r hf ho hs hk ⟨quiet, still⟩
  let u : State := { s with
    sp := s.sp.remove k, ps := { s.ps with slot := some { r with stage := .waitCompletion } } }
  let x := u.changePhase p .none
  have entered : PhaseEntered u x p .none _ := changePhase_entered u p .none
  obtain ⟨ps, tu, sp, hu, tr, du⟩ := changePhase_blocks u p .none
  obtain ⟨_, fifo, overflow, _⟩ := changePhase_line u p .none
  have outcome : s.takeAck k .done = x := by
    have done : (s.setSp (s.sp.remove k)).phaseOutcome p .transition true .phaseRefused = x := by
      change (s.setSp (s.sp.remove k)).transitionDone p = _
      have slot : (s.setSp (s.sp.remove k)).ps.slot = some r := hs
      unfold State.transitionDone
      rw [slot]
      dsimp only
      rw [if_pos hk, entryInfo_completes _ hk]
      rfl
    rw [takeAck_phaseDone hf ho, done]
    refine arbitrate_still _ ?_ ?_
    · change (u.changePhase p .none).sp.Quiet
      rw [sp]; exact quiet.enter _ _ _
    · change (u.changePhase p .none).hu.NoneWaiting
      rw [hu]; exact still
  have calm : x.atStage .waitPrereq = false := by
    unfold State.atStage
    change (match (u.changePhase p .none).ps.slot with
      | some r => decide (r.stage = .waitPrereq)
      | none => false) = false
    rw [ps]; rfl
  obtain ⟨final, fdu, ffifo, foverflow⟩ := publish_phase (s := s) (y := x) entered (.refl _) rfl rfl rfl calm
  refine ⟨s.publish x, ?_, ?_, fdu.trans du, ffifo.trans fifo, foverflow.trans overflow⟩
  · change Host.Outcome.next (s.publish (s.takeAck k .done)) = _
    rw [outcome]
  · have port : x.sp = (s.sp.remove k).enter s.cs.set s.ps.phase p := sp
    exact port ▸ final

/-! ### The outcome of a recovery's SET_PHASE (R138 to R140) -/

/-- The DONE of a recovery's SET_PHASE, up to what a spoiling cause does after it. -/
theorem recoveryDone_enters {s : State} {y : Recovery} (p : Phase) (hy : s.tr.recovery = some y) :
    s.recoveryDone p
      = let x := ((s.setTr { s.tr with record := none, recovery := none }).changePhase p
          ⟨some .running, some .sectionPanel, none⟩).reply (.port y.tag) .done
        match y.spoil with
        | some c => x.tripEntry c
        | none => x := by
  unfold State.recoveryDone
  rw [hy]
  rfl

/-- The failure of a recovery's SET_PHASE is a later cause (R138). -/
theorem recoveryFailed_eq {s : State} {y : Recovery} {r : TripRec} (c : Cause) (hy : s.tr.recovery = some y)
    (hr : s.tr.record = some r) :
    s.recoveryFailed c = State.reply { s with tr := { s.tr with record := some (r.with c), recovery := none } }
      (.port y.tag) (.refused .tripped) := by
  unfold State.recoveryFailed
  rw [hy]
  dsimp only
  rw [laterCause_eq c hr]
  rfl

/-- Settles O21, by the outcome and the spoiling cause. -/
theorem recoveriesEndAtTheirOutcome : Obligations.RecoveriesEndAtTheirOutcome := by
  intro s k o p y r hf ho hy hr hs ⟨quiet, still⟩
  let u : State := { s with sp := s.sp.remove k, tr := { s.tr with record := none, recovery := none } }
  let x := u.changePhase p ⟨some .running, some .sectionPanel, none⟩
  have entered : PhaseEntered u x p ⟨some .running, some .sectionPanel, none⟩
      ((s.sp.remove k).enter s.cs.set s.ps.phase p) := changePhase_entered u p _
  have calm : ∀ v : State, v.ps = s.ps → v.atStage .waitPrereq = false := fun v e => by
    simp [State.atStage, e, hs]
  have done : s.takeAck k .done = State.arbitrate (match y.spoil with
      | some c => (x.reply (.port y.tag) .done).tripEntry c
      | none => x.reply (.port y.tag) .done) := by
    rw [takeAck_phaseDone hf ho]
    exact congrArg State.arbitrate (recoveryDone_enters (s := s.setSp (s.sp.remove k)) p hy)
  have quietX : x.sp.Quiet := by rw [entered.kept]; exact quiet.enter _ _ _
  have queueX : x.hu.NoneWaiting := by rw [entered.kept]; exact still
  have failed : ∀ c, ((s.setSp (s.sp.remove k)).phaseOutcome p .recovery false c).arbitrate
      = State.reply { s with
          sp := s.sp.remove k
          tr := { s.tr with record := some (r.with c), recovery := none } } (.port y.tag) (.refused .tripped) :=
    fun c => (congrArg State.arbitrate (recoveryFailed_eq (s := s.setSp (s.sp.remove k)) c hy hr)).trans
      (arbitrate_reply _ _ quiet still)
  refine ⟨fun hp => ?_, fun c hc => ?_, ?_, fun hl => ?_⟩
  · rw [hp] at done
    have outcome : s.takeAck k .done = (x.setSp x.sp).reply (.port y.tag) .done :=
      done.trans (arbitrate_reply (s := x) _ _ quietX queueX)
    have told := publish_phaseDone (s := s) (u := u) (p := p) (e := ⟨some .running, some .sectionPanel, none⟩)
      (sp := x.sp) (.port y.tag) hs rfl
    have port : x.sp = (s.sp.remove k).enter s.cs.set s.ps.phase p := by rw [entered.kept]
    refine ⟨_, congrArg (fun u => Host.Outcome.next (s.publish u)) outcome, ?_⟩
    exact ⟨port ▸ told.1, told.2⟩
  · rw [hc] at done
    let m := x.reply (.port y.tag) .done
    have outcome : s.takeAck k .done = m.tripEntry c := done.trans (tripEntry_arbitrate m c)
    obtain ⟨kept, short, told⟩ := replyWith_line x (.port y.tag) .done 0
    obtain ⟨_, fifo, overflow, _⟩ := changePhase_line u p ⟨some .running, some .sectionPanel, none⟩
    have form : m = { x with du := m.du, lc := m.lc } := replyWith_eq x (.port y.tag) .done 0
    have port : m.sp = (s.sp.remove k).enter s.cs.set s.ps.phase p := by rw [form, entered.kept]
    have du : x.du = s.du := (changePhase_blocks u p ⟨some .running, some .sectionPanel, none⟩).2.2.2.2.2
    have begun := entered.after (y := m) kept (by
      have sp : m.sp = x.sp := by rw [form]
      rw [sp]
      exact form) (fun due => short.trans due) (by rw [form])
    exact ⟨_, m, congrArg (fun u => Host.Outcome.next (s.publish u)) outcome, port ▸ begun,
      told.congr du.symm rfl fifo.symm overflow.symm rfl rfl, publish_entry s m c⟩
  · have ack : s.takeAck k .failed
        = ((s.setSp (s.sp.remove k)).phaseOutcome p .recovery false .phaseRefused).arbitrate := by
      rw [takeAck_failed hf, State.outcome, ho]
    exact ⟨_, congrArg (fun u => Host.Outcome.next (s.publish u)) (ack.trans (failed .phaseRefused)),
      replied rfl rfl rfl (calm _ rfl)⟩
  · have timeout : s.ackTimeout k Command.isSetPhase
        = ((s.setSp (s.sp.remove k)).phaseOutcome p .recovery false .portNoAck).arbitrate := by
      rw [ackTimeout_due hf (by rw [ho]; rfl) hl, State.timedOut, ho]
      dsimp only
      rw [State.outcome, ho]
    exact ⟨_, congrArg (fun u => Host.Outcome.next (s.publish u)) (timeout.trans (failed .portNoAck)),
      replied rfl rfl rfl (calm _ rfl)⟩

/-! ### What an entry brings, and the entry actions (R13 to R25, R51, R72, R146) -/

/-- Settles O18, by kind. -/
theorem entriesBringLinkOwnerAndRunOutData : Obligations.EntriesBringLinkOwnerAndRunOutData := by
  intro s r
  refine ⟨fun h => by simp only [State.entryInfo, h], fun h => by simp only [State.entryInfo, h], fun h => ?_,
    fun d h hl => by simp only [State.entryInfo, h, hl], fun h => ?_⟩
  · rcases h with h | h <;> simp only [State.entryInfo, h]
  · rcases h with h | ⟨h, hl⟩
    · simp only [List.mem_cons, List.not_mem_nil, or_false] at h
      rcases h with h | h | h | h | h | h | h <;> simp only [State.entryInfo, h] <;> rfl
    · simp only [State.entryInfo, h, hl]

section
variable (c : Settings) (old new : Phase)

theorem dwellAt_other (h1 : new ≠ .filled) (h2 : new ≠ .drained) : dwellAt c new = none := by
  cases new <;> first | rfl | contradiction

theorem turnoverAt_other (h1 : new ≠ .hold) (h2 : new ≠ .banked) : turnoverAt c new = none := by
  cases new <;> first | rfl | contradiction

theorem holdMaxAt_other (t : Timer) (h1 : new ≠ .hold) (h2 : new ≠ .banked) : holdMaxAt c old new t = none := by
  cases new <;> first | rfl | contradiction

theorem heldThrough_other {α : Type} (b k : Option α) (h1 : new ≠ .hold) (h2 : new ≠ .banked) :
    heldThrough new b k = none := by
  cases new <;> first | rfl | contradiction

theorem intervalAt_stopped (t : Timer) (h : new ∈ [.cold, .primed, .filling, .draining, .drained, .tripped]) :
    intervalAt c old new t = none := by
  simp only [List.mem_cons, List.not_mem_nil, or_false] at h
  rcases h with rfl | rfl | rfl | rfl | rfl | rfl <;> rfl

theorem leavesRate_iff : leavesRate old new = true ↔
    old.underRate = true ∧ new.underRate = false ∨ new = .tripped := by
  simp [leavesRate]

end

/-- Settles O19: the tables of the entry, row by row. -/
theorem entryActionsFollowTheirRules : Obligations.EntryActionsFollowTheirRules := by
  intro c now p u q old new e hp
  refine ⟨?_, ⟨rfl, rfl, dwellAt_other c new⟩, ⟨rfl, rfl, fun h => if_neg h, fun h => if_neg h⟩,
    ⟨rfl, rfl, rfl, rfl, fun h1 h2 => ⟨heldThrough_other new _ _ h1 h2, heldThrough_other new _ _ h1 h2⟩⟩,
    ⟨rfl, rfl, turnoverAt_other c new⟩,
    ⟨fun h => ?_, rfl, fun h1 h2 => holdMaxAt_other c _ new _ h1 h2⟩,
    ⟨rfl, rfl, rfl, fun h => if_neg h, rfl, rfl, fun h => intervalAt_stopped c old new _ h⟩,
    ⟨fun x => ?_, rfl, rfl, fun h => ⟨if_neg h, fun hn => ?_⟩⟩, ⟨fun h => ?_, fun h => ?_⟩,
    ⟨fun ho hn => ?_, fun ho hn => ?_, fun hn => ?_⟩⟩
  · rintro _ _ _ rfl rfl rfl
    refine ⟨?_, ?_, ?_⟩
    · simp [PS.enter, Bool.and_comm]
    · simp [TU.enter, Bool.and_assoc]
    · simp [SP.enter]
  · change holdMaxAt c p.phase .hold p.holdMax = _
    rw [hp]
    exact if_pos (by simpa using h)
  · cases x <;> rfl
  · change (if new = .running then _ else if old = .running ∧ new = .runOut then u.parts else .same 0) = _
    rw [if_neg hn, if_neg h]
  · have leaves := (leavesRate_iff old new).mpr h
    simp [TU.enter, SP.enter, leaves]
  · have stays : leavesRate old new = false := by simpa using mt (leavesRate_iff old new).mp h
    simp [TU.enter, SP.enter, stays]
  · simp [SP.enter, ho, hn]
  · simp [SP.enter, ho, hn]
  · simp [SP.enter, hn]

end Sys2Proof.Machine
end

section
/-!
SUPPORT. The outcomes of the commands that change no phase (8.4), and what the arbiter issues (8.3).
-/

namespace Sys2Proof.Machine

/-! ### Outcomes (R154 to R158) -/

/-- Settles O22: neither acknowledgement changes anything that is published. -/
theorem strayAndLateAcksChangeNothingElse : Obligations.StrayAndLateAcksChangeNothingElse := by
  intro s k
  refine ⟨fun h x => ⟨?_, rfl, rfl, rfl⟩, fun o p w h ho hw ⟨quiet, still⟩ => ?_⟩
  · change Host.Outcome.next (s.publish (s.takeAck k x)) = _
    have stray : s.takeAck k x = s.stray := by simp [State.takeAck, h]
    rw [stray]
    exact congrArg _ (publish_own s _ rfl)
  · change Host.Outcome.next (s.publish (s.takeAck k .done)) = _
    have kept : s.takeAck k .done = s.setSp (s.sp.remove k) := by
      rw [takeAck_phaseDone h ho]
      rcases hw with rfl | rfl <;> exact arbitrate_still _ quiet still
    rw [kept]
    exact congrArg _ (publish_own s _ rfl)

/-- An event that ends at a quiet section port and changes nothing published. -/
theorem publish_still {s v : State} (quiet : v.sp.Quiet) (still : v.hu.NoneWaiting) (h : v.ownEntry = s.ownEntry) :
    s.publish v.arbitrate = v := by
  rw [arbitrate_still _ quiet still, publish_own s v h]

/-- One that places no reply. -/
theorem noted_still {s v : State} (quiet : v.sp.Quiet) (still : v.hu.NoneWaiting)
    (calm : v.atStage .waitPrereq = false) : Noted s v (s.publish v.arbitrate) := by
  rw [arbitrate_still _ quiet still]
  exact publish_noted s v calm

/-- A start pair's SET_RATE starts the interval in RUNNING (R51). -/
theorem startInterval_eq (s : State) (pair : Bool) :
    s.startInterval pair = { s with
      tu := if pair = true ∧ s.ps.phase = .running then { s.tu with interval := some s.cs.set.tInt } else s.tu } := by
  unfold State.startInterval
  by_cases h : pair = true ∧ s.ps.phase = .running
  · rw [if_pos h, if_pos (by simp [h.1, h.2])]; rfl
  · rw [if_neg h, if_neg (by simpa using h)]

/-- A superseded SET_RATE leaves the list alone (R156). -/
theorem takeAck_superseded {s : State} {k : Token} {o : Outstanding} {v : Nat} {pair : Bool} (x : AckOutcome)
    (h : s.sp.find k = some o) (ho : o.command = .setRate v pair) (hs : o.superseded = true) :
    s.takeAck k x = (s.setSp (s.sp.remove k)).arbitrate := by
  simp [State.takeAck, h, SP.acknowledge, find_token h, State.outcome, ho, hs]

/-- Settles O23, by outcome and by the superseded mark. -/
theorem rateOutcomesAreTaken : Obligations.RateOutcomesAreTaken := by
  intro s k o v pair h ho hw quiet still
  refine ⟨fun hs => ⟨⟨_, rfl, ?_⟩, ⟨_, rfl, ?_⟩⟩, fun hs => ⟨fun x => ?_, fun hl => ?_⟩⟩
  · have taken : s.takeAck k .done
        = ((s.setSp (s.sp.removeRate k)).rateDone v pair).arbitrate := by
      simp [State.takeAck, h, SP.acknowledge, find_token h, State.outcome, ho, hs, Command.isSetRate]
    rw [taken, State.rateDone, startInterval_eq]
    exact noted_still ⟨quiet.trip, quiet.phase, quiet.pair, quiet.recovery, quiet.turnover, quiet.rate⟩ still hw
  · have taken : s.takeAck k .failed
        = ((s.setSp (s.sp.remove k)).rateFailed pair).arbitrate := by
      simp [takeAck_failed h, State.outcome, ho, hs]
    rw [taken, State.rateFailed, startInterval_eq]
    exact noted_still ⟨quiet.trip, quiet.phase, quiet.pair, quiet.recovery, quiet.turnover, quiet.rate⟩ still hw
  · change Host.Outcome.next (s.publish (s.takeAck k x)) = _
    rw [takeAck_superseded x h ho hs]
    exact congrArg _ (publish_still
      ⟨quiet.trip, quiet.phase, quiet.pair, quiet.recovery, quiet.turnover, quiet.rate⟩ still rfl)
  · change Host.Outcome.next (s.publish (s.ackTimeout k Command.isSetRate)) = _
    have kept : (s.setSp (s.sp.remove k)).timedOut o = s.setSp (s.sp.remove k) := by
      simp [State.timedOut, ho, hs]
    rw [ackTimeout_due h (by rw [ho]; rfl) hl, kept]
    exact congrArg _ (publish_still
      ⟨quiet.trip, quiet.phase, quiet.pair, quiet.recovery, quiet.turnover, quiet.rate⟩ still rfl)

/-- The outcome of a TURNOVER (R157). -/
theorem takeAck_turnover {s : State} {k : Token} {o : Outstanding} (h : s.sp.find k = some o)
    (ho : o.command = .turnover) (x : AckOutcome) :
    s.takeAck k x = State.arbitrate (if x = .done then (s.setSp (s.sp.remove k)).turnoverDone
      else (s.setSp (s.sp.remove k)).turnoverMissed) := by
  simp [State.takeAck, h, SP.acknowledge, find_token h, State.outcome, ho, Command.isSetRate]

theorem ackTimeout_turnover {s : State} {k : Token} {o : Outstanding} (h : s.sp.find k = some o)
    (ho : o.command = .turnover) (hl : o.left = some 0) :
    s.ackTimeout k Command.isTurnover = (s.setSp (s.sp.remove k)).turnoverMissed.arbitrate := by
  rw [ackTimeout_due h (by rw [ho]; rfl) hl]
  simp [State.timedOut, State.outcome, ho]

/-- Settles O24: only in HOLD has a TURNOVER's outcome an effect beyond the list. -/
theorem turnoverOutcomesAreTaken : Obligations.TurnoverOutcomesAreTaken := by
  intro s k o h ho ⟨quiet, still⟩
  let u : State := s.setSp (s.sp.remove k)
  refine ⟨fun hp => ?_, fun hp => ?_⟩
  · have done : u.turnoverDone = u.setPs { u.ps with missed := false, turnover := some u.cs.set.tTurnover } :=
      if_pos (by exact hp)
    have missed : s.ps.missed = false → u.turnoverMissed = u.setPs { u.ps with missed := true } := fun hm =>
      (if_pos (by exact hp)).trans (if_neg (by change ¬ s.ps.missed = true; simp [hm]))
    refine ⟨?_, fun hm => ⟨?_, fun hl => ?_⟩⟩
    · change Host.Outcome.next (s.publish (s.takeAck k .done)) = _
      rw [takeAck_turnover h ho, if_pos rfl, done]
      exact congrArg _ (publish_still quiet still rfl)
    · change Host.Outcome.next (s.publish (s.takeAck k .failed)) = _
      rw [takeAck_turnover h ho, if_neg nofun, missed hm]
      exact congrArg _ (publish_still quiet still rfl)
    · change Host.Outcome.next (s.publish (s.ackTimeout k Command.isTurnover)) = _
      rw [ackTimeout_turnover h ho hl, missed hm]
      exact congrArg _ (publish_still quiet still rfl)
  · have done : u.turnoverDone = u := if_neg (by exact hp)
    have missed : u.turnoverMissed = u := if_neg (by exact hp)
    refine ⟨fun x => ?_, fun hl => ?_⟩
    · change Host.Outcome.next (s.publish (s.takeAck k x)) = _
      rw [takeAck_turnover h ho, done, missed, ite_self]
      exact congrArg _ (publish_still quiet still rfl)
    · change Host.Outcome.next (s.publish (s.ackTimeout k Command.isTurnover)) = _
      rw [ackTimeout_turnover h ho hl, missed]
      exact congrArg _ (publish_still quiet still rfl)

/-- The entry of a token is the OUTSTANDING one it names. -/
theorem holds_iff (e : Service) (k : Token) : e.holds k = true ↔ e.state = .outstanding k := by
  unfold Service.holds
  cases e.state <;> simp

/-- The end of a service entry takes it from among the others (R127). -/
theorem workEnded_eq {s : State} {k : Token} {before after : List Service} {e : Service}
    (hq : s.hu.queue = before ++ e :: after) (he : e.state = .outstanding k)
    (hx : ∀ x ∈ before ++ after, x.state ≠ .outstanding k) (d : DoneOutcome) :
    s.workEnded k d = State.place { s with hu := { s.hu with queue := before ++ after } }
      (.handoffDone e.requester e.tag d) := by
  have held : e.holds k = true := (holds_iff e k).mpr he
  have other : ∀ x ∈ before ++ after, x.holds k = false := fun x m => by
    simpa using mt (holds_iff x k).mp (hx x m)
  have found : s.hu.queue.find? (fun e => e.holds k) = some e := by
    rw [hq, List.find?_append, List.find?_eq_none.mpr fun x m => by simp [other x (List.mem_append_left _ m)]]
    simp [held]
  have left : (s.hu.queue.filter fun e => !e.holds k) = before ++ after := by
    have whole : (before ++ after).filter (fun e => !e.holds k) = before ++ after :=
      List.filter_eq_self.mpr fun x m => by simp [other x m]
    rw [hq, List.filter_append, List.filter_cons, if_neg (by simp [held]), ← List.filter_append, whole]
  unfold State.workEnded
  rw [found]
  dsimp only
  rw [left]
  rfl

/-- A placed frame leaves nothing more for the arbiter. -/
theorem arbitrate_place {s : State} (m : MsgFrame) (quiet : s.sp.Quiet) (still : s.hu.NoneWaiting) :
    (s.place m).arbitrate = s.place m := arbitrate_still _ quiet still

/-- Settles O25: the entry that the token names is the only one to go. -/
theorem workOutcomesAnswerTheRequester : Obligations.WorkOutcomesAnswerTheRequester := by
  rintro s k o before after e h ⟨w, p, a, ho⟩ hq he hx ⟨quiet, still⟩ hw
  have none : ({ s.hu with queue := before ++ after } : HU).NoneWaiting := by
    unfold HU.NoneWaiting at still ⊢
    rw [hq] at still
    simp only [List.all_append, List.all_cons, Bool.and_eq_true] at still ⊢
    obtain ⟨first, _, last⟩ := still
    exact ⟨first, last⟩
  have ended : ∀ d, ((s.setSp (s.sp.remove k)).workEnded o.token d).arbitrate
      = State.place { s with sp := s.sp.remove k, hu := { s.hu with queue := before ++ after } }
          (.handoffDone e.requester e.tag d) := fun d => by
    rw [find_token h, workEnded_eq (s := s.setSp (s.sp.remove k)) hq he hx]
    exact arbitrate_place _ quiet none
  refine ⟨fun x => ⟨_, rfl, ?_⟩, fun hl => ⟨_, rfl, ?_⟩⟩
  · have taken : s.takeAck k x = ((s.setSp (s.sp.remove k)).workEnded o.token
        (if x = .done then .success else .workFailed)).arbitrate := by
      simp [State.takeAck, h, SP.acknowledge, find_token h, State.outcome, ho, Command.isSetRate]
    rw [taken, ended]
    exact publish_sent s _ _ hw
  · have taken : s.ackTimeout k Command.isWork
        = ((s.setSp (s.sp.remove k)).workEnded o.token .workFailed).arbitrate := by
      rw [ackTimeout_due h (by rw [ho]; rfl) hl]
      simp [State.timedOut, State.outcome, ho]
    rw [taken, ended]
    exact publish_sent s _ _ hw

/-! ### The arbiter (R149 to R152) -/

theorem reply_sp (s : State) (q : Requester) (o : Reply) : (s.reply q o).sp = s.sp := by
  change (s.replyWith q o 0).sp = _
  rw [replyWith_eq]
  rfl

/-- A judgement of the arbiter whose second turn finds a SET_PHASE in the list. -/
theorem arbitrate_once {s v : State} (h : s.issueNext = v) (hv : v.sp.setPhaseOut = true) : s.arbitrate = v := by
  rw [State.arbitrate, h, issueNext_blocked _ hv]

/-- One whose second turn finds the list full. -/
theorem arbitrate_onceFull {s v : State} (h : s.issueNext = v) (ho : v.sp.outstanding ≠ [])
    (hl : v.sp.lookAhead = false) : s.arbitrate = v := by
  rw [State.arbitrate, h, issueNext_full _ ho (.inl hl)]

/-- The issue of a SET_PHASE moves its transition on (R10, R11). -/
theorem slotIssued_issued {s u : State} {r : SlotRec} (hs : u.ps.slot = some r) (hl : u.lc = s.lc) (hd : u.du = s.du)
    (hc : u.cs = s.cs) : Issued s u (s.publish u.slotIssued) r := by
  unfold Issued State.slotIssued
  rw [hs]
  dsimp only
  split
  · exact publish_noted s _ rfl
  · exact replied hl hd hc rfl

/-- A SET_PHASE FILLED or DRAINED changes the phase at its issue (R14, R15). -/
theorem issueNext_completion {s : State} {p : Phase} {r : SlotRec} (ho : s.sp.outstanding = [])
    (ht : s.sp.tripReq = false) (hp : s.sp.psReq = some (p, .completion)) (hs : s.ps.slot = some r) :
    s.issueNext = (State.changePhase { s with
        sp := { s.sp with psReq := none }.issued s.cs.set (.setPhase p .completion)
        ps := { s.ps with slot := none, waiting := ⟨false, false, false, false⟩ }
        au := { s.au with res := .of fun x => { s.au.res.get x with raised := none } } } p .none).reply r.requester
          .done := by
  rw [issueNext_phase s p .completion ht hp ho]
  unfold State.issuePhase
  dsimp only
  rw [emit_empty _ _ _ ho]
  unfold State.completeAtIssue
  have slot : (s.setSp { s.sp.issued s.cs.set (.setPhase p .completion) with psReq := none }).ps.slot = some r := hs
  rw [slot]
  rfl

/-- The completion that issues, once published. -/
theorem completed_issued {s : State} {p : Phase} {r : SlotRec} (ho : s.sp.outstanding = [])
    (ht : s.sp.tripReq = false) (hp : s.sp.psReq = some (p, .completion)) (hs : s.ps.slot = some r) :
    Completed s { s with sp := { s.sp with psReq := none } } (s.publish s.arbitrate) r p s.ps none := by
  refine ⟨fun _ => ?_, fun full => (full ho).elim⟩
  let u : State := { s with
    sp := { s.sp with psReq := none }.issued s.cs.set (.setPhase p .completion)
    ps := { s.ps with slot := none, waiting := ⟨false, false, false, false⟩ }
    au := { s.au with res := .of fun x => { s.au.res.get x with raised := none } } }
  have sp := (changePhase_blocks u p .none).2.2.1
  have judged : s.arbitrate = (u.changePhase p .none).reply r.requester .done := by
    refine arbitrate_once (issueNext_completion ho ht hp hs) ?_
    rw [reply_sp, sp]
    rfl
  have told := publish_phaseDone (s := s) (u := u) (p := p) (e := .none) (sp := (u.changePhase p .none).sp) r.requester
    rfl rfl
  rw [judged]
  exact ⟨sp ▸ told.1, told.2⟩

/-- With no SET_PHASE waiting, the arbiter turns to the lower requests where the list has room. -/
theorem issueNext_lower {s : State} (ht : s.sp.tripReq = false) (hp : s.sp.psReq = none) (hq : s.sp.pairReq = none)
    (hr : s.sp.recoveryReq = none) (room : s.sp.outstanding.length < s.sp.room) (free : s.sp.setPhaseOut = false) :
    s.issueNext = s.issueLower := by
  unfold State.issueNext
  simp [ht, hp, hq, hr, room, free]

/-- An empty list has room. -/
theorem room_empty {p : SP} (h : p.outstanding = []) : p.outstanding.length < p.room ∧ p.setPhaseOut = false := by
  refine ⟨?_, by simp [SP.setPhaseOut, h]⟩
  rw [h]
  unfold SP.room
  split <;> decide

/-- The earliest waiting HANDOFF_WORK, the entries before it being out already (R127). -/
theorem takeWaiting_first (k : Token) {before : List Service} (e : Service) (after : List Service)
    (hb : ∀ x ∈ before, x.state ≠ .waiting) (he : e.state = .waiting) :
    takeWaiting k (before ++ e :: after) = some (e, before ++ { e with state := .outstanding k } :: after) := by
  induction before with
  | nil => simp [takeWaiting, he]
  | cons x before ih =>
    have out := hb x List.mem_cons_self
    cases hx : x.state with
    | waiting => exact (out hx).elim
    | outstanding y => simp [takeWaiting, hx, ih fun z m => hb z (List.mem_cons_of_mem _ m)]

/-- The token after the count is free beside the one command that has the count (R150). -/
theorem nextToken_second (p : SP) (k : Token) (c : Command) (n : Timer) (b : Bool)
    (h : p.outstanding = [⟨k, c, n, b⟩]) (hk : p.tokenCount = k + 1) : p.nextToken = k + 1 := by
  have free : p.tokenUsed (k + 1) = false := by
    simp [SP.tokenUsed, h]
  unfold SP.nextToken
  rw [hk]
  simp [SP.tokenFrom, free]

/-- With the look-ahead permission a SET_RATE goes out beside the TURNOVER (R151). -/
theorem arbitrate_lookAhead {s : State} {v : Nat} (ho : s.sp.outstanding = []) (ht : s.sp.tripReq = false)
    (hp : s.sp.psReq = none) (hq : s.sp.pairReq = none) (hr : s.sp.recoveryReq = none) (hu : s.sp.turnoverReq = true)
    (hn : s.hu.NoneWaiting) (hv : s.sp.rateReq = some v) (hl : s.sp.lookAhead = true) :
    s.arbitrate = { s with
      sp := { s.sp with
        turnoverReq := false, rIss := v, rateReq := s.tu.train.bind (nextStep s.cs.set.maxStep v)
        tokenCount := s.sp.tokenCount + 1 + 1
        outstanding := [⟨s.sp.tokenCount, .turnover, some s.cs.set.tAckTurnover, false⟩,
          ⟨s.sp.tokenCount + 1, .setRate v false, some s.cs.set.tAckRate, false⟩] } } := by
  let m : State := { s with sp := { s.sp.issued s.cs.set .turnover with turnoverReq := false } }
  obtain ⟨room, free⟩ := room_empty ho
  have first : s.issueNext = m := by
    rw [issueNext_lower ht hp hq hr room free]
    unfold State.issueLower
    rw [if_pos hu, State.issueTurnover, emit_empty _ _ _ ho]
    rfl
  have next : m.sp.nextToken = s.sp.tokenCount + 1 :=
    nextToken_second m.sp s.sp.tokenCount .turnover (some s.cs.set.tAckTurnover) false rfl rfl
  have space : m.sp.room = 2 := if_pos hl
  have second : m.issueNext = m.issueStep v := by
    rw [issueNext_lower (s := m) ht hp hq hr (by rw [space]; exact Nat.lt_succ_self 1) rfl]
    unfold State.issueLower State.issueWork?
    rw [if_neg nofun, takeWaiting_none _ _ (by exact hn)]
    have rate : m.sp.rateReq = some v := hv
    simp only [Option.map_none, rate]
  rw [State.arbitrate, first, second, State.issueStep, State.issueRate, SP.emit, next]
  rfl

/-- Settles O26, in the order of the requests' priorities. -/
theorem theArbiterIssuesByPriority : Obligations.TheArbiterIssuesByPriority := by
  intro s
  have run : exec .commandIssue s = .next (s.publish s.arbitrate) := rfl
  rw [run]
  refine ⟨fun ho hk => ?_, fun ho ht => ?_, fun p r ho ht hp hs => ⟨_, rfl, ?_⟩, fun p r ho ht hp _ hs => ⟨_, rfl, ?_⟩,
    fun v r ho ht hp hq hs => ⟨_, rfl, ?_⟩, fun p y ho ht hp hq hr hy hw => ⟨_, rfl, ?_⟩, fun ho ht hp hq hr => ?_⟩
  · rw [arbitrate_full s ho hk, publish_self]
  · have issued : s.issueNext = { s with
        sp := { s.sp.issued s.cs.set (.setPhase .tripped .trip) with tripReq := false } } := by
      simp [State.issueNext, ht, ho, State.issueTrip, emit_empty _ _ _ ho, State.setSp]
    rw [arbitrate_once issued rfl]
    exact congrArg _ (publish_own s _ rfl)
  · rw [arbitrate_transition s p ht hp, if_pos ho]
    exact slotIssued_issued hs rfl rfl rfl
  · exact completed_issued ho ht hp hs
  · rw [arbitrate_pair s v ht hp hq, if_pos ho]
    exact slotIssued_issued hs rfl rfl rfl
  · have issued := issueNext_recovery s p y ht hp hq hr ho hy
    have blocked : (s.issueNext).sp.setPhaseOut = true := by
      rw [issued, reply_sp]
      rfl
    rw [arbitrate_once rfl blocked, issued]
    exact replied rfl rfl rfl hw
  · obtain ⟨room, free⟩ := room_empty ho
    have lower := issueNext_lower ht hp hq hr room free
    refine ⟨fun hu hl => ?_, fun before e after hu hq' hb he hl => ?_, fun v hu hn hv hl => ?_,
      fun v hu hn hv hl => ?_⟩
    · have issued : s.issueNext = { s with sp := { s.sp.issued s.cs.set .turnover with turnoverReq := false } } := by
        rw [lower, State.issueLower, if_pos hu, State.issueTurnover, emit_empty _ _ _ ho]
        rfl
      rw [arbitrate_onceFull issued (List.cons_ne_nil _ _) hl]
      exact congrArg _ (publish_own s _ rfl)
    · have issued : s.issueNext = { s with
          sp := s.sp.issued s.cs.set (.handoffWork e.work e.point e.requester)
          hu := { s.hu with queue := before ++ { e with state := .outstanding s.sp.tokenCount } :: after } } := by
        rw [lower, State.issueLower, if_neg (by simp [hu]), State.issueWork?, hq', takeWaiting_first _ e after hb he,
          nextToken_empty _ ho]
        dsimp only [Option.map_some]
        rw [emit_empty _ _ _ ho]
        rfl
      rw [arbitrate_onceFull issued (List.cons_ne_nil _ _) hl]
      exact congrArg _ (publish_own s _ rfl)
    · rw [arbitrate_rate s v ho ht hp hq hr hu hn hv hl]
      exact congrArg _ (publish_own s _ rfl)
    · rw [arbitrate_lookAhead ho ht hp hq hr hu hn hv hl]
      exact congrArg _ (publish_own s _ rfl)

end Sys2Proof.Machine
end

section
/-!
SUPPORT. The expiries of the timers (1.3, 1.6 to 1.8, 3.8, 6.3, 9.4, 9.5).
-/

namespace Sys2Proof.Machine

/-! ### Turnover, handoff, status period and spacing (R24, R121, R173, R174) -/

theorem turnoverStands_iff (p : SP) :
    p.turnoverStands = true ↔ p.turnoverReq = true ∨ ∃ o ∈ p.outstanding, o.command = .turnover := by
  have kind : ∀ c : Command, c.isTurnover = true ↔ c = .turnover := fun c => by cases c <;> simp [Command.isTurnover]
  simp [SP.turnoverStands, kind]

/-- The expiry in HOLD (R24). -/
theorem turnoverExpires_hold {s : State} (hp : s.ps.phase = .hold) :
    s.turnoverExpires = if s.sp.turnoverStands then s.setPs { s.ps with turnover := some s.cs.set.tTurnover }
      else State.arbitrate { s with
        ps := { s.ps with turnover := some s.cs.set.tTurnover }, sp := { s.sp with turnoverReq := true } } := by
  unfold State.turnoverExpires
  rw [hp]
  rfl

/-- With nothing waiting a turn of the arbiter issues nothing. -/
theorem issueNext_quiet {s : State} (h : s.sp.Quiet) (hn : s.hu.NoneWaiting) : s.issueNext = s := by
  have none := takeWaiting_none s.sp.nextToken _ hn
  unfold State.issueNext State.issueLower State.issueWork?
  simp [h.trip, h.phase, h.pair, h.recovery, h.turnover, h.rate, none]

/-- A TURNOVER issues into an empty list with nothing else waiting. -/
theorem arbitrate_turnover {u : State} (ho : u.sp.outstanding = []) (ht : u.sp.tripReq = false)
    (hp : u.sp.psReq = none) (hq : u.sp.pairReq = none) (hr : u.sp.recoveryReq = none) (hu : u.sp.turnoverReq = true)
    (hv : u.sp.rateReq = none) (hn : u.hu.NoneWaiting) :
    u.arbitrate = u.setSp { u.sp.issued u.cs.set .turnover with turnoverReq := false } := by
  obtain ⟨room, free⟩ := room_empty ho
  have issued : u.issueNext = u.setSp { u.sp.issued u.cs.set .turnover with turnoverReq := false } := by
    rw [issueNext_lower ht hp hq hr room free, State.issueLower, if_pos hu, State.issueTurnover, emit_empty _ _ _ ho]
  rw [State.arbitrate, issued]
  exact issueNext_quiet (s := u.setSp { u.sp.issued u.cs.set .turnover with turnoverReq := false })
    ⟨ht, hp, hq, hr, rfl, hv⟩ hn

/-- Settles O27, timer by timer. -/
theorem turnoverHandoffAndLineTimersExpire : Obligations.TurnoverHandoffAndLineTimersExpire := by
  intro s
  refine ⟨fun hp hd => ?_, fun h hh hd stays => ?_, fun hd hl => ?_, fun hd => ?_⟩
  · have run : exec .turnoverTimerExpiry s = .next (s.publish s.turnoverExpires) :=
      congrArg _ (if_pos ((Timer.due_iff _).mpr hd))
    rw [run, turnoverExpires_hold hp]
    refine ⟨fun h => ?_, fun quiet ho hn => ?_, fun hr hn ho hl => ?_⟩
    · rw [if_pos ((turnoverStands_iff _).mpr h)]
      exact congrArg _ (publish_own s _ rfl)
    · have none : s.sp.turnoverStands = false := by simp [SP.turnoverStands, quiet.turnover, ho]
      have issued := arbitrate_turnover (u := { s with
        ps := { s.ps with turnover := some s.cs.set.tTurnover }, sp := { s.sp with turnoverReq := true } })
        ho quiet.trip quiet.phase quiet.pair quiet.recovery rfl quiet.rate hn
      have same : ({ ({ s.sp with turnoverReq := true } : SP).issued s.cs.set .turnover with turnoverReq := false } : SP)
          = s.sp.issued s.cs.set .turnover := by
        unfold SP.issued
        rw [← quiet.turnover]
      rw [if_neg (by simp [none]), issued]
      refine congrArg Host.Outcome.next ((publish_own s _ (by rfl)).trans ?_)
      rw [← same]
      rfl
    · have none : ¬ s.sp.turnoverStands = true := by
        rw [turnoverStands_iff]
        rintro (h | ⟨o, m, h⟩)
        · rw [hr] at h; cases h
        · exact hn o m h
      have full : State.arbitrate { s with
          ps := { s.ps with turnover := some s.cs.set.tTurnover }, sp := { s.sp with turnoverReq := true } } = { s with
          ps := { s.ps with turnover := some s.cs.set.tTurnover }, sp := { s.sp with turnoverReq := true } } :=
        arbitrate_full _ ho (.inl hl)
      rw [if_neg none, full]
      exact congrArg _ (publish_own s _ rfl)
  · have run : exec .handoffDeadlineExpiry s = .next (s.publish (s.handoffExpires h)) := by
      have due : h.due = true := by rw [HandoffRec.due, hd]; rfl
      change execHandoffDeadlineExpiry s = _
      simp [execHandoffDeadlineExpiry, hh, due]
    have calm : s.atStage .waitPrereq = false := by
      unfold State.atStage
      split
      · rename_i r hs
        exact decide_eq_false (stays r hs).1
      · rfl
    rw [run]
    refine ⟨fun hb => ⟨_, rfl, ?_⟩, fun hb => ⟨_, rfl, ?_⟩⟩
    · rw [State.handoffExpires, if_pos hb]
      exact publish_noted s _ calm
    · rw [State.handoffExpires, if_neg (by simp [hb]), handoffEnded_stays _ _ (by exact stays), if_neg nofun]
      exact publish_noted s _ calm
  · have run : exec .statusPeriodExpiry s = .next (s.publish s.statusPeriod) :=
      congrArg _ (if_pos ((Timer.due_iff _).mpr hd))
    have marked : s.statusPeriod = { s with lc := { s.lc with
        statusTimer := some s.cs.set.statusPeriod, longDue := true
        longAgain := s.lc.longAgain || s.lc.noticeInTransmission
        attempt := s.lc.attempt || s.lc.line = .isolated } } := if_pos hl
    rw [run, marked]
    exact congrArg _ (publish_own s _ rfl)
  · have run : exec .shortSpacingExpiry s = .next (s.publish (s.setLc { s.lc with spacing := none })) :=
      congrArg _ (if_pos ((Timer.due_iff _).mpr hd))
    rw [run]
    exact congrArg _ (publish_own s _ rfl)

/-! ### Internal requests that go straight to their SET_PHASE (R20, R23, R26) -/

/-- A new transition without a list or claims, its point of mode NONE, starts from the state its event has come to. -/
theorem enterSlot_startedFrom {s u : State} {r : SlotRec} (hq : u.sp.psReq = none) (ht : u.sp.tripReq = false)
    (hk : r.kind.list = none) (hc : r.claimTargets u.cs.set = none)
    (hp : ∀ k, r.kind.point = some k → (u.cs.set.points.get k).mode = .none)
    (hb : r.kind = .forcedRunOut → u.ps.phase = .banked → u.cs.set.tBankExit = 0) (hr : r.target ≠ .running)
    (hd : r.deadline = none) (hs : r.pendingSent = false) (ho : u.sp.outstanding = s.sp.outstanding)
    (hl : u.lc = s.lc) (hu : u.du = s.du) (hg : u.cs = s.cs) :
    Started s u (s.publish (u.enterSlot r)) { r with handoff := .notNeeded } := by
  rw [enterSlot_listed (fun e => by rcases e with e | e <;> rw [e] at hk <;> cases hk)
    (fun e => by rcases e with e | e; exacts [(by rw [e] at hk; cases hk), hb e]), toPrereq_pointless hk hc hp]
  have started := toIssue_started s u { r with handoff := .notNeeded } hr hs ht hq ho hl hu hg
  rwa [show ({ r with handoff := .notNeeded, deadline := none } : SlotRec) = { r with handoff := .notNeeded } by
    rw [← hd]] at started

/-- A starve or block timer that runs down with its flag set leaves an auto-hold condition (R69, R70). -/
theorem exec_holdTimer {c : Instr} {s u : State} (hf : s.ps.frozen = false)
    (h : c = .starveTimerExpiry ∧ s.tu.starveTimer = some 0 ∧ s.ps.phase = .running ∧ s.tu.starved = true
        ∧ u = { s with tu := { s.tu with starveTimer := none, starveExpired := true } }
      ∨ c = .blockTimerExpiry ∧ s.tu.blockTimer = some 0 ∧ s.ps.phase.underRate = true ∧ s.tu.blocked = true
        ∧ u = { s with tu := { s.tu with blockTimer := none, blockExpired := true } }) :
    exec c s = .next (s.publish u.requestAutoHold)
      ∧ ∃ t, u = { s with tu := t }
        ∧ ∀ w, ({ s with tu := t, ps := { s.ps with waiting := w } } : State).ownEntry = s.ownEntry := by
  rcases h with ⟨rfl, due, hp, starved, rfl⟩ | ⟨rfl, due, hp, blocked, rfl⟩
  · have stands : (s.setTu { s.tu with starveTimer := none, starveExpired := true }).autoHoldStands = true := by
      simp [State.autoHoldStands, State.setTu, hp, starved]
    refine ⟨?_, _, rfl, fun _ => rfl⟩
    have run : exec .starveTimerExpiry s
        = .next (s.publish (s.setTu { s.tu with starveTimer := none, starveExpired := true }).holdIfStands) :=
      congrArg _ (if_pos (by simp [Timer.due, due, hf]))
    rw [run, State.holdIfStands, if_pos stands]
    rfl
  · have stands : (s.setTu { s.tu with blockTimer := none, blockExpired := true }).autoHoldStands = true := by
      simp [State.autoHoldStands, State.setTu, hp, blocked]
    refine ⟨?_, _, rfl, fun _ => rfl⟩
    have run : exec .blockTimerExpiry s
        = .next (s.publish (s.setTu { s.tu with blockTimer := none, blockExpired := true }).holdIfStands) :=
      congrArg _ (if_pos (by simp [Timer.due, due, hf]))
    rw [run, State.holdIfStands, if_pos stands]
    rfl

/-- Settles O28: the timer's flag asks for the auto hold. -/
theorem starveAndBlockTimersCallForAHold : Obligations.StarveAndBlockTimersCallForAHold := by
  intro c s u hf h
  obtain ⟨run, t, rfl, entry⟩ := exec_holdTimer hf h
  refine ⟨fun ⟨slot, phase, trip⟩ => ⟨_, run, ?_⟩, fun slot => ?_⟩
  · have asked : State.requestAutoHold { s with tu := t } = State.enterSlot { s with tu := t } autoHoldRec :=
      if_neg (by simp [slot, hf])
    rw [asked]
    exact enterSlot_startedFrom phase trip rfl rfl nofun nofun nofun rfl rfl rfl rfl rfl rfl
  · have asked : State.requestAutoHold { s with tu := t }
        = { s with tu := t, ps := { s.ps with waiting := { s.ps.waiting with autoHold := true } } } :=
      if_pos (by simp [Option.isSome_iff_ne_none.mpr slot])
    rw [run, asked]
    exact congrArg _ (publish_own s _ (entry _))

/-! ### Dwell and settle (R6, R13, R19) -/

/-- The list of a transition that has been told is found unmet: it waits with its watches set anew (R7, R42). -/
theorem toPrereq_unmet {u : State} {r : SlotRec} {l : ListName} (hk : r.kind.list = some l)
    (hp : r.pendingSent = true) (hf : u.firstUnmet l ≠ none) :
    (u.toPrereq r).notePending = { u with
      ps := { u.ps with slot := some { r with
        stage := .waitPrereq, deadline := some (r.deadline.getD u.cs.set.tPrereqWait) } }
      pv := { u.pv with watches := u.watchesOf l } } := by
  let w : SlotRec := { r with stage := .waitPrereq, deadline := some (r.deadline.getD u.cs.set.tPrereqWait) }
  have listed : u.toPrereq r = (u.setSlot w).evaluateList w l := by
    unfold State.toPrereq
    rw [hk]
    dsimp only [w]
    cases r.deadline <;> rfl
  have unmet : (u.setSlot w).firstUnmet l = u.firstUnmet l := firstUnmet_lc u u.du u.lc (some w) u.pv.watches l
  have watches : (u.setSlot w).watchesOf l = u.watchesOf l := watchesOf_lc u u.du u.lc (some w) u.pv.watches l
  have waits : (u.setSlot w).evaluateList w l = (u.setSlot w).setPv { u.pv with watches := u.watchesOf l } := by
    unfold State.evaluateList
    rw [unmet, watches]
    cases h : u.firstUnmet l with
    | none => exact (hf h).elim
    | some i => rfl
  rw [listed, waits]
  have told : ((u.setSlot w).setPv { u.pv with watches := u.watchesOf l }).notePending
      = (u.setSlot w).setPv { u.pv with watches := u.watchesOf l } := by
    have slot : ((u.setSlot w).setPv { u.pv with watches := u.watchesOf l }).ps.slot = some w := rfl
    have sent : w.pendingSent = true := hp
    unfold State.notePending
    rw [slot]
    simp [sent]
  exact told

/-- Settles O29: the end of a dwell or a settle hands the transition to its list, or past it. -/
theorem dwellAndSettleEnd : Obligations.DwellAndSettleEnd := by
  intro s hf
  have dwell : s.ps.dwell = some 0 → exec .dwellExpiry s = .next (s.publish s.dwellEnds) := fun due =>
    congrArg _ (if_pos (by simp [Timer.due, due, hf]))
  refine ⟨fun due hw => ?_, fun r l due hs hg hp hn hk hu => ?_, fun r hs hg due hp => ?_⟩
  · have alone : s.dwellEnds = s.setPs { s.ps with dwell := none } := by
      unfold State.dwellEnds
      dsimp only
      split
      · rename_i r hr
        have stage : r.stage ≠ .waitDwell := by
          have slot : s.ps.slot = some r := hr
          simpa [State.atStage, slot] using hw
        simp [stage]
      · rfl
    rw [dwell due, alone]
    exact congrArg _ (publish_own s _ rfl)
  · let u : State := s.setPs { s.ps with dwell := none }
    have ends : s.dwellEnds = (u.toPrereq r).notePending := by
      have slot : u.ps.slot = some r := hs
      have kind : (decide (r.kind = .fill) || decide (r.kind = .feed)) = true := by
        rcases hk with ⟨k, _⟩ | ⟨k, _⟩ <;> simp [k]
      rw [State.dwellEnds]
      change (match u.ps.slot with
        | some r => _
        | none => _) = _
      rw [slot]
      dsimp only
      rw [if_pos (by simp [hg, kind])]
    have list : r.kind.list = some l := by rcases hk with ⟨k, rfl⟩ | ⟨k, rfl⟩ <;> rw [k] <;> rfl
    have unmet : u.firstUnmet l ≠ none := hu
    have deadline : some (r.deadline.getD s.cs.set.tPrereqWait) = r.deadline := by
      cases h : r.deadline with
      | none => exact (hn h).elim
      | some n => rfl
    rw [dwell due, ends, toPrereq_unmet list hp unmet]
    refine congrArg Host.Outcome.next ((publish_own s _ (by rfl)).trans ?_)
    rw [show u.cs.set.tPrereqWait = s.cs.set.tPrereqWait from rfl, deadline]
    rfl
  · have run : exec .settleExpiry s = .next (s.publish (s.settleEnds r)) := by
      change execSettleExpiry s = _
      simp [execSettleExpiry, hs, SlotRec.settleDue, hg, due, Timer.due, hf]
    refine ⟨fun hk hn hu => ?_, fun hk ht hq hpair htrip hm => ?_⟩
    · rw [run, State.settleEnds, toPrereq_unmet (r := { r with settle := none }) (l := .resume)
        (by rw [show ({ r with settle := none } : SlotRec).kind = .resume from hk]; rfl) hp hu]
      refine congrArg Host.Outcome.next ((publish_own s _ (by rfl)).trans ?_)
      rw [show ({ r with settle := none } : SlotRec).deadline = none from hn]
      rfl
    · have listless : ({ r with settle := none } : SlotRec).kind.list = none := by
        rw [show ({ r with settle := none } : SlotRec).kind = .forcedRunOut from hk]; rfl
      have claimless : ({ r with settle := none } : SlotRec).claimTargets s.cs.set = none := by
        simp [SlotRec.claimTargets, hk]
      have pointless : ∀ k, ({ r with settle := none } : SlotRec).kind.point = some k →
          (s.cs.set.points.get k).mode = .none := fun k e => by
        rw [show ({ r with settle := none } : SlotRec).kind = .forcedRunOut from hk] at e
        cases e
        exact hm
      rw [run, State.settleEnds, toPrereq_pointless listless claimless pointless,
        toIssue_goesOn _ { r with settle := none, handoff := .notNeeded } hp htrip hq hpair, goesOn_notePending]
      refine congrArg Host.Outcome.next (publish_own s _ ?_)
      unfold State.goesOn SP.begun SP.asked
      rw [if_neg (show ({ r with settle := none, handoff := .notNeeded } : SlotRec).target ≠ .running by
        rw [show ({ r with settle := none, handoff := .notNeeded } : SlotRec).target = .runOut from ht]; exact nofun),
        if_neg (show ({ r with settle := none, handoff := .notNeeded } : SlotRec).target ≠ .running by
        rw [show ({ r with settle := none, handoff := .notNeeded } : SlotRec).target = .runOut from ht]; exact nofun)]
      split <;> rfl

/-! ### The hold maximum (R23) -/

/-- A forced run-out that is asked for in HOLD or BANKED takes the empty slot (R4, R23). -/
theorem reexamine_forced {t : State} (hf : t.ps.frozen = false) (hs : t.ps.slot = none)
    (hw : t.ps.waiting.forced = true) (hp : t.ps.phase = .hold ∨ t.ps.phase = .banked) :
    t.reexamine = (t.setWaiting ⟨false, false, false, false⟩).enterSlot forcedRec := by
  have none : t.autoHoldStands = false := by
    unfold State.autoHoldStands
    rcases hp with hp | hp <;> rw [hp] <;> rfl
  have valid : t.forcedValid = true := by
    rcases hp with hp | hp <;> simp [State.forcedValid, hw, hp, Phase.inHold]
  simp [State.reexamine, hf, hs, State.giveSlot, valid, none]

/-- Out of HOLD, or of BANKED without a settle, it goes straight to its SET_PHASE. -/
theorem enterSlot_forced {t : State} (hp : t.ps.phase = .hold ∨ t.ps.phase = .banked ∧ t.cs.set.tBankExit = 0)
    (hm : t.cs.set.points.runOut.mode = .none) (ht : t.sp.tripReq = false) (hq : t.sp.psReq = none)
    (hr : t.sp.pairReq = none) : t.enterSlot forcedRec = t.goesOn { forcedRec with handoff := .notNeeded } := by
  rw [enterSlot_listed (by nofun) (fun _ e => (settles_not hp).2 e), toPrereq_pointless rfl rfl
    (fun k e => by cases e; exact hm), toIssue_silent t { forcedRec with handoff := .notNeeded }
    (.inr (by simp [forcedRec, SlotRec.new])) ht hq hr, goesOn_notePending]

/-- Out of BANKED it settles first (R6). -/
theorem enterSlot_forcedSettle {t : State} (hp : t.ps.phase = .banked) (hb : t.cs.set.tBankExit ≠ 0) :
    t.enterSlot forcedRec
      = (t.setSlot { forcedRec with stage := .waitDwell, settle := some t.cs.set.tBankExit }).notePending := by
  have settles : t.toDwell forcedRec
      = t.setSlot { forcedRec with stage := .waitDwell, settle := some t.cs.set.tBankExit } := if_pos ⟨hp, hb⟩
  rw [State.enterSlot, settles]

/-- What the removal of a transition and the reply to its requester leave, once the slot has been given again and the
event published. -/
theorem publish_withdrawn {s m y : State} {q : Requester} {o : Reply} (hl : LineKeptButAllot s.lc m.lc)
    (hs : m.lc.shortDue = s.lc.shortDue) (ht : TargetsWithdrawn s m) (hd : Delivered s.du s.lc m.du m.lc q o 0)
    (hc : m.cs = s.cs) (hy : y = { m with ps := y.ps, sp := y.sp }) (hp : y.ps.phase = m.ps.phase)
    (calm : y.atStage .waitPrereq = false) :
    s.publish y = { y with lc := (s.publish y).lc } ∧ TargetsWithdrawn s (s.publish y)
      ∧ LineKeptButAllot s.lc (s.publish y).lc ∧ ShortMarked s (s.publish y)
      ∧ Delivered s.du s.lc (s.publish y).du (s.publish y).lc q o 0 := by
  obtain ⟨form, line, ⟨fifo, overflow⟩, mark⟩ := publish_noted s y calm
  obtain ⟨cells, judged, timer⟩ := ht
  have au : (s.publish y).au = m.au := by rw [form, hy]
  have lc : y.lc = m.lc := by rw [hy]
  have cs : y.cs = m.cs := by rw [hy]
  have du : (s.publish y).du = m.du := by rw [form, hy]
  have allot : (s.publish y).lc.allot = m.lc.allot := by rw [line.1, lc]
  have below : (s.publish y).belowStanding = m.belowStanding := by
    have ps : (s.publish y).ps = y.ps := by rw [form]
    have set : (s.publish y).cs = m.cs := by rw [form, hy]
    unfold State.belowStanding State.required
    rw [au, ps, hp, set]
  rw [lc] at line fifo overflow mark
  refine ⟨form, ⟨fun x => ?_, ?_, ?_⟩, ⟨?_, line.2.trans hl.2⟩, ?_, hd.congr rfl du rfl rfl fifo overflow⟩
  · have cell : (s.publish y).cell x = m.cell x := by unfold State.cell; rw [au, allot]
    exact cell.trans (cells x)
  · rw [au, below]; exact judged
  · rw [au]; exact timer
  · have first := line.1
    have second := hl.1
    generalize (s.publish y).lc = l at first ⊢
    generalize m.lc = k at first second
    rw [first, second]
  · unfold ShortMarked
    rw [mark, hs, cs, hc]

/-- The section port with the sequencer's SET_PHASE withdrawn. -/
theorem withdrawn_same {p : SP} (h : p.NoPhaseWaits) : { p with psReq := none, pairReq := none } = p := by
  obtain ⟨phase, pair⟩ := h
  rw [← phase]
  conv => lhs; rw [← pair]

/-- Settles O30, by the slot and the phase. -/
theorem holdMaximumForcesARunOut : Obligations.HoldMaximumForcesARunOut := by
  intro s u f hf hd hu hr hm
  let v : State := s.setPs { s.ps with holdMax := none, holdExpired := true, waiting := { s.ps.waiting with forced := true } }
  have run : exec .holdMaximumExpiry s = .next (s.publish s.holdMaximum) :=
    congrArg _ (if_pos (by simp [Timer.due, hd, hf]))
  have given : v.setWaiting ⟨false, false, false, false⟩ = u := hu.symm
  have record : f = forcedRec := hr
  have emptied : s.ps.slot = none → (s.ps.phase = .hold ∨ s.ps.phase = .banked) →
      s.holdMaximum = u.enterSlot forcedRec := fun hs hp => by
    have slot : v.ps.slot = none := hs
    rw [← given, ← reexamine_forced (t := v) hf hs rfl hp]
    change (match v.ps.slot with
      | none => _
      | some r => _) = _
    rw [slot]
  refine ⟨fun ⟨hs, hq, ht⟩ hp => ⟨_, run, ?_⟩, fun hs hp hb => ⟨_, run, ?_⟩, fun r hs hg => ⟨_, run, ?_⟩,
    fun r hs hg ht => ?_⟩
  · rw [emptied hs (settles_not hp).1, record, hu]
    exact enterSlot_startedFrom hq ht rfl rfl (fun k e => by cases e; exact hm) (fun _ e => (settles_not hp).2 e) nofun
      rfl rfl rfl rfl rfl rfl
  · rw [emptied hs (.inr hp), record, enterSlot_forcedSettle (t := u) (by rw [hu]; exact hp) (by rw [hu]; exact hb), hu]
    exact dwelling_answered _ rfl rfl rfl rfl rfl
  · have slot : v.ps.slot = some r := hs
    have behind : s.holdMaximum = v := by
      change (match v.ps.slot with
        | none => _
        | some r => _) = _
      rw [slot]
      dsimp only
      rw [if_neg (by rcases hg with e | e <;> rw [e] <;> decide)]
    rw [behind, hu]
    refine publish_noted s v ?_
    unfold State.atStage
    rw [slot]
    exact decide_eq_false (by rcases hg with e | e <;> rw [e] <;> exact nofun)
  let w : State := v.setSp { s.sp with psReq := none, pairReq := none }
  let m : State := w.withdrawing.replyWith r.requester (.refused .cancelled) 0
  have removed : v.removeTransition = w.withdrawing := by
    rcases hg with ⟨_, hn⟩ | ⟨_, ho, hl⟩
    · have same : w = v := by
        change v.setSp { s.sp with psReq := none, pairReq := none } = v
        rw [withdrawn_same hn]
        rfl
      rw [same]
      exact removeTransition_eq v hn
    · exact removeTransition_withdrawn (u := v) ho hl
  have replaced : s.holdMaximum = m.reexamine := by
    have slot : v.ps.slot = some r := hs
    change (match v.ps.slot with
      | none => _
      | some r => _) = _
    rw [slot]
    dsimp only
    rw [if_pos (by rcases hg with ⟨e, _⟩ | ⟨e, _⟩ <;> simp [e])]
    exact congrArg (fun x : State => (x.reply r.requester (.refused .cancelled)).reexamine) removed
  obtain ⟨form, targets, line, short, told⟩ := withdrawn_told w r.requester (.refused .cancelled) 0
  change m = { w with
    ps := { w.ps with slot := none }, pv := { w.pv with watches := [] }, au := m.au, du := m.du, lc := m.lc } at form
  change TargetsWithdrawn s m at targets
  have ps : m.ps = { v.ps with slot := none } := by rw [form]; rfl
  have sp : m.sp = { s.sp with psReq := none, pairReq := none } := by rw [form]; rfl
  have cs : m.cs = s.cs := by rw [form]; rfl
  have forced : s.ps.phase = .hold ∨ s.ps.phase = .banked → s.holdMaximum
      = (m.setWaiting ⟨false, false, false, false⟩).enterSlot forcedRec := fun hp => by
    rw [replaced]
    exact reexamine_forced (by rw [ps]; exact hf) (by rw [ps]) (by rw [ps]; rfl) (by rw [ps]; exact hp)
  refine ⟨fun hp => ⟨_, run, ?_⟩, fun hp hb => ⟨_, run, ?_⟩⟩
  · have waits : (m.setWaiting ⟨false, false, false, false⟩).ps.phase = .hold
        ∨ (m.setWaiting ⟨false, false, false, false⟩).ps.phase = .banked
          ∧ (m.setWaiting ⟨false, false, false, false⟩).cs.set.tBankExit = 0 := by
      change m.ps.phase = .hold ∨ m.ps.phase = .banked ∧ m.cs.set.tBankExit = 0
      rw [ps, cs]; exact hp
    have goes : s.holdMaximum
        = (m.setWaiting ⟨false, false, false, false⟩).goesOn { forcedRec with handoff := .notNeeded } := by
      rw [forced (settles_not hp).1]
      exact enterSlot_forced waits (by change m.cs.set.points.runOut.mode = .none; rw [cs]; exact hm)
        (by change m.sp.tripReq = false; rw [sp]; exact ht) (by change m.sp.psReq = none; rw [sp])
        (by change m.sp.pairReq = none; rw [sp])
    have after := publish_withdrawn (s := s) (m := m)
      (y := (m.setWaiting ⟨false, false, false, false⟩).goesOn { forcedRec with handoff := .notNeeded }) line short
      targets told cs rfl rfl (by
        change decide ((if _ then _ else _) = Stage.waitPrereq) = false
        split <;> rfl)
    rw [← goes] at after
    obtain ⟨tform, ttargets, tline, tmark, ttold⟩ := after
    refine ⟨?_, ttargets, tline, tmark, ttold⟩
    generalize s.publish s.holdMaximum = t at tform
    rw [goes] at tform
    have au : t.au = m.au := by rw [tform]; rfl
    have du : t.du = m.du := by rw [tform]; rfl
    rw [au, du]
    generalize t.lc = l at tform
    rw [tform, hu, record]
    clear_value m
    generalize m.au = a, m.du = d, m.lc = k at form
    rw [form]
    unfold State.goesOn
    by_cases empty : s.sp.outstanding = []
    · have same : w.sp = s.sp := by
        rcases hg with ⟨_, hn⟩ | ⟨_, ho, _⟩
        · exact withdrawn_same hn
        · exact (ho empty).elim
      rw [if_pos empty, if_pos empty, if_pos (by exact empty), if_pos (by exact empty)]
      dsimp only [State.setWaiting, State.setPs]
      rw [same]
      rfl
    · rw [if_neg empty, if_neg empty, if_neg (by exact empty), if_neg (by exact empty)]
      rfl
  · have settles : s.holdMaximum = (m.setWaiting ⟨false, false, false, false⟩).setSlot { forcedRec with
        stage := .waitDwell, settle := some s.cs.set.tBankExit, pendingSent := true } := by
      rw [forced (.inr hp), enterSlot_forcedSettle (t := m.setWaiting ⟨false, false, false, false⟩)
        (by change m.ps.phase = .banked; rw [ps]; exact hp) (by change m.cs.set.tBankExit ≠ 0; rw [cs]; exact hb)]
      have settle : (m.setWaiting ⟨false, false, false, false⟩).cs.set.tBankExit = s.cs.set.tBankExit := by
        change m.cs.set.tBankExit = _
        rw [cs]
      rw [settle]
      exact notePending_silent _ { forcedRec with stage := .waitDwell, settle := some s.cs.set.tBankExit } rfl rfl
        (.inr (by simp [forcedRec, SlotRec.new]))
    have after := publish_withdrawn (s := s) (m := m)
      (y := (m.setWaiting ⟨false, false, false, false⟩).setSlot { forcedRec with
        stage := .waitDwell, settle := some s.cs.set.tBankExit, pendingSent := true }) line short
      targets told cs rfl rfl rfl
    rw [← settles] at after
    obtain ⟨tform, ttargets, tline, tmark, ttold⟩ := after
    refine ⟨?_, ttargets, tline, tmark, ttold⟩
    generalize s.publish s.holdMaximum = t at tform
    rw [settles] at tform
    have au : t.au = m.au := by rw [tform]; rfl
    have du : t.du = m.du := by rw [tform]; rfl
    rw [au, du]
    generalize t.lc = l at tform
    rw [tform, hu, record]
    clear_value m
    generalize m.au = a, m.du = d, m.lc = k at form
    rw [form]
    rfl

end Sys2Proof.Machine
end

section
/-!
SUPPORT. The expiry of the rate interval (chapter 3): the holdup, the computation, the requests, and the targets that
the AU takes with it.
-/

namespace Sys2Proof.Machine

/-! ### The holdup and the targets (R53, R75, R89) -/

/-- The AU has taken the targets of a state and judged UNDER_STANDING. -/
def State.retargeted (v : State) : State := v.refreshCells.judgeStanding

theorem retargeted_eq (v : State) :
    v.retargeted = { v with au := v.retargeted.au, lc := { v.lc with allot := v.retargeted.lc.allot } } := by
  unfold State.retargeted
  rw [judgeStanding_au, refreshCells_eq]
  rfl

theorem retargeted_cell (v : State) (x : Resource) :
    v.retargeted.cell x = (v.cell x).refresh (v.cellView x) (v.tally x) (v.sumBefore x) := by
  unfold State.retargeted
  rw [judgeStanding_cell, refreshCells_cell]

theorem retargeted_standing (v : State) : StandingJudged v v.retargeted := by
  unfold State.retargeted
  rw [judgeStanding_au, refreshCells_eq]
  exact ⟨rfl, rfl⟩

/-- What the AU does at an expiry of `s` that has come to `v` in the throughput unit alone. -/
theorem retargeted_of {s v : State} (hv : v = { s with tu := v.tu }) : Retargeted s v v.retargeted := by
  refine ⟨retargeted_eq v, fun x => ?_, ?_⟩
  · rw [retargeted_cell, hv]
    rfl
  · have judged := retargeted_standing v
    rw [hv] at judged ⊢
    exact judged

/-- The holdup of step 1 in a phase whose inflow is `n` (R53). -/
theorem integrate_eq {s : State} {h n : Nat} (hn : s.tuInflow = n)
    (hh : (h : Int) = clampInt 0 99999999 (s.tu.holdup + ((n : Int) - s.sp.rAck) * s.cs.set.tInt)) :
    s.integrate = { s with tu := { s.tu with interval := some s.cs.set.tInt, holdup := h } } := by
  have same : holdupAfter s.tu.holdup s.tuInflow s.sp.rAck s.cs.set.tInt = h := by
    rw [hn]
    unfold holdupAfter holdupMax
    have up : clampInt 0 (99999999 : Nat) (s.tu.holdup + ((n : Int) - s.sp.rAck) * s.cs.set.tInt) = (h : Int) :=
      hh.symm
    rw [up, Int.toNat_natCast]
  unfold State.integrate
  rw [same]
  rfl

/-- Outside RUNNING a head section takes no inflow (R53). -/
theorem tuInflow_still {s : State} (hp : s.ps.phase ≠ .running) :
    s.tuInflow = if s.headSection then 0 else s.inflow := by
  unfold State.tuInflow
  rw [if_neg hp]

theorem exec_rateExpiry {s : State} (hd : s.tu.interval = some 0) (hf : s.ps.frozen = false) :
    exec .rateIntervalExpiry s = .next (s.publish s.rateExpiry) :=
  congrArg _ (if_pos (by simp [Timer.due, hd, hf]))

/-- Where UNDER_STANDING cannot rise under rate control, nothing comes between the targets and the outputs (R70). -/
theorem standingRises_none {v w : State} (h : w.ps.phase.underRate = false ∨ v.au.underStanding = true
    ∨ w.au.underStanding = false) : v.standingRises w = w := by
  unfold State.standingRises
  rw [if_neg]
  rcases h with h | h | h <;> simp [h]

theorem rateExpiry_outputs {s v : State} {o : Outputs} (hj : s.integrate.judgeInterval = (v, o))
    (h : v.ps.phase.underRate = false ∨ v.au.underStanding = true ∨ v.retargeted.au.underStanding = false) :
    s.rateExpiry = v.retargeted.handOn o := by
  have ps : v.retargeted.ps = v.ps := by rw [retargeted_eq]
  have calm : v.standingRises v.retargeted = v.retargeted := standingRises_none (by rw [ps]; exact h)
  change (s.integrate.judgeInterval.1.standingRises s.integrate.judgeInterval.1.retargeted).handOn
    s.integrate.judgeInterval.2 = _
  rw [hj]
  exact congrArg (fun w : State => w.handOn o) calm

/-- An expiry that hands nothing on. -/
theorem handOn_nothing (w : State) : w.handOn ⟨none, false, false, false⟩ = w := rfl

/-- An expiry that asks for the auto resume alone. -/
theorem handOn_resume (w : State) : w.handOn ⟨none, false, false, true⟩ = w.requestAutoResume := rfl

/-- An expiry published, with what it has done at the section port and in the slot. -/
theorem reckoned_set {s v y : State} {p : PS} {q : SP} {w : PV} {f : Nat} (hv : v = { s with tu := v.tu })
    (hy : y = { v.retargeted with ps := p, sp := q, pv := w, free := f }) (hp : p.phase = s.ps.phase)
    (hw : s.publish y = s.noteChange y) :
    Reckoned s { v with ps := p, sp := q, pv := w, free := f } (s.publish y) :=
  reckoned_of s v y { v with ps := p, sp := q, pv := w, free := f } hv hy (by rw [hv]) hp hw

/-- The blocks that the AU's work on the targets leaves. -/
theorem retargeted_blocks (v : State) :
    v.retargeted.ps = v.ps ∧ v.retargeted.tu = v.tu ∧ v.retargeted.sp = v.sp ∧ v.retargeted.pv = v.pv
      ∧ v.retargeted.hu = v.hu ∧ v.retargeted.cs = v.cs ∧ v.retargeted.free = v.free ∧ v.retargeted.now = v.now := by
  rw [retargeted_eq v]
  exact ⟨rfl, rfl, rfl, rfl, rfl, rfl, rfl, rfl⟩

/-- An expiry published with nothing done at the section port or in the slot. -/
theorem reckoned_alone {s v : State} (hv : v = { s with tu := v.tu }) (hw : s.atStage .waitPrereq = false) :
    Reckoned s v (s.publish v.retargeted) := by
  obtain ⟨ps, _, sp, pv, _, _, free, _⟩ := retargeted_blocks v
  have same : v.ps = s.ps := by rw [hv]
  have calm : v.retargeted.atStage .waitPrereq = false := (atStage_ps (by rw [ps, same]) _).trans hw
  exact reckoned_set (p := v.ps) (q := v.sp) (w := v.pv) (f := v.free) hv (by rw [← ps, ← sp, ← pv, ← free])
    (by rw [same]) (publish_eq s _ calm)

/-! ### The auto resume (R21, R71) -/

/-- What a test of a list reads of an entry is the same in two entries (R48). -/
def TestedAlike (d e : PeerEntry) : Prop :=
  d.presence = e.presence ∧ d.phase = e.phase ∧ d.offer = e.offer ∧ d.acceptance = e.acceptance
    ∧ d.phaseSince = e.phaseSince ∧ d.capacities = e.capacities ∧ d.frozen = e.frozen

theorem TestedAlike.refl (e : PeerEntry) : TestedAlike e e := ⟨rfl, rfl, rfl, rfl, rfl, rfl, rfl⟩

/-- The age of an entry's phase is told by the clock (R42). -/
theorem phaseAge_alike {s t : State} {d e : PeerEntry} (hn : s.now = t.now) (h : d.phaseSince = e.phaseSince) :
    s.phaseAge d = t.phaseAge e := by
  unfold State.phaseAge State.age State.elapsed
  rw [h, hn]

/-- So is every test of it. -/
theorem testMet_alike {s t : State} {d e : PeerEntry} (h : TestedAlike d e) (hn : s.now = t.now) (x : PrereqTest) :
    s.testMet d x = t.testMet e x := by
  obtain ⟨_, phase, offer, acceptance, since, capacities, frozen⟩ := h
  have age := phaseAge_alike hn since
  cases x <;> simp only [State.testMet, phase, offer, acceptance, age, capacities, frozen]

/-- Two states of the same table, configuration and clock whose own entries are alike evaluate a list alike. -/
theorem lists_alike {s t : State} (h : TestedAlike s.ownEntry t.ownEntry) (hp : s.pv.peers = t.pv.peers)
    (hc : s.cs = t.cs) (hn : s.now = t.now) (l : ListName) :
    s.firstUnmet l = t.firstUnmet l ∧ s.watchesOf l = t.watchesOf l := by
  have entries : ∀ a, TestedAlike (s.entry a) (t.entry a) := fun a => by
    have own : s.isOwn a = t.isOwn a := by unfold State.isOwn; rw [hc]
    have kept : s.stored a = t.stored a := by unfold State.stored; rw [hp]
    unfold State.entry
    rw [own, kept]
    split
    · exact h
    · exact .refl _
  have met : ∀ p, s.prereqMet p = t.prereqMet p := fun p => by
    unfold State.prereqMet
    dsimp only
    rw [hc, (entries _).1, testMet_alike (entries _) hn]
  have age : ∀ a, s.phaseAge (s.entry a) = t.phaseAge (t.entry a) := fun a =>
    phaseAge_alike hn (entries a).2.2.2.2.1
  refine ⟨?_, ?_⟩
  · unfold State.firstUnmet
    rw [hc]
    congr 1
    funext p
    rw [met]
  · unfold State.watchesOf
    rw [hc]
    congr 1
    funext p
    dsimp only
    rw [age, (entries _).1]

/-- The targets that the AU takes move no test (R48, R75). -/
theorem retargeted_lists (v : State) (l : ListName) :
    v.retargeted.firstUnmet l = v.firstUnmet l ∧ v.retargeted.watchesOf l = v.watchesOf l := by
  have form := retargeted_eq v
  have reading : ∀ x, (v.retargeted.au.res.get x).reading = (v.au.res.get x).reading := fun x => by
    change (v.retargeted.cell x).a.reading = (v.cell x).a.reading
    rw [retargeted_cell, Cell.refresh_reading]
  have capacity : ∀ x, v.retargeted.publishedCapacity x = v.publishedCapacity x := fun x => by
    unfold State.publishedCapacity
    rw [reading x, form]
  have capacities : v.retargeted.ownEntry.capacities = v.ownEntry.capacities := by
    change PerRes.of (fun r => if v.retargeted.cs.set.provider.get r then some (v.retargeted.publishedCapacity r)
      else none) = _
    rw [show v.retargeted.cs = v.cs by rw [form]]
    simp only [capacity]
    rfl
  obtain ⟨ps, tu, sp, pv, _, cs, _, now⟩ := retargeted_blocks v
  refine lists_alike (s := v.retargeted) (t := v) ⟨rfl, ?_, ?_, ?_, ?_, capacities, ?_⟩ (by rw [pv]) cs now l
  · exact congrArg (fun p : PS => some p.phase) ps
  · rw [form]; rfl
  · rw [form]; rfl
  · exact congrArg (fun p : PS => some p.phaseSince) ps
  · exact congrArg (fun p : PS => p.frozen) ps

/-- The resume evaluation, from the rate and UNDER_STANDING (R71). -/
theorem judgeResume_eq (s : State) :
    s.judgeResume = if s.cs.set.rMin ≤ s.resumeRate ∧ s.au.underStanding = false then
        (if s.tu.good = 0 then (s.setTu { s.tu with good := 1 }, ⟨none, false, false, false⟩)
          else (s.setTu { s.tu with good := 0 }, ⟨none, false, false, true⟩))
      else (s.setTu { s.tu with good := 0 }, ⟨none, false, false, false⟩) := by
  unfold State.judgeResume
  by_cases h : s.cs.set.rMin ≤ s.resumeRate ∧ s.au.underStanding = false
  · rw [if_pos h, if_pos (by simp [h.1, h.2])]
  · rw [if_neg h, if_neg (by simpa using h)]

/-- Settles O31: the expiry outside rate control, and the auto resume that its second good one in a row asks for. -/
theorem theHoldupIsIntegrated : Obligations.TheHoldupIsIntegrated := by
  intro s t h hd hf hw hh ht
  have run := exec_rateExpiry hd hf
  have reduced : ∀ p : Phase, s.ps.phase = p → p ≠ .running → s.integrate = t := fun p hp hn => by
    rw [ht]
    refine integrate_eq (n := if s.headSection then 0 else s.inflow) (tuInflow_still (hp ▸ hn)) hh
  have still : ∀ v : TU, ({ s with tu := v } : State).atStage .waitPrereq = false := fun _ => hw
  refine ⟨fun hp => ⟨_, run, ?_⟩, fun hp ho => ?_⟩
  · have rate : s.ps.phase.underRate = false ∧ s.ps.phase ≠ .running := by
      rcases hp with hp | ⟨hp, _⟩
      · simp only [List.mem_cons, List.not_mem_nil, or_false] at hp
        rcases hp with hp | hp <;> rw [hp] <;> exact ⟨rfl, nofun⟩
      · rw [hp]; exact ⟨rfl, nofun⟩
    have judged : s.integrate.judgeInterval = (t, ⟨none, false, false, false⟩) := by
      rw [reduced _ rfl rate.2]
      have phase : t.ps = s.ps := by rw [ht]
      unfold State.judgeInterval
      rw [phase]
      rcases hp with hp | ⟨hp, hn⟩
      · simp only [List.mem_cons, List.not_mem_nil, or_false] at hp
        rcases hp with hp | hp <;> rw [hp]
      · rw [hp]
        exact if_neg hn
    rw [rateExpiry_outputs judged (.inl (by rw [ht]; exact rate.1)), handOn_nothing]
    exact reckoned_alone (by rw [ht]) hw
  have hold : s.integrate.judgeInterval = t.judgeResume := by
    rw [reduced _ hp nofun]
    have phase : t.ps = s.ps := by rw [ht]
    unfold State.judgeInterval
    rw [phase, hp]
    exact if_pos ho
  have noRise : ∀ v : State, v.ps = s.ps → v.ps.phase.underRate = false := fun v e => by rw [e, hp]; rfl
  have au : t.au = s.au := by rw [ht]
  have good : t.tu.good = s.tu.good := by rw [ht]
  have set : t.cs = s.cs := by rw [ht]
  refine ⟨fun hn => ⟨_, run, ?_⟩, fun hu hr hg => ⟨_, run, ?_⟩, fun u r hu hr hg he hrec => ?_⟩
  · have judged : s.integrate.judgeInterval = (t.setTu { t.tu with good := 0 }, ⟨none, false, false, false⟩) := by
      rw [hold, judgeResume_eq, if_neg]
      rw [au, set]
      rintro ⟨h1, h2⟩
      rcases hn with hn | hn
      · rw [hn] at h2; cases h2
      · omega
    rw [rateExpiry_outputs judged (.inl (noRise _ (by rw [ht]; rfl))), handOn_nothing]
    exact reckoned_alone (by rw [ht]) hw
  · have judged : s.integrate.judgeInterval = (t.setTu { t.tu with good := 1 }, ⟨none, false, false, false⟩) := by
      rw [hold, judgeResume_eq, if_pos ⟨by rw [set]; exact hr, by rw [au]; exact hu⟩, if_pos (by rw [good]; exact hg)]
    rw [rateExpiry_outputs judged (.inl (noRise _ (by rw [ht]; rfl))), handOn_nothing]
    exact reckoned_alone (by rw [ht]) hw
  have judged : s.integrate.judgeInterval = (u, ⟨none, false, false, true⟩) := by
    rw [hold, judgeResume_eq, if_pos ⟨by rw [set]; exact hr, by rw [au]; exact hu⟩, if_neg (by rw [good]; exact hg), he]
    rfl
  have alone : u = { s with tu := u.tu } := by rw [he, ht]
  have expiry : s.rateExpiry = u.retargeted.requestAutoResume := by
    rw [rateExpiry_outputs judged (.inl (noRise _ (by rw [he, ht]))), handOn_resume]
  obtain ⟨ups, utu, usp, upv, uhu, ucs, ufree, unow⟩ := retargeted_blocks u
  have ps : u.retargeted.ps = s.ps := by rw [ups, he, ht]
  have cs : u.retargeted.cs = s.cs := by rw [ucs, he, ht]
  refine ⟨fun hs => ⟨_, run, ?_⟩, fun hs hl => ⟨_, run, ?_⟩, fun f hs hl hc hx => ?_⟩
  · have asked : u.retargeted.requestAutoResume
        = u.retargeted.setPs { s.ps with waiting := { s.ps.waiting with autoResume := true } } := by
      unfold State.requestAutoResume State.setWaiting
      rw [ps, if_pos (by simp [Option.isSome_iff_ne_none.mpr hs])]
    rw [expiry, asked]
    have done := reckoned_set (p := { s.ps with waiting := { s.ps.waiting with autoResume := true } }) (q := u.sp)
      (w := u.pv) (f := u.free) (y := u.retargeted.setPs { s.ps with waiting := { s.ps.waiting with autoResume := true } }) alone
      (by rw [← usp, ← upv, ← ufree]; rfl) rfl
      (publish_eq s _ hw)
    exact done
  all_goals
    have kind : r.kind = .resume := by rw [hrec]; rfl
    have asked : u.retargeted.requestAutoResume = (u.retargeted.toPrereq r).notePending := by
      have entered : u.retargeted.requestAutoResume = u.retargeted.enterSlot r := by
        unfold State.requestAutoResume autoResumeRec
        rw [ps, if_neg (by simp [hs, hf]), ← hrec]
      rw [entered, enterSlot_listed (by rw [kind]; simp) (fun _ e => by rw [ps, hp] at e; cases e)]
    have list : r.kind.list = some .resume := by rw [kind]; rfl
    have deadline : r.deadline = none := by rw [hrec]; rfl
    obtain ⟨unmet, watches⟩ := retargeted_lists u .resume
  · let w : SlotRec := { r with stage := .waitPrereq, deadline := some s.cs.set.tPrereqWait }
    let y : State := { u.retargeted with
      ps := { s.ps with slot := some { w with pendingSent := true } }, sp := u.sp
      pv := { s.pv with watches := u.watchesOf .resume }, free := u.free }
    have waits : (u.retargeted.toPrereq r).notePending = y := by
      have listed : u.retargeted.toPrereq r = (u.retargeted.setSlot w).evaluateList w .resume := by
        unfold State.toPrereq
        rw [list, deadline, cs]
      have first : (u.retargeted.setSlot w).firstUnmet .resume = u.firstUnmet .resume :=
        (firstUnmet_lc _ _ _ (some w) u.retargeted.pv.watches _).trans unmet
      have second : (u.retargeted.setSlot w).watchesOf .resume = u.watchesOf .resume :=
        (watchesOf_lc _ _ _ (some w) u.retargeted.pv.watches _).trans watches
      have found : (u.retargeted.setSlot w).evaluateList w .resume
          = (u.retargeted.setSlot w).setPv { u.retargeted.pv with watches := u.watchesOf .resume } := by
        unfold State.evaluateList
        rw [first, second]
        cases h : u.firstUnmet .resume with
        | none => exact (hl h).elim
        | some i => rfl
      have silent : w.silent := .inr (by simp [w, hrec, SlotRec.new])
      rw [listed, found, notePending_silent _ w rfl rfl silent]
      have pv : u.retargeted.pv = s.pv := by rw [upv, he, ht]
      change { u.retargeted with
        ps := { u.retargeted.ps with slot := some { w with pendingSent := true } }
        pv := { u.retargeted.pv with watches := u.watchesOf .resume } } = y
      rw [ps, pv]
      change _ = { u.retargeted with
        ps := { s.ps with slot := some { w with pendingSent := true } }, sp := u.sp
        pv := { s.pv with watches := u.watchesOf .resume }, free := u.free }
      rw [← usp, ← ufree]
    have polled : y.pollList = y := by
      have same : y = { u.retargeted with
          du := u.retargeted.du, lc := u.retargeted.lc, ps := { u.retargeted.ps with slot := some { w with pendingSent := true } }
          pv := { u.retargeted.pv with watches := u.watchesOf .resume } } := by
        rw [ps, show u.retargeted.pv = s.pv by rw [upv, he, ht]]
        change { u.retargeted with
          ps := { s.ps with slot := some { w with pendingSent := true } }, sp := u.sp
          pv := { s.pv with watches := u.watchesOf .resume }, free := u.free } = _
        rw [← usp, ← ufree]
      have first : y.firstUnmet .resume = u.firstUnmet .resume := by
        rw [same]
        exact (firstUnmet_lc _ _ _ _ _ _).trans unmet
      have second : y.watchesOf .resume = u.watchesOf .resume := by
        rw [same]
        exact (watchesOf_lc _ _ _ _ _ _).trans watches
      exact pollList_same y { w with pendingSent := true } .resume rfl list rfl (by rw [first]; exact hl)
        (by rw [second])
    rw [expiry, asked, waits]
    have done := reckoned_set (s := s) (v := u) (y := y) (p := y.ps) (q := u.sp) (w := y.pv) (f := u.free) alone rfl rfl
      (by unfold State.publish; rw [polled, ite_self])
    exact done
  · let w : SlotRec := { r with stage := .waitPrereq, deadline := some u.retargeted.cs.set.tPrereqWait }
    have claims : w.claimTargets u.retargeted.cs.set = some f := by
      change r.claimTargets u.retargeted.cs.set = some f
      rw [cs, hrec, hc]
      exact resume_targets _ _ _ _
    have below : ∃ x, (u.retargeted.au.res.get x).holding < min 4000 (f x) := by
      obtain ⟨x, hx⟩ := hx
      refine ⟨x, lt_of_le_of_lt ?_ hx⟩
      change (u.retargeted.cell x).a.holding ≤ _
      rw [retargeted_cell]
      refine (Cell.refresh_holding_le _ _ _ _).trans ((min_le_left _ _).trans ?_)
      rw [alone]
      exact le_refl _
    have waits := toClaim_waits s u.retargeted r w f (some u.retargeted.cs.set.tPrereqWait) rfl claims below
      (by rw [hrec]; rfl) (by rw [retargeted_eq u, he, ht]) (by rw [retargeted_eq u, he, ht]) cs
    rw [← toPrereq_met u.retargeted r w .resume list deadline rfl (unmet.trans hl), ← asked, ← expiry] at waits
    exact ⟨u.retargeted, _, retargeted_of alone, run, waits⟩

end Sys2Proof.Machine
end

section
/-!
SUPPORT. The expiry of the rate interval under rate control (3.5, 3.6): the computation, the run-out that is done, and
the train and the requests handed on.
-/

namespace Sys2Proof.Machine

/-! ### The train (R63, R64) -/

/-- An expiry that hands on its train alone. -/
theorem handOn_train (w : State) (target : Nat) : w.handOn ⟨some target, false, false, false⟩ = w.formTrain target := rfl

/-- The first step of a train issues into an empty list with nothing ahead of it. -/
theorem formTrain_sent {w : State} {target r : Nat} (hf : w.firstStep target = some r) (ho : w.sp.outstanding = [])
    (hq : SP.Quiet { w.sp with rateReq := none }) (hn : w.hu.NoneWaiting) (hl : w.sp.lookAhead = false)
    (ht : w.tu.train = some target) :
    w.formTrain target = w.setSp { w.sp.issued w.cs.set (.setRate r false) with
      rIss := r, rateReq := nextStep w.cs.set.maxStep r target } := by
  have sent := arbitrate_rate (w.setSp { w.sp with rateReq := some r }) r ho hq.trip hq.phase hq.pair hq.recovery
    hq.turnover hn rfl hl
  unfold State.formTrain
  rw [hf, sent]
  change w.setSp { w.sp.issued w.cs.set (.setRate r false) with
    rIss := r, rateReq := w.tu.train.bind (nextStep w.cs.set.maxStep r) } = _
  rw [ht]
  rfl

/-- A train with no step to take, or one behind an outstanding command. -/
theorem formTrain_held {w : State} {target : Nat} (hf : w.sp.outstanding ≠ [] ∨ w.firstStep target = none)
    (hq : SP.Quiet { w.sp with rateReq := none }) (hn : w.hu.NoneWaiting) (hl : w.sp.lookAhead = false) :
    w.formTrain target = w.setSp { w.sp with rateReq := w.firstStep target } := by
  rcases hf with ho | hf
  · exact arbitrate_full _ ho (.inl hl)
  · unfold State.formTrain
    rw [hf]
    exact arbitrate_still _ hq hn

/-- Where UNDER_STANDING stands or every holding covers its standing requirement, the AU's work on the targets of an
expiry raises nothing (R89). -/
theorem retargeted_calm {s v : State} (hv : v = { s with tu := v.tu }) (hr : s.ps.phase.underRate = true)
    (hu : s.au.underStanding = true ∨ s.standsCovered) :
    v.au.underStanding = true ∨ v.retargeted.au.underStanding = false := by
  rcases hu with hu | hu
  · exact .inl (by rw [hv]; exact hu)
  · refine .inr ?_
    unfold State.retargeted
    rw [judgeStanding_au]
    exact refreshCells_covers _ (by rw [hv]; exact hr) (by rw [hv]; exact hu)

/-- What an expiry under rate control comes with: due, not frozen, no list waiting, no request at the section port ahead
of the rate, and UNDER_STANDING that cannot rise. -/
structure State.RateDue (s : State) : Prop where
  due : s.tu.interval = some 0
  thawed : s.ps.frozen = false
  rate : s.ps.phase.underRate = true
  list : s.atStage .waitPrereq = false
  quiet : SP.Quiet { s.sp with rateReq := none }
  idle : s.hu.NoneWaiting
  single : s.sp.lookAhead = false
  covered : s.au.underStanding = true ∨ s.standsCovered

/-- The state that the outputs of an expiry are handed on from. -/
theorem State.RateDue.rateExpiry {s v : State} {o : Outputs} (h : s.RateDue) (hj : s.integrate.judgeInterval = (v, o))
    (hv : v = { s with tu := v.tu }) : s.rateExpiry = v.retargeted.handOn o :=
  rateExpiry_outputs hj (.inr (retargeted_calm hv h.rate h.covered))

/-- An expiry whose one output is a train. -/
theorem State.RateDue.train {s v : State} {target : Nat} (h : s.RateDue)
    (hj : s.integrate.judgeInterval = (v, ⟨some target, false, false, false⟩)) (hv : v = { s with tu := v.tu })
    (ht : v.tu.train = some target) :
    (s.sp.outstanding = [] → ∀ r, v.firstStep target = some r →
      ∃ w, exec .rateIntervalExpiry s = .next w
        ∧ Reckoned s { v with sp := { s.sp.issued s.cs.set (.setRate r false) with
            rIss := r, rateReq := nextStep s.cs.set.maxStep r target } } w)
    ∧ (s.sp.outstanding ≠ [] ∨ v.firstStep target = none →
      ∃ w, exec .rateIntervalExpiry s = .next w
        ∧ Reckoned s { v with sp := { s.sp with rateReq := v.firstStep target } } w) := by
  obtain ⟨ps, tu, sp, pv, hu, cs, free, _⟩ := retargeted_blocks v
  have vps : v.ps = s.ps := by rw [hv]
  have vsp : v.sp = s.sp := by rw [hv]
  have vhu : v.hu = s.hu := by rw [hv]
  have vcs : v.cs = s.cs := by rw [hv]
  have first : v.retargeted.firstStep target = v.firstStep target := by
    unfold State.firstStep
    rw [sp, cs]
  have expiry := h.rateExpiry hj hv
  rw [handOn_train] at expiry
  have placed : ∀ p : SP, v.retargeted.formTrain target = v.retargeted.setSp p →
      ∃ w, exec .rateIntervalExpiry s = .next w ∧ Reckoned s { v with sp := p } w := fun p e => by
    refine ⟨_, exec_rateExpiry h.due h.thawed, ?_⟩
    rw [expiry, e]
    have still : (v.retargeted.setSp p).atStage .waitPrereq = false :=
      (atStage_ps (congrArg PS.slot (ps.trans vps)) _).trans h.list
    have done := reckoned_set (p := v.ps) (q := p) (w := v.pv) (f := v.free) (y := v.retargeted.setSp p) hv
      (by rw [← ps, ← pv, ← free]; rfl) (by rw [vps]) (publish_eq s _ still)
    exact done
  have quiet : SP.Quiet { v.retargeted.sp with rateReq := none } := by rw [sp, vsp]; exact h.quiet
  have idle : v.retargeted.hu.NoneWaiting := by rw [hu, vhu]; exact h.idle
  have single : v.retargeted.sp.lookAhead = false := by rw [sp, vsp]; exact h.single
  refine ⟨fun ho r hr => placed _ ?_, fun ho => placed _ ?_⟩
  · have sent := formTrain_sent (first.trans hr) (by rw [sp, vsp]; exact ho) quiet idle single (by rw [tu]; exact ht)
    rw [sent, sp, cs, vsp, vcs]
  · have held := formTrain_held (target := target) (w := v.retargeted) (by rw [sp, first, vsp]; exact ho) quiet idle single
    rw [held, first, sp, vsp]

/-! ### The computation (R56 to R61) -/

/-- The expiry under rate control computes, but for a run-out that is done (R62). -/
theorem judgeInterval_computes {v : State} (hr : v.ps.phase.underRate = true)
    (hd : v.ps.phase = .runOut → v.workedOff = false ∨ v.tu.runoutDone = false ∧ v.tuInflow ≠ 0) :
    v.judgeInterval
      = (v.setTu { v.tu with runoutDone := v.tu.runoutDone && !decide (v.ps.phase = .runOut) }).compute := by
  have rate : v.ps.phase = .running ∨ v.ps.phase = .runOut := by
    revert hr
    cases v.ps.phase <;> simp [Phase.underRate]
  unfold State.judgeInterval
  rcases rate with hp | hp
  · rw [hp]
    simp only [reduceCtorEq, decide_false, Bool.not_false, Bool.and_true]
    rfl
  · rw [hp]
    simp only [decide_true, Bool.not_true, Bool.and_false]
    unfold State.computeRunOut
    cases hdone : v.tu.runoutDone
    · rw [if_neg (by simp), if_neg]
      · rw [← hdone]
        rfl
      · rcases hd hp with h | ⟨_, h⟩ <;> simp [h]
    · have behind : v.workedOff = false := (hd hp).resolve_right (by rw [hdone]; simp)
      rw [if_pos rfl, if_neg (by simp [behind])]

/-- The drain term: R_max for a run-out to empty and at the end of a timed one (R58). -/
theorem drainTerm_eq (c : Settings) (h : Nat) (d : RunOut) :
    drainTerm c h d = if d.mode = .toEmpty ∨ d.rem = 0 then c.rMax
      else if c.hDr * 60 < h then ceilDiv (h - c.hDr * 60) d.rem else 0 := by
  unfold drainTerm
  cases d.mode <;> simp

/-- The new rate: 0 below R_min, and else the ramped, quantised rate raised to R_min (R60). -/
theorem newRate_eq (c : Settings) (b r : Nat) :
    newRate c b r = if b < c.rMin then 0
      else max c.rMin (clamp (r - c.rampDown) (r + c.rampUp) b / c.q * c.q) := by
  unfold newRate
  dsimp only
  split
  · rfl
  · split <;> omega

/-- The flags and the timers that follow them, under rate control with timers of length above 0 (R61, R69). -/
theorem flagged_eq {c : Settings} {p : Phase} (u : TU) (b : Binding) (hp : p.underRate = true) (hc : c.tStarve ≠ 0) :
    u.flagged c p b = { u with
      starved := b.starved, blocked := b.blocked, limited := b.limited, claimWait := b.claimWait, runoutLate := b.late
      starveTimer := if !b.starved then none
        else if u.starved || decide (p = .runOut) then u.starveTimer else some c.tStarve
      starveExpired := b.starved && (u.starved || decide (p = .runOut)) && u.starveExpired
      blockTimer := if !b.blocked then none else if u.blocked then u.blockTimer else some c.tStarve
      blockExpired := b.blocked && u.blocked && u.blockExpired } := by
  have rate : decide (p = .running) = !decide (p = .runOut) := by
    revert hp
    cases p <;> simp [Phase.underRate]
  unfold TU.flagged startTimer
  rw [if_neg hc, rate]
  cases b.starved <;> cases b.blocked <;> cases u.starved <;> cases u.blocked <;> cases decide (p = .runOut) <;> simp [hc]

/-- No timer of length above 0 expires at the expiry that starts it (R69). -/
theorem flagged_justExpired (u : TU) (c : Settings) (p : Phase) (b : Binding) (hc : c.tStarve ≠ 0) :
    u.justExpired (u.flagged c p b) = false := by
  unfold TU.justExpired TU.flagged
  dsimp only
  rw [Bool.or_eq_false_iff]
  constructor <;> split <;> simp [hc, Bool.and_assoc]

/-- Settles O32: the holdup, the terms, the rate, the flags with their timers, and the train. -/
theorem runningComputesItsRate : Obligations.RunningComputesItsRate := by
  intro s t h drain d b rate up runOut stopped starved blocked budget late hd hf hr hw h1 h2 h3 h4 h5 hn hl hts hu hro hh
    hdone hdrain hlate hup hdes hb hrate hstop hblocked hstarved hbudget ht
  subst hro
  have due : s.RateDue := ⟨hd, hf, hr, hw, ⟨h1, h2, h3, h4, h5, rfl⟩, hn, hl, hu⟩
  have rate2 : s.ps.phase = .running ∨ s.ps.phase = .runOut := by
    revert hr
    cases s.ps.phase <;> simp [Phase.underRate]
  have holdup : s.integrate = { s with tu := { s.tu with interval := some s.cs.set.tInt, holdup := h } } := by
    refine integrate_eq ?_ hh
    unfold State.tuInflow
    rcases rate2 with hp | hp <;> simp [hp]
  let v : State := { s with tu := { s.tu with
    interval := some s.cs.set.tInt, holdup := h
    runoutDone := s.tu.runoutDone && !decide (s.ps.phase = .runOut) } }
  have computes : s.integrate.judgeInterval = v.compute := by
    rw [holdup]
    refine (judgeInterval_computes (by exact hr) fun hp => ?_).trans ?_
    · have hp : s.ps.phase = .runOut := hp
      rcases hdone (by simp [hp]) with hd | ⟨hd, head, hi⟩
      · exact .inl (decide_eq_false (by exact Nat.not_le.mpr hd))
      · refine .inr ⟨hd, ?_⟩
        change (if s.headSection then (if s.ps.phase = .running then s.sp.rAck else 0) else s.inflow) ≠ 0
        rw [head]
        exact hi
    · rfl
  have upstream : v.upstream = up := by
    refine Int.ofNat_inj.mp (Eq.trans ?_ hup.symm)
    unfold State.upstream State.upstreamRunOut State.upstreamRunning levelCorrection
    have phase : v.ps.phase = s.ps.phase := rfl
    rcases rate2 with hp | hp
    · rw [phase, hp, if_neg nofun]
      simp only [reduceCtorEq, decide_false, Bool.false_eq_true, if_false]
      change ((if s.headSection = true then s.cs.set.rMax else _ : Nat) : Int) = _
      split
      · rfl
      · exact Int.toNat_of_nonneg (le_max_left _ _)
    · rw [phase, hp, if_pos rfl, hdrain]
      simp only [decide_true, if_true]
      change (((if s.headSection = true then 0 else s.inflow) + _ : Nat) : Int) = _
      rw [Int.natCast_add]
      congr 2
      exact drainTerm_eq _ _ _
  have desired : v.desired up = d := by rw [hdes]; rfl
  have budgeted : v.budgeted d = b := by rw [hb]; rfl
  have rates : newRate v.cs.set b v.sp.rAck = rate := by rw [newRate_eq, hrate]
  have flags : v.binding up d b = ⟨starved, blocked,
      stopped && !blocked && !starved && !budget && (s.tu.limitC = b || s.tu.limitS = b),
      budget || s.budgets.any (· < d), late⟩ := by
    have down : (stopped && !s.tailSection && decide (v.downTerm = b)) = blocked := by
      rw [hblocked]
      cases tail : s.tailSection
      · change (_ && decide ((if s.tailSection = true then _ else s.downstream) = b)) = _
        rw [tail]
        rfl
      · simp
    have budgets : v.budgets = s.budgets := rfl
    have lateness : late = (decide (v.ps.phase = .runOut) && v.tu.data.late) := by
      rw [hlate, Bool.and_assoc]
      rfl
    unfold State.binding
    dsimp only
    rw [show decide (b < v.cs.set.rMin) = stopped from hstop.symm]
    change (⟨_, _, _, _, _⟩ : Binding) = _
    rw [show (stopped && !v.tailSection && decide (v.downTerm = b)) = blocked from down, ← hstarved, budgets,
      List.contains_eq_mem, ← hbudget, lateness]
  have written : v.tu.flagged v.cs.set v.ps.phase (v.binding up d b)
      = { t.tu with train := v.tu.train, parts := v.tu.parts } := by
    rw [flags, ht]
    exact flagged_eq _ _ (by exact hr) hts
  have calm : v.tu.justExpired (v.tu.flagged v.cs.set v.ps.phase (v.binding up d b)) = false :=
    flagged_justExpired _ _ _ _ hts
  have computed : s.integrate.judgeInterval = (t, ⟨some rate, false, false, false⟩) := by
    have whole : v.compute = (v.setTu { v.tu.flagged v.cs.set v.ps.phase (v.binding up d b) with
        train := some rate, parts := .of (v.ratePart d) },
        ⟨some rate, false, v.tu.justExpired (v.tu.flagged v.cs.set v.ps.phase (v.binding up d b)), false⟩) := by
      unfold State.compute
      dsimp only
      rw [upstream, desired, budgeted, rates]
    rw [computes, whole, calm, written, ht]
    rfl
  exact due.train computed (by rw [ht]) (by rw [ht])

/-! ### A run-out that is done (R62, R26) -/

/-- With no flag raised no starve or block timer runs (R61, R69). -/
theorem flagged_clear (u : TU) (c : Settings) (p : Phase) :
    u.flagged c p .clear = { u with
      starved := false, blocked := false, limited := false, claimWait := false, runoutLate := false
      starveTimer := none, starveExpired := false, blockTimer := none, blockExpired := false } := by
  unfold TU.flagged Binding.clear
  simp

/-- The expiry in RUN_OUT of one worked off and either done before or without inflow (R62). -/
theorem judgeInterval_done {v : State} (hp : v.ps.phase = .runOut) (hw : v.workedOff = true)
    (hd : v.tu.runoutDone = true ∨ v.tuInflow = 0) : v.judgeInterval = v.computeDone (!v.tu.runoutDone) := by
  unfold State.judgeInterval State.computeRunOut
  rw [hp]
  cases hdone : v.tu.runoutDone
  · have inflow : v.tuInflow = 0 := hd.resolve_left (by rw [hdone]; simp)
    rw [if_neg (by simp), if_pos (by simp [hw, inflow])]
    rfl
  · rw [if_pos rfl, if_pos hw]
    rfl

/-- What is handed on of a closing run-out that has become done: the train and the drain, in the order that the free
value gives (log 4). -/
theorem handOn_closing (w : State) :
    w.handOn ⟨some 0, true, false, false⟩ = if Config.trainFirst w.free then (w.useFree.formTrain 0).requestCloseDrain
      else w.useFree.requestCloseDrain.formTrain 0 := rfl

/-- A train to 0 has its one step from any other rate, and none at 0 (R63, R64). -/
theorem firstStep_zero {w : State} (h : w.sp.rIss = 0 → w.sp.rAck = 0) :
    w.firstStep 0 = if w.sp.rIss = 0 then none else some 0 := by
  unfold State.firstStep nextStep
  by_cases hi : w.sp.rIss = 0
  · rw [if_neg (by simp [hi, h hi]), if_pos hi.symm, if_pos hi]
  · rw [if_neg (fun e => hi e.1.symm), if_neg (fun e => hi e.symm), if_pos (.inr rfl), if_neg hi]

/-- A close-after drain at an occupied slot waits (R4, R26). -/
theorem requestCloseDrain_waits {w : State} (h : w.ps.slot ≠ none) :
    w.requestCloseDrain = w.setWaiting { w.ps.waiting with closeDrain := true } :=
  if_pos (by simp [Option.isSome_iff_ne_none.mpr h])

/-- At the empty slot, its point of mode NONE and nothing outstanding, its SET_PHASE issues (R10, R26). -/
theorem requestCloseDrain_issues {w : State} (hs : w.ps.slot = none) (hf : w.ps.frozen = false)
    (hm : w.cs.set.points.drain.mode = .none) (ht : w.sp.tripReq = false) (hq : w.sp.psReq = none)
    (hr : w.sp.pairReq = none) (ho : w.sp.outstanding = []) :
    w.requestCloseDrain = { w with
      ps := { w.ps with slot := some { closeDrainRec with stage := .waitAck, handoff := .notNeeded } }
      sp := w.sp.issued w.cs.set (.setPhase .draining .transition) } := by
  have entered : w.requestCloseDrain = w.enterSlot closeDrainRec := if_neg (by simp [hs, hf])
  have issued : w.toPrereq closeDrainRec = w.goesOn { closeDrainRec with handoff := .notNeeded } := by
    rw [toPrereq_pointless rfl rfl fun k hk => by cases hk; exact hm]
    exact toIssue_silent _ _ (.inr (by simp [closeDrainRec, SlotRec.new])) ht hq hr
  rw [entered]
  change (w.toPrereq closeDrainRec).notePending = _
  rw [issued]
  unfold State.goesOn
  rw [if_pos ho, if_pos ho]
  rfl

/-- Behind a transition and an outstanding command both wait, whatever the order (R26, R52). -/
theorem handOn_closing_waits {w : State} (hs : w.ps.slot ≠ none) (ho : w.sp.outstanding ≠ [])
    (hq : SP.Quiet { w.sp with rateReq := none }) (hn : w.hu.NoneWaiting) (hl : w.sp.lookAhead = false) :
    w.handOn ⟨some 0, true, false, false⟩ = { w with
      ps := { w.ps with waiting := { w.ps.waiting with closeDrain := true } }
      sp := { w.sp with rateReq := w.firstStep 0 }, free := w.free + 1 } := by
  have train : ∀ x : State, x.sp = w.sp → x.cs = w.cs → x.hu = w.hu →
      x.formTrain 0 = x.setSp { w.sp with rateReq := w.firstStep 0 } := fun x xsp xcs xhu => by
    have first : x.firstStep 0 = w.firstStep 0 := by
      unfold State.firstStep
      rw [xsp, xcs]
    rw [formTrain_held (by rw [xsp]; exact .inl ho) (by rw [xsp]; exact hq) (by rw [xhu]; exact hn)
      (by rw [xsp]; exact hl), xsp, first]
  rw [handOn_closing]
  split
  · rw [train w.useFree rfl rfl rfl]
    exact requestCloseDrain_waits hs
  · rw [requestCloseDrain_waits (w := w.useFree) hs]
    exact train _ rfl rfl rfl

/-- At the empty slot, with no rate issued or in force, the drain's SET_PHASE issues and no step is placed, whatever the
order (R26, R52). -/
theorem handOn_closing_issues {w : State} (hs : w.ps.slot = none) (hf : w.ps.frozen = false)
    (hm : w.cs.set.points.drain.mode = .none) (ho : w.sp.outstanding = []) (hi : w.sp.rIss = 0) (ha : w.sp.rAck = 0)
    (hq : SP.Quiet { w.sp with rateReq := none }) (hn : w.hu.NoneWaiting) (hl : w.sp.lookAhead = false) :
    w.handOn ⟨some 0, true, false, false⟩ = { w with
      ps := { w.ps with slot := some { closeDrainRec with stage := .waitAck, handoff := .notNeeded } }
      sp := { w.sp.issued w.cs.set (.setPhase .draining .transition) with rateReq := none }, free := w.free + 1 } := by
  have train : ∀ x : State, x.sp.rIss = 0 → x.sp.rAck = 0 → SP.Quiet { x.sp with rateReq := none } →
      x.sp.lookAhead = false → x.hu.NoneWaiting → x.formTrain 0 = x.setSp { x.sp with rateReq := none } :=
    fun x xi xa xq xl xn => by
      have first : x.firstStep 0 = none := by rw [firstStep_zero fun _ => xa, if_pos xi]
      rw [formTrain_held (.inr first) xq xn xl, first]
  rw [handOn_closing]
  split
  · rw [train w.useFree hi ha hq hl hn]
    exact requestCloseDrain_issues hs hf hm hq.trip hq.phase hq.pair ho
  · rw [requestCloseDrain_issues (w := w.useFree) hs hf hm hq.trip hq.phase hq.pair ho]
    exact train _ hi ha ⟨hq.trip, hq.phase, hq.pair, hq.recovery, hq.turnover, rfl⟩ hl hn

/-- Settles O33: the run-out done, its train, and the drain of a closing one. -/
theorem aRunOutEndsWhenWorkedOff : Obligations.ARunOutEndsWhenWorkedOff := by
  intro s t h hd hf hp hw h1 h2 h3 h4 h5 hn hl hu hh hlow hdone ht
  have due : s.RateDue := ⟨hd, hf, by rw [hp]; rfl, hw, ⟨h1, h2, h3, h4, h5, rfl⟩, hn, hl, hu⟩
  have inflow : s.tuInflow = if s.headSection then 0 else s.inflow := tuInflow_still (by rw [hp]; nofun)
  have judged : s.integrate.judgeInterval
      = (t, ⟨some 0, !s.tu.runoutDone && s.tu.data.closeAfter, false, false⟩) := by
    rw [integrate_eq inflow hh, judgeInterval_done (by exact hp) (decide_eq_true (by exact hlow))]
    · unfold State.computeDone
      rw [flagged_clear, ht]
      rfl
    · refine hdone.imp id fun hi => ?_
      change s.tuInflow = 0
      rw [inflow]
      rcases hi with hi | hi <;> simp [hi]
  have alone : t = { s with tu := t.tu } := by rw [ht]
  refine ⟨fun hq => ?_, fun hq hc hs ho => ?_, fun hq hc hs ho hi ha hm => ?_⟩
  · have only : (!s.tu.runoutDone && s.tu.data.closeAfter) = false := by rcases hq with hq | hq <;> simp [hq]
    rw [only] at judged
    obtain ⟨sent, held⟩ := due.train judged alone (by rw [ht])
    have sp : t.sp = s.sp := by rw [ht]
    refine ⟨fun ho hi => ?_, fun ho => held (ho.imp id fun hi => ?_)⟩
    · have step : t.firstStep 0 = some 0 := by
        rw [firstStep_zero (fun e => absurd (sp ▸ e) hi), if_neg (by rw [sp]; exact hi)]
      have next : nextStep s.cs.set.maxStep 0 0 = none := if_pos rfl
      obtain ⟨w, run, done⟩ := sent ho 0 step
      exact ⟨w, run, next ▸ done⟩
    · rw [firstStep_zero (fun _ => by rw [sp]; exact hi.2), if_pos (by rw [sp]; exact hi.1)]
  all_goals
    rw [hq, hc] at judged
    have expiry : s.rateExpiry = t.retargeted.handOn ⟨some 0, true, false, false⟩ := due.rateExpiry judged alone
    obtain ⟨ps, tu, sp, pv, hu, cs, free, _⟩ := retargeted_blocks t
    have tps : t.ps = s.ps := by rw [ht]
    have tsp : t.sp = s.sp := by rw [ht]
    have thu : t.hu = s.hu := by rw [ht]
    have tcs : t.cs = s.cs := by rw [ht]
    have tfree : t.free = s.free := by rw [ht]
    have quiet : SP.Quiet { t.retargeted.sp with rateReq := none } := by rw [sp, tsp]; exact due.quiet
    have idle : t.retargeted.hu.NoneWaiting := by rw [hu, thu]; exact hn
    have single : t.retargeted.sp.lookAhead = false := by rw [sp, tsp]; exact hl
  · let y : State := { t.retargeted with
      ps := { s.ps with waiting := { s.ps.waiting with closeDrain := true } }
      sp := { s.sp with rateReq := t.firstStep 0 }, free := s.free + 1 }
    have both : s.rateExpiry = y := by
      rw [expiry, handOn_closing_waits (by rw [ps, tps]; exact hs) (by rw [sp, tsp]; exact ho) quiet idle single]
      have first : t.retargeted.firstStep 0 = t.firstStep 0 := by
        unfold State.firstStep
        rw [sp, cs]
      rw [first, ps, sp, free, tps, tsp, tfree]
    have done := reckoned_set (s := s) (v := t) (y := y) (p := y.ps) (q := y.sp) (w := t.pv) (f := y.free) alone
      (by rw [← pv]) rfl (publish_eq s _ hw)
    refine ⟨_, exec_rateExpiry hd hf, ?_⟩
    rw [both]
    exact done
  · let y : State := { t.retargeted with
      ps := { s.ps with slot := some { closeDrainRec with stage := .waitAck, handoff := .notNeeded } }
      sp := { s.sp.issued s.cs.set (.setPhase .draining .transition) with rateReq := none }, free := s.free + 1 }
    have both : s.rateExpiry = y := by
      rw [expiry, handOn_closing_issues (by rw [ps, tps]; exact hs) (by rw [ps, tps]; exact hf) (by rw [cs, tcs]; exact hm)
        (by rw [sp, tsp]; exact ho) (by rw [sp, tsp]; exact hi) (by rw [sp, tsp]; exact ha) quiet idle single]
      have issued : { t.retargeted.sp.issued t.retargeted.cs.set (.setPhase .draining .transition) with rateReq := none }
          = y.sp := by rw [sp, cs, tsp, tcs]
      rw [issued, ps, free, tps, tfree]
    have done := reckoned_set (s := s) (v := t) (y := y) (p := y.ps) (q := y.sp) (w := t.pv) (f := y.free) alone
      (by rw [← pv]) rfl (publish_eq s _ rfl)
    refine ⟨_, exec_rateExpiry hd hf, ?_⟩
    rw [both]
    exact done

end Sys2Proof.Machine
end

section
/-!
SUPPORT. The line controller's own transmission (9.2 to 9.5): the notice composed, the slot offered, the beginning of a
frame, and its completion and failure.
-/

namespace Sys2Proof.Machine

/-! ### The offer (R169, R172) -/

/-- A composed notice shows the node's state. -/
theorem compose_shows (s : State) (long : Bool) : s.NoticeShows long (s.compose long) := by
  refine ⟨rfl, rfl, ?_, ?_, rfl, rfl, fun r => ?_, rfl, fun r hr => ?_, ⟨rfl, rfl, rfl, rfl⟩, rfl, rfl⟩
  · change s.offer = _
    unfold State.offer
    cases s.tu.held with
    | some p => rfl
    | none => cases s.ps.phase <;> simp [Phase.underRate]
  · change s.acceptance = _
    unfold State.acceptance
    cases s.tu.held with
    | some p => rfl
    | none =>
      have taken : s.downstream = s.takenBelow := rfl
      unfold State.ownAcceptance State.room State.tailSection
      rw [taken]
      cases s.ps.phase <;> simp
  · change (PerRes.of fun r => (s.au.res.get r).holding).get r = _
    rw [PerRes.get_of]
  · change (PerRes.of s.publishedCapacity).get r = _
    rw [PerRes.get_of]
    unfold State.publishedCapacity
    rw [hr]
    simp

/-- The line read idle, with nothing under way, offers what the arbiter gives (R166, R169). -/
theorem exec_lineIdle {s : State} (hl : s.cs.locked = true) (ht : s.lc.tx = none) :
    exec .lineIdle s = .next { s with lc := { s.lc with
      joined := true, tx := s.arbiterOffer.map fun o => ⟨o.1, o.2, false, false⟩ } } := by
  change Host.Outcome.next s.lineIdle = _
  unfold State.lineIdle
  rw [if_neg (by simp [hl])]
  change Host.Outcome.next (match s.lc.tx with | some _ => _ | none => _) = _
  rw [ht]
  rfl

theorem offers_of {s : State} {k : TxSlot} {f : Frame} (hl : s.cs.locked = true) (ht : s.lc.tx = none)
    (ha : s.arbiterOffer = some (k, f)) : Offers s k f := by
  unfold Offers
  rw [exec_lineIdle hl ht, ha]
  rfl

theorem offersNothing_of {s : State} (hl : s.cs.locked = true) (ht : s.lc.tx = none) (ha : s.arbiterOffer = none) :
    OffersNothing s := by
  unfold OffersNothing
  rw [exec_lineIdle hl ht, ha, Option.map_none, ← ht]

/-- On an ACTIVE line the trip slot goes first (R169). -/
theorem arbiterOffer_trip {s : State} {c : Cause} (ha : s.lc.line = .active) (hc : s.lc.tripSlot = some c) :
    s.arbiterOffer = some (.trip, .tripNotice c) := by
  unfold State.arbiterOffer slotOrder LC.frameIn
  rw [ha]
  simp [hc]

/-- Then the allotment slots in the order of their codes (R169). -/
theorem arbiterOffer_allot {s : State} {r : Resource} {f : AllotFrame} (ha : s.lc.line = .active)
    (hc : s.lc.tripSlot = none) (hf : s.lc.allot.get r = some f)
    (hb : ∀ x, x.code < r.code → s.lc.allot.get x = none) : s.arbiterOffer = some (.allot r, .allot r f) := by
  unfold State.arbiterOffer slotOrder LC.frameIn
  rw [ha]
  cases r with
  | steam => simp [hc, hf]
  | power => simp [hc, hf, hb .steam (by decide)]
  | lime => simp [hc, hf, hb .steam (by decide), hb .power (by decide)]
  | water => simp [hc, hf, hb .steam (by decide), hb .power (by decide), hb .lime (by decide)]

/-- Then the messages (R169). -/
theorem arbiterOffer_message {s : State} {m : MsgFrame} {rest : List MsgFrame} (ha : s.lc.line = .active)
    (hc : s.lc.tripSlot = none) (hf : ∀ x, s.lc.allot.get x = none) (hm : s.lc.fifo = m :: rest) :
    s.arbiterOffer = some (.fifo, .message m) := by
  unfold State.arbiterOffer slotOrder LC.frameIn
  rw [ha]
  simp [hc, hf, hm]

/-- And the status slot last (R169). -/
theorem arbiterOffer_status {s : State} (ha : s.lc.line = .active) (hc : s.lc.tripSlot = none)
    (hf : ∀ x, s.lc.allot.get x = none) (hm : s.lc.fifo = []) : s.arbiterOffer = s.statusOffer := by
  unfold State.arbiterOffer slotOrder LC.frameIn
  rw [ha]
  simp [hc, hf, hm]

/-- Settles O34: the slots in the arbiter's order, and the notice's fields. -/
theorem theIdleLineIsOfferedTheFirstSlot : Obligations.TheIdleLineIsOfferedTheFirstSlot := by
  intro s
  refine ⟨fun hl => ?_, fun hl ht => ?_, fun hl ht => ⟨fun hi hp => ?_, fun hi hp => ?_, fun ha => ?_⟩⟩
  · change Host.Outcome.next s.lineIdle = _
    unfold State.lineIdle
    rw [hl]
    rfl
  · obtain ⟨x, hx⟩ := Option.ne_none_iff_exists'.mp ht
    change Host.Outcome.next s.lineIdle = _
    unfold State.lineIdle
    rw [if_neg (by simp [hl])]
    change Host.Outcome.next (match s.lc.tx with | some _ => _ | none => _) = _
    rw [hx]
    rfl
  · refine ⟨s.compose true, compose_shows s true, offers_of hl ht ?_⟩
    unfold State.arbiterOffer
    rw [hi]
    exact if_pos hp
  · refine offersNothing_of hl ht ?_
    unfold State.arbiterOffer
    rw [hi]
    exact if_neg (by simp [hp])
  refine ⟨fun c hc => offers_of hl ht (arbiterOffer_trip ha hc), fun hc => ⟨fun r f hf hb =>
    offers_of hl ht (arbiterOffer_allot ha hc hf hb), fun hf => ⟨fun m rest hm =>
    offers_of hl ht (arbiterOffer_message ha hc hf hm), fun hm => ?_⟩⟩⟩
  have status := arbiterOffer_status ha hc hf hm
  unfold State.statusOffer at status
  refine ⟨fun hd => ⟨_, compose_shows s true, offers_of hl ht (status.trans (if_pos hd))⟩, fun hd hs hn =>
    ⟨_, compose_shows s false, offers_of hl ht (status.trans ?_)⟩, fun hd hn => offersNothing_of hl ht (status.trans ?_)⟩
  · rw [if_neg (by simp [hd]), if_pos (by simp [hs, hn])]
  · rw [if_neg (by simp [hd]), if_neg]
    rcases hn with hn | hn
    · simp [hn]
    · simp [Option.isNone_iff_eq_none, hn]

/-! ### The beginning and what precedes it (R166, R84) -/

/-- The events of a frame offered and not begun. -/
theorem exec_offered {s : State} {x : Tx} (hx : s.lc.tx = some x) (hb : x.begun = false) :
    exec .arbitrationLost s = .next (s.publish (s.setLc { s.lc with tx := none }))
    ∧ exec .transmitFault s = .next (s.publish (s.faulted x))
    ∧ exec .transmissionBegin s = .next (s.publish (s.beginFrame x)) := by
  have offered : ∀ f : Tx → State, s.whileOffered f = s.publish (f x) := fun f => by
    unfold State.whileOffered
    rw [hx]
    exact if_neg (by simp [hb])
  exact ⟨congrArg _ (offered _), congrArg _ (offered _), congrArg _ (offered _)⟩

/-- The engine of a resource is not published (R41). -/
theorem own_engine (s : State) (l : LC) (r : Resource) (e : Engine) (h : l.replyOverflow = s.lc.replyOverflow) :
    ({ s with
      lc := l, au := { s.au with res := s.au.res.set r { s.au.res.get r with engine := e } } } : State).ownEntry
      = s.ownEntry := by
  rw [← own_lc s l h]
  cases r <;> rfl

/-- The beginning of a frame that stands in a slot ahead of the status slot (R166, R170). -/
theorem beginFrame_held {s : State} {x : Tx} {f : Frame} (hk : x.slot ≠ .status) (hf : s.lc.frameIn x.slot = some f) :
    s.beginFrame x = (match f with
      | .allot r g => (s.setLc { s.lc with tx := some { x with frame := f, begun := true } }).startsSending r g
      | _ => s.setLc { s.lc with tx := some { x with frame := f, begun := true } }) := by
  obtain ⟨k, old, begun, after⟩ := x
  unfold State.beginFrame
  cases k with
  | status => exact absurd rfl hk
  | trip | allot _ | fifo =>
    dsimp only at hf ⊢
    split
    · rename_i none
      exact absurd (hf.symm.trans none) nofun
    · rename_i g some
      obtain rfl : f = g := Option.some.inj (hf.symm.trans some)
      cases f <;> rfl

/-- Settles O35: each event of an offered frame, and its beginning from each slot. -/
theorem offeredFramesAreLostFaultedOrBegun : Obligations.OfferedFramesAreLostFaultedOrBegun := by
  intro s x hx hb
  obtain ⟨lost, fault, begin⟩ := exec_offered hx hb
  have alone : ∀ l : LC, l.replyOverflow = s.lc.replyOverflow → s.publish (s.setLc l) = { s with lc := l } := pub_lc s
  have begun : ∀ f, s.lc.frameIn x.slot = some f → x.slot ≠ .status → (∀ r v, f ≠ .allot r (.claim v)) →
      exec .transmissionBegin s
        = .next { s with lc := { s.lc with tx := some { x with frame := f, begun := true } } } := fun f hf hk hn => by
    have frame : s.beginFrame x = s.setLc { s.lc with tx := some { x with frame := f, begun := true } } := by
      rw [beginFrame_held hk hf]
      cases f with
      | tripNotice _ | message _ | status _ => rfl
      | allot r g =>
        cases g with
        | claim v => exact absurd rfl (hn r v)
        | release v => rfl
    rw [begin, frame]
    exact congrArg Host.Outcome.next (alone _ rfl)
  have held : ∀ {k : TxSlot} {f : Frame}, x.slot = k → s.lc.frameIn k = some f → s.lc.frameIn x.slot = some f :=
    fun hk hf => hk ▸ hf
  have other : ∀ {k : TxSlot}, x.slot = k → k ≠ .status → x.slot ≠ .status := fun hk hn => hk ▸ hn
  refine ⟨?_, fun ha hf => ?_, fun hi => ?_, fun hk => ?_, fun c hk hc => ?_, fun m rest hk hm => ?_, fun r v hk hc => ?_,
    fun r v hk hc => ?_, fun r hk hc => ?_⟩
  · rw [lost]
    exact congrArg Host.Outcome.next (alone _ rfl)
  · have counted : s.faulted x = s.setLc { s.lc with tx := none, failures := s.lc.failures + 1 } := by
      unfold State.faulted
      rw [if_neg (by rw [ha]; nofun)]
      exact if_pos (by unfold failureLimit; exact Nat.succ_lt_succ hf)
    rw [fault, counted]
    exact congrArg Host.Outcome.next (alone _ rfl)
  · have ended : s.faulted x = s.setLc { s.lc with tx := none, attempt := false } := by
      unfold State.faulted
      exact if_pos hi
    rw [fault, ended]
    exact congrArg Host.Outcome.next (alone _ rfl)
  · have noted : s.beginFrame x = s.setLc (s.lc.beginNotice x) := by
      unfold State.beginFrame
      rw [hk]
    rw [begin, noted]
    exact congrArg Host.Outcome.next (alone _ rfl)
  · refine begun _ (held hk ?_) (other hk nofun) (by nofun)
    exact congrArg (Option.map Frame.tripNotice) hc
  · refine begun _ (held hk ?_) (other hk nofun) (by nofun)
    change s.lc.fifo.head?.map Frame.message = _
    rw [hm]
    rfl
  · refine begun _ (held hk ?_) (other hk nofun) (by nofun)
    exact congrArg (Option.map (Frame.allot r)) hc
  · have slot : s.lc.frameIn x.slot = some (.allot r (.claim v)) := held hk (congrArg (Option.map (Frame.allot r)) hc)
    rw [begin, beginFrame_held (other hk nofun) slot]
    exact congrArg _ (publish_own s _ (own_engine s _ r .sending rfl))
  · have empty : s.beginFrame x = s.setLc { s.lc with tx := none } := by
      unfold State.beginFrame LC.frameIn
      rw [hk]
      dsimp only
      rw [hc]
      rfl
    rw [begin, empty]
    exact congrArg Host.Outcome.next (alone _ rfl)

end Sys2Proof.Machine
end

section
/-!
SUPPORT. The outcomes of frames in transmission (9.2, 9.3, 4.3): the cell of a resource written, the report of a rise,
the notices, and the isolation of the node.
-/

namespace Sys2Proof.Machine

/-! ### A cell written (R77, R85, R86, R89) -/

/-- A resource's cell is replaced and UNDER_STANDING judged. -/
def State.written (w : State) (r : Resource) (c : Cell) : State := (w.setCell r c).judgeStanding

theorem withCell_eq (w : State) (r : Resource) (c : Cell) : w.withCell r c = w.afterAllotment (w.written r c) := rfl

theorem written_eq (w : State) (r : Resource) (c : Cell) :
    w.written r c = { w with
      au := (w.written r c).au, lc := { w.lc with allot := (w.written r c).lc.allot } } := by
  unfold State.written
  rw [judgeStanding_au]
  rfl

theorem written_cell (w : State) (r : Resource) (c : Cell) : (w.written r c).cell r = c := by
  unfold State.written
  rw [judgeStanding_cell, setCell_cell]

theorem written_cell_ne (w : State) {r x : Resource} (c : Cell) (h : x ≠ r) : (w.written r c).cell x = w.cell x := by
  unfold State.written
  rw [judgeStanding_cell, setCell_cell_ne _ _ h]

theorem written_standing (w : State) (r : Resource) (c : Cell) : StandingJudged w (w.written r c) := by
  unfold State.written
  exact judgeStanding_judged w _ rfl rfl rfl

/-- No transition waits for its claims: the AU's report goes unheard (R77). -/
theorem pollClaim_unheard {w : State} (h : w.atStage .waitClaim = false) : w.pollClaim = w := by
  unfold State.pollClaim
  unfold State.atStage at h
  split
  · rename_i r hs
    rw [hs] at h
    have stage : r.stage ≠ .waitClaim := by simpa using h
    rw [if_neg (by simp [stage])]
  · rfl

/-- A transition record written as it stands. -/
theorem setSlot_self {w : State} {r : SlotRec} (h : w.ps.slot = some r) : w.setSlot r = w := by
  have ps : ({ w.ps with slot := some r } : PS) = w.ps := by rw [← h]
  unfold State.setSlot
  rw [ps]
  rfl

/-- What follows an outcome never raises the holding (R85, R88). -/
theorem afterOutcome_holding_le (v : CellView) (n : Tally) (b : Nat) (c : Cell) :
    (c.afterOutcome v n b).a.holding ≤ c.a.holding := by
  unfold Cell.afterOutcome
  split
  · rw [Cell.report_holding_eq]
    split
    · exact le_refl _
    · exact min_le_left _ _
  · simp

/-- It leaves what lies within the holding and within what the walk of a report leaves (R87). -/
theorem le_afterOutcome_holding {v : CellView} {n : Tally} {b m : Nat} {c : Cell} (hm : m ≤ c.a.holding)
    (hw : m = 0 ∨ b + m ≤ n.capacity) : m ≤ (c.afterOutcome v n b).a.holding := by
  unfold Cell.afterOutcome
  split
  · rw [Cell.report_holding_eq]
    split
    · exact hm
    · exact le_min hm (by omega)
  · simpa using hm

theorem afterOutcome_raised (v : CellView) (n : Tally) (b : Nat) (c : Cell) :
    (c.afterOutcome v n b).a.raised = c.a.raised := by
  unfold Cell.afterOutcome
  split <;> simp

/-- A state whose sequencer's and section port's parts have moved within a phase, beside those of the AU and the line. -/
structure MovedWithin (s u : State) : Prop where
  form : u = { s with ps := u.ps, sp := u.sp }
  phase : u.ps.phase = s.ps.phase
  list : u.atStage .waitPrereq = false

theorem MovedWithin.self {s : State} (h : s.atStage .waitPrereq = false) : MovedWithin s s := ⟨rfl, rfl, h⟩

/-- The state in which a transition waits for its claims, or has moved on from them, has moved within its phase. -/
theorem RiseReported.moved {s m u : State} {q : SlotRec} (h : RiseReported s m u q)
    (hw : s.atStage .waitPrereq = false) (hq : q.stage = .waitClaim) : MovedWithin s u := by
  rcases h with ⟨_, _, rfl⟩ | ⟨_, ⟨_, rfl⟩ | ⟨_, _, _, _, _, rfl⟩⟩
  · exact .self hw
  · exact ⟨rfl, rfl, by simp [State.atStage, hq]⟩
  · refine ⟨rfl, rfl, ?_⟩
    unfold State.goesOn State.atStage
    dsimp only
    split <;> simp

theorem HoldAsked.moved {s u : State} (h : HoldAsked s u) (hw : s.atStage .waitPrereq = false) : MovedWithin s u := by
  rcases h with ⟨_, rfl⟩ | ⟨_, _, rfl⟩
  · exact ⟨rfl, rfl, hw⟩
  · refine ⟨rfl, rfl, ?_⟩
    unfold State.atStage
    dsimp only
    split <;> simp

/-- Nor does the auto hold that has been asked for wait for claims. -/
theorem HoldAsked.noClaim {s u : State} (h : HoldAsked s u) (hw : s.atStage .waitClaim = false) :
    u.atStage .waitClaim = false := by
  rcases h with ⟨_, rfl⟩ | ⟨_, _, rfl⟩
  · exact hw
  · unfold State.atStage
    dsimp only
    split <;> simp

/-! ### A completed CLAIM (R85, R89, R90) -/

/-- The line controller after a frame's end: nothing in transmission, the line and the allotment slots as they were. -/
structure LC.Ended (k l : LC) : Prop where
  tx : l.tx = none
  line : l.line = k.line
  allot : l.allot = k.allot

/-- The AU at the rise of a holding, UNDER_STANDING judged (R85, R89). -/
def State.risen (s : State) (l : LC) (r : Resource) (v : Nat) : State :=
  ({ s with lc := l } : State).written r ((s.claimed r v).cell r)

theorem risen_eq (s : State) (l : LC) (r : Resource) (v : Nat) :
    s.risen l r v = { s with
      au := (s.risen l r v).au, lc := { l with allot := (s.risen l r v).lc.allot } } :=
  written_eq { s with lc := l } r ((s.claimed r v).cell r)

theorem risen_res (s : State) (l : LC) (r : Resource) (v : Nat) (hl : s.lc.Ended l) :
    (s.risen l r v).au.res = (s.claimed r v).au.res ∧ (s.risen l r v).lc = { l with allot := (s.claimed r v).lc.allot } := by
  unfold State.risen State.written
  rw [judgeStanding_au]
  change s.au.res.set r _ = _ ∧ ({ l with allot := l.allot.set r _ } : LC) = _
  rw [hl.allot]
  cases r <;> exact ⟨rfl, rfl⟩

theorem risen_standing (s : State) (l : LC) (r : Resource) (v : Nat) (hl : s.lc.Ended l) :
    (s.risen l r v).au.underStanding = (s.claimed r v).belowStanding
      ∧ (s.risen l r v).au.underTimer = if (s.claimed r v).belowStanding then
          (if s.au.underStanding then s.au.underTimer else some s.cs.set.tClaimWait) else none := by
  have judged : StandingJudged { s with lc := l } (s.risen l r v) := written_standing _ _ _
  have below : (s.risen l r v).belowStanding = (s.claimed r v).belowStanding := by
    unfold State.belowStanding State.required
    rw [(risen_res s l r v hl).1]
    have ps : (s.risen l r v).ps = s.ps := by rw [risen_eq]
    have cs : (s.risen l r v).cs = s.cs := by rw [risen_eq]
    rw [ps, cs]
    rfl
  obtain ⟨flag, timer⟩ := judged
  rw [below] at flag
  rw [flag] at timer
  exact ⟨flag, timer⟩

/-- What the second judgement of a completed CLAIM reads, the sequencer's part having moved within its phase. -/
structure RisenReads (s t : State) (r : Resource) (v : Nat) : Prop where
  own : t.cell r = (s.claimed r v).cell r
  others : ∀ x, x ≠ r → t.cell x = s.cell x
  view : t.cellView r = ⟨s.target r, false, s.lc.line = .active⟩
  tally : t.tally r = s.tally r
  before : t.sumBefore r = s.sumBefore r
  phase : t.ps.phase = s.ps.phase
  store : t.cs = s.cs

theorem risen_reads {s u : State} {l : LC} (r : Resource) (v : Nat) (hl : s.lc.Ended l) (hu : MovedWithin s u) :
    RisenReads s { u with au := (s.risen l r v).au, lc := (s.risen l r v).lc } r v := by
  obtain ⟨res, line⟩ := risen_res s l r v hl
  generalize (s.risen l r v).au = a at res
  rw [line]
  have kept : ∀ x, (a.res.get x).reading = (s.au.res.get x).reading ∧ (a.res.get x).raised = (s.au.res.get x).raised :=
    fun x => by
      rw [res]
      cases r <;> cases x <;> exact ⟨rfl, rfl⟩
  have pv : u.pv = s.pv := by rw [hu.form]
  have cs : u.cs = s.cs := by rw [hu.form]
  have tu : u.tu = s.tu := by rw [hu.form]
  refine ⟨?_, fun x hx => ?_, ?_, tally_eq _ _ r (by rw [pv]) cs hu.phase (kept r).1, sumBefore_eq _ _ r (by rw [pv]) cs,
    hu.phase, cs⟩
  · unfold State.cell
    dsimp only
    rw [res]
  · unfold State.cell
    dsimp only
    rw [res]
    cases r <;> cases x <;> first | exact absurd rfl hx | rfl
  · have target : ({ u with au := a, lc := { l with allot := (s.claimed r v).lc.allot } } : State).target r = s.target r := by
      unfold State.target State.phaseTarget
      dsimp only
      rw [(kept r).2, hu.phase, cs, tu]
    unfold State.cellView State.allotBegun
    rw [target]
    dsimp only
    rw [hl.tx, hl.line]

/-- What is required of a resource is its standing requirement at most, and under rate control that (R89). -/
theorem required_le (s : State) (x : Resource) : s.required x ≤ s.cs.set.standing.get x := by
  unfold State.required
  split
  · exact le_refl _
  · exact Nat.zero_le _

theorem required_rate {s : State} (h : s.ps.phase.underRate = true) (x : Resource) :
    s.required x = s.cs.set.standing.get x := by
  have needs : s.ps.phase.needsStanding = true := by
    revert h
    cases s.ps.phase <;> simp [Phase.underRate, Phase.needsStanding]
  unfold State.required
  rw [if_pos needs]

theorem belowStanding_iff (s : State) : s.belowStanding = true ↔ ∃ x, (s.cell x).a.holding < s.required x := by
  unfold State.belowStanding
  simp only [List.any_eq_true, decide_eq_true_eq]
  exact ⟨fun ⟨x, _, h⟩ => ⟨x, h⟩, fun ⟨x, h⟩ => ⟨x, by cases x <;> simp [Resource.all], h⟩⟩

/-- The cells of a resource's second work, once the rise is taken. -/
def State.concluded (t : State) (r : Resource) : State :=
  t.written r ((t.cell r).afterOutcome (t.cellView r) (t.tally r) (t.sumBefore r))

theorem concluded_eq (t : State) (r : Resource) : t.concluded r = { t with
    au := (t.concluded r).au, lc := { t.lc with allot := (t.concluded r).lc.allot } } := written_eq t r _

theorem concluded_moved (t : State) (r : Resource) :
    t.concluded r = { t with au := (t.concluded r).au, lc := (t.concluded r).lc } := by
  rw [concluded_eq]

theorem concluded_cell (t : State) (r : Resource) :
    (t.concluded r).cell r = (t.cell r).afterOutcome (t.cellView r) (t.tally r) (t.sumBefore r) := written_cell t r _

theorem concluded_cell_ne (t : State) {r x : Resource} (h : x ≠ r) : (t.concluded r).cell x = t.cell x :=
  written_cell_ne t _ h

/-- No holding rises by it. -/
theorem concluded_holding_le (t : State) (r x : Resource) :
    ((t.concluded r).cell x).a.holding ≤ (t.cell x).a.holding := by
  by_cases hx : x = r
  · rw [hx, concluded_cell]
    exact afterOutcome_holding_le _ _ _ _
  · rw [concluded_cell_ne t hx]

/-- Every other cell of the claimed state is as before. -/
theorem claimed_cell_ne (s : State) {r x : Resource} (v : Nat) (h : x ≠ r) : (s.claimed r v).cell x = s.cell x := by
  cases r <;> cases x <;> first | exact absurd rfl h | rfl

theorem claimed_tally (s : State) (r : Resource) (v : Nat) (x : Resource) : (s.claimed r v).tally x = s.tally x := by
  cases r <;> cases x <;> rfl

theorem RisenReads.cell {s t : State} {r : Resource} {v : Nat} (h : RisenReads s t r v) (x : Resource) :
    t.cell x = (s.claimed r v).cell x := by
  by_cases hx : x = r
  · rw [hx, h.own]
  · rw [h.others x hx, claimed_cell_ne s v hx]

/-- Holdings that cover their standing requirement at the rise cover it after the held report (R89, R90). -/
theorem RisenReads.covers {s t : State} {r : Resource} {v : Nat} (h : RisenReads s t r v) (hc : t.cs = s.cs)
    (hm : (s.claimed r v).standsCovered) : (t.concluded r).au.underStanding = false := by
  have judged : StandingJudged t (t.concluded r) := written_standing _ _ _
  rw [judged.1, Bool.eq_false_iff]
  intro below
  obtain ⟨x, hx⟩ := (belowStanding_iff _).mp below
  have most : (t.concluded r).required x ≤ s.cs.set.standing.get x := by
    have cs : (t.concluded r).cs = s.cs := by rw [concluded_eq]; exact hc
    exact (required_le _ _).trans_eq (by rw [cs])
  obtain ⟨holds, _, walk⟩ := hm x
  rw [claimed_tally] at walk
  refine absurd (hx.trans_le most) (Nat.not_lt.mpr ?_)
  by_cases hr : x = r
  · subst hr
    rw [concluded_cell, h.own, h.tally, h.before]
    exact le_afterOutcome_holding holds walk
  · rw [concluded_cell_ne t hr, h.cell]
    exact holds

/-- A held report whose walk leaves less than the standing requirement cuts the holding below it (R88, R89). -/
theorem RisenReads.cuts {s t : State} {r : Resource} {v : Nat} (h : RisenReads s t r v) (hc : t.cs = s.cs)
    (hp : t.ps.phase = s.ps.phase) (hr : s.ps.phase.underRate = true)
    (hheld : ((s.claimed r v).au.res.get r).heldReport = true) (hs : 0 < s.cs.set.standing.get r)
    (hw : (s.tally r).capacity < s.sumBefore r + s.cs.set.standing.get r) : (t.concluded r).au.underStanding = true := by
  have judged : StandingJudged t (t.concluded r) := written_standing _ _ _
  have cs : (t.concluded r).cs = s.cs := by rw [concluded_eq]; exact hc
  have phase : (t.concluded r).ps.phase = s.ps.phase := by rw [concluded_eq]; exact hp
  have held : ((s.claimed r v).cell r).a.heldReport = true := hheld
  rw [judged.1, belowStanding_iff]
  refine ⟨r, ?_⟩
  rw [required_rate (by rw [phase]; exact hr), cs, concluded_cell, h.own, h.tally, h.before]
  unfold Cell.afterOutcome
  rw [if_pos held, Cell.report_holding_eq]
  split
  · omega
  · exact (min_le_right _ _).trans_lt (by omega)

/-- A completed CLAIM in two works: the rise, with the report that a waiting transition takes, and what the held report
does, with the auto hold that it may call for (R70, R77, R85, R89). -/
theorem claim_followed {s u : State} {l : LC} {r : Resource} {v : Nat} (hl : s.lc.Ended l)
    (hw : s.atStage .waitPrereq = false) (h : ClaimFollowed s (s.claimed r v) u r) :
    ∃ t, RisenReads s t r v ∧ t.au = (s.risen l r v).au ∧ t.lc = (s.risen l r v).lc ∧ MovedWithin s u
      ∧ ({ s with lc := l } : State).afterAllotment (s.risen l r v) = t
      ∧ t.afterAllotment (t.concluded r) = { u with au := (t.concluded r).au, lc := (t.concluded r).lc } := by
  have risen : s.risen l r v = { s with au := (s.risen l r v).au, lc := (s.risen l r v).lc } := by
    conv_lhs => rw [risen_eq]
    rw [(risen_res s l r v hl).2]
  have under := (risen_standing s l r v hl).1
  rcases h with ⟨q, hs, hq, hp, hr, h⟩ | ⟨hc, h⟩
  · refine ⟨{ u with au := (s.risen l r v).au, lc := (s.risen l r v).lc }, risen_reads r v hl (h.moved hw hq), rfl, rfl,
      h.moved hw hq, ?_, ?_⟩
    · have reached : (s.risen l r v).claimReached = (s.claimed r v).claimReached := by
        unfold State.claimReached
        rw [(risen_res s l r v hl).1]
      unfold State.afterAllotment
      rw [standingRises_none (.inl (by rw [risen]; exact hr))]
      rw [risen] at reached ⊢
      exact pollClaim_reported s (s.claimed r v) u q _ _ hs hq hp h reached
    · let t : State := { u with au := (s.risen l r v).au, lc := (s.risen l r v).lc }
      have reads : RisenReads s t r v := risen_reads r v hl (h.moved hw hq)
      have ps : (t.concluded r).ps = u.ps := by rw [concluded_eq]
      have raised : ∀ x, ((t.concluded r).cell x).a.raised = ((s.claimed r v).cell x).a.raised := fun x => by
        by_cases hx : x = r
        · rw [hx, concluded_cell, afterOutcome_raised, reads.own]
        · rw [concluded_cell_ne t hx, reads.cell]
      have unheard : (t.concluded r).pollClaim = t.concluded r := by
        rcases h with ⟨⟨x, hx⟩, hn, rfl⟩ | ⟨_, ⟨hf, rfl⟩ | ⟨_, _, _, _, _, rfl⟩⟩
        · have short : (t.concluded r).claimReached = false := by
            unfold State.claimReached
            rw [List.all_eq_false]
            refine ⟨x, by cases x <;> simp [Resource.all], ?_⟩
            have low : ((t.concluded r).cell x).a.holding < ((t.concluded r).cell x).a.raised.getD 0 := by
              refine (concluded_holding_le t r x).trans_lt ?_
              rw [raised x, reads.cell x]
              exact hx
            rw [decide_eq_true_eq, Nat.not_le]
            exact low
          unfold State.pollClaim
          rw [ps, hs]
          dsimp only
          rw [short, hn]
          simp
        · unfold State.pollClaim
          rw [ps]
          dsimp only
          rw [if_pos (by simp [hq]), if_pos (by exact hf)]
          exact setSlot_self (by rw [ps])
        · refine pollClaim_unheard ((atStage_ps (congrArg PS.slot ps) _).trans ?_)
          unfold State.goesOn State.atStage
          dsimp only
          split <;> simp
      change t.afterAllotment (t.concluded r) = _
      unfold State.afterAllotment
      rw [standingRises_none (.inl (by rw [ps, (h.moved hw hq).phase]; exact hr)), unheard]
      exact concluded_moved t r
  · let t : State := { s with au := (s.risen l r v).au, lc := (s.risen l r v).lc }
    have reads : RisenReads s t r v := risen_reads r v hl (.self hw)
    have calm : (s.risen l r v).pollClaim = t := by
      rw [pollClaim_unheard ((atStage_ps (by rw [risen]) _).trans hc)]
      exact risen
    have phase : (s.risen l r v).ps = s.ps := by rw [risen]
    have ps : (t.concluded r).ps = s.ps := by rw [concluded_eq]
    have first : s.ps.phase.underRate = false ∨ s.au.underStanding = true ∨ (s.risen l r v).au.underStanding = false →
        ({ s with lc := l } : State).afterAllotment (s.risen l r v) = t := fun hn => by
      unfold State.afterAllotment
      rw [standingRises_none (by rw [phase]; exact hn), calm]
    have rest : s.ps.phase.underRate = false ∨ t.au.underStanding = true ∨ (t.concluded r).au.underStanding = false →
        t.afterAllotment (t.concluded r) = { s with au := (t.concluded r).au, lc := (t.concluded r).lc } := fun hn => by
      unfold State.afterAllotment
      rw [standingRises_none (by rw [ps]; exact hn), pollClaim_unheard ((atStage_ps (by rw [ps]) _).trans hc)]
      exact concluded_moved t r
    refine ⟨t, reads, rfl, rfl, ?_⟩
    rcases h with ⟨hn, rfl⟩ | ⟨hr, hb, hheld, hst, hcap, asked⟩
    · refine ⟨.self hw, ?_⟩
      rcases hn with hn | ⟨hu, hb⟩ | hcov
      · exact ⟨first (.inl hn), rest (.inl hn)⟩
      · exact ⟨first (.inr (.inl hu)), rest (.inr (.inl (under.trans hb)))⟩
      · have above : (u.claimed r v).belowStanding = false := by
          rw [Bool.eq_false_iff, Ne, belowStanding_iff]
          rintro ⟨x, hx⟩
          exact absurd (hx.trans_le (required_le _ _)) (Nat.not_lt.mpr (hcov x).1)
        exact ⟨first (.inr (.inr (under.trans above))), rest (.inr (.inr (reads.covers rfl hcov)))⟩
    · have cut := reads.cuts rfl rfl hr hheld hst hcap
      have rises : t.standingRises (t.concluded r) = { u with au := (t.concluded r).au, lc := (t.concluded r).lc } := by
        unfold State.standingRises
        rw [if_pos (by rw [ps, cut, hr, show t.au.underStanding = false from under.trans hb]; rfl)]
        exact (congrArg State.requestAutoHold (concluded_moved t r)).trans (requestAutoHold_asked s u _ _ asked)
      refine ⟨asked.moved hw, first (.inr (.inr (under.trans hb))), ?_⟩
      unfold State.afterAllotment
      rw [rises]
      exact pollClaim_unheard (asked.noClaim hc)

/-! ### The completion of each frame (R167) -/

/-- The line controller once a frame is over, its count of failures at `n` and a long notice marked where one falls
due. -/
def State.frameOver (s : State) (n : Nat) (long : Bool) : LC :=
  { s.lc with tx := none, failures := n, longDue := s.lc.longDue || long }

theorem frameOver_ended (s : State) (n : Nat) (long : Bool) : s.lc.Ended (s.frameOver n long) := ⟨rfl, rfl, rfl⟩

/-- The AU's own mark of a long notice, at the end of a frame (R85, R86). -/
theorem markLong_over (s : State) :
    (s.setLc { s.lc with tx := none, failures := 0 }).markLong = { s with lc := s.frameOver 0 s.cs.locked } :=
  markLong_idle _ rfl

/-- The cell that a completed CLAIM gives (R85). -/
theorem claimed_cell (s : State) (l : LC) (r : Resource) (v : Nat) :
    (({ s with lc := l } : State).cell r).claimed (({ s with lc := l } : State).cellView r) v
      = (s.claimed r v).cell r := by
  have view : (({ s with lc := l } : State).cellView r).target = s.target r := rfl
  unfold Cell.claimed
  rw [view]
  cases r <;> rfl

/-- A completed CLAIM. -/
theorem frameDone_claim {s u : State} {x : Tx} {r : Resource} {v : Nat} (hw : s.atStage .waitPrereq = false)
    (hx : s.lc.tx = some x) (hb : x.begun = true) (hk : x.slot = .allot r) (hf : x.frame = .allot r (.claim v))
    (h : ClaimFollowed s (s.claimed r v) u r) :
    ∃ t, exec .frameCompletion s = .next t
      ∧ t = { u with au := t.au, lc := t.lc }
      ∧ t.lc = { s.frameOver 0 s.cs.locked with
          allot := t.lc.allot
          shortDue := s.lc.shortDue || (s.cs.locked && s.shortCalled t) }
      ∧ StandingJudgedTwice s (s.claimed r v) t ∧ CellAfter s t r ((s.claimed r v).cell r) := by
  obtain ⟨t, reads, au, line, moved, rise, rest⟩ := claim_followed (frameOver_ended s 0 s.cs.locked) hw h
  have done : s.frameDone x = { u with au := (t.concluded r).au, lc := (t.concluded r).lc } := by
    have taken : s.frameDone x = (s.setLc { s.lc with tx := none, failures := 0 }).allotDone r (.claim v) := by
      unfold State.frameDone
      rw [hk, hf]
    have first : ({ s with lc := s.frameOver 0 s.cs.locked } : State).withCell r
        ((({ s with lc := { s.lc with tx := none, failures := 0 } } : State).cell r).claimed
          (({ s with lc := { s.lc with tx := none, failures := 0 } } : State).cellView r) v) = t := by
      rw [claimed_cell]
      exact rise
    rw [taken]
    unfold State.allotDone
    dsimp only
    rw [markLong_over]
    exact (congrArg (fun w : State => w.outcomeTaken r (w.cell r)) first).trans rest
  have form : (t.concluded r).lc = { s.frameOver 0 s.cs.locked with allot := (t.concluded r).lc.allot } := by
    have lc : (t.concluded r).lc = { t.lc with allot := (t.concluded r).lc.allot } := by
      conv_lhs => rw [concluded_eq]
    rw [line, (risen_res s _ r v (frameOver_ended s 0 s.cs.locked)).2] at lc
    exact lc
  have run := (begun_base s x hx hb).1
  rw [done] at run
  have judged : StandingJudged t (t.concluded r) := written_standing _ _ _
  have risen := risen_standing s (s.frameOver 0 s.cs.locked) r v (frameOver_ended s 0 s.cs.locked)
  rw [← au] at risen
  let j : State := { u with au := (t.concluded r).au, lc := (t.concluded r).lc }
  obtain ⟨whole, lc⟩ := outcome_moved s u j (s.frameOver 0 s.cs.locked) moved.form
    (congrArg (fun k : LC => ({ u with au := (t.concluded r).au, lc := k } : State)) form) rfl moved.list
  have run : exec .frameCompletion s = .next (s.publish j) := run
  generalize s.publish j = w at whole lc run
  have wau : w.au = (t.concluded r).au := by rw [whole]
  have wallot : w.lc.allot = (t.concluded r).lc.allot := by rw [lc]
  have wps : w.ps.phase = s.ps.phase := by rw [whole]; exact moved.phase
  have wcs : w.cs = s.cs := by rw [whole, moved.form]
  have wpv : w.pv = s.pv := by rw [whole, moved.form]
  have cells : ∀ x, w.cell x = (t.concluded r).cell x := fun x => by
    unfold State.cell
    rw [wau, wallot]
  have readings : (w.au.res.get r).reading = (s.au.res.get r).reading := by
    change (w.cell r).a.reading = _
    rw [cells, concluded_cell, afterOutcome_reading, reads.own]
    cases r <;> rfl
  refine ⟨w, run, ?_, ?_, ⟨?_, ?_⟩, ?_, fun x hx => ?_⟩
  · rw [wau]
    exact whole
  · rw [wallot]
    exact lc
  · rw [wau, judged.1]
    unfold State.belowStanding State.required
    rw [wau, wps, wcs, concluded_eq, reads.phase, reads.store]
  · rw [wau, judged.2, risen.1, risen.2, reads.store]
    cases (t.concluded r).au.underStanding <;> cases (s.claimed r v).belowStanding <;> cases s.au.underStanding <;> rfl
  · rw [cells, concluded_cell, reads.own, reads.view, reads.tally, reads.before, tally_eq w s r (by rw [wpv]) wcs wps readings,
      sumBefore_eq w s r (by rw [wpv]) wcs]
  · rw [cells, concluded_cell_ne t hx, reads.others x hx]

/-- The outcome of a resource's frame that calls for nothing else, the line controller at `l` before it (R85, R86). -/
theorem outcomeTaken_calm {s : State} {l : LC} {r : Resource} {c : Cell} (hc : s.peerCalm) (hl : s.lc.Ended l)
    (hr : c.a.reading = (s.au.res.get r).reading) :
    LineAfter s (s.publish (({ s with lc := l } : State).outcomeTaken r c)) l
      ∧ CellAfter s (s.publish (({ s with lc := l } : State).outcomeTaken r c)) r c := by
  let u : State := { s with lc := l }
  let d : Cell := c.afterOutcome (u.cellView r) (u.tally r) (u.sumBefore r)
  have reading : d.a.reading = (u.au.res.get r).reading := (afterOutcome_reading _ _ _ _).trans hr
  refine allot_outcome s u (u.setCell r d) r c l hc rfl hl.tx hl.line ?_ rfl hl.tx (setCell_cell u r d)
    (fun x hx => ?_) (fun x => setCell_reading u r d reading x) rfl rfl
  · change l = { ({ l with allot := l.allot.set r d.slot } : LC) with allot := s.lc.allot }
    rw [← hl.allot]
  · rw [setCell_cell_ne u d hx]
    change (⟨s.au.res.get x, l.allot.get x⟩ : Cell) = ⟨s.au.res.get x, s.lc.allot.get x⟩
    rw [hl.allot]

/-- A completed RELEASE (R86). -/
theorem frameDone_release {s : State} {x : Tx} {r : Resource} {v : Nat} (hc : s.peerCalm)
    (hx : s.lc.tx = some x) (hb : x.begun = true) (hk : x.slot = .allot r) (hf : x.frame = .allot r (.release v)) :
    ∃ t, exec .frameCompletion s = .next t ∧ LineAfter s t (s.frameOver 0 s.cs.locked)
      ∧ CellAfter s t r ⟨{ s.au.res.get r with announced := v }, none⟩ := by
  have done : s.frameDone x = ({ s with lc := s.frameOver 0 s.cs.locked } : State).outcomeTaken r
      ⟨{ s.au.res.get r with announced := v }, none⟩ := by
    unfold State.frameDone
    rw [hk, hf]
    change (s.setLc { s.lc with tx := none, failures := 0 }).markLong.outcomeTaken r _ = _
    rw [markLong_over]
    rfl
  have run := (begun_base s x hx hb).1
  rw [done] at run
  exact ⟨_, run, outcomeTaken_calm hc (frameOver_ended s 0 _) rfl⟩

/-- Both rates are judged again once a notice is over, against those that it carried (R174). -/
theorem retested_short {s : State} {n : Notice} {k : LC} (hk : k.tx = none) (ho : k.lastOffer = n.offer)
    (ha : k.lastAcceptance = n.acceptance) :
    (s.setLc k).retest = s.setLc { k with
      shortDue := k.shortDue || (s.cs.locked && (mattersOnLine s.cs.set.publishDeadband s.offer n.offer
        || mattersOnLine s.cs.set.publishDeadband s.acceptance n.acceptance)) } := by
  rw [retest_idle (s.setLc k) hk]
  unfold State.ratesMatter
  change s.setLc { k with shortDue := k.shortDue || (s.cs.locked
    && (mattersOnLine s.cs.set.publishDeadband s.offer k.lastOffer
      || mattersOnLine s.cs.set.publishDeadband s.acceptance k.lastAcceptance)) } = _
  rw [ho, ha]

/-- What the AU has done once a long notice is over, the line ACTIVE: each engine has left SUSPENDED, the announced
holdings and the capacities taken, and UNDER_STANDING is judged (R79, R86, R92). -/
def State.rejoined (w : State) (n : Notice) : State := (w.allotLong n).rejoinCells.judgeStanding

theorem rejoined_eq (w : State) (n : Notice) : w.rejoined n = { w with
    au := (w.rejoined n).au, lc := { w.lc with allot := (w.rejoined n).lc.allot } } := by
  unfold State.rejoined
  rw [judgeStanding_au, rejoinCells_eq, allotLong_eq]
  rfl

theorem rejoined_cell {w : State} {n : Notice} (hw : w.lc.tx = none) (ha : w.lc.line = .active) (r : Resource) :
    (w.rejoined n).cell r = Cell.rejoin ⟨w.target r, false, true⟩ (w.tally r)
      (Cell.longDone ⟨w.target r, false, true⟩ (n.holdings.get r) (n.capacities.get r) (w.cell r)) := by
  have view : w.cellView r = ⟨w.target r, false, true⟩ := by
    unfold State.cellView State.allotBegun
    rw [hw, ha]
    rfl
  have cell : (w.allotLong n).cell r = Cell.longDone ⟨w.target r, false, true⟩ (n.holdings.get r) (n.capacities.get r)
      (w.cell r) := by
    rw [allotLong_eq, setCells_cell, view]
  obtain ⟨raised, reading⟩ := longDone_keeps ⟨w.target r, false, true⟩ (n.holdings.get r) (n.capacities.get r) (w.cell r)
  rw [← cell] at raised reading
  have after : (w.allotLong n).cellView r = ⟨w.target r, false, true⟩ := by
    rw [← view]
    have target : (w.allotLong n).target r = w.target r := by
      unfold State.target State.phaseTarget
      rw [show (w.allotLong n).au.res.get r = ((w.allotLong n).cell r).a from rfl, raised, allotLong_eq]
      rfl
    unfold State.cellView
    rw [target, allotLong_eq]
    rfl
  have tally : (w.allotLong n).tally r = w.tally r :=
    tally_eq _ _ r (by rw [allotLong_eq]; rfl) (by rw [allotLong_eq]; rfl) (by rw [allotLong_eq]; rfl) reading
  unfold State.rejoined
  rw [judgeStanding_cell, rejoinCells_eq, setCells_cell, cell, after, tally]

theorem rejoined_reading (w : State) (n : Notice) (hw : w.lc.tx = none) (ha : w.lc.line = .active) (r : Resource) :
    ((w.rejoined n).au.res.get r).reading = (w.au.res.get r).reading := by
  change ((w.rejoined n).cell r).a.reading = _
  rw [rejoined_cell hw ha, rejoin_keeps, (longDone_keeps _ _ _ _).2]
  rfl

/-- A completed long notice (R79, R86, R92, R171 to R173, R176). -/
theorem frameDone_long {s : State} {x : Tx} {n : Notice} {l : LC} (hc : s.peerCalm) (hx : s.lc.tx = some x)
    (hb : x.begun = true) (hk : x.slot = .status) (hf : x.frame = .status n) (hn : n.long = true)
    (hl : l = { s.lc with
      tx := none, failures := 0, lastOffer := n.offer, lastAcceptance := n.acceptance
      shortDue := s.lc.shortAgain || (s.cs.locked && (mattersOnLine s.cs.set.publishDeadband s.offer n.offer
        || mattersOnLine s.cs.set.publishDeadband s.acceptance n.acceptance))
      longDue := s.lc.longAgain, statusTimer := some s.cs.set.statusPeriod
      replyOverflow := s.lc.replyOverflow && !x.afterOverflow, line := .active, attempt := false }) :
    ∃ t, exec .frameCompletion s = .next t ∧ LineAfter s t l
      ∧ ∀ y, t.cell y = Cell.rejoin ⟨s.target y, false, true⟩ (t.tally y)
          (Cell.longDone ⟨s.target y, false, true⟩ (n.holdings.get y) (n.capacities.get y) (s.cell y)) := by
  obtain ⟨calmList, calmClaim, calmRate⟩ := hc
  let u : State := { s with lc := { s.lc with tx := none, failures := 0 } }
  let w : State := { s with lc := { s.lc with
    tx := none, failures := 0, lastOffer := n.offer, lastAcceptance := n.acceptance, shortDue := s.lc.shortAgain
    longDue := s.lc.longAgain, statusTimer := some s.cs.set.statusPeriod
    replyOverflow := s.lc.replyOverflow && !x.afterOverflow, line := .active, attempt := false } }
  let j : State := w.rejoined n
  have form : j = { w with au := j.au, lc := { w.lc with allot := j.lc.allot } } := rejoined_eq w n
  have marked : j.retest = { s with au := j.au, lc := { l with allot := j.lc.allot } } := by
    have rates : j.ratesMatter = (mattersOnLine s.cs.set.publishDeadband s.offer n.offer
        || mattersOnLine s.cs.set.publishDeadband s.acceptance n.acceptance) := by
      rw [form]
      rfl
    have locked : j.cs = s.cs := by rw [form]
    have idle : j.lc.tx = none := by rw [form]
    rw [retest_idle j idle, rates, locked, hl]
    conv_lhs => rw [form]
    rfl
  have calm : u.afterAllotment j.retest = j.retest :=
    afterAllotment_calm u j.retest (by rw [marked]) calmClaim calmRate
  have done : s.frameDone x = j.retest := by
    have taken : s.frameDone x = u.afterAllotment j.retest := by
      unfold State.frameDone
      rw [hk, hf]
      exact if_pos hn
    exact taken.trans calm
  have run := (begun_base s x hx hb).1
  rw [done] at run
  have judged : StandingJudged s j.retest := by
    have kept : ∀ y : State, y = (w.allotLong n).rejoinCells → y.au.underStanding = s.au.underStanding
        ∧ y.au.underTimer = s.au.underTimer ∧ y.cs = s.cs ∧ y.ps = s.ps := fun y hy => by
      rw [hy, rejoinCells_eq, allotLong_eq]
      exact ⟨rfl, rfl, rfl, rfl⟩
    obtain ⟨flag, timer, cs, ps⟩ := kept _ rfl
    exact standing_after s j.retest (w.allotLong n).rejoinCells (judgeStanding_judged s _ flag timer cs)
      (by rw [marked]; rfl) (by rw [marked, ps]) (by rw [marked, cs])
  obtain ⟨after, cells, _, cs, ps, pv⟩ := outcome_cell s { s with lc := l } j.retest l rfl (by rw [marked]) (by rw [marked])
    (by rw [hl]) judged calmList
  refine ⟨_, run, after, fun y => ?_⟩
  have cell : j.retest.cell y = j.cell y := by
    rw [marked]
    rfl
  have reading : ((s.publish j.retest).au.res.get y).reading = (s.au.res.get y).reading := by
    change ((s.publish j.retest).cell y).a.reading = _
    rw [cells, cell]
    exact rejoined_reading w n rfl rfl y
  rw [cells, cell, tally_eq (s.publish j.retest) s y (by rw [pv]) cs (by rw [ps]) reading]
  exact rejoined_cell rfl rfl y

/-- Settles O36: the completion of each frame. -/
theorem completedFramesTakeEffect : Obligations.CompletedFramesTakeEffect := by
  intro s x l hx hb hl
  have run := (begun_base s x hx hb).1
  have alone : ∀ k : LC, k.replyOverflow = s.lc.replyOverflow → s.frameDone x = s.setLc k →
      exec .frameCompletion s = .next { s with lc := k } := fun k hk e => by
    rw [run, e]
    exact congrArg Host.Outcome.next (pub_lc s k hk)
  refine ⟨fun c hk hf => alone _ (by rw [hl]) ?_, fun m rest hk hf hm => alone _ (by rw [hl]) ?_, fun n hk hf hn => alone _ (by rw [hl]) ?_,
    fun r v m u hw hk hf hm h => ?_, fun hc => ⟨fun r v hk hf => ?_, fun n hk hf hn => ?_⟩⟩
  · unfold State.frameDone
    rw [hk, hl]
    rfl
  · unfold State.frameDone
    rw [hk, hl, ← List.tail_cons (a := m) (as := rest), ← hm]
    rfl
  · unfold State.frameDone
    rw [hk, hf, hl]
    exact (if_neg (by simp [hn])).trans (retested_short (s := s) (n := n) rfl rfl rfl)
  · rw [hm] at h ⊢
    rw [hl]
    exact frameDone_claim hw hx hb hk hf h
  · rw [hl]
    exact frameDone_release hc hx hb hk hf
  · exact frameDone_long hc hx hb hk hf hn (by rw [hl])

/-! ### The failure of each frame (R167, R175) -/

/-- A failure below the eighth in a row (R175). -/
theorem frameFailed_returned {s : State} {x : Tx} (ha : s.lc.line = .active) (hn : s.lc.failures < 7) :
    s.frameFailed x = (s.setLc { s.lc with tx := none, failures := s.lc.failures + 1 }).returned x := by
  unfold State.frameFailed
  rw [if_neg (by rw [ha]; nofun)]
  exact if_pos (by unfold failureLimit; exact Nat.succ_lt_succ hn)

/-- The line controller isolated by the failure of a frame (R175). -/
def LC.cutOff (l : LC) (k : TxSlot) : LC :=
  { l.dropFrame k with tx := none, line := .isolated, failures := 0, attempt := false }

/-- The AU's work at the isolation, on all cells at once (R91). -/
theorem isolateCells_eq (w : State) :
    w.isolateCells = (w.setCells fun r => (w.cell r).isolate (w.tally r)).judgeStanding := by
  unfold State.isolateCells
  rw [foldSet_eq (fun t r => (t.cell r).isolate (t.tally r))
    (fun t x c r h => by obtain ⟨a, _, d⟩ := setCell_other t x c r h; rw [a, d])]

/-- The eighth failure in a row, whether the frame had begun or not (R166, R175). -/
theorem eighthFailure {s : State} {x : Tx} {c : Instr} (hx : s.lc.tx = some x)
    (hc : c = .frameFailure ∧ x.begun = true ∨ c = .transmitFault ∧ x.begun = false) (ha : s.lc.line = .active)
    (hn : s.lc.failures = 7) :
    exec c s = .next (s.publish (if s.ps.phase.underRate then
      (s.setLc (s.lc.cutOff x.slot)).isolateCells.requestAutoHold
      else (s.setLc (s.lc.cutOff x.slot)).isolateCells)) := by
  let u : State := s.setLc { s.lc with tx := none, failures := s.lc.failures + 1 }
  have eighth : ¬ u.lc.failures < failureLimit := by
    change ¬ s.lc.failures + 1 < 8
    omega
  have active : ¬ s.lc.line = .isolated := by rw [ha]; nofun
  have cut : u.setLc { u.lc.dropFrame x.slot with line := .isolated, failures := 0, attempt := false }
      = s.setLc (s.lc.cutOff x.slot) := by
    unfold LC.cutOff
    cases x.slot <;> rfl
  have isolated : u.isolate x.slot = if s.ps.phase.underRate then
      (s.setLc (s.lc.cutOff x.slot)).isolateCells.requestAutoHold
      else (s.setLc (s.lc.cutOff x.slot)).isolateCells := by
    unfold State.isolate
    rw [cut]
    have ps : (s.setLc (s.lc.cutOff x.slot)).isolateCells.ps = s.ps := by
      rw [isolateCells_eq, judgeStanding_au]
      rfl
    dsimp only
    rw [ps]
  rw [← isolated]
  rcases hc with ⟨rfl, hb⟩ | ⟨rfl, hb⟩
  · rw [(begun_base s x hx hb).2]
    unfold State.frameFailed
    rw [if_neg active]
    exact congrArg (fun w => Host.Outcome.next (s.publish w)) (if_neg eighth)
  · rw [(exec_offered hx hb).2.1]
    unfold State.faulted
    rw [if_neg active]
    exact congrArg (fun w => Host.Outcome.next (s.publish w)) (if_neg eighth)

/-- The node cut off, the AU's part taken (R91). -/
theorem cutOff_eq (s : State) (k : TxSlot) :
    (s.setLc (s.lc.cutOff k)).isolateCells = { s with
      au := (s.setLc (s.lc.cutOff k)).isolateCells.au
      lc := { s.lc.cutOff k with allot := (s.setLc (s.lc.cutOff k)).isolateCells.lc.allot } } := by
  rw [isolateCells_eq, judgeStanding_au]
  rfl

theorem cutOff_cell {s : State} {k : TxSlot} (r : Resource) :
    (s.setLc (s.lc.cutOff k)).isolateCells.cell r = ⟨{ s.au.res.get r with
      holding := 0, engine := .suspended, claimValue := none, heldReport := false
      tally := if (s.au.res.get r).holding = 0 then (s.au.res.get r).tally else s.tally r }, none⟩ := by
  rw [isolateCells_eq, judgeStanding_cell, setCells_cell]
  rfl

theorem cutOff_standing (s : State) (k : TxSlot) : StandingJudged s (s.setLc (s.lc.cutOff k)).isolateCells := by
  rw [isolateCells_eq]
  exact judgeStanding_judged s _ rfl rfl rfl

/-- Settles O37: each failed frame returned, and the isolation at the eighth failure. -/
theorem failedFramesReturnOrIsolate : Obligations.FailedFramesReturnOrIsolate := by
  intro s x hx
  have alone : ∀ k : LC, k.replyOverflow = s.lc.replyOverflow → x.begun = true → s.frameFailed x = s.setLc k →
      exec .frameFailure s = .next { s with lc := k } := fun k hk hb e => by
    rw [(begun_base s x hx hb).2, e]
    exact congrArg Host.Outcome.next (pub_lc s k hk)
  refine ⟨fun hb hi => alone _ rfl hb ?_, fun l hb ha hn hl => ?_, fun c l hc ha hn hw hl => ?_⟩
  · unfold State.frameFailed
    exact if_pos hi
  · have back := frameFailed_returned (x := x) ha hn
    have ended : s.lc.Ended l := by rw [hl]; exact ⟨rfl, rfl, rfl⟩
    rw [← hl] at back
    have flag : l.replyOverflow = s.lc.replyOverflow := by rw [hl]
    have outcome : ∀ r c, c.a.reading = (s.au.res.get r).reading → s.peerCalm →
        (s.setLc l).returned x = (s.setLc l).outcomeTaken r c →
        ∃ t, exec .frameFailure s = .next t ∧ LineAfter s t l ∧ CellAfter s t r c := fun r c hr hp he => by
      have run := (begun_base s x hx hb).2
      rw [back, he] at run
      exact ⟨_, run, outcomeTaken_calm hp ended hr⟩
    refine ⟨fun h => alone l flag hb (back.trans ?_), fun n hk hf hs => alone _ flag hb (back.trans ?_),
      fun c hk hc => alone _ flag hb (back.trans ?_), fun r v hp hk hf => ?_,
      fun r v hp hk hf => outcome r _ rfl hp ?_⟩
    · unfold State.returned
      rcases h with ⟨m, hk, hf⟩ | ⟨n, hk, hf, hs⟩ | ⟨hk, hc⟩
      · rw [hk, hf]
      · rw [hk, hf]
        exact if_pos hs
      · rw [hk]
        exact if_neg (by rw [hl]; simp [hc])
    · unfold State.returned
      rw [hk, hf]
      exact if_neg (by simp [hs])
    · unfold State.returned
      rw [hk]
      have aside : l.tripAside = some c := by rw [hl]; exact hc
      refine (if_pos (by simp [aside])).trans ?_
      change s.setLc { l with tripSlot := l.tripAside, tripAside := none } = _
      rw [aside]
    · refine outcome r _ ?_ hp ?_
      · split <;> rfl
      unfold State.returned
      rw [hk, hf]
      refine congrArg ((s.setLc l).outcomeTaken r) ?_
      change Cell.withdrawBelow _ ⟨{ s.au.res.get r with engine := .reserved }, l.allot.get r⟩ = _
      unfold Cell.withdrawBelow
      rw [ended.allot]
      by_cases low : s.target r < (s.au.res.get r).claimValue.getD 0
      · rw [if_pos ⟨rfl, low⟩, if_pos low]
        rfl
      · rw [if_neg (fun h => low h.2), if_neg low]
    · unfold State.returned
      rw [hk, hf]
      rfl
  · have run := eighthFailure hx hc ha hn
    have form := cutOff_eq s x.slot
    have cells := cutOff_cell (s := s) (k := x.slot)
    have judged := cutOff_standing s x.slot
    have same : s.lc.cutOff x.slot = l := hl.symm
    have idle : l.tx = none := by rw [hl]
    rw [same] at run form cells judged
    generalize (s.setLc l).isolateCells = j at run form cells judged
    have jlc : j.lc = { l with allot := j.lc.allot } := by
      conv_lhs => rw [form]
    refine ⟨fun hr => ?_, fun u hr hu => ?_⟩
    · rw [if_neg (by simp [hr])] at run
      obtain ⟨after, kept, _⟩ := outcome_cell s { s with lc := l } j l rfl (by rw [jlc]; exact form) jlc idle judged hw
      exact ⟨_, run, after, fun y => (kept y).trans (cells y)⟩
    · rw [if_pos hr] at run
      have asked : j.requestAutoHold = { u with au := j.au, lc := j.lc } := by
        refine (congrArg State.requestAutoHold (show j = { s with au := j.au, lc := j.lc } by rw [jlc]; exact form)).trans ?_
        exact requestAutoHold_asked s u _ _ hu
      have moved := hu.moved hw
      rw [asked] at run
      obtain ⟨whole, line⟩ := outcome_moved s u { u with au := j.au, lc := j.lc } l moved.form (by rw [← jlc]) idle moved.list
      generalize s.publish { u with au := j.au, lc := j.lc } = t at run whole line
      have au : t.au = j.au := by rw [whole]
      have allot : t.lc.allot = j.lc.allot := by rw [line]
      refine ⟨t, run, by rw [au]; exact whole, by rw [allot]; exact line, ?_, fun y => ?_⟩
      · unfold StandingJudged at judged ⊢
        have below : t.belowStanding = j.belowStanding := by
          unfold State.belowStanding State.required
          rw [au, show t.ps.phase = s.ps.phase by rw [whole]; exact moved.phase, show t.cs = s.cs by rw [whole, moved.form],
            show j.ps = s.ps by rw [form], show j.cs = s.cs by rw [form]]
        rw [au, below]
        exact judged
      · rw [← cells y]
        unfold State.cell
        rw [au, allot]

end Sys2Proof.Machine
end

section
/-!
SUPPORT. The frames of the peer table (chapter 2): the codes that name something, what each frame writes, the frames
that are discarded, and the age watches; and the AU's work on one resource (chapter 4).
-/

namespace Sys2Proof.Machine

/-! ### Codes and fields (11.2, 11.5) -/

theorem phase_ofCode (p : Phase) : Phase.ofCode p.code = some p := by cases p <;> rfl

theorem phase_code {n : Nat} {p : Phase} (h : Phase.ofCode n = some p) : p.code = n := by
  unfold Phase.ofCode at h
  split at h <;> cases h <;> rfl

theorem class_ofCode (c : SectionClass) : SectionClass.ofCode c.code = some c := by cases c <;> rfl

theorem class_code {n : Nat} {c : SectionClass} (h : SectionClass.ofCode n = some c) : c.code = n := by
  unfold SectionClass.ofCode at h
  split at h <;> cases h <;> rfl

theorem cause_ofCode (c : Cause) : Cause.ofCode c.code = some c := by cases c <;> rfl

theorem cause_code {n : Nat} {c : Cause} (h : Cause.ofCode n = some c) : c.code = n := by
  unfold Cause.ofCode at h
  split at h <;> cases h <;> rfl

theorem resource_ofCode (r : Resource) : Resource.ofCode r.code = some r := by cases r <;> rfl

theorem resource_code {n : Nat} {r : Resource} (h : Resource.ofCode n = some r) : r.code = n := by
  unfold Resource.ofCode at h
  split at h <;> cases h <;> rfl

/-- A code that no value has names nothing (R188). -/
theorem ofCode_unnamed {α : Type} {decode : Nat → Option α} {code : α → Nat} {n : Nat}
    (hd : ∀ x, decode n = some x → code x = n) (h : ∀ x, code x ≠ n) : decode n = none :=
  Option.eq_none_iff_forall_ne_some.mpr fun x hx => h x (hd x hx)

theorem bitsOf_bit (b : Byte) (k : Nat) : bitsOf b k 1 = 1 ↔ b.getLsbD k = true := by
  unfold bitsOf
  rw [BitVec.getLsbD, Nat.testBit_eq_decide_div_mod_eq]
  simp

theorem bitsOf_high (b : Byte) : bitsOf b 4 4 = b.toNat / 16 := by
  unfold bitsOf
  have := b.isLt
  omega

theorem bitsOf_low (b : Byte) (k : Nat) : bitsOf b 0 k = b.toNat % 2 ^ k := by
  unfold bitsOf
  rw [Nat.pow_zero, Nat.div_one]

/-! ### What each frame writes (R33 to R39) -/

theorem deliverPeer_heard {s : State} {a : Station} {take : PeerEntry → Option PeerEntry} {e : PeerEntry}
    (h : s.listens a) (ht : take (s.stored a) = some e) : s.deliverPeer a take = s.writePeer a e := by
  obtain ⟨receives, other, own⟩ := h
  unfold State.deliverPeer
  rw [if_pos (by simp [receives, other, own]), ht]

/-- A frame heard, and its change report. -/
theorem deliverPeer_told {s : State} {a : Station} {take : PeerEntry → Option PeerEntry} {e : PeerEntry}
    (h : s.listens a) (hr : s.ReportReady) (ht : take (s.stored a) = some e) :
    Told s (s.publish (s.deliverPeer a take)) a e := by
  rw [deliverPeer_heard h ht]
  exact writePeer_told s a e h.2.1 hr

/-- What a STATUS_LONG of valid codes writes (R33, R37). -/
theorem takeLong_eq {e : PeerEntry} {now : Nat} {p : List Byte} {ph : Phase} {c : SectionClass} {k : Option Cause}
    (hl : p.length = 32) (hp : ph.code = (byteAt p 0).toNat) (hc : c.code = (byteAt p 29).toNat)
    (ht : ph = .tripped → ∃ x : Cause, k = some x ∧ x.code = (byteAt p 31).toNat) (hn : ph ≠ .tripped → k = none) :
    e.takeLong now p = some { e.withStatus ph p now with
      holdup := some (wordAt p 7)
      holdings := .of fun r => some (min 4000 (wordAt p (9 + 2 * r.code)))
      capacities := .of fun r =>
        if (byteAt p 17).getLsbD r.code then some (min 4000 (wordAt p (18 + 2 * r.code))) else none
      statusPeriod := some (max 1 (min 10 ((byteAt p 26).toNat / 16)))
      rank := some ((byteAt p 26).toNat % 16)
      phaseSince := some ((now : Int) - wordAt p 27)
      sectionClass := some c, chainPosition := some ((byteAt p 30).toNat % 64), cause := k } := by
  have cause : longCause ph p = some k := by
    unfold longCause
    by_cases h : ph = .tripped
    · obtain ⟨x, rfl, hx⟩ := ht h
      rw [if_pos h, ← hx, cause_ofCode]
      rfl
    · rw [if_neg h, hn h]
  unfold PeerEntry.takeLong
  rw [if_neg (by simp [hl]), ← hp, ← hc, phase_ofCode, class_ofCode]
  dsimp only
  rw [cause, bitsOf_high, bitsOf_low, bitsOf_low]
  simp only [bitsOf_bit]
  rfl

theorem takeShort_eq {e : PeerEntry} {now : Nat} {p : List Byte} {ph : Phase} (hl : p.length = 7)
    (hp : ph.code = (byteAt p 0).toNat) :
    e.takeShort now p = some { e.withStatus ph p now with
      phaseSince := if e.phase = some ph ∧ e.presence = .live then e.phaseSince else some (now : Int)
      cause := if ph = .tripped ∧ e.phase = some .tripped then e.cause else none } := by
  unfold PeerEntry.takeShort
  rw [if_neg (by simp [hl]), ← hp, phase_ofCode]
  rfl

theorem takeHolding_eq {e : PeerEntry} {now : Nat} {p : List Byte} {r : Resource} (hl : p.length = 3)
    (hr : r.code = (byteAt p 0).toNat) :
    e.takeHolding now p = some { e with
      presence := .live, holdings := e.holdings.set r (some (min 4000 (wordAt p 1))), lastHeard := some now } := by
  unfold PeerEntry.takeHolding
  rw [if_neg (by simp [hl]), ← hr, resource_ofCode]
  rfl

theorem takeTrip_eq {e : PeerEntry} {now : Nat} {p : List Byte} {c : Cause} (hl : p.length = 1)
    (hc : c.code = (byteAt p 0).toNat) :
    e.takeTrip now p = some { e with
      presence := .live, phase := some .tripped, phaseSince := some (now : Int), cause := some c
      lastHeard := some now } := by
  unfold PeerEntry.takeTrip
  rw [if_neg (by simp [hl]), ← hc, cause_ofCode]
  rfl

/-- Settles O38: the entry that each notice writes, and its change report. -/
theorem statusNoticesWriteTheEntry : Obligations.StatusNoticesWriteTheEntry := by
  intro s a p ph e b hl hr hp hb
  refine ⟨fun c k hn hc ht hk he => ⟨_, rfl, deliverPeer_told hl hr ?_⟩, fun hn he => ⟨_, rfl, deliverPeer_told hl hr ?_⟩⟩
  · rw [takeLong_eq hn hp hc ht hk, he, hb]
    rfl
  · rw [takeShort_eq hn hp, he, hb]
    rfl

/-- Settles O39: the holding, the trip and the silence that an entry takes, and the change report. -/
theorem holdingsTripsAndSilenceWriteTheEntry : Obligations.HoldingsTripsAndSilenceWriteTheEntry := by
  intro s a p hr
  refine ⟨fun r hl hn hc c h => ?_, fun c hl hn hc => ⟨_, rfl, deliverPeer_told hl hr (takeTrip_eq hn hc)⟩,
    fun h ha hown hp hh hlate =>
      ⟨_, congrArg Host.Outcome.next (if_pos ?_), writePeer_told s a _ ha hr⟩⟩
  · rcases h with rfl | rfl
    · exact ⟨_, rfl, deliverPeer_told hl hr (takeHolding_eq hn hc)⟩
    · exact ⟨_, rfl, deliverPeer_told hl hr (takeHolding_eq hn hc)⟩
  · unfold State.silenceDue
    rw [hown, hp, hh]
    exact decide_eq_true hlate

/-! ### The frames discarded (R32, R37, R164, R165, R188) -/

theorem deliverPeer_unheard {s : State} {a : Station} {take : PeerEntry → Option PeerEntry} (h : ¬ s.listens a) :
    s.publish (s.deliverPeer a take) = s := by
  have unheard : s.deliverPeer a take = s := by
    unfold State.deliverPeer
    rw [if_neg]
    simpa [State.listens] using h
  rw [unheard, publish_self]

theorem deliverPeer_discarded {s : State} {a : Station} {take : PeerEntry → Option PeerEntry}
    (h : take (s.stored a) = none) : s.publish (s.deliverPeer a take) = s := by
  have discarded : s.deliverPeer a take = s := by
    unfold State.deliverPeer
    rw [h]
    exact ite_self _
  rw [discarded, publish_self]

theorem takeLong_none {e : PeerEntry} {now : Nat} {p : List Byte}
    (h : p.length ≠ 32 ∨ (∀ x : Phase, x.code ≠ (byteAt p 0).toNat) ∨ (∀ x : SectionClass, x.code ≠ (byteAt p 29).toNat)
      ∨ Phase.tripped.code = (byteAt p 0).toNat ∧ ∀ x : Cause, x.code ≠ (byteAt p 31).toNat) :
    e.takeLong now p = none := by
  unfold PeerEntry.takeLong
  rcases h with h | h | h | ⟨hp, hc⟩
  · exact if_pos h
  · rw [ofCode_unnamed (fun _ => phase_code) h, ite_eq_left_iff]
    exact fun _ => rfl
  · rw [ofCode_unnamed (fun _ => class_code) h, ite_eq_left_iff]
    intro _
    split <;> simp_all
  · rw [← hp, phase_ofCode, ite_eq_left_iff]
    intro _
    have cause : longCause .tripped p = none := by
      unfold longCause
      rw [if_pos rfl, ofCode_unnamed (fun _ => cause_code) hc]
      rfl
    split
    · rename_i ph cls first _
      obtain rfl : Phase.tripped = ph := Option.some.inj first
      rw [cause]
      rfl
    · rfl

/-- Settles O40: each frame that is discarded, and the count of errors. -/
theorem discardedFramesChangeNothing : Obligations.DiscardedFramesChangeNothing := by
  intro s a p
  refine ⟨fun h c hc => ?_, fun h => congrArg Host.Outcome.next (deliverPeer_discarded (takeLong_none h)), fun h => ?_, fun h => ?_,
    fun h => ?_, rfl, fun bits hr he => congrArg Host.Outcome.next (if_pos (by simp [hr, he])),
    fun bits h => congrArg Host.Outcome.next (if_neg ?_)⟩
  · simp only [List.mem_cons, List.not_mem_nil, or_false] at hc
    rcases hc with rfl | rfl | rfl | rfl | rfl <;> exact congrArg Host.Outcome.next (deliverPeer_unheard h)
  · refine congrArg Host.Outcome.next (deliverPeer_discarded ?_)
    unfold PeerEntry.takeShort
    rcases h with h | h
    · exact if_pos h
    · rw [ofCode_unnamed (fun _ => phase_code) h]
      exact ite_self _
  · have none : (s.stored a).takeHolding s.now p = none := by
      unfold PeerEntry.takeHolding
      rcases h with h | h
      · exact if_pos h
      · rw [ofCode_unnamed (fun _ => resource_code) h]
        exact ite_self _
    exact ⟨congrArg Host.Outcome.next (deliverPeer_discarded none), congrArg Host.Outcome.next (deliverPeer_discarded none)⟩
  · refine congrArg Host.Outcome.next (deliverPeer_discarded ?_)
    unfold PeerEntry.takeTrip
    rcases h with h | h
    · exact if_pos h
    · rw [ofCode_unnamed (fun _ => cause_code) h]
      exact ite_self _
  · rcases h with h | h
    · simp [h]
    · simp [h]

/-! ### The age watches (R42, R49) -/

/-- A watch that is due has the list of the waiting transition evaluated. -/
theorem exec_ageWatch {s : State} {a : Station} {r : SlotRec} {n : Nat} {since : Int} {l : ListName}
    (hf : s.ps.frozen = false) (hs : s.ps.slot = some r) (hg : r.stage = .waitPrereq) (hm : (a, n) ∈ s.pv.watches)
    (hp : (s.entry a).phaseSince = some since) (hn : n ≤ s.age since) (hl : r.kind.list = some l) :
    exec (.ageWatchExpiry a) s = .next (s.publish (s.evaluateList r l).notePending) := by
  have due : (s.pv.watches.any fun w => w.1 = a && s.watchDue w) = true := by
    rw [List.any_eq_true]
    refine ⟨(a, n), hm, ?_⟩
    unfold State.watchDue State.phaseAge
    dsimp only
    rw [hp]
    simp [hn]
  have polled : s.pollList = (s.evaluateList r l).notePending := by
    unfold State.pollList
    rw [hs]
    dsimp only
    rw [if_neg (by simp [hf, hg]), hl]
  rw [← polled]
  exact congrArg Host.Outcome.next (if_pos due)

/-- A transition without claims, its point of mode NONE, goes on from its list to its SET_PHASE (R8 to R10). -/
theorem toClaim_pointless {s : State} {r : SlotRec} (hc : r.claimTargets s.cs.set = none)
    (hp : ∀ k, r.kind.point = some k → (s.cs.set.points.get k).mode = .none) (hq : r.pendingSent = true)
    (h1 : s.sp.tripReq = false) (h2 : s.sp.psReq = none) (h3 : s.sp.pairReq = none) :
    s.toClaim r = s.goesOn { r with handoff := .notNeeded } := by
  have issues : s.toClaim r = s.toIssue { r with handoff := .notNeeded } := by
    unfold State.toClaim State.toHandoff
    rw [hc]
    cases hk : r.kind.point with
    | none => rfl
    | some k => simp [hp k hk, State.takePoint, State.waitOf]
  rw [issues]
  exact toIssue_goesOn s _ hq h1 h2 h3

/-- Going on to the SET_PHASE changes nothing published (R41). -/
theorem goesOn_own (u : State) (r : SlotRec) : (u.goesOn r).ownEntry = u.ownEntry := by
  unfold State.goesOn SP.begun SP.issued SP.asked
  split
  · split <;> rfl
  · split <;> rfl

/-- Settles O41: the list unmet, with its watches set anew, and the list met. -/
theorem ageWatchesEvaluateTheList : Obligations.AgeWatchesEvaluateTheList := by
  intro s a r n since hf hs hg hq hm hp hn
  have run := fun l => exec_ageWatch (l := l) hf hs hg hm hp hn
  refine ⟨fun l hl hu => ?_, fun h1 h2 h3 => ?_⟩
  · have list : r.kind.list = some l := by
      simp only [List.mem_cons, List.not_mem_nil, or_false, Prod.mk.injEq] at hl
      rcases hl with ⟨hk, rfl⟩ | ⟨hk, rfl⟩ | ⟨hk, rfl⟩ | ⟨hk, rfl⟩ | ⟨hk, rfl⟩ <;> rw [hk] <;> rfl
    have unmet : s.evaluateList r l = s.setPv { s.pv with watches := s.watchesOf l } := by
      unfold State.evaluateList
      cases h : s.firstUnmet l with
      | none => exact absurd h hu
      | some i => rfl
    have told : (s.evaluateList r l).notePending = s.evaluateList r l := by
      rw [unmet]
      unfold State.notePending
      change (match s.ps.slot with | some r => _ | none => _) = _
      rw [hs]
      exact if_neg (by simp [hq])
    rw [run l list, told, unmet]
    exact congrArg Host.Outcome.next (publish_own s _ rfl)
  · have met : ∀ l, r.kind.list = some l → s.firstUnmet l = none → r.claimTargets s.cs.set = none →
        (∀ k, r.kind.point = some k → (s.cs.set.points.get k).mode = .none) →
        exec (.ageWatchExpiry a) s = .next (s.unwatched.goesOn { r with handoff := .notNeeded }) := fun l hl hu hc hk => by
      have goes : s.evaluateList r l = s.unwatched.goesOn { r with handoff := .notNeeded } := by
        unfold State.evaluateList
        rw [hu]
        exact toClaim_pointless (s := s.unwatched) hc hk hq h1 h2 h3
      rw [run l hl, goes, goesOn_notePending]
      exact congrArg Host.Outcome.next (publish_own s _ (goesOn_own s.unwatched _))
    refine ⟨fun hk hu hm => met .drain (by rw [hk]; rfl) hu (by unfold SlotRec.claimTargets; rw [hk]) fun k hp => ?_,
      fun hk hu => met .endList (by rw [hk]; rfl) hu (by unfold SlotRec.claimTargets; rw [hk]) fun k hp => ?_⟩
    · rw [hk] at hp
      cases hp
      exact hm
    · rw [hk] at hp
      cases hp

end Sys2Proof.Machine
end

section
/-!
SUPPORT. The AU's work on one resource (chapter 4), and the reports of the section that move nothing else.
-/

namespace Sys2Proof.Machine

/-! ### The work on one cell (R76, R80 to R88) -/

/-- The judgement of a release, the engine neither RESERVED nor SENDING (R86). -/
theorem judgeRelease_judged {v : CellView} {c : Cell} (hr : c.a.engine ≠ .reserved) (hs : c.a.engine ≠ .sending) :
    Cell.ReleaseJudged v c (c.judgeRelease v) := by
  unfold Cell.ReleaseJudged Cell.judgeRelease Cell.releaseDue
  by_cases h : v.active = true ∧ v.begun = false ∧ c.a.announced ≠ c.a.holding
  · obtain ⟨active, begun, low⟩ := h
    rw [if_pos (by simp [hr, hs, active, begun, low]), if_pos ⟨active, begun, low⟩]
  · rw [if_neg h, if_neg]
    simp only [Bool.and_eq_true, decide_eq_true_eq, Bool.not_eq_true'] at h ⊢
    tauto

/-- A RESERVED claim has no release judged (R86). -/
theorem judgeRelease_reserved {v : CellView} {c : Cell} (h : c.a.engine = .reserved) : c.judgeRelease v = c := by
  unfold Cell.judgeRelease Cell.releaseDue
  rw [if_neg (by simp [h])]

/-- The evaluation of an engine found IDLE or WAITING, and the release after it (R81, R82, R86). -/
theorem evaluate_evaluated {v : CellView} {c : Cell} (h : c.a.engine = .idle ∨ c.a.engine = .waiting) :
    Cell.Evaluated v c ((c.evaluate v).judgeRelease v) := by
  unfold Cell.Evaluated Cell.evaluate Cell.claimable
  rw [if_pos h]
  dsimp only
  by_cases reached : v.target ≤ c.a.holding
  · rw [if_pos reached, if_pos reached]
    exact judgeRelease_judged (by simp) (by simp)
  · rw [if_neg reached, if_neg reached]
    by_cases claims : c.a.tally.unknown = false ∧ v.begun = false
        ∧ c.a.holding < min v.target (c.a.tally.capacity - c.a.tally.others)
    · obtain ⟨known, begun, room⟩ := claims
      have above : ¬ min v.target (c.a.tally.capacity - c.a.tally.others) ≤ c.a.holding := Nat.not_le.mpr room
      rw [if_pos ⟨known, begun, room⟩, if_neg (by simpa [known, begun] using above)]
      exact judgeRelease_reserved rfl
    · rw [if_neg claims, if_pos]
      · exact judgeRelease_judged (by simp) (by simp)
      · by_contra none
        simp only [Bool.or_eq_true, decide_eq_true_eq, not_or, Bool.not_eq_true, Nat.not_le] at none
        exact claims ⟨none.1.1, none.1.2, none.2⟩

theorem evaluate_other {v : CellView} {c : Cell} (h : c.a.engine ≠ .idle) (k : c.a.engine ≠ .waiting) :
    c.evaluate v = c := by
  unfold Cell.evaluate
  rw [if_neg (by tauto)]

theorem worsens_iff (c : Cell) (n : Tally) : n.worsens c.a.tally = true ↔ c.overtaken n := by
  unfold Tally.worsens Cell.overtaken
  simp [or_assoc]

/-- The cell that the walk of a change report leaves, before any withdrawal (R80, R87, R88). -/
def Cell.walked (n : Tally) (b : Nat) (c : Cell) : Cell :=
  { c with a := { c.a with
    holding := if b + c.a.holding ≤ n.capacity then c.a.holding else min c.a.holding (n.capacity - b)
    tally := n, heldReport := false } }

/-- A change report whose claim, if RESERVED, gives way: the walk, the withdrawal, the evaluation (R83). -/
theorem report_walked {v : CellView} {n : Tally} {b : Nat} {c : Cell}
    (h : c.a.engine = .reserved → c.overtaken n) :
    c.report v n b = ((c.walked n b).givenBack.evaluate v).judgeRelease v := by
  have cell : (if c.a.engine = .reserved ∧ n.worsens c.a.tally then
      Cell.withdraw { c with a := { c.a with tally := n, heldReport := false } }
      else { c with a := { c.a with tally := n, heldReport := false } }).shed b = (c.walked n b).givenBack := by
    by_cases hr : c.a.engine = .reserved
    · rw [if_pos ⟨hr, (worsens_iff c n).mpr (h hr)⟩]
      unfold Cell.givenBack
      rw [if_pos (by exact hr)]
      unfold Cell.walked Cell.withdraw Cell.shed
      dsimp only
      split <;> rfl
    · rw [if_neg (fun k => hr k.1)]
      unfold Cell.givenBack
      rw [if_neg (by exact hr)]
      unfold Cell.walked Cell.shed
      dsimp only
      split <;> rfl
  exact congrArg (fun d : Cell => (d.evaluate v).judgeRelease v) cell

/-- One whose RESERVED claim stands: the walk alone (R83). -/
theorem report_stands {v : CellView} {n : Tally} {b : Nat} {c : Cell} (hr : c.a.engine = .reserved)
    (h : ¬ c.overtaken n) : c.report v n b = c.walked n b := by
  have cell : (if c.a.engine = .reserved ∧ n.worsens c.a.tally then
      Cell.withdraw { c with a := { c.a with tally := n, heldReport := false } }
      else { c with a := { c.a with tally := n, heldReport := false } }).shed b = c.walked n b := by
    rw [if_neg (fun k => h ((worsens_iff c n).mp k.2))]
    unfold Cell.walked Cell.shed
    dsimp only
    split <;> rfl
  refine (congrArg (fun d : Cell => (d.evaluate v).judgeRelease v) cell).trans ?_
  rw [evaluate_other (by simp [Cell.walked, hr]) (by simp [Cell.walked, hr])]
  exact judgeRelease_reserved hr

/-- A claim given back leaves the engine to be evaluated. -/
theorem givenBack_evaluates {c : Cell} (h : c.a.engine = .idle ∨ c.a.engine = .waiting ∨ c.a.engine = .reserved) :
    c.givenBack.a.engine = .idle ∨ c.givenBack.a.engine = .waiting := by
  unfold Cell.givenBack
  split
  · exact .inr rfl
  · tauto

theorem givenBack_other {c : Cell} (h : c.a.engine ≠ .reserved) : c.givenBack = c := if_neg h

/-- The withdrawal of a RESERVED claim above the target (R83). -/
theorem withdrawBelow_givenBack {v : CellView} {c : Cell} (h : c.a.engine = .reserved → v.target < c.a.claimValue.getD 0) :
    c.withdrawBelow v = c.givenBack := by
  unfold Cell.withdrawBelow Cell.givenBack Cell.withdraw
  by_cases hr : c.a.engine = .reserved
  · rw [if_pos ⟨hr, h hr⟩, if_pos hr]
  · rw [if_neg (fun k => hr k.1), if_neg hr]

/-- A target change that leaves the holding (R76, R81, R83). -/
theorem refresh_kept {v : CellView} {c : Cell} (n : Tally) (b : Nat) (ht : c.a.holding ≤ v.target) :
    c.refresh v n b = ((c.withdrawBelow v).evaluate v).judgeRelease v := by
  rw [Cell.refresh_of_le v n b c ht]
  unfold Cell.retarget Cell.capToTarget
  rw [min_eq_left ht]

/-- The cell lowered to a target below its holding. -/
theorem retarget_fallen {v : CellView} {c : Cell} (ht : v.target < c.a.holding) :
    c.retarget v = (((({ c with a := { c.a with holding := v.target } } : Cell).withdrawBelow v).evaluate v).judgeRelease v) := by
  unfold Cell.retarget Cell.capToTarget
  rw [min_eq_right ht.le]

/-- A holding that has reached the target leaves the engine IDLE (R82). -/
theorem evaluate_reached {v : CellView} {c : Cell} (h : v.target ≤ c.a.holding) :
    c.evaluate v = { c with a := { c.a with
      engine := if c.a.engine = .idle ∨ c.a.engine = .waiting then .idle else c.a.engine } } := by
  unfold Cell.evaluate
  by_cases he : c.a.engine = .idle ∨ c.a.engine = .waiting
  · rw [if_pos he, if_pos h, if_pos he]
  · rw [if_neg he, if_neg he]

/-- With a frame of the resource in transmission no release is placed (R86). -/
theorem judgeRelease_begun {v : CellView} (c : Cell) (h : v.begun = true) : c.judgeRelease v = c := by
  unfold Cell.judgeRelease
  rw [if_neg (by simp [h])]

/-- A holding that the walk leaves within the capacity stands (R88). -/
theorem walked_within {n : Tally} {b : Nat} {c : Cell} (h : b + c.a.holding ≤ n.capacity) :
    c.walked n b = { c with a := { c.a with tally := n, heldReport := false } } := by
  unfold Cell.walked
  rw [if_pos h]

/-- The AU's work on a cell. -/
theorem cell_worked (v : CellView) (n : Tally) (b : Nat) (c : Cell) : c.Worked v n b := by
  refine ⟨fun h e hh he => ?_, ⟨fun hh => if_pos hh, fun hh he => ?_⟩, fun ht => ⟨fun h => ?_, fun hr hv => ?_⟩, fun ht => ⟨fun hb hr => ?_, fun hb hw h => ?_⟩⟩
  · have walk : e = c.walked n b := by rw [he, hh]; rfl
    rw [walk]
    refine ⟨fun h => ?_, fun hr hn => report_stands hr hn⟩
    rw [report_walked (fun hr => by rcases h with h | h | h <;> simp_all)]
    exact evaluate_evaluated (givenBack_evaluates (by simp only [Cell.walked]; tauto))
  · unfold Cell.afterOutcome
    rw [if_neg (by simp [hh])]
    exact evaluate_evaluated he
  · rw [refresh_kept n b ht, withdrawBelow_givenBack (fun hr => by rcases h with h | h | h <;> simp_all)]
    exact evaluate_evaluated (givenBack_evaluates (by tauto))
  · have stands : c.withdrawBelow v = c := if_neg fun k => Nat.not_lt.mpr hv k.2
    rw [refresh_kept n b ht, stands, evaluate_other (by simp [hr]) (by simp [hr])]
    exact judgeRelease_reserved hr
  · have lowered : c.retarget v = ({ c with a := { c.a with
        holding := v.target, engine := if c.a.engine = .idle ∨ c.a.engine = .waiting then .idle else c.a.engine } }) := by
      have stands : ({ c with a := { c.a with holding := v.target } } : Cell).withdrawBelow v
          = { c with a := { c.a with holding := v.target } } := if_neg fun k => hr k.1
      rw [retarget_fallen ht, stands, evaluate_reached (by exact le_refl _)]
      exact judgeRelease_begun _ hb
    have held : c.refresh v n b = { c.retarget v with a := { (c.retarget v).a with heldReport := true } } := by
      unfold Cell.refresh Cell.ownReport
      rw [if_neg (by rw [lowered]; exact ht.ne), if_pos hb]
    rw [held, lowered]
    exact ⟨rfl, rfl, rfl⟩
  · let g : Cell := { c.givenBack with a := { c.givenBack.a with holding := v.target, engine := .idle } }
    have lowered : c.retarget v = g.judgeRelease v := by
      have given : ({ c with a := { c.a with holding := v.target } } : Cell).withdrawBelow v
          = { c.givenBack with a := { c.givenBack.a with holding := v.target } } := by
        rw [withdrawBelow_givenBack (fun hr => by rcases h with h | h | h <;> simp_all)]
        unfold Cell.givenBack
        dsimp only
        split <;> rfl
      have idle : c.givenBack.a.engine = .idle ∨ c.givenBack.a.engine = .waiting := givenBack_evaluates (by tauto)
      rw [retarget_fallen ht, given, evaluate_reached (by exact le_refl _), if_pos (by exact idle)]
    have report : c.refresh v n b = (g.judgeRelease v).report v n b := by
      unfold Cell.refresh Cell.ownReport
      rw [lowered, if_neg (by rw [Cell.judgeRelease_a]; exact ht.ne), if_neg (by simp [hb])]
    have engine : (g.judgeRelease v).a.engine = .idle := by rw [Cell.judgeRelease_a]
    have holding : (g.judgeRelease v).a.holding = v.target := by rw [Cell.judgeRelease_a]
    let d : Cell := { g.judgeRelease v with a := { (g.judgeRelease v).a with tally := n, heldReport := false } }
    have again : c.refresh v n b = d.judgeRelease v := by
      have back : d.givenBack = d := givenBack_other (by change (g.judgeRelease v).a.engine ≠ _; rw [engine]; nofun)
      have reached : d.evaluate v = d := by
        have idle : d.a.engine = .idle := engine
        rw [evaluate_reached (by exact holding.ge), if_pos (.inl idle), ← idle]
      rw [report, report_walked (by rw [engine]; nofun), walked_within (by rw [holding]; exact hw)]
      change (d.givenBack.evaluate v).judgeRelease v = _
      rw [back, reached]
    have first : Cell.ReleaseJudged v g (g.judgeRelease v) := judgeRelease_judged (by nofun) (by nofun)
    have second : Cell.ReleaseJudged v d (d.judgeRelease v) :=
      judgeRelease_judged (by change (g.judgeRelease v).a.engine ≠ _; rw [engine]; nofun)
        (by change (g.judgeRelease v).a.engine ≠ _; rw [engine]; nofun)
    rw [again]
    unfold Cell.ReleaseJudged at first second ⊢
    rw [second]
    have form : d = { g with
        a := { g.a with tally := n, heldReport := false }
        slot := if v.active = true ∧ v.begun = false ∧ g.a.announced ≠ g.a.holding then some (.release g.a.holding)
          else g.slot } := by
      change ({ g.judgeRelease v with a := _ } : Cell) = _
      rw [first]
    rw [form]
    dsimp only
    by_cases due : v.active = true ∧ v.begun = false ∧ g.a.announced ≠ g.a.holding
    · rw [if_pos due]
      exact congrArg (fun f => (⟨_, f⟩ : Cell)) (if_pos due).symm
    · rw [if_neg due]

/-- The holdings before the node are among the others' (R80, R87). -/
theorem sumBefore_le_others (s : State) (r : Resource) : s.sumBefore r ≤ (s.tally r).others := by
  unfold State.sumBefore State.tally
  exact (List.Sublist.map _ (List.filter_sublist)).sum_le_sum (fun _ _ => Nat.zero_le _)

/-- Settles O42: the work on each cell, and the holding, the engine and the RELEASE that a change report leaves. -/
theorem aChangeReportShedsToTheAllowance : Obligations.AChangeReportShedsToTheAllowance := by
  refine ⟨cell_worked, fun s t r h c hb ht hh hc hs hr => ?_⟩
  have cell : t.cell r = (s.cell r).report (s.cellView r) (s.tally r) (s.sumBefore r) := by
    rw [ht]
    unfold State.reportCell
    rw [if_neg (by simp [hb]), setCell_cell]
  have holding : (t.au.res.get r).holding
      = if s.sumBefore r + h ≤ c then h else min h (c - s.sumBefore r) := by
    change (t.cell r).a.holding = _
    rw [cell, Cell.report_holding_eq, hh, hc]
    rfl
  refine ⟨fun hw => by rw [holding, if_pos hw], fun hw => ?_⟩
  have cut : (t.au.res.get r).holding = c - s.sumBefore r := by
    rw [holding, if_neg (by omega)]
    omega
  have before := sumBefore_le_others s r
  have overtaken : (s.cell r).a.engine = .reserved → (s.cell r).overtaken (s.tally r) := fun he => by
    have fits := hr he
    by_contra none
    simp only [Cell.overtaken, not_or, Nat.not_lt] at none
    obtain ⟨fewer, more, _⟩ := none
    change (s.tally r).others ≤ (s.au.res.get r).tally.others at fewer
    change (s.au.res.get r).tally.capacity ≤ (s.tally r).capacity at more
    omega
  let g : Cell := ((s.cell r).walked (s.tally r) (s.sumBefore r)).givenBack
  have walked : t.cell r = (g.evaluate (s.cellView r)).judgeRelease (s.cellView r) := by
    rw [cell, report_walked overtaken]
  have gcell : g.a.holding = c - s.sumBefore r ∧ g.a.tally = s.tally r ∧ g.a.announced = (s.au.res.get r).announced
      ∧ ((s.au.res.get r).engine ≠ .suspended → g.a.engine = .idle ∨ g.a.engine = .waiting)
      ∧ ((s.au.res.get r).engine = .suspended → g.a.engine = .suspended) := by
    have fields : g.a.holding = (if s.sumBefore r + h ≤ c then h else min h (c - s.sumBefore r))
        ∧ g.a.tally = s.tally r ∧ g.a.announced = (s.au.res.get r).announced := by
      rw [hh, hc]
      unfold g Cell.givenBack
      split <;> exact ⟨rfl, rfl, rfl⟩
    obtain ⟨amount, tally, announced⟩ := fields
    refine ⟨amount.trans (holding.symm.trans cut), tally, announced, fun he => givenBack_evaluates ?_, fun he => ?_⟩
    · change (s.au.res.get r).engine = _ ∨ (s.au.res.get r).engine = _ ∨ (s.au.res.get r).engine = _
      cases hk : (s.au.res.get r).engine with
      | idle | waiting | reserved => simp
      | sending => exact absurd hk hs
      | suspended => exact absurd hk he
    · have kept : g = (s.cell r).walked (s.tally r) (s.sumBefore r) :=
        givenBack_other (by change (s.au.res.get r).engine ≠ _; rw [he]; nofun)
      rw [kept]
      exact he
  obtain ⟨gholding, gtally, gannounced, gengine, gsuspended⟩ := gcell
  have judged : Cell.ReleaseJudged (s.cellView r) { g with a := { g.a with
      engine := if (s.au.res.get r).engine = .suspended then .suspended
        else if s.target r ≤ c - s.sumBefore r then .idle else .waiting } } (t.cell r) := by
    rw [walked]
    by_cases he : (s.au.res.get r).engine = .suspended
    · have held := gsuspended he
      have still : g.evaluate (s.cellView r) = { g with a := { g.a with engine := .suspended } } := by
        rw [evaluate_other (by rw [held]; nofun) (by rw [held]; nofun), ← held]
      rw [if_pos he, still]
      exact judgeRelease_judged (by nofun) (by nofun)
    · have evaluated := evaluate_evaluated (v := s.cellView r) (gengine he)
      have room : ¬ (g.a.tally.unknown = false ∧ (s.cellView r).begun = false
          ∧ g.a.holding < min (s.cellView r).target (g.a.tally.capacity - g.a.tally.others)) := fun k => by
        have most := k.2.2.trans_le (min_le_right _ _)
        rw [gholding, gtally] at most
        omega
      unfold Cell.Evaluated at evaluated
      dsimp only at evaluated
      rw [if_neg room] at evaluated
      rw [if_neg he, ← gholding]
      change if s.target r ≤ g.a.holding then _ else _ at evaluated
      by_cases reached : s.target r ≤ g.a.holding
      · rw [if_pos reached] at evaluated ⊢
        exact evaluated
      · rw [if_neg reached] at evaluated ⊢
        exact evaluated
  unfold Cell.ReleaseJudged at judged
  refine ⟨cut, fun he => ?_, fun ha hn => ?_⟩
  · change (t.cell r).a.engine = _
    rw [judged]
    exact if_neg he
  · change (t.cell r).slot = _
    have announced : (t.au.res.get r).announced = g.a.announced := by
      change (t.cell r).a.announced = _
      rw [judged]
    rw [judged]
    refine (if_pos ⟨decide_eq_true ha, hb, ?_⟩).trans (by rw [← gholding])
    rw [← announced]
    change _ ≠ g.a.holding
    rw [gholding]
    exact hn

end Sys2Proof.Machine
end

section
/-!
SUPPORT. The resets (10.5, 10.6), and the exchange with the section (chapters 8 and 11): the order record's snapshot and
the report that is discarded.
-/

namespace Sys2Proof.Machine

/-! ### The resets (R184 to R186) -/

/-- A RESTART_NODE is refused where the phase does not allow it (R185). -/
theorem restart_refused {s : State} (h : s.restartable = false) :
    exec .restartNode s = .next (s.withResult 0 (.refused .illegalInPhase) 0) :=
  congrArg Host.Outcome.next (if_pos (by simp [h]))

/-- The blocks after a RESTART_NODE taken while LOCKED, before what is owed to the requester (R186). -/
theorem restartLocked_eq (s : State) (f : List MsgFrame)
    (hl : ∀ a tag, s.ps.slot.map SlotRec.requester = some (.line a tag) → f = [.reply a tag (.refused .cancelled) 0])
    (hn : (∀ a tag, s.ps.slot.map SlotRec.requester ≠ some (.line a tag)) → f = []) :
    s.restartLocked = { State.reset with
      now := s.now, quarter := s.quarter, free := s.free, pending := s.pending, cs := s.cs
      ps := { State.reset.ps with phaseSince := s.now }
      lc := { State.reset.lc with
        joined := s.lc.joined, longDue := true, statusTimer := some s.cs.set.statusPeriod, fifo := f }
      du := ⟨some ⟨.configuration, 0, .taken, 0⟩, 1⟩ } := by
  have owed : ((s.cleared s.cs s.restartedLc).replyCancelled s.ps.slot)
      = s.cleared s.cs { s.restartedLc with fifo := f } := by
    unfold State.replyCancelled
    cases hs : s.ps.slot with
    | none =>
      rw [hn (by rw [hs]; nofun)]
      rfl
    | some r =>
      dsimp only
      rw [hs] at hl hn
      cases hq : r.requester with
      | line a tag =>
        rw [hl a tag (by rw [← hq]; rfl)]
        rfl
      | port _ | autoHold | autoResume | holdExpired | closeAfter =>
        rw [hn (by simp [hq])]
        rfl
  unfold State.restartLocked
  rw [owed]
  rfl

/-- Settles O47: the power-on reset, and RESTART_NODE refused, taken while UNLOCKED and taken while LOCKED. -/
theorem restartsAndPowerOnReset : Obligations.RestartsAndPowerOnReset := by
  intro s
  refine ⟨rfl, fun hl hp => restart_refused ?_, fun hl hp => ?_, fun f hl hp ha hn => ?_⟩
  · unfold State.restartable
    revert hp
    cases s.ps.phase <;> simp
  · have taken : s.takeRestart = s.restartUnlocked := by
      unfold State.takeRestart State.restartable
      rw [hp, hl]
      rfl
    exact congrArg Host.Outcome.next taken
  · have taken : s.takeRestart = s.restartLocked := by
      have admitted : s.restartable = true := by
        unfold State.restartable
        rw [hl]
        revert hp
        cases s.ps.phase <;> simp
      unfold State.takeRestart
      rw [admitted, hl]
      rfl
    rw [← restartLocked_eq s f ha hn, ← taken]
    rfl

/-! ### The bytes of the order record (11.4) -/

theorem byteAt_right (l m : List Byte) (k : Nat) : byteAt (l ++ m) (l.length + k) = byteAt m k := by
  unfold byteAt
  rw [List.getD_append_right _ _ _ _ (Nat.le_add_right _ _), Nat.add_sub_cancel_left]

theorem byteAt_left {l : List Byte} {k : Nat} (m : List Byte) (h : k < l.length) : byteAt (l ++ m) k = byteAt l k := by
  unfold byteAt
  rw [List.getD_append _ _ _ _ h]

/-- The bytes of a list inside a longer one. -/
theorem byteAt_within {l m : List Byte} {k : Nat} (a : List Byte) (h : k < l.length) :
    byteAt (a ++ (l ++ m)) (a.length + k) = byteAt l k := by
  rw [byteAt_right, byteAt_left m h]

theorem byteAt_last {l : List Byte} {c : Byte} {n : Nat} (h : l.length = n) : byteAt (l ++ [c]) n = c := by
  rw [← h]
  exact byteAt_right l [c] 0

theorem byteOf_toNat {n : Nat} (h : n < 256) : (byteOf n).toNat = n := by
  unfold byteOf
  rw [BitVec.toNat_ofNat]
  exact Nat.mod_eq_of_lt h

theorem nibbles_toNat {m n : Nat} (h : m < 16) (k : n < 16) : (nibbles m n).toNat = 16 * m + n := by
  unfold nibbles
  rw [BitVec.toNat_ofNat]
  omega

/-- A two-byte field holds its number modulo 65536 (R187). -/
theorem word16_bytes (n : Nat) : word16 (BitVec.ofNat 8 (n / 256)) (BitVec.ofNat 8 n) = n % 65536 := by
  unfold word16
  rw [BitVec.toNat_ofNat, BitVec.toNat_ofNat]
  omega

theorem bit_le (b : Bool) : bit b ≤ 1 := by cases b <;> decide

theorem word_lt (f : Flags) : f.word < 65536 := by
  unfold Flags.word
  have := fun b : Bool => bit_le b
  have := this f.starved; have := bit_le f.blocked; have := bit_le f.limited; have := bit_le f.claimWait
  have := bit_le f.underStanding; have := bit_le f.runoutLate; have := bit_le f.runoutDone
  have := bit_le f.holdExpired; have := bit_le f.counitWait; have := bit_le f.counitLate
  have := bit_le f.holdupMismatch; have := bit_le f.rateRefused; have := bit_le f.replyOverflow; have := bit_le f.frozen
  omega

theorem phase_code_lt (p : Phase) : p.code < 16 := by cases p <;> decide

theorem cause_code_lt (c : Cause) : c.code < 15 := by cases c <;> decide

theorem class_code_lt (c : SectionClass) : c.code < 15 := by cases c <;> decide

/-- A presented command's three bytes (11.4). -/
theorem command_shown (o : Outstanding) : ∃ x y z, o.bytes = [x, y, z] ∧ CommandShown o x y z := by
  have token := o.token.isLt
  unfold Outstanding.bytes CommandShown
  cases o.command with
  | setPhase p q =>
    exact ⟨_, _, _, rfl, nibbles_toNat token (show 0 < 16 by decide), rfl, byteOf_toNat ((phase_code_lt p).trans (by decide))⟩
  | setRate v q => exact ⟨_, _, _, rfl, nibbles_toNat token (show 1 < 16 by decide), word16_bytes v⟩
  | turnover => exact ⟨_, _, _, rfl, nibbles_toNat token (by decide), rfl, rfl⟩
  | handoffWork k p a =>
    have point : p.code < 4 := by cases p <;> decide
    have work := k.isLt
    have station := a.isLt
    exact ⟨_, _, _, rfl, nibbles_toNat token (show 3 < 16 by decide), byteOf_toNat (by omega), byteOf_toNat (by omega)⟩

/-- The presented commands (R147, 11.4). -/
theorem presented_shown (l : List Outstanding) :
    (presentedBytes l).length = 7 ∧ (byteAt (presentedBytes l) 0).toNat = min 2 l.length
      ∧ (∀ k o, k < 2 → l[k]? = some o → CommandShown o (byteAt (presentedBytes l) (1 + 3 * k))
          (byteAt (presentedBytes l) (2 + 3 * k)) (byteAt (presentedBytes l) (3 + 3 * k)))
      ∧ ∀ k, k < 2 → l[k]? = none → byteAt (presentedBytes l) (1 + 3 * k) = 0
          ∧ byteAt (presentedBytes l) (2 + 3 * k) = 0 ∧ byteAt (presentedBytes l) (3 + 3 * k) = 0 := by
  have zero : ∀ k, k < 2 → k = 0 ∨ k = 1 := fun k hk => by omega
  match l with
  | [] =>
    refine ⟨rfl, rfl, fun k o _ h => by simp at h, fun k hk _ => ?_⟩
    rcases zero k hk with rfl | rfl <;> exact ⟨rfl, rfl, rfl⟩
  | [a] =>
    obtain ⟨x, y, z, e, shown⟩ := command_shown a
    have bytes : presentedBytes [a] = [1, x, y, z, 0, 0, 0] := by
      unfold presentedBytes
      rw [List.flatMap_singleton, e]
      rfl
    rw [bytes]
    refine ⟨rfl, rfl, fun k o hk h => ?_, fun k hk h => ?_⟩
    · rcases zero k hk with rfl | rfl
      · obtain rfl : a = o := Option.some.inj h
        exact shown
      · simp at h
    · rcases zero k hk with rfl | rfl
      · simp at h
      · exact ⟨rfl, rfl, rfl⟩
  | a :: c :: rest =>
    obtain ⟨x, y, z, e, shown⟩ := command_shown a
    obtain ⟨x', y', z', e', shown'⟩ := command_shown c
    have bytes : presentedBytes (a :: c :: rest) = [2, x, y, z, x', y', z'] := by
      unfold presentedBytes
      rw [List.flatMap_cons, List.flatMap_cons, e, e']
      have two : min 2 (a :: c :: rest).length = 2 := by simp
      rw [two]
      rfl
    rw [bytes]
    refine ⟨rfl, by simp [byteAt], fun k o hk h => ?_, fun k hk h => ?_⟩
    · rcases zero k hk with rfl | rfl
      · obtain rfl : a = o := Option.some.inj h
        exact shown
      · obtain rfl : c = o := Option.some.inj h
        exact shown'
    · rcases zero k hk with rfl | rfl <;> simp at h

/-- The local result (R116, 11.4). -/
theorem result_shown (d : DU) :
    d.bytes.length = 5
      ∧ (∀ r, d.result = some r → (byteAt d.bytes 0).toNat = 128 + 64 * r.origin.code + r.outcome.code
          ∧ byteAt d.bytes 1 = r.tag ∧ (byteAt d.bytes 2).toNat = r.outcome.refusalCode ∧ byteAt d.bytes 3 = r.detail)
      ∧ (d.result = none → byteAt d.bytes 0 = 0 ∧ byteAt d.bytes 1 = 0 ∧ byteAt d.bytes 2 = 0 ∧ byteAt d.bytes 3 = 0)
      ∧ byteAt d.bytes 4 = d.count := by
  unfold DU.bytes
  cases d.result with
  | none => exact ⟨rfl, nofun, fun _ => ⟨rfl, rfl, rfl, rfl⟩, rfl⟩
  | some r =>
    refine ⟨rfl, fun q h => ?_, nofun, rfl⟩
    obtain rfl : r = q := Option.some.inj h
    have origin : r.origin.code ≤ 1 := by cases r.origin <;> decide
    have outcome : r.outcome.code ≤ 3 := by cases r.outcome <;> simp [Reply.code]
    have refusal : r.outcome.refusalCode < 256 := by
      cases r.outcome with
      | refused c => cases c <;> decide
      | taken | pending | done => decide
    exact ⟨byteOf_toNat (by omega), rfl, byteOf_toNat refusal, rfl⟩

theorem laterNibble_lt (l : List Cause) (k : Nat) : laterNibble l k < 16 := by
  unfold laterNibble
  cases l[k]? with
  | none => decide
  | some c => exact (cause_code_lt c).trans (by decide)

/-- The trip record (R129, 11.4). -/
theorem trip_shown (o : Option TripRec) :
    (tripBytes o).length = 3
      ∧ (∀ r, o = some r → r.later.length ≤ 4 →
          (byteAt (tripBytes o) 0).toNat = 16 * r.first.code + (if r.overflow then 8 else 0) + r.later.length
            ∧ ∀ k < 4, (byteAt (tripBytes o) (1 + k / 2)).toNat / (if k % 2 = 0 then 16 else 1) % 16
                = (match r.later[k]? with
                  | some x => x.code
                  | none => 15))
      ∧ (o = none → byteAt (tripBytes o) 0 = 0xF0#8 ∧ byteAt (tripBytes o) 1 = 0xFF#8
          ∧ byteAt (tripBytes o) 2 = 0xFF#8) := by
  cases o with
  | none => exact ⟨rfl, nofun, fun _ => ⟨rfl, rfl, rfl⟩⟩
  | some t =>
    refine ⟨rfl, fun r h hl => ?_, nofun⟩
    obtain rfl : t = r := Option.some.inj h
    have first := cause_code_lt t.first
    have flag : 8 * bit t.overflow = if t.overflow then 8 else 0 := by cases t.overflow <;> rfl
    have small := bit_le t.overflow
    refine ⟨?_, fun k hk => ?_⟩
    · rw [← flag]
      refine (byteOf_toNat (by omega)).trans ?_
      rw [min_eq_right hl]
    · have place : laterNibble t.later k = (match t.later[k]? with
          | some x => x.code
          | none => 15) := by
        unfold laterNibble
        cases t.later[k]? <;> rfl
      have pair : ∀ m n, ((nibbles (laterNibble t.later m) (laterNibble t.later n)).toNat / 16 % 16 = laterNibble t.later m)
          ∧ (nibbles (laterNibble t.later m) (laterNibble t.later n)).toNat / 1 % 16 = laterNibble t.later n := fun m n => by
        have hm := laterNibble_lt t.later m
        have hn := laterNibble_lt t.later n
        rw [nibbles_toNat hm hn]
        omega
      rw [← place]
      have four : k = 0 ∨ k = 1 ∨ k = 2 ∨ k = 3 := by omega
      rcases four with rfl | rfl | rfl | rfl
      · exact (pair 0 1).1
      · exact (pair 0 1).2
      · exact (pair 2 3).1
      · exact (pair 2 3).2

/-! ### The pages (R148) -/

/-- Each page is eight bytes. -/
theorem page_length (s : State) : s.pageBytes.length = 8 := by
  unfold State.pageBytes
  split
  · rfl
  · rfl
  · rfl
  · unfold State.pageDetail
    split <;> rfl

/-- A summary slot's byte (R148, 11.4). -/
theorem summarySlot_toNat (s : State) (a : Station) : (s.summarySlot a).toNat = s.slotCode a := by
  unfold State.summarySlot State.slotCode
  by_cases h : a = 0
  · rw [if_pos h, if_pos h]
    rfl
  · have presence : (s.entry a).presence.code < 16 := by cases (s.entry a).presence <;> decide
    have phase : phaseNibble (s.entry a).phase = (match (s.entry a).phase with
        | some p => p.code
        | none => 15) := by
      unfold phaseNibble
      cases (s.entry a).phase <;> rfl
    have small : phaseNibble (s.entry a).phase < 16 := by
      unfold phaseNibble
      cases (s.entry a).phase with
      | none => decide
      | some p => exact phase_code_lt p
    rw [if_neg h, if_neg h, nibbles_toNat presence small]
    exact congrArg (16 * (s.entry a).presence.code + ·) phase

/-- Page 0 (R148). -/
theorem pageHoldings_shown (s : State) (r : Resource) (h : (s.au.res.get r).holding ≤ 4000) :
    wordAt s.pageHoldings (2 * r.code) = 4096 * (s.au.res.get r).engine.code + (s.au.res.get r).holding := by
  have engine : (s.au.res.get r).engine.code ≤ 4 := by cases (s.au.res.get r).engine <;> decide
  have field : wordAt s.pageHoldings (2 * r.code)
      = word16 (BitVec.ofNat 8 ((4096 * (s.au.res.get r).engine.code + (s.au.res.get r).holding) / 256))
          (BitVec.ofNat 8 (4096 * (s.au.res.get r).engine.code + (s.au.res.get r).holding)) := by
    cases r <;> rfl
  rw [field, word16_bytes, Nat.mod_eq_of_lt (by omega)]

/-- Page 2 (R148). -/
theorem pageNeighbours_shown (s : State) (k : Nat) (h : k < 8) :
    (byteAt s.pageNeighbours k).toNat = s.slotCode (s.slotStations.getD k 0) := by
  have slots : s.pageNeighbours = s.slotStations.map s.summarySlot := by
    unfold State.pageNeighbours State.slotStations State.role
    cases s.cs.locked <;> rfl
  have long : s.slotStations.length = 8 := by
    unfold State.slotStations
    split <;> rfl
  rw [slots, ← summarySlot_toNat]
  unfold byteAt
  rw [List.getD_eq_getElem _ _ (by rw [List.length_map, long]; exact h), List.getElem_map,
    List.getD_eq_getElem _ _ (by rw [long]; exact h)]

/-- The first eight bytes: the phase, the states and the flags, and the two rates (R147). -/
def State.headBytes (s : State) : List Byte :=
  [byteOf s.ps.phase.code, s.statesByte] ++ bytes16 s.flags.word ++ bytes16 s.sp.rIss ++ bytes16 s.sp.rAck

/-- The body of the record: the fixed part, the pages, and what stands in each place. -/
theorem record_split (s : State) : ∃ a b c, s.orderRecord = a ++ (presentedBytes s.sp.outstanding ++ b)
    ∧ a = s.headBytes
    ∧ b = s.du.bytes ++ (tripBytes s.tr.record ++ (s.pageBytes ++ [c]))
    ∧ c = crc8 (s.fixedPart ++ s.pageBytes) := by
  refine ⟨_, _, _, ?_, rfl, rfl, rfl⟩
  unfold State.orderRecord State.fixedPart State.headBytes
  simp only [List.append_assoc]

/-- The places of the record's parts (11.4). -/
theorem record_places (s : State) :
    s.orderRecord.length = 32
      ∧ (∀ k < 8, byteAt s.orderRecord k = byteAt s.headBytes k)
      ∧ (∀ k < 7, byteAt s.orderRecord (8 + k) = byteAt (presentedBytes s.sp.outstanding) k)
      ∧ (∀ k < 5, byteAt s.orderRecord (15 + k) = byteAt s.du.bytes k)
      ∧ (∀ k < 3, byteAt s.orderRecord (20 + k) = byteAt (tripBytes s.tr.record) k)
      ∧ (∀ k < 8, byteAt s.orderRecord (23 + k) = byteAt s.pageBytes k) := by
  obtain ⟨a, b, c, record, ha, hb, -⟩ := record_split s
  have head : a.length = 8 := by rw [ha]; rfl
  have presented := (presented_shown s.sp.outstanding).1
  have result := (result_shown s.du).1
  have trip := (trip_shown s.tr.record).1
  have page := page_length s
  rw [record, hb]
  refine ⟨?_, fun k hk => ?_, fun k hk => ?_, fun k hk => ?_, fun k hk => ?_, fun k hk => ?_⟩
  · simp only [List.length_append, head, presented, result, trip, page, List.length_singleton]
  · rw [byteAt_left _ (by omega), ha]
  · rw [← head]
    exact byteAt_within a (by omega)
  · have place := byteAt_within (l := s.du.bytes) (m := tripBytes s.tr.record ++ (s.pageBytes ++ [c]))
      (a ++ presentedBytes s.sp.outstanding) (k := k) (by omega)
    rw [List.length_append, head, presented, List.append_assoc] at place
    exact place
  · have place := byteAt_within (l := tripBytes s.tr.record) (m := s.pageBytes ++ [c])
      (a ++ (presentedBytes s.sp.outstanding ++ s.du.bytes)) (k := k) (by omega)
    simp only [List.length_append, head, presented, result, List.append_assoc] at place
    exact place
  · have place := byteAt_within (l := s.pageBytes) (m := [c])
      (a ++ (presentedBytes s.sp.outstanding ++ (s.du.bytes ++ tripBytes s.tr.record))) (k := k) (by omega)
    simp only [List.length_append, head, presented, result, trip, List.append_assoc] at place
    exact place

/-- The order record shows the node's state (R147, R148). -/
theorem orderRecord_shows (s : State) : RecordShows s s.orderRecord := by
  obtain ⟨length, headAt, presentedAt, resultAt, tripAt, pageAt⟩ := record_places s
  obtain ⟨_, count, shown, empty⟩ := presented_shown s.sp.outstanding
  obtain ⟨_, written, absent, results⟩ := result_shown s.du
  obtain ⟨_, tripped, clear⟩ := trip_shown s.tr.record
  have word : ∀ k, wordAt s.orderRecord (23 + k) = word16 (byteAt s.orderRecord (23 + k)) (byteAt s.orderRecord (23 + (k + 1))) :=
    fun _ => rfl
  have body : s.orderRecord = (s.fixedPart ++ s.pageBytes) ++ [crc8 (s.fixedPart ++ s.pageBytes)] := rfl
  have short : (s.fixedPart ++ s.pageBytes).length = 31 := by
    have whole := congrArg List.length body
    rw [length, List.length_append, List.length_singleton] at whole
    omega
  have page := s.sp.page.isLt
  refine ⟨⟨length, ?_⟩, ⟨?_, ?_⟩, ⟨?_, ?_, ?_⟩, ⟨(congrArg BitVec.toNat (presentedAt 0 (by decide))).trans count, fun k o hk h => ?_, fun k hk h => ?_⟩,
    ⟨fun r h => ?_, fun h => ?_, (resultAt 4 (by decide)).trans results⟩, ⟨fun r h hl => ?_, fun h => ?_⟩, fun hp r hr => ?_, fun hp => ?_,
    fun hp k hk => ?_, fun hp hn k hk => ?_⟩
  · rw [body, List.take_left' short]
    exact byteAt_last short
  · rw [headAt 0 (by decide)]
    exact byteOf_toNat ((phase_code_lt s.ps.phase).trans (by decide))
  · have locked : bit s.cs.locked = if s.cs.locked then 1 else 0 := rfl
    have line : 2 * bit (s.lc.line = .isolated) = if s.lc.line = .isolated then 2 else 0 := by
      unfold bit
      by_cases h : s.lc.line = .isolated <;> simp [h]
    have one := bit_le s.cs.locked
    have two := bit_le (s.lc.line = .isolated)
    rw [← locked, ← line, headAt 1 (by decide)]
    exact byteOf_toNat (by omega)
  · unfold wordAt
    rw [headAt 2 (by decide), headAt (2 + 1) (by decide)]
    exact (word16_bytes _).trans (Nat.mod_eq_of_lt (word_lt _))
  · unfold wordAt
    rw [headAt 4 (by decide), headAt (4 + 1) (by decide)]
    exact word16_bytes _
  · unfold wordAt
    rw [headAt 6 (by decide), headAt (6 + 1) (by decide)]
    exact word16_bytes _
  · have at1 := presentedAt (1 + 3 * k) (by omega)
    have at2 := presentedAt (2 + 3 * k) (by omega)
    have at3 := presentedAt (3 + 3 * k) (by omega)
    rw [← Nat.add_assoc] at at1 at2 at3
    rw [at1, at2, at3]
    exact shown k o hk h
  · have at1 := presentedAt (1 + 3 * k) (by omega)
    have at2 := presentedAt (2 + 3 * k) (by omega)
    have at3 := presentedAt (3 + 3 * k) (by omega)
    rw [← Nat.add_assoc] at at1 at2 at3
    rw [at1, at2, at3]
    exact empty k hk h
  · have at0 := resultAt 0 (by decide)
    have at1 := resultAt 1 (by decide)
    have at2 := resultAt 2 (by decide)
    have at3 := resultAt 3 (by decide)
    rw [at0, at1, at2, at3]
    exact written r h
  · have at0 := resultAt 0 (by decide)
    have at1 := resultAt 1 (by decide)
    have at2 := resultAt 2 (by decide)
    have at3 := resultAt 3 (by decide)
    rw [at0, at1, at2, at3]
    exact absent h
  · obtain ⟨first, later⟩ := tripped r h hl
    refine ⟨(congrArg BitVec.toNat (tripAt 0 (by decide))).trans first, fun k hk => ?_⟩
    have place := tripAt (1 + k / 2) (by omega)
    rw [← Nat.add_assoc] at place
    rw [place]
    exact later k hk
  · have at0 := tripAt 0 (by decide)
    have at1 := tripAt 1 (by decide)
    have at2 := tripAt 2 (by decide)
    rw [at0, at1, at2]
    exact clear h
  · have code : r.code < 4 := by cases r <;> decide
    have holdings : s.pageBytes = s.pageHoldings := by
      unfold State.pageBytes
      rw [hp]
    rw [word, pageAt _ (by omega), pageAt _ (by omega), holdings]
    exact pageHoldings_shown s r hr
  · have counts : s.pageBytes = s.pageCounts := by
      unfold State.pageBytes
      rw [hp]
    have holdup : s.publishedHoldup < 65536 := (min_le_left _ _).trans_lt (by decide)
    have record : s.hu.recordCode = (match s.hu.record with
        | none => 0
        | some h => match h.state with
          | .awaitDone _ => 1
          | .confirmWait _ => 2) := by
      unfold HU.recordCode
      cases s.hu.record with
      | none => rfl
      | some h => cases h.state <;> rfl
    have state : s.hu.recordCode ≤ 2 := by
      unfold HU.recordCode
      cases s.hu.record with
      | none => decide
      | some h =>
        change (match h.state with | .awaitDone _ => 1 | .confirmWait _ => 2) ≤ 2
        cases h.state with
        | awaitDone _ => exact show 1 ≤ 2 by decide
        | confirmWait _ => exact le_refl 2
    have at26 := word 3
    rw [pageAt 3 (by decide), pageAt (3 + 1) (by decide)] at at26
    have at23 := pageAt 0 (by decide)
    have at24 := pageAt 1 (by decide)
    have at25 := pageAt 2 (by decide)
    have at28 := pageAt 5 (by decide)
    have at29 := pageAt 6 (by decide)
    have at30 := pageAt 7 (by decide)
    rw [counts] at at23 at24 at25 at26 at28 at29 at30
    refine ⟨?_, ?_, ?_, ?_, ?_, at29, at30⟩
    · rw [at23]
      exact BitVec.toNat_ofNat _ _
    · rw [at24]
      exact BitVec.toNat_ofNat _ _
    · rw [at25]
      exact BitVec.toNat_ofNat _ _
    · rw [at26]
      exact (word16_bytes _).trans (Nat.mod_eq_of_lt holdup)
    · rw [at28]
      have queue : min 2 s.hu.queue.length ≤ 2 := min_le_left _ _
      refine (byteOf_toNat (n := s.hu.recordCode + 16 * min 2 s.hu.queue.length) (by omega)).trans ?_
      exact congrArg (· + 16 * min 2 s.hu.queue.length) record
  · have neighbours : s.pageBytes = s.pageNeighbours := by
      unfold State.pageBytes
      rw [hp]
    rw [pageAt k hk, neighbours]
    exact pageNeighbours_shown s k hk
  · have detail : s.pageBytes = List.replicate 8 0 := by
      unfold State.pageBytes
      rw [hp]
      rcases nextDetail_cases s with ⟨a, _, next⟩ | ⟨e, _⟩
      · exact absurd next.1 (hn a)
      · change s.pageDetail s.nextDetail = _
        rw [e]
        rfl
    rw [pageAt k hk, detail]
    unfold byteAt
    rw [List.getD_replicate _ hk]

/-- Page 3 shows the entry that the cursor comes to (R148). -/
theorem detail_shown {s : State} (hp : s.sp.page = 3) (hn : ∃ a, s.onRound a) :
    DetailShown s s.orderRecord s.cursorAfter := by
  obtain ⟨_, _, _, _, _, pageAt⟩ := record_places s
  obtain ⟨a, next, _⟩ | ⟨_, none⟩ := nextDetail_cases s
  · have cursor : s.cursorAfter = a := by
      unfold State.cursorAfter
      rw [if_pos hp, next]
      rfl
    have detail : s.pageBytes = s.pageDetail (some a) := by
      unfold State.pageBytes
      rw [hp]
      change s.pageDetail s.nextDetail = _
      rw [next]
    have station := a.isLt
    rw [cursor]
    intro holdup chain
    have at23 := pageAt 0 (by decide)
    have at24 := pageAt 1 (by decide)
    have at25 := pageAt 2 (by decide)
    have at26 := pageAt 3 (by decide)
    have at27 := pageAt 4 (by decide)
    have at28 := pageAt 5 (by decide)
    have at29 := pageAt 6 (by decide)
    have at30 := pageAt 7 (by decide)
    rw [detail] at at23 at24 at25 at26 at27 at28 at29 at30
    refine ⟨?_, ?_, ?_, ?_, ?_, ?_⟩
    · rw [at23]
      exact byteOf_toNat (by omega)
    · rw [at24]
      exact summarySlot_toNat s a
    · unfold wordAt
      rw [at25, at26]
      exact (word16_bytes _).trans (Nat.mod_eq_of_lt (word_lt _))
    · have held : (s.stored a).holdup.getD 0 < 65536 := by
        cases h : (s.stored a).holdup with
        | none => exact show 0 < 65536 by decide
        | some n => exact holdup n h
      unfold wordAt
      rw [at27, at28]
      exact (word16_bytes _).trans (Nat.mod_eq_of_lt held)
    · rw [at29]
      refine (nibbles_toNat (m := ((s.stored a).sectionClass.map SectionClass.code).getD 15)
        (n := ((s.stored a).cause.map Cause.code).getD 15) ?_ ?_).trans ?_
      · cases (s.stored a).sectionClass with
        | none => exact show 15 < 16 by decide
        | some c => exact (class_code_lt c).trans (by decide)
      · cases (s.stored a).cause with
        | none => exact show 15 < 16 by decide
        | some c => exact (cause_code_lt c).trans (by decide)
      · cases (s.stored a).sectionClass <;> cases (s.stored a).cause <;> rfl
    · rw [at30]
      have position : (s.stored a).chainPosition.getD 0 < 64 := by
        cases h : (s.stored a).chainPosition with
        | none => exact show 0 < 64 by decide
        | some n => exact chain n h
      have one := bit_le (s.stored a).chainPosition.isSome
      have two := bit_le (s.stored a).holdup.isSome
      refine (byteOf_toNat (n := (s.stored a).chainPosition.getD 0 + 64 * bit (s.stored a).chainPosition.isSome
        + 128 * bit (s.stored a).holdup.isSome) (by omega)).trans ?_
      cases (s.stored a).chainPosition <;> cases (s.stored a).holdup <;> simp [bit]
  · obtain ⟨a, ha⟩ := hn
    exact absurd ha (none a)

/-- The bits of bytes, byte 0 first and each most significant first (R187). -/
theorem flatMap_bits (l : List Byte) (k : Nat) :
    (l.flatMap bitsOfByte).getD k false = (byteAt l (k / 8)).getLsbD (7 - k % 8) := by
  induction l generalizing k with
  | nil => simp [byteAt]
  | cons b bs ih =>
    rw [List.flatMap_cons]
    by_cases h : k < 8
    · rw [List.getD_append _ _ _ _ h, Nat.div_eq_of_lt h, Nat.mod_eq_of_lt h, ← msbFirst_eq]
      unfold msbFirst
      rw [List.getD_eq_getElem _ _ (by simpa using h)]
      simp [byteAt]
    · have next : byteAt (b :: bs) (k / 8) = byteAt bs ((k - 8) / 8) := by
        have rises : k / 8 = (k - 8) / 8 + 1 := by omega
        rw [rises]
        rfl
      have place : k % 8 = (k - 8) % 8 := by omega
      rw [List.getD_append_right _ _ _ _ (Nat.le_of_not_lt h), next, place]
      exact ih (k - 8)

/-- Settles O48: the snapshot, its bits on SDO, and the cursor. -/
theorem exchangesTakeASnapshot : Obligations.ExchangesTakeASnapshot := by
  intro s
  refine ⟨fun x hx => ⟨?_, fun hl k => ?_⟩, fun hx => ⟨fun k => ?_, s.orderRecord, s.cursorAfter, ?_, orderRecord_shows s,
    cursorAfter_moves s, fun hp hn => detail_shown hp hn⟩⟩
  · change Host.Outcome.next s.startExchange = _
    unfold State.startExchange
    rw [hx]
  · unfold State.sdo
    rw [hx, Option.map_some, flatMap_bits]
    by_cases h : k < 256
    · rw [if_pos h]
    · have past : byteAt x.record (k / 8) = 0 := by
        unfold byteAt
        exact List.getD_eq_default _ _ (by omega)
      rw [if_neg h, past]
      simp
  · unfold State.sdo
    rw [hx]
    rfl
  · change Host.Outcome.next s.startExchange = _
    unfold State.startExchange
    rw [hx]
    rfl

end Sys2Proof.Machine
end

section
/-!
SUPPORT. The section report's bytes (11.3): what makes a report valid, and how the parser inverts the layout.
-/

namespace Sys2Proof.Machine

/-! ### The fields of a report (11.3) -/

/-- The bytes that a field takes, present or absent. -/
def fieldWidth (present : Bool) (n : Nat) : Nat := if present then n else 0

theorem splitBytes_eq (n : Nat) (l : List Byte) :
    splitBytes n l = if n ≤ l.length then some (l.take n, l.drop n) else none := by
  unfold splitBytes
  by_cases h : n ≤ l.length
  · rw [if_pos h, if_neg (Nat.not_lt.mpr h)]
  · rw [if_neg h, if_pos (Nat.lt_of_not_le h)]

theorem optionalField_eq {α : Type} (present : Bool) (n : Nat) (read : List Byte → α) (l : List Byte) :
    optionalField present n read l = if fieldWidth present n ≤ l.length then
      some (if present then some (read (l.take n)) else none, l.drop (fieldWidth present n)) else none := by
  unfold optionalField fieldWidth
  cases present
  · simp
  · rw [splitBytes_eq]
    simp only [if_true]
    split <;> rfl

theorem configOf_eq (code : Nat) (l : List Byte) : ∃ c, configOf code l
    = if fieldWidth (code = 1) 6 ≤ l.length then some (c, l.drop (fieldWidth (code = 1) 6)) else none := by
  unfold configOf
  match code with
  | 0 => exact ⟨none, by simp [fieldWidth]⟩
  | 1 => exact ⟨_, optionalField_eq true 6 _ l⟩
  | 2 => exact ⟨some .lock, by simp [fieldWidth]⟩
  | n + 3 => exact ⟨some .restart, by simp [fieldWidth]⟩

/-- The outcome code of an acknowledgement names an outcome (11.3). -/
theorem ackOf_some (b : Byte) : (∃ a, ackOf b = some a) ↔ b.toNat / 16 % 4 ≤ 1 := by
  have code : bitsOf b 4 2 = b.toNat / 16 % 4 := rfl
  unfold ackOf
  rw [code]
  generalize b.toNat / 16 % 4 = n
  match n with
  | 0 => simp
  | 1 => simp
  | k + 2 => simp

theorem acksOf_some (l : List Byte) : (∃ a, acksOf l = some a) ↔ ∀ b ∈ l, b.toNat / 16 % 4 ≤ 1 := by
  induction l with
  | nil => exact ⟨fun _ _ h => absurd h List.not_mem_nil, fun _ => ⟨[], rfl⟩⟩
  | cons b bs ih =>
    have next : acksOf (b :: bs) = (match ackOf b, acksOf bs with
        | some a, some l => some (a :: l)
        | _, _ => none) := rfl
    rw [List.forall_mem_cons, ← ackOf_some, ← ih, next]
    generalize acksOf bs = rest
    cases ackOf b with
    | none => simp
    | some a => cases rest <;> simp

theorem getLsbD_iff (b : Byte) (k : Nat) : b.getLsbD k = decide (b.toNat / 2 ^ k % 2 = 1) := by
  rw [BitVec.getLsbD, Nat.testBit_eq_decide_div_mod_eq]

/-- The fields that a header announces, by their widths (11.3). -/
theorem announced_eq (h : Byte) :
    announced h = h.toNat % 4 + (fieldWidth (h.getLsbD 2) 2 + (fieldWidth (h.getLsbD 3) 3
      + (fieldWidth (h.getLsbD 4) 5 + fieldWidth (bitsOf h 5 2 = 1) 6))) := by
  have code : bitsOf h 5 2 = h.toNat / 32 % 4 := rfl
  unfold announced fieldWidth
  rw [code, getLsbD_iff, getLsbD_iff, getLsbD_iff]
  simp only [decide_eq_true_eq, Nat.reducePow]
  omega

/-- A stage that succeeds under a condition, and what follows it. -/
theorem bind_stage {α β : Type} {p : Prop} [Decidable p] (x : α) (g : α → Option β) :
    (if p then some x else none).bind g = if p then g x else none := by
  split <;> rfl

theorem exists_stage {α : Type} {p : Prop} [Decidable p] (o : Option α) :
    (∃ r, (if p then o else none) = some r) ↔ p ∧ ∃ r, o = some r := by
  split <;> simp_all

/-- The fields are read where the acknowledgements have outcomes and the bytes are as many as announced (R144). -/
theorem fieldsOf_some (flags h : Byte) (l : List Byte) :
    (∃ r, fieldsOf flags h l = some r) ↔ h.toNat % 4 ≠ 3 ∧ (∀ b ∈ l.take (h.toNat % 4), b.toNat / 16 % 4 ≤ 1)
      ∧ l.length = announced h := by
  have count : bitsOf h 0 2 = h.toNat % 4 := bitsOf_low h 2
  obtain ⟨config, last⟩ := configOf_eq (bitsOf h 5 2)
    (((((l.drop (h.toNat % 4)).drop (fieldWidth (h.getLsbD 2) 2)).drop (fieldWidth (h.getLsbD 3) 3)).drop
      (fieldWidth (h.getLsbD 4) 5)))
  have stages : fieldsOf flags h l = if 2 < h.toNat % 4 then none else
      (splitBytes (h.toNat % 4) l).bind fun p => (acksOf p.1).bind fun acks =>
      (optionalField (h.getLsbD 2) 2 (fun f => wordAt f 0) p.2).bind fun q =>
      (optionalField (h.getLsbD 3) 3 (fun f => (byteAt f 0, wordAt f 1)) q.2).bind fun u =>
      (optionalField (h.getLsbD 4) 5 directiveOf u.2).bind fun v =>
      (configOf (bitsOf h 5 2) v.2).bind fun w =>
      if w.2.isEmpty then some ⟨reportFlags flags, acks, q.1, u.1, v.1, w.1⟩ else none := by
    unfold fieldsOf
    rw [count]
    rfl
  have below : h.toNat % 4 < 4 := Nat.mod_lt _ (by decide)
  rw [announced_eq, stages, splitBytes_eq, ← acksOf_some]
  simp only [optionalField_eq, bind_stage, last, List.length_drop, List.isEmpty_iff_length_eq_zero]
  generalize h.toNat % 4 = n at below ⊢
  generalize fieldWidth (h.getLsbD 2) 2 = a, fieldWidth (h.getLsbD 3) 3 = b, fieldWidth (h.getLsbD 4) 5 = c,
    fieldWidth (decide (bitsOf h 5 2 = 1)) 6 = d
  cases acksOf (l.take n) with
  | none => simp
  | some acks =>
    by_cases few : 2 < n
    · rw [if_pos few]
      refine ⟨fun ⟨r, e⟩ => (nomatch e), fun k => absurd k.1 (by omega)⟩
    · rw [if_neg few]
      simp only [Option.bind_some, exists_stage, Option.some.injEq, exists_eq', and_true, true_and]
      omega

/-! ### The four tests (R144) -/

/-- The first bytes of a list, one by one. -/
theorem forall_take {l : List Byte} {n : Nat} {p : Byte → Prop} (h : n ≤ l.length) :
    (∀ b ∈ l.take n, p b) ↔ ∀ i < n, p (byteAt l i) := by
  have read : ∀ i (hi : i < n), byteAt l i = (l.take n)[i]'(by rw [List.length_take]; omega) := fun i hi => by
    unfold byteAt
    rw [List.getD_eq_getElem _ _ (by omega), List.getElem_take]
  constructor
  · intro k i hi
    rw [read i hi]
    exact k _ (List.getElem_mem _)
  · intro k b hb
    obtain ⟨i, hi, rfl⟩ := List.mem_iff_getElem.mp hb
    have small : i < n := by
      rw [List.length_take] at hi
      omega
    rw [← read i small]
    exact k i small

/-- A byte of the fields between header and CRC (11.3). -/
theorem byteAt_fields {k : List Byte} {n i : Nat} (hn : n ≤ k.length) (hi : 3 + i < n - 1) :
    byteAt ((k.take (n - 1)).drop 3) i = byteAt k (3 + i) := by
  unfold byteAt
  rw [List.getD_eq_getElem _ _ (by rw [List.length_drop, List.length_take]; omega), List.getElem_drop, List.getElem_take,
    List.getD_eq_getElem]

/-- A report is read exactly where the four tests hold of the bytes kept (R143, R144). -/
theorem parseReport_some (bytes : List Byte) : (∃ r, parseReport bytes = some r) ↔ ReportValid (bytes.take 64) := by
  have kept : (bytes.take 64).length ≤ 64 := List.length_take_le _ _
  unfold parseReport ReportValid
  dsimp only
  generalize bytes.take 64 = k at kept ⊢
  generalize (byteAt k 0).toNat = n
  by_cases whole : n ≤ k.length ∧ 4 ≤ n
  · obtain ⟨long, header⟩ := whole
    have inside : ¬ ((decide (k.length < n) || decide (n < 4) || decide (64 < n)) = true) := by
      simp only [Bool.or_eq_true, decide_eq_true_eq]
      omega
    rw [if_neg inside]
    have width : ((k.take (n - 1)).drop 3).length = n - 4 := by
      rw [List.length_drop, List.length_take]
      omega
    have count := announced_eq (byteAt k 2)
    by_cases crc : crc8 (k.take (n - 1)) = byteAt k (n - 1)
    · rw [if_neg (by simpa using crc), fieldsOf_some, width]
      constructor
      · rintro ⟨few, acks, all⟩
        have within : (byteAt k 2).toNat % 4 ≤ ((k.take (n - 1)).drop 3).length := by omega
        refine ⟨long, header, by omega, by omega, few, fun i hi => ?_, crc.symm⟩
        rw [← byteAt_fields long (by omega)]
        exact (forall_take within).mp acks i hi
      · rintro ⟨_, _, _, all, few, acks, _⟩
        have within : (byteAt k 2).toNat % 4 ≤ ((k.take (n - 1)).drop 3).length := by omega
        refine ⟨few, (forall_take within).mpr fun i hi => ?_, by omega⟩
        rw [byteAt_fields long (by omega)]
        exact acks i hi
    · rw [if_pos crc]
      refine ⟨fun ⟨r, e⟩ => (nomatch e), fun h => absurd h.2.2.2.2.2.2.symm crc⟩
  · have outside : (decide (k.length < n) || decide (n < 4) || decide (64 < n)) = true := by
      simp only [Bool.or_eq_true, decide_eq_true_eq]
      omega
    rw [if_pos outside]
    exact ⟨fun ⟨r, e⟩ => (nomatch e), fun h => absurd ⟨h.1, h.2.1⟩ whole⟩

/-- Settles O49: the tests of a report, and the invalid one discarded and counted. -/
theorem invalidReportsAreDiscarded : Obligations.InvalidReportsAreDiscarded := by
  intro sdi bytes s hb
  have valid : parseReport bytes ≠ none ↔ ReportValid (bytes.take 64) := by
    rw [← parseReport_some, ← Option.ne_none_iff_exists']
  refine ⟨⟨_, rfl⟩, valid, fun e c he hn => ?_⟩
  have discarded : parseReport bytes = none := by
    by_contra h
    exact hn (valid.mp h)
  rw [reportArrival_eq hb he, discarded]

/-! ### The layout read back (11.3) -/

/-- The number of a configuration part in the header (11.3). -/
def configCode : Option ConfigPart → Fin 4
  | none => 0
  | some (.item _ _ _ _ _ _) => 1
  | some .lock => 2
  | some .restart => 3

/-- The header's fields, by their numbers. -/
theorem header_read : ∀ (a : Fin 3) (b c d : Bool) (e : Fin 4),
    let h : Byte := BitVec.ofNat 8 (a.val + weight b 4 + weight c 8 + weight d 16 + 32 * e.val)
    bitsOf h 0 2 = a.val ∧ h.getLsbD 2 = b ∧ h.getLsbD 3 = c ∧ h.getLsbD 4 = d ∧ bitsOf h 5 2 = e.val := by
  decide

theorem header_fields {r : Report} (h : r.acks.length ≤ 2) :
    bitsOf r.header 0 2 = r.acks.length ∧ r.header.getLsbD 2 = r.holdup.isSome ∧ r.header.getLsbD 3 = r.capacity.isSome
      ∧ r.header.getLsbD 4 = r.directive.isSome ∧ bitsOf r.header 5 2 = (configCode r.config).val := by
  have code : r.header = BitVec.ofNat 8 (r.acks.length + weight r.holdup.isSome 4 + weight r.capacity.isSome 8
      + weight r.directive.isSome 16 + 32 * (configCode r.config).val) := by
    unfold Report.header configCode
    cases r.config with
    | none => rfl
    | some c => cases c <;> rfl
  rw [code]
  exact header_read ⟨r.acks.length, by omega⟩ _ _ _ _

/-- The flags byte is read back (11.3). -/
theorem reportFlags_byte (f : ReportFlags) : reportFlags f.byte = f := by
  obtain ⟨a, b, c, d, e, g⟩ := f
  revert a b c d e g
  decide

/-- An acknowledgement byte is read back (11.3). -/
theorem ackOf_byte (a : Token × AckOutcome) : ackOf (ackByte a) = some a := by
  obtain ⟨token, outcome⟩ := a
  cases outcome <;> revert token <;> decide

theorem acksOf_bytes (l : List (Token × AckOutcome)) : acksOf (l.map ackByte) = some l := by
  induction l with
  | nil => rfl
  | cons a as ih =>
    have next : acksOf ((a :: as).map ackByte) = (match ackOf (ackByte a), acksOf (as.map ackByte) with
        | some b, some l => some (b :: l)
        | _, _ => none) := rfl
    rw [next, ih, ackOf_byte]

theorem splitBytes_append {n : Nat} {l : List Byte} (rest : List Byte) (h : l.length = n) :
    splitBytes n (l ++ rest) = some (l, rest) := by
  rw [splitBytes_eq, if_pos (by rw [List.length_append]; omega), List.take_left' h, List.drop_left' h]

/-- A field with its bytes in front is read from them, an absent one from none. -/
theorem optionalField_append {α : Type} {n : Nat} {read : List Byte → α} {x : Option α} {piece : List Byte}
    (rest : List Byte) (h : ∀ v, x = some v → piece.length = n ∧ read piece = v) (hn : x = none → piece = []) :
    optionalField x.isSome n read (piece ++ rest) = some (x, rest) := by
  cases x with
  | none => rw [hn rfl]; rfl
  | some v =>
    obtain ⟨long, value⟩ := h v rfl
    change (splitBytes n (piece ++ rest)).map _ = _
    rw [splitBytes_append rest long]
    exact congrArg (fun y => some (some y, rest)) value

/-- The bytes of a local directive, of a configuration part and of a capacity reading (11.3). -/
def directivePart : Option RawDirective → List Byte
  | some (.part c g h l x) => [c, g, h, l, x]
  | _ => []

def configPart : Option ConfigPart → List Byte
  | some (.item i v0 v1 v2 v3 v4) => [i, v0, v1, v2, v3, v4]
  | _ => []

def capacityPart : Option (Byte × Nat) → List Byte
  | some (x, n) => x :: fieldBytes n
  | none => []

def holdupPart : Option Nat → List Byte
  | some h => fieldBytes h
  | none => []

theorem fields_parts (r : Report) :
    r.fields = r.acks.map ackByte
      ++ (holdupPart r.holdup ++ (capacityPart r.capacity ++ (directivePart r.directive ++ configPart r.config))) := by
  rw [← List.append_assoc, ← List.append_assoc, ← List.append_assoc]
  rfl

/-- A configuration part is read from its bytes. -/
theorem configOf_part (c : Option ConfigPart) : configOf (configCode c).val (configPart c) = some (c, []) := by
  cases c with
  | none => rfl
  | some c => cases c <;> rfl

/-- The bytes between header and CRC are 18 at most. -/
theorem fields_length {r : Report} (h : r.acks.length ≤ 2) : r.fields.length ≤ 18 := by
  have holdup : (holdupPart r.holdup).length ≤ 2 := by cases r.holdup <;> simp [holdupPart, fieldBytes]
  have capacity : (capacityPart r.capacity).length ≤ 3 := by
    cases r.capacity with
    | none => simp [capacityPart]
    | some p => simp [capacityPart, fieldBytes]
  have directive : (directivePart r.directive).length ≤ 5 := by
    cases r.directive with
    | none => simp [directivePart]
    | some d => cases d <;> simp [directivePart]
  have config : (configPart r.config).length ≤ 6 := by
    cases r.config with
    | none => simp [configPart]
    | some c => cases c <;> simp [configPart]
  rw [fields_parts]
  simp only [List.length_append, List.length_map]
  omega

/-- A two-byte field is read back (R187). -/
theorem wordAt_fieldBytes {n : Nat} (h : n < 65536) : wordAt (fieldBytes n) 0 = n :=
  (word16_bytes n).trans (Nat.mod_eq_of_lt h)

/-- The fields of a report that the format carries are read back. -/
theorem fieldsOf_fields {r : Report} (h : r.carried) : fieldsOf r.flags.byte r.header r.fields = some r := by
  obtain ⟨few, holdup, capacity, directive⟩ := h
  obtain ⟨count, two, three, four, code⟩ := header_fields few
  have stages : fieldsOf r.flags.byte r.header r.fields = if 2 < r.acks.length then none else
      (splitBytes r.acks.length r.fields).bind fun p => (acksOf p.1).bind fun acks =>
      (optionalField r.holdup.isSome 2 (fun f => wordAt f 0) p.2).bind fun q =>
      (optionalField r.capacity.isSome 3 (fun f => (byteAt f 0, wordAt f 1)) q.2).bind fun u =>
      (optionalField r.directive.isSome 5 directiveOf u.2).bind fun v =>
      (configOf (configCode r.config).val v.2).bind fun w =>
      if w.2.isEmpty then some ⟨reportFlags r.flags.byte, acks, q.1, u.1, v.1, w.1⟩ else none := by
    unfold fieldsOf
    rw [count, two, three, four, code]
    rfl
  have first := splitBytes_append (l := r.acks.map ackByte) (n := r.acks.length)
    (holdupPart r.holdup ++ (capacityPart r.capacity ++ (directivePart r.directive ++ configPart r.config)))
    (List.length_map ..)
  have second := optionalField_append (n := 2) (read := fun f => wordAt f 0) (x := r.holdup) (piece := holdupPart r.holdup)
    (capacityPart r.capacity ++ (directivePart r.directive ++ configPart r.config))
    (fun v hv => by rw [hv]; exact ⟨rfl, wordAt_fieldBytes (holdup v hv)⟩) (fun hv => by rw [hv]; rfl)
  have third := optionalField_append (n := 3) (read := fun f => (byteAt f 0, wordAt f 1)) (x := r.capacity)
    (piece := capacityPart r.capacity) (directivePart r.directive ++ configPart r.config)
    (fun v hv => by
      obtain ⟨x, n⟩ := v
      rw [hv]
      exact ⟨rfl, congrArg (Prod.mk x) (wordAt_fieldBytes (capacity x n hv))⟩) (fun hv => by rw [hv]; rfl)
  have fourth := optionalField_append (n := 5) (read := directiveOf) (x := r.directive)
    (piece := directivePart r.directive) (configPart r.config)
    (fun v hv => by
      rw [hv]
      cases v with
      | frame a p => exact absurd hv (directive a p)
      | part c g h l x => exact ⟨rfl, rfl⟩) (fun hv => by rw [hv]; rfl)
  rw [stages, if_neg (Nat.not_lt.mpr few), fields_parts, first]
  simp only [Option.bind_some, acksOf_bytes, second, third, fourth, configOf_part, reportFlags_byte]
  rfl

/-- The byte after the first part of a list. -/
theorem byteAt_middle {l m : List Byte} {c : Byte} {n : Nat} (h : l.length = n) : byteAt (l ++ ([c] ++ m)) n = c := by
  rw [← h]
  exact byteAt_within (l := [c]) l (k := 0) Nat.one_pos

/-- Settles O50: the bytes of a report, and what the parser makes of them. -/
theorem reportsReadBack : Obligations.ReportsReadBack := by
  intro r extra h
  have short := fields_length h.1
  let body : List Byte := BitVec.ofNat 8 (r.fields.length + 4) :: r.flags.byte :: r.header :: r.fields
  have length : body.length = r.fields.length + 3 := rfl
  have bytes : r.bytes = body ++ [crc8 body] := rfl
  have kept : (r.bytes ++ extra).take 64 = body ++ ([crc8 body] ++ extra.take (60 - r.fields.length)) := by
    have size : r.bytes.length = r.fields.length + 4 := by rw [bytes, List.length_append, length]; rfl
    have rest : 64 - r.bytes.length = 60 - r.fields.length := by omega
    rw [List.take_append, List.take_of_length_le (by omega), rest, bytes, List.append_assoc]
  have number : (byteAt ((r.bytes ++ extra).take 64) 0).toNat = r.fields.length + 4 := by
    rw [kept]
    exact byteOf_toNat (by omega)
  have last : byteAt (body ++ ([crc8 body] ++ extra.take (60 - r.fields.length))) (r.fields.length + 3) = crc8 body :=
    byteAt_middle length
  have inside : ¬ ((decide ((body ++ ([crc8 body] ++ extra.take (60 - r.fields.length))).length < r.fields.length + 4)
      || decide (r.fields.length + 4 < 4) || decide (64 < r.fields.length + 4)) = true) := by
    simp only [Bool.or_eq_true, decide_eq_true_eq, List.length_append, List.length_singleton, length]
    omega
  unfold parseReport
  dsimp only
  rw [number, kept, if_neg inside, Nat.add_sub_cancel (m := 1) (n := r.fields.length + 3), last, List.take_left' length]
  generalize crc8 body = crc
  rw [if_neg (fun k => k rfl)]
  exact fieldsOf_fields h

end Sys2Proof.Machine
end

section
/-!
SUPPORT. The parts of a section report in their order (R145): the flags that move nothing, and how a report goes on
when one of them does.
-/

namespace Sys2Proof.Machine

/-! ### The note of the report and its look-ahead permission (R146, R151) -/

/-- The look-ahead permission is taken where the report is noted. -/
theorem takeLookAhead_noted (s : State) (e : Exchange) (c : Station) (f : ReportFlags) :
    ((s.exchanged e c).noteReport f).takeLookAhead f.lookAhead
      = if f.lookAhead then (s.afterReport e c f).arbitrate else s.afterReport e c f := by
  have noted : ((s.exchanged e c).noteReport f).setSp
      { ((s.exchanged e c).noteReport f).sp with lookAhead := f.lookAhead } = s.afterReport e c f := by
    unfold State.noteReport State.afterReport State.exchanged
    cases s.ps.phase <;> rfl
  unfold State.takeLookAhead
  rw [noted]

/-- A permission that releases nothing leaves the report noted. -/
theorem permission_idle (s : State) (e : Exchange) (c : Station) (f : ReportFlags)
    (h : f.lookAhead = true → s.sp.Quiet ∧ s.hu.NoneWaiting) :
    (s.exchanged e c).publish (((s.exchanged e c).noteReport f).takeLookAhead f.lookAhead) = s.afterReport e c f := by
  have idle : ((s.exchanged e c).noteReport f).takeLookAhead f.lookAhead = s.afterReport e c f := by
    rw [takeLookAhead_noted]
    split
    · rename_i on
      obtain ⟨quiet, still⟩ := h on
      exact arbitrate_still _ ⟨quiet.trip, quiet.phase, quiet.pair, quiet.recovery, quiet.turnover, quiet.rate⟩ still
    · rfl
  rw [idle]
  exact publish_own _ _ rfl

/-! ### The flags after the acknowledgements (R145) -/

/-- Parts 3 to 5 of a report: the freeze flag, the completion and self-turnover, and the trip request. -/
def State.takeStanding (s : State) (f : ReportFlags) : State :=
  let s3 := s.publish (s.takeFreeze f.freeze)
  let s4 := s3.publish (s3.testCompletion.takeSelfTurnover f.selfTurnover)
  s4.publish (s4.takeTripRequest f.tripRequest)

theorem takeFlags_eq (s : State) (r : Report) :
    s.takeFlags r = ((s.publish ((s.noteReport r.flags).takeLookAhead r.flags.lookAhead)).takeAcks
      r.acks).takeStanding r.flags := rfl

theorem takeFreeze_same {s : State} {flag : Bool} (h : flag = s.ps.frozen) : s.takeFreeze flag = s := by
  unfold State.takeFreeze
  rw [h]
  cases s.ps.frozen <;> rfl

theorem takeSelfTurnover_idle {s : State} {flag : Bool} (h : flag = true → s.ps.phase ≠ .hold ∧ s.ps.phase ≠ .banked) :
    s.takeSelfTurnover flag = s := by
  unfold State.takeSelfTurnover
  cases flag with
  | false => rfl
  | true =>
    obtain ⟨hold, banked⟩ := h rfl
    cases hp : s.ps.phase <;> first | rfl | contradiction

/-- A trip request remembered already is no edge (R131). -/
theorem takeTripRequest_remembered {s : State} {flag : Bool} (h : flag = true → s.tr.memory = true) :
    s.takeTripRequest flag = s.remembers flag := by
  unfold State.takeTripRequest
  cases flag with
  | false => rfl
  | true => rw [h rfl]; rfl

theorem fulfils_iff (h : HandoffWait) : h.fulfils = true ↔ h = .notNeeded ∨ h = .fulfilled := by
  cases h <;> simp [HandoffWait.fulfils]

theorem shows_eq {s : State} {f : ReportFlags} (h : s.sp.lastReport = some f) (g : ReportFlags → Bool) :
    s.shows g = g f := by
  unfold State.shows
  rw [h]

theorem fillingDone_iff {s : State} {f : ReportFlags} (h : s.sp.lastReport = some f) (r : SlotRec) :
    s.fillingDone r = true ↔ s.CompletionMet f r ∧ s.ps.phase = .filling := by
  unfold State.fillingDone State.CompletionMet
  rw [shows_eq h, ← fulfils_iff]
  cases s.ps.phase <;> simp [and_comm]

theorem drainingDone_iff {s : State} {f : ReportFlags} (h : s.sp.lastReport = some f) (r : SlotRec) :
    s.drainingDone r = true ↔ s.CompletionMet f r ∧ s.ps.phase = .draining := by
  unfold State.drainingDone State.CompletionMet
  rw [shows_eq h, ← fulfils_iff]
  cases s.ps.phase <;> simp [and_comm]

/-- The completion conditions of the transition in the slot are not met, or the overlay holds them back. -/
def State.Unfinished (w : State) : Prop :=
  ∀ r, w.ps.slot = some r → r.stage = .waitCompletion →
    w.ps.frozen = true ∨ w.fillingDone r = false ∧ w.drainingDone r = false

theorem Unfinished.testCompletion {w : State} (h : w.Unfinished) : w.testCompletion = w := by
  unfold State.testCompletion
  cases hs : w.ps.slot with
  | none => rfl
  | some r =>
    by_cases waits : r.stage = .waitCompletion
    · rcases h r hs waits with frozen | ⟨filling, draining⟩
      · simp [frozen]
      · simp [filling, draining]
    · simp [waits]

/-- A transition before stage 7 completes nothing. -/
theorem unfinished_other {w : State} {y : SlotRec} (slot : w.ps.slot = some y) (h : y.stage ≠ .waitCompletion) :
    w.Unfinished := fun x hx waits => by
  cases slot.symm.trans hx
  exact (h waits).elim

/-- Flags that do not meet the conditions leave them unmet. -/
theorem unfinished_unmet {s : State} {f : ReportFlags} (h : s.sp.lastReport = some f)
    (unmet : ∀ x, s.ps.slot = some x → x.stage = .waitCompletion → s.ps.frozen = true ∨ ¬ s.CompletionMet f x) :
    s.Unfinished := fun x hx waits => by
  refine (unmet x hx waits).imp id fun k => ⟨?_, ?_⟩
  · rw [Bool.eq_false_iff]
    exact fun done => k ((fillingDone_iff h x).1 done).1
  · rw [Bool.eq_false_iff]
    exact fun done => k ((drainingDone_iff h x).1 done).1

/-- Conditions not met, or held back by the overlay, complete nothing (R14, R15, R28). -/
theorem testCompletion_unmet {s : State} {f : ReportFlags} (h : s.sp.lastReport = some f)
    (unmet : ∀ x, s.ps.slot = some x → x.stage = .waitCompletion → s.ps.frozen = true ∨ ¬ s.CompletionMet f x) :
    s.testCompletion = s := Unfinished.testCompletion (unfinished_unmet h unmet)

/-- Nothing published depends on the trip request memory. -/
theorem publish_remembers (s : State) (flag : Bool) : s.publish (s.remembers flag) = s.remembers flag :=
  publish_own _ _ rfl

/-- Once the freeze flag has brought a state that the later flags do not move, the memory alone is set. -/
theorem takeStanding_of {s m : State} {f : ReportFlags} (frozen : s.publish (s.takeFreeze f.freeze) = m)
    (unmet : m.testCompletion = m) (turnover : f.selfTurnover = true → m.ps.phase ≠ .hold ∧ m.ps.phase ≠ .banked)
    (request : f.tripRequest = true → m.tr.memory = true) : s.takeStanding f = m.remembers f.tripRequest := by
  unfold State.takeStanding
  rw [frozen]
  dsimp only
  rw [unmet, takeSelfTurnover_idle turnover, publish_self, takeTripRequest_remembered request, publish_remembers]

/-- Flags that move nothing set the memory alone. -/
theorem takeStanding_unmoved {s : State} {f : ReportFlags} (last : s.sp.lastReport = some f)
    (h : s.Unmoved { f with lookAhead := false }) : s.takeStanding f = s.remembers f.tripRequest := by
  refine takeStanding_of ?_ (testCompletion_unmet last h.slot) h.turnover h.request
  rw [takeFreeze_same h.freeze, publish_self]

/-- The parts of a report whose permission releases nothing and that carries no acknowledgement. -/
theorem takeFlags_standing (s : State) (e : Exchange) (c : Station) (r : Report) (acks : r.acks = [])
    (idle : r.flags.lookAhead = true → s.sp.Quiet ∧ s.hu.NoneWaiting) :
    (s.exchanged e c).takeFlags r = (s.afterReport e c r.flags).takeStanding r.flags := by
  rw [takeFlags_eq, permission_idle s e c r.flags idle, acks]
  rfl

/-- Flags that move nothing move nothing once their report is noted. -/
theorem unmoved_noted {s : State} {f : ReportFlags} (e : Exchange) (c : Station) (h : s.Unmoved f) :
    (s.afterReport e c f).Unmoved { f with lookAhead := false } :=
  ⟨h.freeze, h.request, h.turnover, h.slot, fun k => nomatch k⟩

/-- A report whose flags move nothing goes on to its readings. -/
theorem takeFlags_unmoved (s : State) (e : Exchange) (c : Station) (r : Report) (acks : r.acks = [])
    (h : s.Unmoved r.flags) :
    (s.exchanged e c).takeFlags r = (s.afterReport e c r.flags).remembers r.flags.tripRequest := by
  rw [takeFlags_standing s e c r acks h.lookAhead]
  exact takeStanding_unmoved rfl (unmoved_noted e c h)

/-- The parts of a report with neither directive nor configuration part end with its readings. -/
theorem takeParts_readings {s : State} {r : Report} (directive : r.directive = none) (config : r.config = none) :
    s.takeParts r = (s.takeFlags r).takeReadings r := by
  unfold State.takeParts
  rw [directive, config]
  rfl

theorem takeReadings_none {s : State} {r : Report} (holdup : r.holdup = none) (capacity : r.capacity = none) :
    s.takeReadings r = s := by
  unfold State.takeReadings
  rw [holdup, capacity]
  split <;> rfl

/-! ### The order of the parts (R145) -/

/-- Every report ends some exchange: the open one, or one that starts with it (log 10). -/
theorem ends_some (s : State) : ∃ e c, s.Ends e c := by
  cases hx : s.sp.exchange with
  | some e => exact ⟨e, s.sp.cursor, .inl ⟨hx, rfl⟩⟩
  | none =>
    exact ⟨⟨s.orderRecord, s.du.result.isSome, s.du.count⟩, s.cursorAfter,
      .inr ⟨hx, rfl, rfl, cursorAfter_moves s⟩⟩

/-- A report's local directive is the row that the directive itself is. -/
theorem exec_portCommand (d : RawDirective) (u : State) : exec (portCommand d) u = .next (u.publish (u.takeRaw d)) := by
  cases d with
  | frame a p => rfl
  | part code tag h l x =>
    have judged : u.takeRaw (.part code tag h l x)
        = u.takeDirective (.port tag) (Directive.ofCode code (h ++ l) (x.getLsbD 0)) := rfl
    unfold portCommand
    dsimp only
    split
    case h_15 => rfl
    all_goals
      rename_i named
      rw [judged, Directive.ofCode, named]
      rfl

theorem exec_configCommand (c : ConfigPart) (u : State) : exec (configCommand c) u = .next (u.takeConfig c) := by
  cases c <;> rfl

/-- What stands after the flags, the readings and the directive of a report, a configuration part being left. -/
theorem takeParts_config (s : State) (r : Report) : s.takeParts r
    = match r.config with
      | some c => (((s.takeFlags r).takeReadings r).part State.takeRaw r.directive).takeConfig c
      | none => ((s.takeFlags r).takeReadings r).part State.takeRaw r.directive := by
  unfold State.takeParts
  rfl

/-- A report with one acknowledgement, its permission releasing nothing, takes it as its own row does. -/
theorem takeFlags_ack (s : State) (e : Exchange) (c : Station) (f : ReportFlags) (k : Token) (o : AckOutcome)
    (idle : f.lookAhead = true → s.sp.Quiet ∧ s.hu.NoneWaiting) :
    (s.exchanged e c).takeFlags { Report.bare f with acks := [(k, o)] }
      = ((s.afterReport e c f).publish ((s.afterReport e c f).takeAck k o)).takeStanding f := by
  rw [takeFlags_eq]
  exact congrArg (fun t : State => (t.takeAcks [(k, o)]).takeStanding f) (permission_idle s e c f idle)

/-- Settles O53: the arrival takes the parts in turn, and each part is the row it names. -/
theorem reportPartsAreTakenInOrder : Obligations.ReportPartsAreTakenInOrder := by
  intro sdi first bytes head r s spells spellsFirst parsed
  refine ⟨fun parsedFirst => ?_, fun k o e c f ends idle hr => ?_⟩
  · obtain ⟨e, c, ends⟩ := ends_some s
    let u := ((s.exchanged e c).takeFlags r).takeReadings r
    refine ⟨u, u.part State.takeRaw r.directive, ?_, fun d hd => ?_, fun hd => ?_, fun hc => ?_, fun x hc => ?_⟩
    · rw [reportArrival_eq spellsFirst ends, parsedFirst]
      rfl
    · rw [exec_portCommand, hd]
      rfl
    · rw [hd]
      rfl
    · rw [reportArrival_eq spells ends, parsed]
      dsimp only
      rw [takeParts_config, hc]
    · rw [reportArrival_eq spells ends, parsed, exec_configCommand]
      dsimp only
      rw [takeParts_config, hc]
  · refine ⟨_, rfl, fun unmoved => ?_⟩
    rw [reportArrival_eq spells ends, parsed, hr]
    have last : ((s.afterReport e c f).publish ((s.afterReport e c f).takeAck k o)).sp.lastReport = some f :=
      ((takeAck_steady _ k o).trans (publish_steady _ _)).2.2.2.2.2
    have taken := takeFlags_ack s e c f k o idle
    rw [takeStanding_unmoved last unmoved] at taken
    refine congrArg Host.Outcome.next ?_
    change (s.exchanged e c).takeParts { Report.bare f with acks := [(k, o)] } = _
    rw [takeParts_readings rfl rfl, takeReadings_none rfl rfl, taken]

end Sys2Proof.Machine
end

section
/-!
SUPPORT. The transition in the slot, or the empty slot, at the clearing of the overlay (R4, R28), and the flags of a
report taking effect.
-/

namespace Sys2Proof.Machine

/-! ### What a re-examination leaves (R28) -/

/-- The transition of `u` stands in `w` at whatever stage, and nothing that a waiting request asks about has moved. -/
structure SlotCarried (u w : State) (r : SlotRec) : Prop where
  sequencer : ∃ y, w.ps = { u.ps with slot := some y } ∧ y.requester = r.requester
  throughput : w.tu = u.tu
  trip : w.tr = u.tr
  hold : w.autoHoldStands = u.autoHoldStands

theorem SlotCarried.same {u : State} {r : SlotRec} (h : u.ps.slot = some r) : SlotCarried u u r :=
  ⟨⟨r, by rw [← h], rfl⟩, rfl, rfl, rfl⟩

/-- The stage of the transition in the slot is one at which a re-examination finds nothing more to do. -/
def State.Settled (w : State) : Prop :=
  ∃ y, w.ps.slot = some y
    ∧ (y.stage = .waitAck ∨ y.stage = .waitIssue ∨ y.stage = .waitHandoffSlot ∧ w.hu.record ≠ none)

theorem goesOn_settled (u : State) (r : SlotRec) : (u.goesOn r).Settled := by
  refine ⟨_, rfl, ?_⟩
  dsimp only
  split
  · exact .inl rfl
  · exact .inr (.inl rfl)

theorem goesOn_carried {u v : State} {r x : SlotRec} (hps : v.ps = (u.goesOn x).ps) (htu : v.tu = u.tu)
    (htr : v.tr = u.tr) (hau : v.au = u.au) (hlc : v.lc.line = u.lc.line) (hx : x.requester = r.requester) :
    SlotCarried u v r := by
  refine ⟨⟨_, hps, hx⟩, htu, htr, ?_⟩
  unfold State.autoHoldStands
  rw [hps, htu, hau, hlc]
  rfl

/-- A point reached settles the transition. -/
theorem PointReached.settled {u w : State} {r : SlotRec} (h : PointReached u w r) : w.Settled := by
  unfold PointReached at h
  split at h
  · rw [h]
    exact goesOn_settled _ _
  · split at h
    · rename_i k _ occupied
      rw [h]
      exact ⟨_, rfl, .inr (.inr ⟨rfl, occupied.2⟩)⟩
    · obtain ⟨x, -, -, -, form⟩ := h
      obtain ⟨y, slot, stage⟩ := goesOn_settled u { r with handoff := x }
      rw [form]
      refine ⟨y, slot, stage.imp id (.imp id ?_)⟩
      rintro ⟨occupied, -⟩
      cases slot
      split at occupied <;> exact nomatch occupied

theorem PointReached.carried {u w : State} {r : SlotRec} (h : PointReached u w r) : SlotCarried u w r := by
  unfold PointReached at h
  split at h
  · rw [h]
    exact goesOn_carried rfl rfl rfl rfl rfl rfl
  · split at h
    · rw [h]
      exact ⟨⟨_, rfl, rfl⟩, rfl, rfl, rfl⟩
    · obtain ⟨x, -, kept, -, form⟩ := h
      refine goesOn_carried (x := { r with handoff := x }) (by rw [form]) (by rw [form]; rfl) (by rw [form]; rfl)
        (by rw [form]; rfl) ?_ rfl
      rw [kept.1]

theorem Settled.pollClaim {w : State} (h : w.Settled) : w.pollClaim = w := by
  obtain ⟨y, slot, stage⟩ := h
  have other : y.stage ≠ .waitClaim := by rcases stage with e | e | ⟨e, -⟩ <;> simp [e]
  unfold State.pollClaim
  simp [slot, other]

theorem Settled.pollHandoff {w : State} (h : w.Settled) : w.pollHandoff = w := by
  obtain ⟨y, slot, stage⟩ := h
  unfold State.pollHandoff
  rcases stage with e | e | ⟨-, occupied⟩
  · simp [slot, e]
  · simp [slot, e]
  · simp [slot, Option.isSome_iff_ne_none.mpr occupied]

theorem Settled.unfinished {w : State} (h : w.Settled) : w.Unfinished := by
  obtain ⟨y, slot, stage⟩ := h
  refine unfinished_other slot fun waits => ?_
  rcases stage with e | e | ⟨e, -⟩ <;> exact nomatch e.symm.trans waits

theorem Settled.noList {w : State} (h : w.Settled) : w.atStage .waitPrereq = false := by
  obtain ⟨y, slot, stage⟩ := h
  unfold State.atStage
  rw [slot]
  rcases stage with e | e | ⟨e, -⟩ <;> simp [e]

/-! ### A list that stays unmet (R7) -/

/-- A transition waits on its list, evaluated as it stands: evaluating it once more changes nothing. -/
def State.ListWaits (w : State) : Prop :=
  ∃ y, w.ps.slot = some y ∧ y.stage = .waitPrereq ∧ y.pendingSent = true
    ∧ ∀ l, y.kind.list = some l → w.firstUnmet l ≠ none ∧ w.pv.watches = w.watchesOf l

theorem ListWaits.pollList {w : State} (h : w.ListWaits) : w.pollList = w := by
  obtain ⟨y, slot, stage, told, waits⟩ := h
  unfold State.pollList
  rw [slot]
  dsimp only
  split
  · rfl
  · cases hl : y.kind.list with
    | none => rfl
    | some l =>
      obtain ⟨unmet, watched⟩ := waits l hl
      have again : w.evaluateList y l = w := by
        unfold State.evaluateList
        cases hf : w.firstUnmet l with
        | none => exact absurd hf unmet
        | some i =>
          dsimp only
          rw [← watched]
          rfl
      dsimp only
      rw [again]
      unfold State.notePending
      simp [slot, told]

/-- The waiting requests are no matter of its list. -/
theorem ListWaits.setWaiting {w : State} (h : w.ListWaits) (x : Waiting) : (w.setWaiting x).ListWaits := by
  obtain ⟨y, slot, stage, told, waits⟩ := h
  refine ⟨y, slot, stage, told, fun l hl => ?_⟩
  obtain ⟨unmet, watched⟩ := waits l hl
  obtain ⟨first, watches⟩ := lists_alike (s := w.setWaiting x) (t := w) (.refl _) rfl rfl rfl l
  exact ⟨by rw [first]; exact unmet, by rw [watches]; exact watched⟩

theorem ListWaits.unfinished {w : State} (h : w.ListWaits) : w.Unfinished := by
  obtain ⟨y, slot, stage, -⟩ := h
  exact unfinished_other slot fun waits => nomatch stage.symm.trans waits

/-! ### The transition examined again, stage by stage (R28) -/

/-- No further examination moves the state, whichever requests wait, and its publication adds nothing. -/
structure Examined (u w : State) (r : SlotRec) : Prop where
  examined : SlotExamined u w r
  carried : SlotCarried u w r
  rests : w.Unfinished
  still : w.ListWaits ∨ w.atStage .waitPrereq = false

theorem pollClaim_other {w : State} {y : SlotRec} (slot : w.ps.slot = some y) (h : y.stage ≠ .waitClaim) :
    w.pollClaim = w := by
  unfold State.pollClaim
  simp [slot, h]

theorem pollHandoff_other {w : State} {y : SlotRec} (slot : w.ps.slot = some y) (h : y.stage ≠ .waitHandoffSlot) :
    w.pollHandoff = w := by
  unfold State.pollHandoff
  simp [slot, h]

/-- A list examined while the overlay is clear: the transition has passed it, waits on its claims, or waits on it. -/
theorem examined_list {u : State} {r : SlotRec} (ready : u.ReportReady) (slot : u.ps.slot = some r)
    (stage : r.stage = .waitPrereq) (clear : u.ps.frozen = false) (fresh : r.claimReached = false)
    (calm : r.claimTargets u.cs.set ≠ none → u.ps.phase.underRate = false) : Examined u u.resumeSlot r := by
  have polled := pollList_polled u ready
  obtain ⟨silent, -⟩ := ready.clear slot (.inl stage)
  have told : r.pendingSent = true := ready.2 r slot (.inl stage)
  unfold State.resumeSlot
  generalize u.pollList = w at polled
  have waits : w.ListWaits → SlotExamined u w r → SlotCarried u w r →
      Examined u w.pollClaim.pollHandoff.testCompletion r := fun h examined carried => by
    obtain ⟨y, hy, st, -⟩ := id h
    rw [pollClaim_other hy (by simp [st]), pollHandoff_other hy (by simp [st]),
      Unfinished.testCompletion (ListWaits.unfinished h)]
    exact ⟨examined, carried, ListWaits.unfinished h, .inl h⟩
  have passes : w.Settled → SlotExamined u w r → SlotCarried u w r →
      Examined u w.pollClaim.pollHandoff.testCompletion r := fun h examined carried => by
    rw [Settled.pollClaim h, Settled.pollHandoff h, Unfinished.testCompletion (Settled.unfinished h)]
    exact ⟨examined, carried, Settled.unfinished h, .inr (Settled.noList h)⟩
  have shape : ∀ l, r.kind.list = some l → ListExamined u w r l → SlotExamined u w r := fun l hl h => by
    unfold SlotExamined
    rw [stage]
    intro l' hl'
    cases hl.symm.trans hl'
    exact h
  cases hl : r.kind.list with
  | none =>
    have same : w = u := polled.2 fun x hx => .inr (.inr (by cases slot.symm.trans hx; exact hl))
    subst same
    refine waits ⟨r, slot, stage, told, fun l k => nomatch hl.symm.trans k⟩ ?_ (.same slot)
    unfold SlotExamined
    rw [stage]
    exact fun l k => nomatch hl.symm.trans k
  | some l =>
    have listed := polled.1 r l slot stage clear hl
    obtain ⟨unmet, met, claims⟩ := id listed
    by_cases hf : u.firstUnmet l = none
    · cases hc : r.claimTargets u.cs.set with
      | none =>
        have point := met hf hc
        exact passes point.settled (shape l hl listed)
          ⟨point.carried.sequencer, point.carried.throughput, point.carried.trip, point.carried.hold⟩
      | some f =>
        obtain ⟨m, v, rfl, form, -, reached, short⟩ := claims f hf hc
        have calm' : u.ps.phase.underRate = false := calm (by rw [hc]; exact nofun)
        have quiet : ∀ x : State, x.ps.phase = u.ps.phase → x.autoHoldStands = u.autoHoldStands := fun x hx => by
          unfold State.autoHoldStands
          rw [hx]
          cases hp : u.ps.phase <;> first | rfl | (rw [hp] at calm'; exact nomatch calm')
        have tu : m.tu = u.tu := by rw [form]
        have tr : m.tr = u.tr := by rw [form]
        by_cases ht : m.TargetsMet
        · have point := reached ht
          obtain ⟨y, ps, asked⟩ := point.carried.sequencer
          refine passes point.settled (shape l hl listed) ⟨⟨y, ?_, asked⟩, point.carried.throughput.trans tu,
            point.carried.trip.trans tr, quiet _ ?_⟩
          · rw [ps, form]
          · rw [ps, form]
        · have claiming := short ht
          let y : SlotRec := { r with
            stage := .waitClaim, deadline := some u.cs.set.tClaimWait, pendingSent := true }
          have ps : w.ps = { u.ps with slot := some y } := by rw [claiming, form]
          have slot' : w.ps.slot = some y := by rw [ps]
          have unclaimed : w.claimReached = false := by
            rw [Bool.eq_false_iff]
            intro k
            have all := (claimReached_iff w).1 k
            rw [claiming] at all
            exact ht all
          have noClaim : w.pollClaim = w := by
            unfold State.pollClaim
            rw [slot']
            have unheard : y.claimReached = false := fresh
            simp [unheard, unclaimed]
          have rest : w.Unfinished := unfinished_other slot' nofun
          rw [noClaim, pollHandoff_other slot' nofun, Unfinished.testCompletion rest]
          refine ⟨shape l hl listed, ⟨⟨y, ps, rfl⟩, ?_, ?_, quiet w ?_⟩, rest, .inr ?_⟩
          · rw [claiming]; exact tu
          · rw [claiming]; exact tr
          · rw [ps]
          · unfold State.atStage
            rw [slot']
            rfl
    · have form := unmet hf
      refine waits ⟨_, by rw [form], rfl, rfl, fun l' hl' => ?_⟩ (shape l hl listed)
        (by rw [form]; exact ⟨⟨_, rfl, rfl⟩, rfl, rfl, rfl⟩)
      cases hl.symm.trans hl'
      obtain ⟨first, watches⟩ := lists_alike (s := w) (t := u) (by rw [form]; exact .refl _) (by rw [form])
        (by rw [form]) (by rw [form]) l
      exact ⟨by rw [first]; exact hf, by rw [watches, form]⟩

/-- Where neither list, claims nor record call for anything, the state stands. -/
theorem examined_idle {u : State} {r : SlotRec} (slot : u.ps.slot = some r) (list : r.stage ≠ .waitPrereq)
    (claims : r.stage ≠ .waitClaim) (record : r.stage ≠ .waitHandoffSlot) (rests : u.Unfinished) :
    Examined u u.resumeSlot r := by
  have polled : u.pollList = u := by
    unfold State.pollList
    simp [slot, list]
  unfold State.resumeSlot
  rw [polled, pollClaim_other slot claims, pollHandoff_other slot record,
    Unfinished.testCompletion rests]
  refine ⟨?_, .same slot, rests, .inr ?_⟩
  · unfold SlotExamined
    cases hr : r.stage <;> first | rfl | contradiction
  · unfold State.atStage
    rw [slot]
    simp [list]

/-- The claims examined while the overlay is clear. -/
theorem examined_claims {u : State} {r : SlotRec} (ready : u.ReportReady) (slot : u.ps.slot = some r)
    (stage : r.stage = .waitClaim) (clear : u.ps.frozen = false) : Examined u u.resumeSlot r := by
  have polled : u.pollList = u := by
    unfold State.pollList
    simp [slot, stage]
  have claims := pollClaim_polled u ready
  have shape : ∀ w, ((r.claimReached = true ∨ u.TargetsMet) → PointReached u w { r with claimReached := true }) →
      (¬ (r.claimReached = true ∨ u.TargetsMet) → w = u) → SlotExamined u w r := fun w h k => by
    unfold SlotExamined
    rw [stage]
    exact ⟨h, k⟩
  unfold State.resumeSlot
  rw [polled]
  by_cases reached : r.claimReached = true ∨ u.TargetsMet
  · have point := (claims.1 r slot stage reached).1 clear
    generalize u.pollClaim = w at point
    have settled := point.settled
    rw [Settled.pollHandoff settled, Unfinished.testCompletion (Settled.unfinished settled)]
    exact ⟨shape w (fun _ => point) (fun k => (k reached).elim), ⟨point.carried.sequencer, point.carried.throughput,
      point.carried.trip, point.carried.hold⟩, Settled.unfinished settled, .inr (Settled.noList settled)⟩
  · have same : u.pollClaim = u := claims.2 fun x hx => .inr (by
      cases slot.symm.trans hx
      rw [not_or] at reached
      exact ⟨by simpa using reached.1, reached.2⟩)
    have rests : u.Unfinished := unfinished_other slot (by simp [stage])
    rw [same, pollHandoff_other slot (by simp [stage]), Unfinished.testCompletion rests]
    refine ⟨shape u (fun k => (reached k).elim) (fun _ => rfl), .same slot, rests, .inr ?_⟩
    unfold State.atStage
    rw [slot]
    simp [stage]

/-- A transition that finds the record empty owes no PENDING after it. -/
theorem toHandoff_told {u : State} {r : SlotRec} (silent : r.silent) (empty : u.hu.record = none)
    (ht : u.sp.tripReq = false) (hq : u.sp.psReq = none) (hr : u.sp.pairReq = none) :
    (u.toHandoff r).notePending = u.toHandoff r := by
  cases hk : r.kind.point with
  | none =>
    unfold State.toHandoff
    rw [hk]
    dsimp only
    rw [toIssue_silent u _ (by exact silent) ht hq hr, goesOn_notePending]
  | some k =>
    obtain ⟨h, l, taken, -⟩ := takePoint_taken u k
    rw [toHandoff_takes hk empty, taken, toIssue_silent _ _ (by exact silent) (by exact ht) (by exact hq) (by exact hr),
      goesOn_notePending]

/-- The requester record examined while the overlay is clear. -/
theorem examined_record {u : State} {r : SlotRec} (slot : u.ps.slot = some r) (stage : r.stage = .waitHandoffSlot)
    (clear : u.ps.frozen = false) (told : r.pendingSent = true) (ht : u.sp.tripReq = false) (hq : u.sp.psReq = none)
    (hr : u.sp.pairReq = none) : Examined u u.resumeSlot r := by
  have polled : u.pollList = u := by
    unfold State.pollList
    simp [slot, stage]
  unfold State.resumeSlot
  rw [polled, pollClaim_other slot (by simp [stage])]
  by_cases empty : u.hu.record = none
  · have taken : u.pollHandoff = u.toHandoff r := by
      unfold State.pollHandoff
      simp [slot, stage, empty, clear]
    have point := toHandoff_reached u r (.inl told) ht hq hr
    rw [toHandoff_told (.inl told) empty ht hq hr, ← taken] at point
    generalize u.pollHandoff = w at point
    have settled := point.settled
    rw [Unfinished.testCompletion (Settled.unfinished settled)]
    refine ⟨?_, point.carried, Settled.unfinished settled, .inr (Settled.noList settled)⟩
    unfold SlotExamined
    rw [stage]
    dsimp only
    rw [if_pos empty]
    exact point
  · have settled : u.Settled := ⟨r, slot, .inr (.inr ⟨stage, empty⟩)⟩
    rw [Settled.pollHandoff settled, Unfinished.testCompletion (Settled.unfinished settled)]
    refine ⟨?_, .same slot, Settled.unfinished settled, .inr (Settled.noList settled)⟩
    unfold SlotExamined
    rw [stage]
    dsimp only
    rw [if_neg empty]

/-- The slot's transition examined again with the overlay clear, stage by stage. -/
theorem resumeSlot_examined {u : State} {r : SlotRec} (slot : u.ps.slot = some r) (clear : u.ps.frozen = false)
    (complete : r.stage = .waitCompletion → u.Unfinished)
    (path : r.stage.beforeIssue = true → r.pendingSent = true ∧ u.sp.tripReq = false ∧ u.sp.NoPhaseWaits)
    (calm : r.stage = .waitPrereq → r.claimReached = false ∧ (r.claimTargets u.cs.set ≠ none →
      u.ps.phase.underRate = false)) : Examined u u.resumeSlot r := by
  have ready : r.stage.beforeIssue = true → u.ReportReady := fun early => by
    obtain ⟨told, trip, phases⟩ := path early
    refine ⟨fun _ => ⟨trip, phases⟩, fun x hx _ => ?_⟩
    cases slot.symm.trans hx
    exact told
  have idle : r.stage ≠ .waitPrereq → r.stage ≠ .waitClaim → r.stage ≠ .waitHandoffSlot →
      Examined u u.resumeSlot r := fun list claims record =>
    examined_idle slot list claims record (by
      by_cases last : r.stage = .waitCompletion
      · exact complete last
      · exact unfinished_other slot last)
  cases hs : r.stage with
  | waitPrereq =>
    obtain ⟨fresh, targets⟩ := calm hs
    exact examined_list (ready (by rw [hs]; rfl)) slot hs clear fresh targets
  | waitClaim => exact examined_claims (ready (by rw [hs]; rfl)) slot hs clear
  | waitHandoffSlot =>
    obtain ⟨told, trip, phase, pair⟩ := path (by rw [hs]; rfl)
    exact examined_record slot hs clear told trip phase pair
  | waitDwell => exact idle (by simp [hs]) (by simp [hs]) (by simp [hs])
  | waitIssue => exact idle (by simp [hs]) (by simp [hs]) (by simp [hs])
  | waitAck => exact idle (by simp [hs]) (by simp [hs]) (by simp [hs])
  | waitCompletion => exact idle (by simp [hs]) (by simp [hs]) (by simp [hs])

/-- The waiting requests sifted behind the transition are those that still hold (R4, R28). -/
theorem sift_waitsOn {s u w : State} {r : SlotRec} (h : SlotCarried u w r) (phase : u.ps.phase = s.ps.phase)
    (waiting : u.ps.waiting = s.ps.waiting) (owner : u.ps.owner = s.ps.owner) (tu : u.tu.runoutDone = s.tu.runoutDone)
    (hold : u.autoHoldStands = s.autoHoldStands) :
    w.sift = { w with ps := { w.ps with waiting := s.waitsOn r } } := by
  obtain ⟨y, ps, asked⟩ := h.sequencer
  have held : w.ps.holdsAutoHold = decide (r.requester = .autoHold) := by
    unfold PS.holdsAutoHold
    rw [ps, ← asked]
  have hp : w.ps.phase = s.ps.phase := by rw [ps]; exact phase
  have hw : w.ps.waiting = s.ps.waiting := by rw [ps]; exact waiting
  have ho : w.ps.owner = s.ps.owner := by rw [ps]; exact owner
  have hd : w.tu.runoutDone = s.tu.runoutDone := by rw [h.throughput]; exact tu
  have same : (⟨w.forcedValid, w.closeDrainValid, w.autoHoldStands && (w.ps.waiting.autoHold || !w.ps.holdsAutoHold),
      w.autoResumeValid⟩ : Waiting) = s.waitsOn r := by
    unfold State.forcedValid State.closeDrainValid State.autoResumeValid State.waitsOn
    rw [held, h.hold, hold, hp, hw, ho, hd]
    cases s.ps.phase <;> simp [Phase.inHold]
  unfold State.sift
  rw [same]
  rfl

end Sys2Proof.Machine
end

section
/-!
SUPPORT. The flags of a valid report taking effect (8.1): the self-turnover, the overlay, the look-ahead permission and
the trip request.
-/

namespace Sys2Proof.Machine

/-! ### A report of flags alone (R145) -/

/-- The flags of a report are taken after its note and its permission. -/
theorem bareArrival {sdi : List Bool} {bytes : List Byte} {s : State} {e : Exchange} {c : Station} {f : ReportFlags}
    (spells : Spells sdi bytes) (ends : s.Ends e c) (parsed : parseReport bytes = some (.bare f)) :
    exec (.reportArrival sdi) s = .next
      ((s.publish (if f.lookAhead then (s.afterReport e c f).arbitrate else s.afterReport e c f)).takeStanding f) := by
  have whole : (s.exchanged e c).takeParts (.bare f)
      = (s.publish (if f.lookAhead then (s.afterReport e c f).arbitrate else s.afterReport e c f)).takeStanding f := by
    rw [takeParts_readings rfl rfl, takeReadings_none rfl rfl, takeFlags_eq, ← takeLookAhead_noted]
    rfl
  rw [reportArrival_eq spells ends, parsed]
  exact congrArg Host.Outcome.next whole

/-- A permission that releases nothing leaves the flags to be taken where the report is noted. -/
theorem bareArrival_idle {sdi : List Bool} {bytes : List Byte} {s : State} {e : Exchange} {c : Station}
    {f : ReportFlags} (spells : Spells sdi bytes) (ends : s.Ends e c) (parsed : parseReport bytes = some (.bare f))
    (idle : f.lookAhead = true → s.sp.Quiet ∧ s.hu.NoneWaiting) :
    exec (.reportArrival sdi) s = .next ((s.afterReport e c f).takeStanding f) := by
  rw [bareArrival spells ends parsed]
  refine congrArg (fun t : State => Host.Outcome.next (t.takeStanding f)) ?_
  have := permission_idle s e c f idle
  rw [takeLookAhead_noted] at this
  exact this

/-- ATTN, from the list and the local result (R161). -/
theorem attn_iff (s : State) : s.attn = true ↔ s.sp.outstanding ≠ [] ∨ s.du.count ≠ s.sp.seenCount
    ∨ (s.du.result = none ↔ s.sp.seenPresent = true) := by
  unfold State.attn
  cases s.du.result <;> cases s.sp.seenPresent <;> simp

/-! ### The self-turnover (R24, R25) -/

/-- A self-turnover that counts, between a freeze flag and a completion that move nothing. -/
theorem takeStanding_turnover {s m : State} {f : ReportFlags} (last : s.sp.lastReport = some f)
    (h : s.Unmoved { f with selfTurnover := false, lookAhead := false }) (form : s.takeSelfTurnover f.selfTurnover = m)
    (own : m.ownEntry = s.ownEntry) (memory : m.tr = s.tr) : s.takeStanding f = m.remembers f.tripRequest := by
  have unmet : s.testCompletion = s := testCompletion_unmet last h.slot
  unfold State.takeStanding
  rw [takeFreeze_same (by exact h.freeze), publish_self]
  dsimp only
  rw [unmet, form, publish_own _ _ own, takeTripRequest_remembered (by rw [memory]; exact h.request), publish_remembers]

/-! ### The overlay (R27, R28, R68) -/

/-- An event that ends under the overlay evaluates no list (R28). -/
theorem publish_frozen {s u : State} (h : u.ps.frozen = true) : Noted s u (s.publish u) := by
  have still : u.pollList = u := by
    unfold State.pollList
    cases u.ps.slot <;> simp [h]
  unfold State.publish
  rw [still, ite_self]
  exact noteChange_eq s u

/-- A list that waits is not taken further by the publication. -/
theorem publish_still_listed {s u : State} (h : u.ListWaits ∨ u.atStage .waitPrereq = false) :
    Noted s u (s.publish u) := by
  rcases h with h | h
  · unfold State.publish
    rw [ListWaits.pollList h, ite_self]
    exact noteChange_eq s u
  · exact publish_noted s u h

/-- The trip request memory is no matter of what an event notes. -/
theorem Noted.remembers {s u t : State} (h : Noted s u t) (flag : Bool) :
    Noted s (u.remembers flag) (t.remembers flag) := by
  obtain ⟨form, kept, placed, mark⟩ := h
  refine ⟨?_, kept, placed, mark⟩
  rw [form]
  rfl

/-- After the overlay's flag, flags that move nothing leave the memory alone to be set. -/
theorem takeStanding_noted {s w : State} {f : ReportFlags} (noted : Noted s w (s.publish (s.takeFreeze f.freeze)))
    (rests : w.Unfinished) (turnover : f.selfTurnover = true → w.ps.phase ≠ .hold ∧ w.ps.phase ≠ .banked)
    (request : f.tripRequest = true → w.tr.memory = true) :
    Noted s (w.remembers f.tripRequest) (s.takeStanding f) := by
  have form := noted.1
  have same : s.takeStanding f = (s.publish (s.takeFreeze f.freeze)).remembers f.tripRequest := by
    refine takeStanding_of rfl ?_ ?_ ?_
    · rw [form]
      exact Unfinished.testCompletion rests
    · rw [form]
      exact turnover
    · rw [form]
      exact request
  rw [same]
  exact noted.remembers _

/-- The slot given again has neither moved the phase nor the trip unit, and leaves no completion to be tested. -/
theorem SlotGiven.kept {u w : State} (h : SlotGiven u w) (empty : u.ps.slot = none) :
    w.ps.phase = u.ps.phase ∧ w.tr = u.tr ∧ w.Unfinished := by
  have point : ∀ {v : State} {r : SlotRec}, PointReached v w r → v.ps.phase = u.ps.phase → v.tr = u.tr →
      w.ps.phase = u.ps.phase ∧ w.tr = u.tr ∧ w.Unfinished := fun reached phase trip => by
    obtain ⟨y, ps, -⟩ := reached.carried.sequencer
    exact ⟨by rw [ps]; exact phase, reached.carried.trip.trans trip, Settled.unfinished reached.settled⟩
  unfold SlotGiven at h
  dsimp only at h
  split at h
  · split at h
    · rw [h]
      exact ⟨rfl, rfl, unfinished_other rfl nofun⟩
    · exact point h rfl rfl
  · split at h
    · exact point h rfl rfl
    · split at h
      · exact point h rfl rfl
      · split at h
        · obtain ⟨unmet, met, claims⟩ := h
          let v : State := { u with ps := { u.ps with waiting := ⟨false, false, false, false⟩ } }
          let r : SlotRec := { SlotRec.new u.ps.linkPhase .resume .autoResume .auto none with
            deadline := some u.cs.set.tPrereqWait }
          by_cases hf : v.firstUnmet .resume = none
          · cases hc : r.claimTargets v.cs.set with
            | none => exact point (met hf hc) rfl rfl
            | some f =>
              obtain ⟨m, x, rfl, form, -, reached, short⟩ := claims f hf hc
              by_cases ht : m.TargetsMet
              · exact point (reached ht) (by rw [form]) (by rw [form])
              · rw [short ht, form]
                exact ⟨rfl, rfl, unfinished_other rfl nofun⟩
          · rw [unmet hf]
            exact ⟨rfl, rfl, unfinished_other rfl nofun⟩
        · rw [h]
          exact ⟨rfl, rfl, fun x hx => nomatch empty.symm.trans hx⟩

/-! ### The look-ahead permission (R150, R151) -/

/-- The token the next issue takes beside one outstanding command (R150). -/
theorem nextToken_beside {p : SP} {o : Outstanding} (h : p.outstanding = [o]) :
    p.nextToken = if o.token = p.tokenCount then p.tokenCount + 1 else p.tokenCount := by
  have used : ∀ t, p.tokenUsed t = decide (o.token = t) := fun t => by simp [SP.tokenUsed, h]
  unfold SP.nextToken
  by_cases taken : o.token = p.tokenCount
  · have free : o.token ≠ p.tokenCount + 1 := by rw [taken]; simp
    simp [SP.tokenFrom, used, taken]
  · simp [SP.tokenFrom, used, taken]

/-- A permission with one command out lets one lower request out beside it, which fills the list (R151). -/
theorem arbitrate_beside {s v : State} {o : Outstanding} (ho : s.sp.outstanding = [o])
    (lower : o.command.isSetPhase = false) (allowed : s.sp.lookAhead = true) (ht : s.sp.tripReq = false)
    (phases : s.sp.NoPhaseWaits) (hr : s.sp.recoveryReq = none) (issued : s.issueLower = v)
    (full : v.sp.outstanding.length = 2) : s.arbitrate = v := by
  have first : s.issueNext = v := by
    rw [issueNext_lower ht phases.1 phases.2 hr (by rw [ho, SP.room, if_pos allowed]; exact Nat.lt_succ_self 1)
      (by simp [SP.setPhaseOut, ho, lower]), issued]
  have second : v.issueNext = v := by
    have room : ¬ v.sp.outstanding.length < v.sp.room := by
      rw [full, SP.room]
      split <;> decide
    have some : v.sp.outstanding.isEmpty = false := by
      cases hv : v.sp.outstanding with
      | nil => exact nomatch hv ▸ full
      | cons => rfl
    unfold State.issueNext
    simp only [some, room, false_and, if_false, Bool.false_eq_true]
    repeat' split
    all_goals rfl
  rw [State.arbitrate, first, second]

/-- What a permission lets out beside one command moves no other flag. -/
theorem permitted {sdi : List Bool} {bytes : List Byte} {s v : State} {e : Exchange} {c : Station} {f : ReportFlags}
    (spells : Spells sdi bytes) (ends : s.Ends e c) (parsed : parseReport bytes = some (.bare f))
    (on : f.lookAhead = true) (issued : (s.afterReport e c f).arbitrate = v) (own : v.ownEntry = s.ownEntry)
    (last : v.sp.lastReport = some f) (h : v.Unmoved { f with lookAhead := false }) :
    exec (.reportArrival sdi) s = .next (v.remembers f.tripRequest) := by
  rw [bareArrival spells ends parsed, if_pos on, issued, publish_own s v own, takeStanding_unmoved last h]

/-- Settles O51, flag by flag. -/
theorem reportFlagsTakeEffect : Obligations.ReportFlagsTakeEffect := by
  intro s
  refine ⟨attn_iff s, fun sdi bytes f g v e c spells ends parsed hv => ?_⟩
  let n : State := s.afterReport e c f
  have run : (f.lookAhead = true → s.sp.Quiet ∧ s.hu.NoneWaiting) →
      exec (.reportArrival sdi) s = .next (n.takeStanding f) := bareArrival_idle spells ends parsed
  refine ⟨fun h => ?_, fun on hg h => ?_, fun on hg h => ?_, fun u off hg h hu => ?_,
    fun o k on hg h ho lower ht phases hr hk => ?_, fun on hg h memory cold tripped => ?_⟩
  · rw [run h.lookAhead, hv]
    exact congrArg _ (takeStanding_unmoved rfl (unmoved_noted e c h))
  · subst hg hv
    have still : n.Unmoved { f with selfTurnover := false, lookAhead := false } :=
      ⟨h.freeze, h.request, h.turnover, h.slot, fun k => nomatch k⟩
    rw [run h.lookAhead]
    refine ⟨fun hp => ?_, fun hp => ?_⟩
    · have form : n.takeSelfTurnover f.selfTurnover
          = { n with ps := { n.ps with missed := false, turnover := some n.cs.set.tTurnover } } := by
        have phase : n.ps.phase = .hold := hp
        rw [on]
        unfold State.takeSelfTurnover
        rw [if_pos rfl, phase]
        rfl
      exact congrArg Host.Outcome.next (takeStanding_turnover rfl still form rfl rfl)
    · have form : n.takeSelfTurnover f.selfTurnover
          = { n with ps := { n.ps with turnover := some (2 * n.cs.set.tTurnover) } } := by
        have phase : n.ps.phase = .banked := hp
        rw [on]
        unfold State.takeSelfTurnover
        rw [if_pos rfl, phase]
        rfl
      exact congrArg Host.Outcome.next (takeStanding_turnover rfl still form rfl rfl)
  · subst hg hv
    have clear : s.ps.frozen = false := h.freeze.symm
    have taken : n.takeFreeze f.freeze = n.freezes := by
      have clear' : n.ps.frozen = false := clear
      unfold State.takeFreeze
      rw [on, clear']
      rfl
    refine ⟨_, run h.lookAhead, ?_⟩
    exact takeStanding_noted (s := n) (w := n.freezes) (by rw [taken]; exact publish_frozen rfl)
      (fun _ _ _ => .inl rfl) h.turnover h.request
  · subst hg
    have set : s.ps.frozen = true := h.freeze.symm
    have taken : n.takeFreeze f.freeze = u.resumeSlot.reexamine := by
      have set' : n.ps.frozen = true := set
      unfold State.takeFreeze
      rw [off, set', hu]
      rfl
    have clear : u.ps.frozen = false := by rw [hu]
    refine ⟨fun empty ht phases => ?_, fun r slot unmet path calm => ?_⟩
    · have empty' : u.ps.slot = none := by rw [hu]; exact empty
      have idle : u.resumeSlot = u := by
        simp [State.resumeSlot, State.pollList, State.pollClaim, State.pollHandoff, State.testCompletion, empty']
      obtain ⟨given, noted⟩ := reexamine_given s u empty' clear (by rw [hu]; exact ht) (by rw [hu]; exact phases.1)
        (by rw [hu]; exact phases.2)
      obtain ⟨phase, trip, rests⟩ := given.kept empty'
      refine ⟨_, _, run h.lookAhead, given, ?_⟩
      refine takeStanding_noted (s := n) (by rw [taken, idle]; exact noted) rests ?_ ?_
      · rw [phase, hu]
        exact h.turnover
      · rw [trip, hu]
        exact h.request
    · have slot' : u.ps.slot = some r := by rw [hu]; exact slot
      have phase' : u.ps.phase = s.ps.phase := by rw [hu]
      have last : u.sp.lastReport = some f := by rw [hu]; rfl
      obtain ⟨examined, carried, rests, still⟩ := resumeSlot_examined slot' clear
        (fun waits => unfinished_unmet last fun x hx _ => .inr (by
          cases slot'.symm.trans hx
          rw [hu]
          exact unmet waits))
        (fun early => by rw [hu]; exact path early) (fun list => by rw [hu]; exact calm list)
      obtain ⟨y, ps, asked⟩ := carried.sequencer
      have occupied : u.resumeSlot.reexamine = u.resumeSlot.sift := by
        have clear' : u.resumeSlot.ps.frozen = false := by rw [ps]; exact clear
        have slotted : u.resumeSlot.ps.slot = some y := by rw [ps]
        unfold State.reexamine
        rw [clear', slotted]
        rfl
      let w : State := u.resumeSlot
      let z : State := { w with ps := { w.ps with waiting := s.waitsOn r } }
      have sifted : u.resumeSlot.reexamine = z :=
        occupied.trans (sift_waitsOn carried phase' (by rw [hu]) (by rw [hu]) (by rw [hu]) (by rw [hu]; rfl))
      refine ⟨w, _, run h.lookAhead, examined, ?_⟩
      have noted : Noted s z (s.publish z) := publish_still_listed
        (still.imp (fun k => ListWaits.setWaiting k (s.waitsOn r)) id)
      refine takeStanding_noted (s := n) (w := z) (by rw [taken, sifted]; exact noted) rests ?_ ?_
      · have : z.ps.phase = s.ps.phase := by
          change w.ps.phase = _
          rw [ps]
          exact phase'
        rw [this]
        exact h.turnover
      · have : z.tr = s.tr := carried.trip.trans (by rw [hu]; rfl)
        rw [this]
        exact h.request
  · subst hg hv
    have token : n.sp.nextToken = k := (nextToken_beside (p := n.sp) ho).trans hk.symm
    have list : n.sp.outstanding = [o] := ho
    have moved : ∀ x : State, x.ps = s.ps → x.tr = s.tr → x.cs = s.cs → x.Unmoved { f with lookAhead := false } :=
      fun x hps htr hcs => by
        refine ⟨by rw [hps]; exact h.freeze, by rw [htr]; exact h.request, by rw [hps]; exact h.turnover, ?_,
          fun k => nomatch k⟩
        unfold State.CompletionMet
        rw [hps, hcs]
        exact h.slot
    refine ⟨fun hu => ?_, fun before x after hu hq hb hx => ?_, fun r hu hn hv => ?_⟩
    · let m : State := { n with sp := { n.sp with
        turnoverReq := false, tokenCount := k + 1
        outstanding := [o, ⟨k, .turnover, some s.cs.set.tAckTurnover, false⟩] } }
      have issued : n.issueLower = m := by
        unfold State.issueLower
        rw [if_pos (by exact hu), State.issueTurnover, SP.emit, token, list]
        rfl
      exact permitted spells ends parsed on (arbitrate_beside list lower on ht phases hr issued rfl) rfl rfl
        (moved m rfl rfl rfl)
    · let m : State := { n with
        sp := { n.sp with
          tokenCount := k + 1
          outstanding := [o, ⟨k, .handoffWork x.work x.point x.requester, some s.cs.set.tAckTurnover, false⟩] }
        hu := { s.hu with queue := before ++ { x with state := .outstanding k } :: after } }
      have issued : n.issueLower = m := by
        have queue : n.hu.queue = before ++ x :: after := hq
        unfold State.issueLower State.issueWork?
        rw [if_neg (by change ¬ s.sp.turnoverReq = true; simp [hu]), queue, token, takeWaiting_first k x after hb hx]
        dsimp only [Option.map_some]
        rw [SP.emit, token, list]
        rfl
      exact permitted spells ends parsed on (arbitrate_beside list lower on ht phases hr issued rfl) rfl rfl
        (moved m rfl rfl rfl)
    · let m : State := { n with sp := { n.sp with
        rIss := r, rateReq := s.tu.train.bind (nextStep s.cs.set.maxStep r), tokenCount := k + 1
        outstanding := [o, ⟨k, .setRate r false, some s.cs.set.tAckRate, false⟩] } }
      have issued : n.issueLower = m := by
        have rate : n.sp.rateReq = some r := hv
        unfold State.issueLower State.issueWork?
        rw [if_neg (by change ¬ s.sp.turnoverReq = true; simp [hu]), takeWaiting_none _ _ (by exact hn)]
        simp only [Option.map_none, rate]
        rw [State.issueStep, State.issueRate, SP.emit, token, list]
        rfl
      exact permitted spells ends parsed on (arbitrate_beside list lower on ht phases hr issued rfl) rfl rfl
        (moved m rfl rfl rfl)
  · subst hg hv
    have still : n.takeFreeze f.freeze = n := takeFreeze_same (by exact h.freeze)
    have unmet : n.testCompletion = n := testCompletion_unmet (f := f) rfl (by exact h.slot)
    have idle : n.takeSelfTurnover f.selfTurnover = n := takeSelfTurnover_idle (by exact h.turnover)
    have edge : n.takeTripRequest f.tripRequest = (n.remembers f.tripRequest).tripEntry .sectionRequest := by
      have fresh : n.tr.memory = false := memory
      unfold State.takeTripRequest
      rw [on, fresh]
      exact raiseCause_trips (s := n.remembers true) .sectionRequest cold tripped
    have entered : n.takeStanding f = n.publish ((n.remembers f.tripRequest).tripEntry .sectionRequest) := by
      unfold State.takeStanding
      rw [still, publish_self]
      dsimp only
      rw [unmet, idle, publish_self, edge]
    refine ⟨_, run h.lookAhead, ?_⟩
    rw [entered]
    exact publish_entry n (n.remembers f.tripRequest) .sectionRequest

end Sys2Proof.Machine
end

section
/-!
SUPPORT. The readings of a valid report: the holdup and the capacities (8.1, R54, R78, R79).
-/

namespace Sys2Proof.Machine

/-- A report that carries readings alone beside its flags, which move nothing (R145). -/
theorem readingsArrival {sdi : List Bool} {bytes : List Byte} {s : State} {e : Exchange} {c : Station} {r : Report}
    (spells : Spells sdi bytes) (ends : s.Ends e c) (parsed : parseReport bytes = some r) (acks : r.acks = [])
    (directive : r.directive = none) (config : r.config = none) (h : s.Unmoved r.flags) :
    exec (.reportArrival sdi) s
      = .next (((s.afterReport e c r.flags).remembers r.flags.tripRequest).takeReadings r) := by
  rw [reportArrival_eq spells ends, parsed]
  dsimp only
  rw [takeParts_readings directive config, takeFlags_unmoved s e c r acks h]

/-- Before the lock no reading is taken (R183). -/
theorem takeReadings_unlocked {s : State} (r : Report) (h : s.cs.locked = false) : s.takeReadings r = s := by
  unfold State.takeReadings
  rw [h]
  rfl

theorem takeReadings_holdup {s : State} {r : Report} {n : Nat} (h : s.cs.locked = true) (holdup : r.holdup = some n)
    (capacity : r.capacity = none) : s.takeReadings r = s.publish (s.takeHoldup n) := by
  unfold State.takeReadings
  rw [h, holdup, capacity]
  rfl

theorem takeReadings_capacity {s : State} {r : Report} {b : Byte} {n : Nat} (h : s.cs.locked = true)
    (holdup : r.holdup = none) (capacity : r.capacity = some (b, n)) :
    s.takeReadings r = s.publish (s.takeCapacity b n) := by
  unfold State.takeReadings
  rw [h, holdup, capacity]
  rfl

/-! ### The holdup (R54, R62) -/

theorem mismatches_iff (c : Settings) (holdup reading : Nat) : mismatches c holdup reading
    = decide ((60 * c.mismatchBand : Int) < |((60 * reading : Nat) : Int) - holdup|) := by
  unfold mismatches
  refine decide_eq_decide.mpr ?_
  rcases Nat.le_total holdup (60 * reading) with k | k
  · rw [abs_of_nonneg (by omega)]
    omega
  · rw [abs_of_nonpos (by omega)]
    omega

/-- A holdup reading replaces the estimate and counts for the DRAINING completion (R15, R54, R62). -/
theorem takeHoldup_eq (s : State) (h : Nat) : s.takeHoldup h = { s with
    tu := { s.tu with
      holdup := 60 * h
      mismatch := decide ((60 * s.cs.set.mismatchBand : Int) < |((60 * h : Nat) : Int) - s.tu.holdup|)
      runoutDone := s.tu.runoutDone && !(s.ps.phase = .runOut && s.cs.set.hDr < h) }
    ps := { s.ps with drainReading := if s.ps.phase = .draining then some h else s.ps.drainReading } } := by
  have above : decide (s.cs.set.hDr * 60 < h * 60) = decide (s.cs.set.hDr < h) :=
    decide_eq_decide.mpr (Nat.mul_lt_mul_right (by decide))
  unfold State.takeHoldup
  dsimp only
  rw [mismatches_iff, above, Nat.mul_comm h 60]

/-! ### The capacities (R78, R79) -/

/-- The state with the reading of a resource kept. -/
def State.reading (s : State) (r : Resource) (n : Nat) : State :=
  { s with au := { s.au with res := s.au.res.set r { s.au.res.get r with reading := some n } } }

theorem reading_res (s : State) (r x : Resource) (n : Nat) : (s.reading r n).au.res.get x
    = if x = r then { s.au.res.get r with reading := some n } else s.au.res.get x := by
  unfold State.reading
  split
  · rename_i same
    rw [same, PerRes.get_set_self]
  · exact PerRes.get_set_ne _ _ ‹_›

theorem reading_published (s : State) (r x : Resource) (n : Nat) (h : x ≠ r ∨ s.ps.phase ≠ .running
    ∨ (s.au.res.get r).reading.getD 0 = n) : (s.reading r n).publishedCapacity x = s.publishedCapacity x := by
  change (if s.cs.set.provider.get x && decide (s.ps.phase = .running) then
    ((s.reading r n).au.res.get x).reading.getD 0 else 0) = _
  unfold State.publishedCapacity
  rw [reading_res]
  by_cases same : x = r
  · rw [if_pos same]
    subst same
    rcases h with h | h | h
    · exact (h rfl).elim
    · simp [h]
    · rw [h]
      rfl
  · rw [if_neg same]

/-- A reading that changes no published capacity changes nothing that the node publishes. -/
theorem reading_own (s : State) (r : Resource) (n : Nat) (h : s.ps.phase ≠ .running
    ∨ (s.au.res.get r).reading.getD 0 = n) : (s.reading r n).ownEntry = s.ownEntry := by
  have holdings : (PerRes.of fun x => some ((s.reading r n).au.res.get x).holding)
      = PerRes.of fun x => some (s.au.res.get x).holding := by
    refine congrArg PerRes.of (funext fun x => ?_)
    rw [reading_res]
    split
    · rename_i same
      rw [same]
    · rfl
  have capacities : (PerRes.of fun x => if s.cs.set.provider.get x then some ((s.reading r n).publishedCapacity x) else none)
      = PerRes.of fun x => if s.cs.set.provider.get x then some (s.publishedCapacity x) else none := by
    refine congrArg PerRes.of (funext fun x => ?_)
    rw [reading_published s r x n (.inr h)]
  exact congrArg₂ (fun a b => { s.ownEntry with holdings := a, capacities := b }) holdings capacities

/-- A capacity reading of a provider resource is kept; a change of the published capacity is a change report. -/
theorem takeCapacity_provider {s : State} {r : Resource} {b : Byte} (n : Nat) (hb : r.code = b.toNat)
    (h : s.cs.set.provider.get r = true) : s.takeCapacity b n
      = if (s.reading r (min 4000 n)).publishedCapacity r = s.publishedCapacity r then s.reading r (min 4000 n)
        else (s.reading r (min 4000 n)).capacityChanged r := by
  unfold State.takeCapacity
  rw [← hb, resource_ofCode]
  dsimp only
  rw [if_pos h]
  rfl

/-- One of a resource that the node does not provide is ignored. -/
theorem takeCapacity_foreign {s : State} {r : Resource} {b : Byte} (n : Nat) (hb : r.code = b.toNat)
    (h : s.cs.set.provider.get r = false) : s.takeCapacity b n = s := by
  unfold State.takeCapacity
  rw [← hb, resource_ofCode]
  dsimp only
  rw [h]
  rfl

/-- One whose resource byte names none is ignored (log 36). -/
theorem takeCapacity_unnamed {s : State} {b : Byte} (n : Nat) (h : 3 < b.toNat) : s.takeCapacity b n = s := by
  have none : Resource.ofCode b.toNat = none := by
    unfold Resource.ofCode
    split <;> first | rfl | omega
  unfold State.takeCapacity
  rw [none]

/-- The long due mark of a capacity that has left the deadband (R79). -/
theorem markLong_called {s : State} (p : Prop) [Decidable p] (h : s.cs.locked = true) :
    ∃ again, (if p then s.markLong else s)
      = { s with lc := { s.lc with longDue := s.lc.longDue || decide p, longAgain := again } } := by
  by_cases k : p
  · refine ⟨s.lc.longAgain || s.lc.noticeInTransmission, ?_⟩
    unfold State.markLong
    simp only [k, h, if_true, decide_true, Bool.or_true]
    rfl
  · refine ⟨s.lc.longAgain, ?_⟩
    simp only [k, if_false, decide_false, Bool.or_false]

theorem capacityCalls_iff (s : State) (r : Resource) : s.capacityCalls r = true
    ↔ (s.cs.set.capacityDeadband : Int) < |(s.publishedCapacity r : Int) - (s.au.res.get r).longCapacity| := by
  unfold State.capacityCalls
  rw [decide_eq_true_eq]
  rcases Nat.le_total (s.au.res.get r).longCapacity (s.publishedCapacity r) with k | k
  · rw [abs_of_nonneg (by omega)]
    omega
  · rw [abs_of_nonpos (by omega)]
    omega

/-- Settles O52, reading by reading. -/
theorem readingsAreTaken : Obligations.ReadingsAreTaken := by
  intro sdi bytes f s v e c spells ends still hv
  refine ⟨fun h parsed => ?_, fun b n parsed => ?_⟩
  · have run := readingsArrival spells ends parsed rfl rfl rfl still
    change exec _ s = .next (((s.afterReport e c f).remembers f.tripRequest).takeReadings _) at run
    rw [← hv] at run
    have locks : v.cs = s.cs := by rw [hv]; rfl
    refine ⟨fun hl => ?_, fun hl calm => ⟨_, run, ?_⟩⟩
    · rw [run, takeReadings_unlocked _ (by rw [locks]; exact hl)]
    · rw [takeReadings_holdup (by rw [locks]; exact hl) rfl rfl, takeHoldup_eq]
      subst hv
      exact publish_noted _ _ calm
  · have run := readingsArrival spells ends parsed rfl rfl rfl still
    change exec _ s = .next (((s.afterReport e c f).remembers f.tripRequest).takeReadings _) at run
    rw [← hv] at run
    have locks : v.cs = s.cs := by rw [hv]; rfl
    have ignored : (v.cs.locked = true → v.takeCapacity b n = v) → exec (.reportArrival sdi) s = .next v := fun k => by
      rw [run]
      cases hl : v.cs.locked with
      | false => rw [takeReadings_unlocked _ hl]
      | true => rw [takeReadings_capacity hl rfl rfl, k hl, publish_self]
    refine ⟨fun hl => ignored fun k => ?_, fun hb => ignored fun _ => takeCapacity_unnamed n hb,
      fun r hl hb => ⟨fun hp => ignored fun _ => takeCapacity_foreign n hb (by rw [locks]; exact hp), fun a hp ha => ?_⟩⟩
    · rw [locks, hl] at k
      exact nomatch k
    · have whole : exec (.reportArrival sdi) s = .next (v.publish (if (v.reading r (min 4000 n)).publishedCapacity r
          = v.publishedCapacity r then v.reading r (min 4000 n) else (v.reading r (min 4000 n)).capacityChanged r)) := by
        rw [run, takeReadings_capacity (by rw [locks]; exact hl) rfl rfl,
          takeCapacity_provider n hb (by rw [locks]; exact hp)]
      have kept : v.au = s.au ∧ v.ps = s.ps ∧ v.lc = s.lc := by rw [hv]; exact ⟨rfl, rfl, rfl⟩
      obtain ⟨au, ps, lc⟩ := kept
      have form : ({ v with au := { v.au with res := v.au.res.set r a } } : State) = v.reading r (min 4000 n) := by
        rw [ha, ← au]
        rfl
      refine ⟨fun same => ?_, fun running differs ready => ?_⟩
      · have same' : v.ps.phase ≠ .running ∨ (v.au.res.get r).reading.getD 0 = min 4000 n := by rw [ps, au]; exact same
        rw [whole, if_pos (reading_published v r r _ (.inr same')), publish_own _ _ (reading_own v r _ same'), form]
      · let k : State := v.reading r (min 4000 n)
        have provided : (v.cs.set.provider.get r && decide (v.ps.phase = .running)) = true := by
          rw [locks, ps, hp, running]
          rfl
        have now : k.publishedCapacity r = min 4000 n := by
          change (if v.cs.set.provider.get r && decide (v.ps.phase = .running) then (k.au.res.get r).reading.getD 0
            else 0) = _
          rw [if_pos provided, reading_res, if_pos rfl]
          rfl
        have before : v.publishedCapacity r = (s.au.res.get r).reading.getD 0 := by
          unfold State.publishedCapacity
          rw [if_pos provided, au]
        have old : (k.au.res.get r).longCapacity = (s.au.res.get r).longCapacity := by
          rw [reading_res, if_pos rfl, au]
        obtain ⟨again, marked⟩ := markLong_called (s := k) (k.capacityCalls r = true) (by
          change v.cs.locked = true
          rw [locks]
          exact hl)
        let m : State := { k with lc := { k.lc with
          longDue := k.lc.longDue || decide (k.capacityCalls r = true), longAgain := again } }
        have mready : m.ReportReady := by
          subst hv
          exact ready
        have changed : k.capacityChanged r = m.allotReport fun x => x = r :=
          congrArg (fun t : State => t.allotReport fun x => x = r) marked
        obtain ⟨taken, wready⟩ := allotReport_taken m (fun x => x = r) mready
        obtain ⟨x, told, noted⟩ := publish_told v _ wready
        refine ⟨m, _, x, _, ?_, ?_, ?_, told, noted⟩
        · rw [whole, if_neg (by rw [now, before]; exact fun q => differs q.symm), changed]
        · have due : (k.lc.longDue || decide (k.capacityCalls r = true)) = (s.lc.longDue
              || decide ((s.cs.set.capacityDeadband : Int)
                < |((min 4000 n : Nat) : Int) - (s.au.res.get r).longCapacity|)) := by
            simp only [capacityCalls_iff, now, old]
            change (v.lc.longDue || _) = _
            rw [lc, ← locks]
            rfl
          exact congrArg₂ (fun (q : AU) (d : Bool) =>
            ({ v with au := q, lc := { v.lc with longDue := d, longAgain := again } } : State))
            (congrArg State.au form).symm due
        · have names : (fun x : Resource => decide (x = r) = true) = fun y => y = r := by
            funext x
            simp
          rw [← names]
          exact taken

end Sys2Proof.Machine
end

section
/-!
SUPPORT. The completion of FILLING and DRAINING by the event that brings its last condition (R14, R15, R28, R123).
-/

namespace Sys2Proof.Machine

/-! ### The completion test (R14, R15) -/

/-- The conditions of a completion: its phase, and the sequencer with the phase's maximum timer stopped. -/
def State.Finished (u : State) (p : Phase) (q : PS) : Prop :=
  p = .filled ∧ u.ps.phase = .filling ∧ u.shows ReportFlags.filled = true ∧ q = { u.ps with fillMax := none }
    ∨ p = .drained ∧ u.ps.phase = .draining ∧ u.shows ReportFlags.drained = true
      ∧ u.ps.drainReading.getD 0 ≤ u.cs.set.hDr ∧ q = { u.ps with drainMax := none }

/-- The completion requested: its SET_PHASE waits at the section port. -/
def State.completing (u : State) (r : SlotRec) (p : Phase) (q : PS) : State :=
  { u with
    ps := { q with slot := some { r with stage := .waitIssue } }, sp := { u.sp with psReq := some (p, .completion) } }

/-- Its SET_PHASE issued: the state from which the phase changes. -/
def State.completed (u : State) (p : Phase) (q : PS) : State :=
  { u with
    ps := { q with slot := none, waiting := ⟨false, false, false, false⟩ }
    au := { u.au with res := .of fun x => { u.au.res.get x with raised := none } }
    sp := u.sp.issued u.cs.set (.setPhase p .completion) }

/-- The completion test finds its conditions met. -/
theorem testCompletion_met {u : State} {r : SlotRec} {p : Phase} {q : PS} (slot : u.ps.slot = some r)
    (stage : r.stage = .waitCompletion) (clear : u.ps.frozen = false)
    (handoff : r.handoff = .notNeeded ∨ r.handoff = .fulfilled) (h : u.Finished p q) :
    u.testCompletion = (u.completing r p q).arbitrate := by
  have fulfilled : r.handoff.fulfils = true := (fulfils_iff r.handoff).2 handoff
  unfold State.testCompletion
  rw [slot]
  rcases h with ⟨rfl, phase, shown, rfl⟩ | ⟨rfl, phase, shown, low, rfl⟩
  · have done : u.fillingDone r = true := by simp [State.fillingDone, phase, shown, fulfilled]
    simp only [stage, clear, done]
    rfl
  · have notFilling : u.fillingDone r = false := by simp [State.fillingDone, phase]
    have done : u.drainingDone r = true := by simp [State.drainingDone, phase, shown, fulfilled, low]
    simp only [stage, clear, done, notFilling]
    rfl

/-- With nothing outstanding the SET_PHASE issues, the phase changes and DONE goes out (R14, R15). -/
theorem completing_issues {u : State} {r : SlotRec} {p : Phase} {q : PS} (quiet : u.sp.Quiet)
    (empty : u.sp.outstanding = []) :
    (u.completing r p q).arbitrate = ((u.completed p q).changePhase p .none).reply r.requester .done := by
  have cleared : { u.sp with psReq := none } = u.sp := by
    have phase := quiet.phase
    generalize u.sp = x at phase
    cases x
    cases phase
    rfl
  have issued : (u.completing r p q).issueNext = ((u.completed p q).changePhase p .none).reply r.requester .done := by
    have ahead : u.completed p q = { u.completing r p q with
        sp := { (u.completing r p q).sp with psReq := none }.issued (u.completing r p q).cs.set
          (.setPhase p .completion)
        ps := { (u.completing r p q).ps with slot := none, waiting := ⟨false, false, false, false⟩ }
        au := { (u.completing r p q).au with res := .of fun x =>
          { (u.completing r p q).au.res.get x with raised := none } } } :=
      congrArg (fun x : SP => { u.completed p q with sp := x.issued u.cs.set (.setPhase p .completion) }) cleared.symm
    rw [issueNext_completion (s := u.completing r p q) empty quiet.trip rfl rfl, ahead]
  refine arbitrate_once issued ?_
  rw [reply_sp, (changePhase_blocks (u.completed p q) p .none).2.2.1]
  rfl

/-- Otherwise it waits (R151). -/
theorem completing_waits {u : State} {r : SlotRec} {p : Phase} {q : PS} (full : u.sp.outstanding ≠ []) :
    (u.completing r p q).arbitrate = u.completing r p q :=
  arbitrate_full _ full (.inr (.inr (.inl nofun)))

/-- The slot after a completion: empty, or its transition at WAIT_ISSUE; no later test of the event moves it. -/
theorem completed_slot {u : State} {r : SlotRec} {p : Phase} {q : PS} (quiet : u.sp.Quiet) :
    (u.completing r p q).arbitrate.ps.slot = none
      ∨ (u.completing r p q).arbitrate.ps.slot = some { r with stage := .waitIssue } := by
  by_cases empty : u.sp.outstanding = []
  · refine .inl ?_
    rw [completing_issues quiet empty]
    have kept : ∀ x : State, (x.reply r.requester .done).ps = x.ps := fun x => by
      cases r.requester <;> rfl
    rw [kept, (changePhase_blocks (u.completed p q) p .none).1]
    rfl
  · refine .inr ?_
    rw [completing_waits empty]
    rfl

/-! ### The completion's outcome -/

/-- A phase change that ends with one DONE, and a reply more, once published. -/
theorem publish_phaseTwice {s u : State} {p : Phase} {e : EntryInfo} (a b : Requester) (hs : u.ps.slot = none) :
    PhaseEntered u (s.publish ((((u.changePhase p e).reply a .done)).reply b .taken)) p e (u.changePhase p e).sp
      ∧ DeliveredTwice u (s.publish ((((u.changePhase p e).reply a .done)).reply b .taken)) a .done b .taken := by
  obtain ⟨ps, _, port, _, _, du⟩ := changePhase_blocks u p e
  obtain ⟨_, fifo, overflow, _⟩ := changePhase_line u p e
  have entered := changePhase_entered u p e
  rw [← port] at entered
  generalize u.changePhase p e = x at ps du fifo overflow entered
  have form := replyWith_eq x a .done 0
  obtain ⟨kept, short, told⟩ := replyWith_line x a .done 0
  change x.reply a .done = (x.setDu (x.reply a .done).du).setLc (x.reply a .done).lc at form
  change LineKept _ (x.reply a .done).lc at kept
  change (x.reply a .done).lc.shortDue = _ at short
  change Delivered _ _ (x.reply a .done).du (x.reply a .done).lc _ _ _ at told
  generalize x.reply a .done = y at form kept short told
  have form' := replyWith_eq y b .taken 0
  obtain ⟨kept', short', told'⟩ := replyWith_line y b .taken 0
  change y.reply b .taken = (y.setDu (y.reply b .taken).du).setLc (y.reply b .taken).lc at form'
  change LineKept _ (y.reply b .taken).lc at kept'
  change (y.reply b .taken).lc.shortDue = _ at short'
  change Delivered _ _ (y.reply b .taken).du (y.reply b .taken).lc _ _ _ at told'
  generalize y.reply b .taken = z at form' kept' short' told'
  have zsp : z.sp = x.sp := by rw [form', form]; rfl
  have calm : z.atStage .waitPrereq = false := by
    have slot : z.ps.slot = none := by rw [form', form]; change x.ps.slot = none; rw [ps]; exact hs
    simp [State.atStage, slot]
  obtain ⟨final, fdu, ffifo, foverflow⟩ := publish_phase (s := s) (y := z) entered (kept.trans kept')
    (by rw [form', form]; rfl) (short'.trans short) (by rw [zsp]) calm
  refine ⟨zsp ▸ final, y.du, y.lc, told.congr du.symm rfl fifo.symm overflow.symm rfl rfl,
    told'.congr rfl fdu rfl rfl ffifo foverflow⟩

/-- The maximum timer alone is stopped. -/
theorem Finished.phase {u : State} {p : Phase} {q : PS} (h : u.Finished p q) : q.phase = u.ps.phase := by
  rcases h with ⟨-, -, -, rfl⟩ | ⟨-, -, -, -, rfl⟩ <;> rfl

/-- The completion of an event that tells no other requester. -/
theorem completed_alone {s u : State} {r : SlotRec} {p : Phase} {q : PS} (h : u.Finished p q) (quiet : u.sp.Quiet)
    (hd : u.du = s.du) (hl : u.lc = s.lc) : Completed s u (s.publish (u.completing r p q).arbitrate) r p q none := by
  refine ⟨fun empty => ?_, fun full => ?_⟩
  · rw [completing_issues quiet empty]
    obtain ⟨entered, told⟩ := publish_phaseDone (s := s) (u := u.completed p q) (p := p) (e := .none)
      (sp := ((u.completed p q).changePhase p .none).sp) r.requester rfl rfl
    have same : ((u.completed p q).changePhase p .none).setSp ((u.completed p q).changePhase p .none).sp
        = (u.completed p q).changePhase p .none := rfl
    rw [same] at entered told
    have stopped : q.phase = u.ps.phase := Finished.phase h
    have phase : (u.completed p q).ps.phase = u.ps.phase := stopped
    rw [(changePhase_blocks (u.completed p q) p .none).2.2.1, phase] at entered
    have du : (u.completed p q).du = s.du := hd
    have lc : (u.completed p q).lc = s.lc := hl
    rw [du, lc] at told
    exact ⟨entered, told⟩
  · rw [completing_waits full]
    exact publish_noted s (u.completing r p q) rfl

/-- The completion of an event that tells another requester TAKEN (log 42). -/
theorem completed_with {s u : State} {r : SlotRec} {p : Phase} {q : PS} (y : Requester) (h : u.Finished p q)
    (quiet : u.sp.Quiet) (hd : u.du = s.du) (hl : u.lc = s.lc) (hc : u.cs = s.cs) :
    Completed s u (s.publish ((u.completing r p q).arbitrate.reply y .taken)) r p q (some y) := by
  refine ⟨fun empty => ?_, fun full => ?_⟩
  · rw [completing_issues quiet empty]
    obtain ⟨entered, d, l, first, second⟩ := publish_phaseTwice (s := s) (u := u.completed p q) (p := p) (e := .none)
      r.requester y rfl
    have stopped : q.phase = u.ps.phase := Finished.phase h
    have phase : (u.completed p q).ps.phase = u.ps.phase := stopped
    rw [(changePhase_blocks (u.completed p q) p .none).2.2.1, phase] at entered
    have du : (u.completed p q).du = s.du := hd
    have lc : (u.completed p q).lc = s.lc := hl
    rw [du, lc] at first
    exact ⟨entered, d, l, first, second⟩
  · rw [completing_waits full]
    exact publish_replied s (u.completing r p q) y .taken 0 hl hd hc rfl

/-! ### The events (R120, R122, R145) -/

/-- The end of a blocking handoff fulfils the condition of the transition in the slot (R123). -/
theorem fulfilHandoff_eq (s : State) :
    s.fulfilHandoff = { s with ps := { s.ps with slot := s.ps.slot.map SlotRec.fulfil } } := by
  unfold State.fulfilHandoff
  cases hs : s.ps.slot with
  | none =>
    change s = _
    rw [Option.map_none, ← hs]
  | some r =>
    dsimp only [Option.map_some]
    unfold SlotRec.fulfil
    by_cases e : r.handoff = .awaiting
    · rw [if_pos e, if_pos e]
      rfl
    · rw [if_neg e, if_neg e, ← hs]

/-- A handoff that ends with the last condition: nothing waits for the record it leaves. -/
theorem handoffEnded_completes {x u : State} {r : SlotRec} {p : Phase} {q : PS}
    (form : u = { x with ps := { x.ps with slot := x.ps.slot.map SlotRec.fulfil } }) (quiet : u.sp.Quiet)
    (slot : u.ps.slot = some r) (stage : r.stage = .waitCompletion) (clear : u.ps.frozen = false)
    (handoff : r.handoff = .notNeeded ∨ r.handoff = .fulfilled) (h : u.Finished p q) :
    x.handoffEnded true = (u.completing r p q).arbitrate := by
  unfold State.handoffEnded
  rw [if_pos rfl, fulfilHandoff_eq, ← form, testCompletion_met slot stage clear handoff h]
  have left := completed_slot (u := u) (r := r) (p := p) (q := q) quiet
  generalize (u.completing r p q).arbitrate = z at left
  unfold State.pollHandoff
  rcases left with left | left <;> simp [left]

/-- The trip request memory is no matter of a completion. -/
theorem Completed.remembers {s u t : State} {r : SlotRec} {p : Phase} {q : PS} (h : Completed s u t r p q none)
    (flag : Bool) : Completed s (u.remembers flag) (t.remembers flag) r p q none := by
  obtain ⟨issued, waits⟩ := h
  refine ⟨fun empty => ?_, fun full => Noted.remembers (waits full) flag⟩
  obtain ⟨entered, told⟩ := issued empty
  refine ⟨⟨?_, entered.causes, entered.cells, entered.standing, entered.line, entered.marks⟩, told⟩
  rw [entered.kept]
  rfl

/-- The phase of a completion's event: the completed phase, or the one that still waits for its SET_PHASE. -/
theorem completed_phase {u : State} {r : SlotRec} {p : Phase} {q : PS} (h : u.Finished p q) (quiet : u.sp.Quiet) :
    (u.completing r p q).arbitrate.ps.phase ≠ .hold ∧ (u.completing r p q).arbitrate.ps.phase ≠ .banked := by
  have either : (u.completing r p q).arbitrate.ps.phase = p ∨ (u.completing r p q).arbitrate.ps.phase = u.ps.phase := by
    by_cases empty : u.sp.outstanding = []
    · refine .inl ?_
      rw [completing_issues quiet empty]
      have kept : ∀ x : State, (x.reply r.requester .done).ps = x.ps := fun x => by
        cases r.requester <;> rfl
      rw [kept, (changePhase_blocks (u.completed p q) p .none).1]
      rfl
    · refine .inr ?_
      rw [completing_waits empty]
      exact (Finished.phase h : q.phase = u.ps.phase)
  rcases h with ⟨rfl, phase, -⟩ | ⟨rfl, phase, -⟩
  · rcases either with e | e
    · exact ⟨by rw [e]; nofun, by rw [e]; nofun⟩
    · exact ⟨by rw [e, phase]; nofun, by rw [e, phase]; nofun⟩
  · rcases either with e | e
    · exact ⟨by rw [e]; nofun, by rw [e]; nofun⟩
    · exact ⟨by rw [e, phase]; nofun, by rw [e, phase]; nofun⟩

/-- Its transition is past its tests. -/
theorem completed_unfinished {u : State} {r : SlotRec} {p : Phase} {q : PS} (quiet : u.sp.Quiet) :
    (u.completing r p q).arbitrate.Unfinished ∧ (u.completing r p q).arbitrate.atStage .waitPrereq = false := by
  unfold State.atStage
  rcases completed_slot (r := r) (p := p) (q := q) quiet with left | left
  · exact ⟨fun x hx => (nomatch left.symm.trans hx), by rw [left]⟩
  · exact ⟨unfinished_other left nofun, by rw [left]; rfl⟩

/-- A completion leaves the trip request memory. -/
theorem Completed.memory {s u t : State} {r : SlotRec} {p : Phase} {q : PS} (h : Completed s u t r p q none) :
    t.tr.memory = u.tr.memory := by
  by_cases empty : u.sp.outstanding = []
  · rw [(h.1 empty).1.kept]
  · rw [(h.2 empty).1]

/-- The completion that the flags of a report bring, the overlay clear (R145). -/
theorem takeStanding_completes {n : State} {r : SlotRec} {p : Phase} {q : PS} {f : ReportFlags}
    (freeze : f.freeze = n.ps.frozen) (quiet : n.sp.Quiet) (slot : n.ps.slot = some r)
    (stage : r.stage = .waitCompletion) (clear : n.ps.frozen = false)
    (handoff : r.handoff = .notNeeded ∨ r.handoff = .fulfilled) (h : n.Finished p q)
    (request : f.tripRequest = true → n.tr.memory = true) :
    Completed n (n.remembers f.tripRequest) (n.takeStanding f) r p q none := by
  have done := completed_alone (s := n) (r := r) h quiet rfl rfl
  have turned : ((n.completing r p q).arbitrate).takeSelfTurnover f.selfTurnover = (n.completing r p q).arbitrate :=
    takeSelfTurnover_idle fun _ => completed_phase h quiet
  unfold State.takeStanding
  rw [takeFreeze_same freeze, publish_self]
  dsimp only
  rw [testCompletion_met slot stage clear handoff h, turned,
    takeTripRequest_remembered fun on => (Completed.memory done).trans (request on), publish_remembers]
  exact Completed.remembers done _

/-- What the clearing of the overlay re-examines once a completion has come: no request holds in FILLING and DRAINING,
nor in the phases they lead to (R4, R28). -/
theorem reexamine_completed {x u : State} {r : SlotRec} {p : Phase} {q y : PS} (clear : x.ps.frozen = false)
    (quiet : x.sp.Quiet) (hx : x.Finished p y) (hu : u.Finished p q)
    (form : u = { x with ps := { x.ps with waiting := ⟨false, false, false, false⟩ } }) :
    (x.completing r p y).arbitrate.reexamine = (u.completing r p q).arbitrate := by
  have quiet' : u.sp.Quiet := by rw [form]; exact quiet
  have same : q = { y with waiting := ⟨false, false, false, false⟩ } := by
    subst form
    rcases hx with ⟨rfl, -, -, rfl⟩ | ⟨rfl, -, -, -, rfl⟩
    · rcases hu with ⟨-, -, -, rfl⟩ | ⟨e, -⟩
      · rfl
      · exact nomatch e
    · rcases hu with ⟨e, -⟩ | ⟨-, -, -, -, rfl⟩
      · exact nomatch e
      · rfl
  have frozen : y.frozen = x.ps.frozen := by
    rcases hx with ⟨-, -, -, rfl⟩ | ⟨-, -, -, -, rfl⟩ <;> rfl
  by_cases empty : x.sp.outstanding = []
  · have ahead : u.completed p q = x.completed p y := by
      rw [form, same]
      rfl
    rw [completing_issues quiet empty, completing_issues quiet' (by rw [form]; exact empty), ahead]
    have kept : ∀ z : State, (z.reply r.requester .done).ps = z.ps := fun z => by
      cases r.requester <;> rfl
    have ps : (((x.completed p y).changePhase p .none).reply r.requester .done).ps
        = (x.completed p y).ps.enter x.cs.set x.now p .none := by
      rw [kept, (changePhase_blocks (x.completed p y) p .none).1]
      rfl
    generalize ((x.completed p y).changePhase p .none).reply r.requester .done = z at ps
    have phase : z.ps.phase = p := by rw [ps]; rfl
    have slot : z.ps.slot = none := by rw [ps]; rfl
    have waiting : z.ps.waiting = ⟨false, false, false, false⟩ := by rw [ps]; rfl
    have thawed : z.ps.frozen = false := by
      rw [ps]
      exact frozen.trans clear
    have held : z.autoHoldStands = false := by
      unfold State.autoHoldStands
      rw [phase]
      rcases hx with ⟨rfl, -⟩ | ⟨rfl, -⟩ <;> simp [Phase.underRate]
    have given : z.reexamine = z.giveSlot := by
      unfold State.reexamine
      rw [thawed, slot]
      rfl
    have none : z.giveSlot = z.setWaiting ⟨false, false, false, false⟩ := by
      have forced : z.forcedValid = false := by simp [State.forcedValid, waiting]
      have drain : z.closeDrainValid = false := by simp [State.closeDrainValid, waiting]
      have resume : z.autoResumeValid = false := by simp [State.autoResumeValid, waiting]
      unfold State.giveSlot
      simp only [forced, drain, held, resume, Bool.false_eq_true, if_false]
    rw [given, none, ← waiting]
    rfl
  · rw [completing_waits empty, completing_waits (by rw [form]; exact empty)]
    have phase : y.phase = x.ps.phase := Finished.phase hx
    have filling : x.ps.phase = .filling ∨ x.ps.phase = .draining := by
      rcases hx with ⟨-, e, -⟩ | ⟨-, e, -⟩
      · exact .inl e
      · exact .inr e
    have occupied : (x.completing r p y).reexamine = (x.completing r p y).sift := by
      have thawed : (x.completing r p y).ps.frozen = false := frozen.trans clear
      have slotted : (x.completing r p y).ps.slot = some { r with stage := .waitIssue } := rfl
      unfold State.reexamine
      rw [thawed, slotted]
      rfl
    have none : (⟨(x.completing r p y).forcedValid, (x.completing r p y).closeDrainValid,
        (x.completing r p y).autoHoldStands && ((x.completing r p y).ps.waiting.autoHold
          || !(x.completing r p y).ps.holdsAutoHold), (x.completing r p y).autoResumeValid⟩ : Waiting)
        = ⟨false, false, false, false⟩ := by
      have now : (x.completing r p y).ps.phase = x.ps.phase := phase
      unfold State.forcedValid State.closeDrainValid State.autoResumeValid State.autoHoldStands
      rw [now]
      rcases filling with e | e <;> simp [e, Phase.inHold, Phase.underRate]
    rw [occupied]
    unfold State.sift
    rw [none, form, same]
    rfl

/-- The completion that the clearing of the overlay brings (R28). -/
theorem takeStanding_thaws {n u : State} {r : SlotRec} {p : Phase} {q : PS} {f : ReportFlags}
    (off : f.freeze = false) (set : n.ps.frozen = true) (quiet : n.sp.Quiet) (slot : n.ps.slot = some r)
    (stage : r.stage = .waitCompletion) (handoff : r.handoff = .notNeeded ∨ r.handoff = .fulfilled)
    (form : u = { n with
      ps := { n.ps with frozen := false, freezeMax := none, waiting := ⟨false, false, false, false⟩ }
      tu := { n.tu with held := none } }) (h : u.Finished p q) (request : f.tripRequest = true → n.tr.memory = true) :
    Completed n (u.remembers f.tripRequest) (n.takeStanding f) r p q none := by
  let x : State := { n with ps := { n.ps with frozen := false, freezeMax := none }, tu := { n.tu with held := none } }
  have hx : ∃ y, x.Finished p y := by
    rw [form] at h
    rcases h with ⟨e, phase, shown, -⟩ | ⟨e, phase, shown, low, -⟩
    · exact ⟨_, .inl ⟨e, phase, shown, rfl⟩⟩
    · exact ⟨_, .inr ⟨e, phase, shown, low, rfl⟩⟩
  obtain ⟨y, hy⟩ := hx
  have quiet' : u.sp.Quiet := by rw [form]; exact quiet
  have resumed : x.resumeSlot = (x.completing r p y).arbitrate := by
    have slot' : x.ps.slot = some r := slot
    have list : x.pollList = x := by
      unfold State.pollList
      simp [slot', stage]
    unfold State.resumeSlot
    rw [list, pollClaim_other slot' (by simp [stage]), pollHandoff_other slot' (by simp [stage]),
      testCompletion_met slot' stage rfl handoff hy]
  have taken : n.takeFreeze f.freeze = (u.completing r p q).arbitrate := by
    have thawed : n.takeFreeze f.freeze = x.resumeSlot.reexamine := by
      unfold State.takeFreeze
      rw [off, set]
      rfl
    rw [thawed, resumed]
    exact reexamine_completed rfl quiet hy h (by rw [form])
  have done := completed_alone (s := n) (r := r) h quiet' (by rw [form]) (by rw [form])
  obtain ⟨rests, calm⟩ := completed_unfinished (r := r) (p := p) (q := q) quiet'
  have noted := publish_noted n _ calm
  have turnover := completed_phase (r := r) h quiet'
  have memory := Completed.memory done
  rw [← taken] at done noted rests turnover memory
  have same : n.takeStanding f = (n.publish (n.takeFreeze f.freeze)).remembers f.tripRequest := by
    refine takeStanding_of rfl ?_ (fun _ => ?_) (fun on => ?_)
    · rw [noted.1]
      exact Unfinished.testCompletion rests
    · rw [noted.1]
      exact turnover
    · rw [memory, form]
      exact request on
  rw [same]
  exact Completed.remembers done _

/-- Settles O20, event by event. -/
theorem theLastConditionCompletesThePhase : Obligations.TheLastConditionCompletesThePhase := by
  intro c s u also r p q event quiet slot stage handoff finished
  have h : u.Finished p q := finished
  rcases event with ⟨src, y, w, rfl, admitted, record, waits, form, rfl⟩
    | ⟨a, b, y, x, rfl, hears, length, target, outcome, record, call, unit, tag, blocking, clear, form, rfl⟩
    | ⟨sdi, bytes, f, e, k, v, rfl, spells, ends, parsed, off, request, ahead, hv, overlay, rfl⟩
  · have clear : s.ps.frozen = false := by
      unfold State.admits at admitted
      cases hf : s.ps.frozen with
      | false => rfl
      | true => simp [hf, Directive.passesFreeze] at admitted
    have confirmable : s.hu.confirmWait = true := by
      unfold HU.confirmWait HandoffRec.confirmable
      rw [record]
      dsimp only
      rw [waits]
    have row : s.row (Source.requester src) (Source.authority src) .confirm
        = (u.completing r p q).arbitrate.reply (Source.requester src) .taken := by
      have ended : s.confirmed = (u.completing r p q).arbitrate :=
        handoffEnded_completes (x := s.setHu { s.hu with record := none, counitWait := false }) form
          (by rw [form]; exact quiet) slot stage (by rw [form]; exact clear) handoff h
      change s.rowConfirm _ = _
      unfold State.rowConfirm
      rw [if_pos confirmable, ended]
    refine ⟨_, exec_row (c := .confirm src) rfl admitted, ?_⟩
    rw [row]
    exact completed_with (Source.requester src) h (by rw [form]; exact quiet) (by rw [form]) (by rw [form]) (by rw [form])
  · have answered : s.takeHandoffDone a b = (u.completing r p q).arbitrate := by
      have ended := handoffEnded_completes (x := s.setHu { s.hu with
          record := none, counitWait := s.hu.counitWait && !y.point.blocking })
        (by rw [form, blocking, Bool.not_true, Bool.and_false]; rfl)
        (by rw [form]; exact quiet) slot stage (by rw [form]; exact clear) handoff h
      rw [takeHandoffDone_answers hears length target record call unit tag, if_pos outcome]
      unfold State.answerSuccess
      rw [← ended, blocking]
    refine ⟨_, rfl, ?_⟩
    rw [answered]
    exact completed_alone h (by rw [form]; exact quiet) (by rw [form]) (by rw [form])
  · let n : State := s.afterReport e k f
    have portQuiet : n.sp.Quiet := ⟨quiet.trip, quiet.phase, quiet.pair, quiet.recovery, quiet.turnover, quiet.rate⟩
    refine ⟨_, bareArrival_idle spells ends parsed (fun on => ⟨quiet, ahead on⟩), ?_⟩
    rcases overlay with ⟨clear, form⟩ | ⟨set, form⟩
    · subst form hv
      exact takeStanding_completes (n := n) (off.trans clear.symm) portQuiet slot stage clear handoff h request
    · subst hv
      let m : State := { n with
        ps := { n.ps with frozen := false, freezeMax := none, waiting := ⟨false, false, false, false⟩ }
        tu := { n.tu with held := none } }
      subst form
      exact takeStanding_thaws (n := n) (u := m) off set portQuiet slot stage handoff rfl h request

end Sys2Proof.Machine
end

section
/-!
SUPPORT. The clock on an empty queue: what a tick counts down and which expiries it queues (logs 1, 3 and 48).
-/

namespace Sys2Proof.Machine

/-! ### A tick (R184, 1.3) -/

/-- The tick of the seconds count is a second passed. -/
theorem second_eq (s : State) : s.second = s.aSecondLater := by
  have records : s.hu.record.map HandoffRec.tick = s.hu.record.map fun h => { h with state := match h.state with
      | .awaitDone d => .awaitDone (aSecondOn true d)
      | .confirmWait w => .confirmWait w } := by
    refine congrArg (fun f => s.hu.record.map f) (funext fun h => ?_)
    unfold HandoffRec.tick
    cases hs : h.state with
    | awaitDone d => rfl
    | confirmWait w =>
      dsimp only
      rw [← hs]
  exact congrArg (fun x => { s.aSecondLater with hu := { s.hu with record := x } }) records

theorem quarterSecond_eq {s u : State}
    (h : u = { s with quarter := s.quarter + 1, lc := { s.lc with spacing := aSecondOn true s.lc.spacing } }) :
    s.quarterSecond = if s.quarter = 3 then u.aSecondLater else u := by
  have fourth : ∀ q : Fin 4, q + 1 = 0 ↔ q = 3 := by decide
  subst h
  rw [← second_eq]
  exact if_congr (fourth s.quarter) rfl rfl

/-! ### The queue (log 3) -/

theorem enqueue_form (s : State) (i : Instr) :
    s.enqueue i = { s with pending := (s.enqueue i).pending, free := (s.enqueue i).free } := by
  unfold State.enqueue
  split <;> rfl

/-- An expiry joins the queue, wherever its place. -/
theorem mem_enqueue (s : State) (i c : Instr) : c ∈ (s.enqueue i).pending ↔ c = i ∨ c ∈ s.pending := by
  unfold State.enqueue
  split
  · rename_i empty
    simp [empty]
  · exact List.mem_insertIdx (Nat.le_of_lt_succ (Nat.mod_lt _ (Nat.succ_pos _)))

theorem enqueueAll_form (l : List Instr) (s : State) : l.foldl State.enqueue s
    = { s with pending := (l.foldl State.enqueue s).pending, free := (l.foldl State.enqueue s).free } := by
  induction l generalizing s with
  | nil => rfl
  | cons i l ih =>
    rw [List.foldl_cons, ih (s.enqueue i), enqueue_form s i]

theorem mem_enqueueAll (l : List Instr) (s : State) (c : Instr) :
    c ∈ (l.foldl State.enqueue s).pending ↔ c ∈ l ∨ c ∈ s.pending := by
  induction l generalizing s with
  | nil => simp
  | cons i l ih =>
    rw [List.foldl_cons, ih (s.enqueue i), mem_enqueue, List.mem_cons]
    tauto

/-! ### The expiries due (1.3) -/

theorem mem_dueIf {p : Bool} {i c : Instr} : c ∈ dueIf p i ↔ p = true ∧ c = i := by
  unfold dueIf
  cases p <;> simp

theorem due_iff (t : Timer) : t.due = true ↔ t = some 0 := by
  unfold Timer.due
  exact decide_eq_true_iff

/-- A row takes a cause that stands raised. -/
theorem mem_causeRows {l : List Cause} {c : Instr} : c ∈ l.filterMap Cause.row
    ↔ c = .fillTimeout ∧ .fillTimeout ∈ l ∨ c = .drainTimeout ∧ .drainTimeout ∈ l
      ∨ c = .turnoverTimerExpiry ∧ .stagnation ∈ l ∨ c = .underStandingTimeout ∧ .utilityLost ∈ l
      ∨ c = .portSilent ∧ .portSilent ∈ l := by
  rw [List.mem_filterMap]
  constructor
  · rintro ⟨x, mem, row⟩
    cases x <;> simp [Cause.row] at row <;> simp [← row, mem]
  · rintro (⟨rfl, mem⟩ | ⟨rfl, mem⟩ | ⟨rfl, mem⟩ | ⟨rfl, mem⟩ | ⟨rfl, mem⟩)
    all_goals exact ⟨_, mem, rfl⟩

/-- The expiries of a transition's timers. -/
theorem mem_expiries (r : SlotRec) (c : Instr) : c ∈ r.expiries
    ↔ c = .settleExpiry ∧ r.stage = .waitDwell ∧ r.settle = some 0
      ∨ c = .prereqDeadlineExpiry ∧ (r.stage = .waitDwell ∨ r.stage = .waitPrereq) ∧ r.deadline = some 0
      ∨ c = .claimDeadlineExpiry ∧ r.stage = .waitClaim ∧ r.deadline = some 0 := by
  simp only [SlotRec.expiries, SlotRec.settleDue, List.mem_append, mem_dueIf, Bool.and_eq_true, Bool.or_eq_true,
    decide_eq_true_eq, due_iff, or_assoc]
  tauto

theorem watchDue_iff (s : State) (w : Station × Nat) :
    s.watchDue w = true ↔ ∃ since, (s.entry w.1).phaseSince = some since ∧ w.2 ≤ s.age since := by
  unfold State.watchDue State.phaseAge
  cases (s.entry w.1).phaseSince <;> simp

theorem silenceDue_iff (s : State) (a : Station) : s.silenceDue a = true
    ↔ s.isOwn a = false ∧ (s.stored a).presence = .live
      ∧ ∃ h, (s.stored a).lastHeard = some h ∧ 3 * (s.stored a).statusPeriod.getD 10 < s.elapsed h := by
  unfold State.silenceDue PeerEntry.silenceLimit
  cases (s.stored a).lastHeard <;> simp [and_assoc]

/-- The timeout of an outstanding command of one kind has run down (R158). -/
def AckDue (l : List Outstanding) (k : Token) (kind : Command → Prop) : Prop :=
  ∃ o ∈ l, o.token = k ∧ o.left = some 0 ∧ kind o.command

/-- The acknowledgement timeouts due, each of its command's kind. -/
theorem mem_ackTimeouts (l : List Outstanding) (c : Instr) :
    c ∈ (l.filter fun o => o.left.due).map Outstanding.expiry
      ↔ (∃ k, c = .setPhaseAckTimeout k ∧ AckDue l k fun x => ∃ p w, x = .setPhase p w)
        ∨ (∃ k, c = .setRateAckTimeout k ∧ AckDue l k fun x => ∃ v b, x = .setRate v b)
        ∨ (∃ k, c = .turnoverAckTimeout k ∧ AckDue l k fun x => x = .turnover)
        ∨ (∃ k, c = .handoffWorkAckTimeout k ∧ AckDue l k fun x => ∃ w p a, x = .handoffWork w p a) := by
  simp only [List.mem_map, List.mem_filter, due_iff]
  constructor
  · rintro ⟨o, ⟨mem, left⟩, rfl⟩
    unfold Outstanding.expiry
    cases command : o.command with
    | setPhase p w => exact .inl ⟨_, rfl, o, mem, rfl, left, p, w, command⟩
    | setRate v b => exact .inr (.inl ⟨_, rfl, o, mem, rfl, left, v, b, command⟩)
    | turnover => exact .inr (.inr (.inl ⟨_, rfl, o, mem, rfl, left, command⟩))
    | handoffWork w p a => exact .inr (.inr (.inr ⟨_, rfl, o, mem, rfl, left, w, p, a, command⟩))
  · rintro (⟨k, rfl, o, mem, token, left, p, w, command⟩ | ⟨k, rfl, o, mem, token, left, v, b, command⟩
      | ⟨k, rfl, o, mem, token, left, command⟩ | ⟨k, rfl, o, mem, token, left, w, p, a, command⟩)
    all_goals exact ⟨o, ⟨mem, left⟩, by rw [Outstanding.expiry, command, token]⟩

theorem mem_ageWatches (s : State) (c : Instr) :
    c ∈ (s.pv.watches.filter s.watchDue).map (fun w => Instr.ageWatchExpiry w.1)
      ↔ ∃ a, c = .ageWatchExpiry a ∧ ∃ n since, (a, n) ∈ s.pv.watches ∧ (s.entry a).phaseSince = some since
        ∧ n ≤ s.age since := by
  simp only [List.mem_map, List.mem_filter, watchDue_iff]
  constructor
  · rintro ⟨⟨a, n⟩, ⟨mem, since, known, due⟩, rfl⟩
    exact ⟨a, rfl, n, since, mem, known, due⟩
  · rintro ⟨a, rfl, n, since, mem, known, due⟩
    exact ⟨(a, n), ⟨mem, since, known, due⟩, rfl⟩

theorem mem_silences (s : State) (c : Instr) : c ∈ (stations.filter s.silenceDue).map Instr.peerSilence
    ↔ ∃ a, c = .peerSilence a ∧ a ≠ 0 ∧ s.isOwn a = false ∧ (s.stored a).presence = .live
      ∧ ∃ h, (s.stored a).lastHeard = some h ∧ 3 * (s.stored a).statusPeriod.getD 10 < s.elapsed h := by
  have addresses : ∀ a : Station, a ∈ stations ↔ a ≠ 0 := by decide
  simp only [List.mem_map, List.mem_filter, silenceDue_iff, addresses]
  constructor
  · rintro ⟨a, ⟨pos, due⟩, rfl⟩
    exact ⟨a, rfl, pos, due⟩
  · rintro ⟨a, rfl, pos, due⟩
    exact ⟨a, ⟨pos, due⟩, rfl⟩

theorem handoffDue_iff (h : HandoffRec) : h.due = true ↔ h.state = .awaitDone (some 0) := by
  unfold HandoffRec.due
  cases h.state <;> simp [due_iff]

/-- The expiries that the freeze suspends (R28). -/
theorem mem_suspendable (s : State) (c : Instr) : c ∈ s.suspendable
    ↔ s.tu.interval = some 0 ∧ c = .rateIntervalExpiry ∨ s.tu.starveTimer = some 0 ∧ c = .starveTimerExpiry
      ∨ s.tu.blockTimer = some 0 ∧ c = .blockTimerExpiry ∨ s.ps.dwell = some 0 ∧ c = .dwellExpiry
      ∨ (∃ r, s.ps.slot = some r ∧ (c = .settleExpiry ∧ r.stage = .waitDwell ∧ r.settle = some 0
        ∨ c = .prereqDeadlineExpiry ∧ (r.stage = .waitDwell ∨ r.stage = .waitPrereq) ∧ r.deadline = some 0
        ∨ c = .claimDeadlineExpiry ∧ r.stage = .waitClaim ∧ r.deadline = some 0))
      ∨ s.ps.fillMax = some 0 ∧ c = .fillTimeout ∨ s.ps.drainMax = some 0 ∧ c = .drainTimeout
      ∨ s.ps.holdMax = some 0 ∧ c = .holdMaximumExpiry
      ∨ ∃ a, c = .ageWatchExpiry a ∧ ∃ n since, (a, n) ∈ s.pv.watches ∧ (s.entry a).phaseSince = some since
        ∧ n ≤ s.age since := by
  unfold State.suspendable
  cases s.ps.slot with
  | none => simp only [List.mem_append, mem_dueIf, due_iff, mem_ageWatches, or_assoc, reduceCtorEq, false_and,
      exists_false, false_or, List.not_mem_nil]
  | some r => simp only [List.mem_append, mem_dueIf, due_iff, mem_expiries, mem_ageWatches, or_assoc, Option.some.injEq,
      exists_eq_left']

/-- Those that run through it, and the causes that stand raised (log 45). -/
theorem mem_unsuspended (s : State) (c : Instr) : c ∈ s.unsuspended
    ↔ s.ps.turnover = some 0 ∧ c = .turnoverTimerExpiry ∨ s.ps.freezeMax = some 0 ∧ c = .freezeLong
      ∨ s.au.underTimer = some 0 ∧ c = .underStandingTimeout ∨ s.sp.portSilence = some 0 ∧ c = .portSilent
      ∨ (∃ h, s.hu.record = some h ∧ h.state = .awaitDone (some 0)) ∧ c = .handoffDeadlineExpiry
      ∨ s.lc.statusTimer = some 0 ∧ c = .statusPeriodExpiry ∨ s.lc.spacing = some 0 ∧ c = .shortSpacingExpiry
      ∨ c ∈ (s.sp.outstanding.filter fun o => o.left.due).map Outstanding.expiry
      ∨ (∃ a, c = .peerSilence a ∧ a ≠ 0 ∧ s.isOwn a = false ∧ (s.stored a).presence = .live
        ∧ ∃ h, (s.stored a).lastHeard = some h ∧ 3 * (s.stored a).statusPeriod.getD 10 < s.elapsed h)
      ∨ c = .fillTimeout ∧ .fillTimeout ∈ s.tr.raised ∨ c = .drainTimeout ∧ .drainTimeout ∈ s.tr.raised
      ∨ c = .turnoverTimerExpiry ∧ .stagnation ∈ s.tr.raised
      ∨ c = .underStandingTimeout ∧ .utilityLost ∈ s.tr.raised ∨ c = .portSilent ∧ .portSilent ∈ s.tr.raised := by
  unfold State.unsuspended
  cases s.hu.record with
  | none => simp only [List.mem_append, mem_dueIf, due_iff, mem_silences, mem_causeRows, or_assoc, reduceCtorEq,
      false_and, exists_false, false_or, Bool.false_eq_true]
  | some h => simp only [List.mem_append, mem_dueIf, due_iff, handoffDue_iff, mem_silences, mem_causeRows, or_assoc,
      Option.some.injEq, exists_eq_left']

/-- The expiries queued are those due (1.3, R28). -/
theorem mem_dueCommands (s : State) (c : Instr) : c ∈ s.dueCommands ↔ s.ExpiryDue c := by
  have split : c ∈ s.dueCommands ↔ s.ps.frozen = false ∧ c ∈ s.suspendable ∨ c ∈ s.unsuspended := by
    unfold State.dueCommands
    cases s.ps.frozen <;> simp
  rw [split, mem_suspendable, mem_unsuspended]
  cases c
  case setPhaseAckTimeout k =>
    have due : s.ExpiryDue (.setPhaseAckTimeout k) ↔ AckDue s.sp.outstanding k fun x => ∃ p w, x = .setPhase p w := Iff.rfl
    simp [due, mem_ackTimeouts]
  case setRateAckTimeout k =>
    have due : s.ExpiryDue (.setRateAckTimeout k) ↔ AckDue s.sp.outstanding k fun x => ∃ v b, x = .setRate v b := Iff.rfl
    simp [due, mem_ackTimeouts]
  case turnoverAckTimeout k =>
    have due : s.ExpiryDue (.turnoverAckTimeout k) ↔ AckDue s.sp.outstanding k fun x => x = .turnover := Iff.rfl
    simp [due, mem_ackTimeouts]
  case handoffWorkAckTimeout k =>
    have due : s.ExpiryDue (.handoffWorkAckTimeout k)
        ↔ AckDue s.sp.outstanding k fun x => ∃ w p a, x = .handoffWork w p a := Iff.rfl
    simp [due, mem_ackTimeouts]
  all_goals simp [State.ExpiryDue, mem_ackTimeouts]

/-- Settles O56. -/
theorem anEmptyQueueLetsTimePass : Obligations.AnEmptyQueueLetsTimePass := by
  intro s u empty hu
  have time := quarterSecond_eq hu
  let v : State := s.quarterSecond
  have queue : v.pending = [] := by
    change s.quarterSecond.pending = []
    rw [time, hu]
    split <;> exact empty
  let t : State := v.dueCommands.foldl State.enqueue v
  have form : t = { v with pending := t.pending, free := t.free } := enqueueAll_form v.dueCommands v
  refine ⟨t, ?_, ?_, fun c => ?_⟩
  · unfold step
    rw [empty]
    rfl
  · rw [← time]
    exact form
  · have due : t.ExpiryDue c ↔ v.ExpiryDue c := by
      rw [form]
      cases c <;> exact Iff.rfl
    rw [due, ← mem_dueCommands, mem_enqueueAll, queue]
    simp

end Sys2Proof.Machine
end

section
/-!
SUPPORT. The payloads of the node's own frames (11.2): the fields that each frame carries in its bytes.
-/

namespace Sys2Proof.Machine

/-! ### Numbers spelled by bits -/

/-- The number that bits spell from the least significant on. -/
def lsbNumber : List Bool → Nat
  | [] => 0
  | b :: l => bit b + 2 * lsbNumber l

theorem lsbNumber_testBit (l : List Bool) (i : Nat) : (lsbNumber l).testBit i = l.getD i false := by
  induction l generalizing i with
  | nil => simp [lsbNumber]
  | cons b l ih =>
    cases i with
    | zero => cases b <;> simp [lsbNumber, bit, Nat.testBit_zero]
    | succ i =>
      have half : (bit b + 2 * lsbNumber l) / 2 = lsbNumber l := by
        have := bit_le b
        omega
      rw [List.getD_cons_succ, ← ih, lsbNumber, Nat.testBit_succ, half]

/-- The flags word is spelled by its bits (11.5). -/
theorem flags_word (f : Flags) : f.word = lsbNumber f.bits := by
  unfold Flags.word Flags.bits
  simp only [lsbNumber]
  omega

/-! ### Bytes and words -/

theorem byteOf_mod (n : Nat) : (byteOf n).toNat = n % 256 := BitVec.toNat_ofNat n 8

/-- The provider byte shows which resources the node provides (11.2). -/
theorem provider_byte (a b c d : Bool) (i : Nat) (h : i < 8) :
    (byteOf ((Resource.all.map fun r => 2 ^ r.code * bit ((⟨a, b, c, d⟩ : PerRes Bool).get r)).sum)).getLsbD i = true
      ↔ ∃ r : Resource, r.code = i ∧ (⟨a, b, c, d⟩ : PerRes Bool).get r = true := by
  have small : (byteOf ((Resource.all.map fun r => 2 ^ r.code * bit ((⟨a, b, c, d⟩ : PerRes Bool).get r)).sum)).getLsbD i
      = [a, b, c, d].getD i false := by
    revert a b c d
    interval_cases i <;> decide
  rw [small]
  constructor
  · intro shown
    match i, shown with
    | 0, shown => exact ⟨.steam, rfl, shown⟩
    | 1, shown => exact ⟨.power, rfl, shown⟩
    | 2, shown => exact ⟨.lime, rfl, shown⟩
    | 3, shown => exact ⟨.water, rfl, shown⟩
  · rintro ⟨r, rfl, provided⟩
    cases r <;> exact provided

/-! ### The status notices (11.2) -/

/-- The seven bytes that both notices share. -/
theorem notice_head (n : Notice) (rest : List Byte) (h : n.bytes
    = byteOf n.phase.code :: (bytes16 n.offer ++ bytes16 n.acceptance ++ bytes16 n.flags.word) ++ rest) :
    (byteAt n.bytes 0).toNat = n.phase.code ∧ wordAt n.bytes 1 = n.offer % 65536
      ∧ wordAt n.bytes 3 = n.acceptance % 65536
      ∧ ∀ i, (wordAt n.bytes 5).testBit i = n.flags.bits.getD i false := by
  rw [h]
  refine ⟨byteOf_toNat ((phase_code_lt n.phase).trans (by decide)), word16_bytes n.offer,
    word16_bytes n.acceptance, fun i => ?_⟩
  have word : wordAt (byteOf n.phase.code :: (bytes16 n.offer ++ bytes16 n.acceptance ++ bytes16 n.flags.word) ++ rest) 5
      = n.flags.word % 65536 := word16_bytes n.flags.word
  rw [word, Nat.mod_eq_of_lt (word_lt n.flags), flags_word, lsbNumber_testBit]

/-- A status notice carries its fields. -/
theorem notice_carries (n : Notice) : n.Carries n.bytes := by
  refine ⟨?_, fun short => ?_, fun long => ?_⟩
  · cases hl : n.long with
    | false => exact notice_head n [] (by unfold Notice.bytes; simp [hl])
    | true => exact notice_head n _ (by unfold Notice.bytes; simp only [hl, if_true, List.append_assoc]; rfl)
  · unfold Notice.bytes
    rw [short]
    rfl
  · have form : n.bytes = byteOf n.phase.code :: (bytes16 n.offer ++ bytes16 n.acceptance ++ bytes16 n.flags.word)
        ++ bytes16 n.holdup ++ Resource.all.flatMap (fun r => bytes16 (n.holdings.get r))
        ++ [byteOf ((Resource.all.map fun r => 2 ^ r.code * bit (n.provider.get r)).sum)]
        ++ Resource.all.flatMap (fun r => bytes16 (if n.provider.get r then n.capacities.get r else 0))
        ++ [nibbles n.statusPeriod n.rank] ++ bytes16 n.timeInPhase
        ++ [byteOf n.sectionClass.code, byteOf n.chainPosition,
          match n.cause with
          | some c => byteOf c.code
          | none => 0xFF#8] := by
      unfold Notice.bytes
      exact if_pos long
    have capacity : ∀ r, (if n.provider.get r then n.capacities.get r else 0) % 65536
        = if n.provider.get r then n.capacities.get r % 65536 else 0 := fun r => by split <;> rfl
    rw [form]
    refine ⟨rfl, word16_bytes n.holdup, fun r => ⟨?_, (?_ : _ = _).trans (capacity r)⟩, fun i hi => ?_, ?_,
      word16_bytes n.timeInPhase, ?_, byteOf_mod n.chainPosition, ?_⟩
    · cases r <;> exact word16_bytes _
    · cases r <;> exact word16_bytes _
    · exact provider_byte n.provider.steam n.provider.power n.provider.lime n.provider.water i hi
    · exact (BitVec.toNat_ofNat (n.statusPeriod * 16 + n.rank) 8).trans (by rw [Nat.mul_comm])
    · exact byteOf_toNat ((class_code_lt n.sectionClass).trans (by decide))
    · change (match n.cause with
        | some c => byteOf c.code
        | none => 0xFF#8).toNat = _
      cases n.cause with
      | none => rfl
      | some c => exact byteOf_toNat ((cause_code_lt c).trans (by decide))

/-! ### The other frames (11.2) -/

theorem resource_code_lt (r : Resource) : r.code < 256 := by cases r <;> decide

theorem point_code_lt (k : Point) : k.code < 256 := by cases k <;> decide

theorem refusal_code_lt (c : RefusalCode) : c.code < 256 := by cases c <;> decide

/-- A message frame carries its fields. -/
theorem message_carries (m : MsgFrame) : m.Carries (Frame.message m).kindCode m.bytes := by
  cases m with
  | reply a tag o detail =>
    refine ⟨rfl, rfl, byteOf_toNat (a.isLt.trans (by decide)), rfl, rfl, ?_⟩
    cases o with
    | taken | pending | done => exact ⟨rfl, rfl⟩
    | refused c => exact ⟨rfl, byteOf_toNat (refusal_code_lt c)⟩
  | handoff a tag work k =>
    exact ⟨rfl, rfl, byteOf_toNat (a.isLt.trans (by decide)), rfl, byteOf_toNat (work.isLt.trans (by decide)),
      byteOf_toNat (point_code_lt k)⟩
  | handoffDone a tag o =>
    cases o <;> exact ⟨rfl, rfl, byteOf_toNat (a.isLt.trans (by decide)), rfl, rfl, rfl⟩

/-- A frame of the node carries its class, its kind and its fields, the class being that of its kind (R163). -/
theorem frame_carries (f : Frame) :
    ∃ c, kindClass f.kindCode = some c ∧ f.Carries c f.kindCode f.bytes := by
  cases f with
  | tripNotice x => exact ⟨0, rfl, rfl, rfl, rfl, byteOf_toNat ((cause_code_lt x).trans (by decide))⟩
  | allot r a =>
    cases a <;> exact ⟨1, rfl, rfl, rfl, rfl, byteOf_toNat (resource_code_lt r), word16_bytes _⟩
  | message m =>
    refine ⟨3, ?_, rfl, message_carries m⟩
    cases m <;> rfl
  | status n =>
    refine ⟨4, ?_, rfl, rfl, notice_carries n⟩
    change kindClass (if n.long then 8 else 7) = some 4
    cases n.long <;> rfl

end Sys2Proof.Machine
end

section
/-!
SUPPORT. Frames on the wire (chapter 9): stuffing keeps runs short, and a receiver that unstuffs a station's frame finds
it good.
-/

namespace Sys2Proof.Machine

/-! ### Runs of equal bits (R163, R164) -/

/-- After a run of `n` bits `last`, no run of the list that follows is longer than six. -/
def runsWithin (last : Bool) (n : Nat) : List Bool → Prop
  | [] => n ≤ 6
  | b :: l => n ≤ 6 ∧ if b = last then runsWithin b (n + 1) l else runsWithin b 1 l

/-- A run that ends before the list goes on with the opposite level gives no run of 7 by itself. -/
theorem noRun_extend {last b x : Bool} {l : List Bool} (n : Nat) (hn : n ≤ 6) (hb : b ≠ last)
    (h : ¬ List.replicate 7 x <:+: b :: l) : ¬ List.replicate 7 x <:+: List.replicate n last ++ b :: l := by
  induction n with
  | zero => exact h
  | succ n ih =>
    rw [List.replicate_succ (n := n), List.cons_append, List.infix_cons_iff, not_or]
    refine ⟨fun prefixed => ?_, ih (by omega)⟩
    have first := prefixed.getElem (i := 0) (by simp)
    have later := prefixed.getElem (i := n + 1) (by simp; omega)
    simp only [List.getElem_replicate, List.getElem_cons_zero] at first
    simp only [List.getElem_replicate, List.getElem_cons_succ] at later
    rw [List.getElem_append_right (by simp)] at later
    simp only [List.length_replicate, Nat.sub_self, List.getElem_cons_zero] at later
    exact hb (later.symm.trans first)

/-- Short runs throughout leave no run of 7. -/
theorem runsWithin_noRun {last : Bool} {n : Nat} {l : List Bool} (h : runsWithin last n l) (x : Bool) :
    ¬ List.replicate 7 x <:+: List.replicate n last ++ l := by
  induction l generalizing last n with
  | nil =>
    intro inside
    have long := inside.length_le
    simp only [List.length_replicate, List.append_nil] at long
    have short : n ≤ 6 := h
    omega
  | cons b l ih =>
    obtain ⟨short, rest⟩ := h
    by_cases same : b = last
    · rw [if_pos same] at rest
      subst same
      have joined : List.replicate n b ++ b :: l = List.replicate (n + 1) b ++ l := by
        rw [List.replicate_succ', List.append_assoc]
        rfl
      rw [joined]
      exact ih rest
    · rw [if_neg same] at rest
      exact noRun_extend n short same (ih rest)

/-- Stuffing keeps the runs short (R163). -/
theorem stuff_runsWithin (l : List Bool) (last : Bool) (n : Nat) (h : n ≤ 6) : runsWithin last n (stuff last n l) := by
  have other : ¬ (!last) = last := by cases last <;> decide
  induction l generalizing last n with
  | nil =>
    unfold stuff
    split
    · exact ⟨h, by rw [if_neg other]; exact Nat.one_le_ofNat⟩
    · exact h
  | cons b l ih =>
    have next : ∀ m, m ≤ 6 → runsWithin b m (stuff b m l) := fun m hm => ih b m hm (by cases b <;> decide)
    unfold stuff
    by_cases full : n = 6
    · rw [if_pos full]
      refine ⟨h, ?_⟩
      rw [if_neg other]
      refine ⟨by decide, ?_⟩
      by_cases same : b = !last
      · rw [if_pos same, if_pos same]
        exact next 2 (by decide)
      · rw [if_neg same, if_neg same]
        exact next 1 (by decide)
    · rw [if_neg full]
      refine ⟨h, ?_⟩
      by_cases same : b = last
      · rw [if_pos same, if_pos same]
        exact next (n + 1) (by omega)
      · rw [if_neg same, if_neg same]
        exact next 1 (by decide)

/-! ### Reading stuffed bits (R164) -/

theorem read_good (l : List Bool) : l.foldl Reader.read .good = .good := by
  induction l with
  | nil => rfl
  | cons b l ih => exact ih

/-- A receiver that reads on through every part of some bits, and finds the whole good, finds their stuffed form good,
whatever follows. -/
theorem read_stuffed (l tail : List Bool) (last : Bool) (n : Nat) (data : List Bool) (some : l ≠ [])
    (part : ∀ a b, a ≠ [] → b ≠ [] → l = a ++ b →
      ∀ x m, judgeData x m (a.reverse ++ data) = .reading x m (a.reverse ++ data))
    (whole : ∀ x m, judgeData x m (l.reverse ++ data) = .good) :
    (stuff last n l ++ tail).foldl Reader.read (.reading last n data) = .good := by
  have other : ¬ (!last) = last := by cases last <;> decide
  induction l generalizing last n data with
  | nil => exact (some rfl).elim
  | cons b l ih =>
    -- One bit more, with the run it stands in.
    have bit : ∀ m, (stuff b m l ++ tail).foldl Reader.read (judgeData b m (b :: data)) = .good := fun m => by
      by_cases last : l = []
      · subst last
        have good : judgeData b m (b :: data) = .good := whole b m
        rw [good]
        exact read_good _
      · have reading : judgeData b m (b :: data) = .reading b m (b :: data) :=
          part [b] l (List.cons_ne_nil _ _) last rfl b m
        rw [reading]
        refine ih b m (b :: data) last (fun u v hu hv split x k => ?_) (fun x k => ?_) (by cases b <;> decide)
        · have := part (b :: u) v (List.cons_ne_nil _ _) hv (by rw [split]; rfl) x k
          rw [List.reverse_cons, List.append_assoc] at this
          exact this
        · have := whole x k
          rw [List.reverse_cons, List.append_assoc] at this
          exact this
    unfold stuff
    by_cases full : n = 6
    · have inserted : Reader.read (.reading last n data) (!last) = .reading (!last) 1 data := by
        change (if n = 6 then _ else _) = _
        rw [if_pos full, if_neg other]
      have next : Reader.read (.reading (!last) 1 data) b
          = judgeData b (if b = !last then 2 else 1) (b :: data) := rfl
      rw [if_pos full, List.cons_append, List.cons_append, List.foldl_cons, List.foldl_cons, inserted, next]
      by_cases same : b = !last
      · rw [if_pos same, if_pos same]
        exact bit 2
      · rw [if_neg same, if_neg same]
        exact bit 1
    · have next : Reader.read (.reading last n data) b
          = judgeData b (if b = last then n + 1 else 1) (b :: data) := by
        change (if n = 6 then _ else _) = _
        rw [if_neg full]
      rw [if_neg full, List.cons_append, List.foldl_cons, next]
      by_cases same : b = last
      · rw [if_pos same, if_pos same]
        exact bit (n + 1)
      · rw [if_neg same, if_neg same]
        exact bit 1

/-! ### Fields of a frame (R163) -/

theorem bitsOfNat_length (n v : Nat) : (bitsOfNat n v).length = n := by
  induction n with
  | zero => rfl
  | succ n ih => simp [bitsOfNat, ih]

/-- The bits of a number spell it, as far as they go. -/
theorem natOfBits_from (n v a : Nat) :
    (bitsOfNat n v).foldl (fun x b => 2 * x + bit b) a = a * 2 ^ n + v % 2 ^ n := by
  induction n generalizing a with
  | zero => simp [bitsOfNat, Nat.mod_one]
  | succ n ih =>
    have top : bit (v.testBit n) = v / 2 ^ n % 2 := by
      rw [Nat.testBit_eq_decide_div_mod_eq]
      unfold bit
      rcases Nat.mod_two_eq_zero_or_one (v / 2 ^ n) with e | e <;> simp [e]
    have split : v % 2 ^ (n + 1) = 2 ^ n * (v / 2 ^ n % 2) + v % 2 ^ n := by
      rw [Nat.pow_succ, Nat.mod_mul]
      ring
    rw [bitsOfNat, List.foldl_cons, ih, top, split]
    ring

theorem natOfBits_bits (n v : Nat) : natOfBits (bitsOfNat n v) = v % 2 ^ n := by
  unfold natOfBits
  rw [natOfBits_from]
  simp

/-- A field that stands whole in the bits read so far is read back. -/
theorem fieldOf_part {pre field post bits : List Bool} {start width i : Nat} (form : bits = pre ++ (field ++ post))
    (hs : pre.length = start) (hw : field.length = width) (hi : start + width ≤ i) :
    fieldOf (bits.take i) start width = natOfBits field := by
  have long : (pre ++ field).length ≤ i := by
    rw [List.length_append]
    omega
  have taken : bits.take i = pre ++ (field ++ post.take (i - (pre ++ field).length)) := by
    rw [form, ← List.append_assoc, List.take_append, List.take_of_length_le long, List.append_assoc]
  unfold fieldOf
  rw [taken, ← hs, List.drop_left, ← hw, List.take_left]

theorem payload_length (p : List Byte) : (p.flatMap bitsOfByte).length = 8 * p.length := by
  induction p with
  | nil => rfl
  | cons b p ih =>
    rw [List.flatMap_cons, List.length_append, ih, List.length_cons]
    change 8 + _ = _
    omega

theorem contentBits_length (c : Nat) (a : Station) (k : Nat) (p : List Byte) :
    (contentBits c a k p).length = 18 + 8 * p.length := by
  unfold contentBits
  simp only [List.length_append, bitsOfNat_length, payload_length]

/-- The classes and kinds that a code can name. -/
theorem kindClass_lt {k c : Nat} (h : kindClass k = some c) : k < 16 ∧ c < 8 := by
  unfold kindClass at h
  split at h <;> cases h <;> decide

end Sys2Proof.Machine
end

section
/-!
SUPPORT. The judgement of a station's frame bit by bit (R164), and the acknowledgement slot.
-/

namespace Sys2Proof.Machine

/-- A frame's bits from its start bit to its CRC, before stuffing (R163). -/
def wireBits (c : Nat) (a : Station) (k : Nat) (p : List Byte) : List Bool :=
  false :: (contentBits c a k p ++ bitsOfNat 16 (crc16 (contentBits c a k p)).toNat)

theorem wireBits_length (c : Nat) (a : Station) (k : Nat) (p : List Byte) :
    (wireBits c a k p).length = 19 + 8 * p.length + 16 := by
  unfold wireBits
  rw [List.length_cons, List.length_append, contentBits_length, bitsOfNat_length]
  omega

/-- The kind and the class are read back once the kind is in. -/
theorem wireBits_kind (c : Nat) (a : Station) (k : Nat) (p : List Byte) {i : Nat} (h : 13 ≤ i) :
    fieldOf ((wireBits c a k p).take i) 9 4 = k % 16 ∧ fieldOf ((wireBits c a k p).take i) 1 3 = c % 8 := by
  let rest := bitsOfNat 6 p.length ++ (p.flatMap bitsOfByte ++ bitsOfNat 16 (crc16 (contentBits c a k p)).toNat)
  have kind : wireBits c a k p
      = (false :: (bitsOfNat 3 c ++ bitsOfNat 5 a.val)) ++ (bitsOfNat 4 k ++ rest) := by
    simp only [wireBits, contentBits, rest, List.append_assoc, List.cons_append]
  have cls : wireBits c a k p = [false] ++ (bitsOfNat 3 c ++ (bitsOfNat 5 a.val ++ (bitsOfNat 4 k ++ rest))) := by
    simp only [wireBits, contentBits, rest, List.append_assoc, List.cons_append, List.nil_append]
  refine ⟨?_, ?_⟩
  · exact (fieldOf_part kind (by simp [bitsOfNat_length]) (bitsOfNat_length 4 k) h).trans (natOfBits_bits 4 k)
  · exact (fieldOf_part (start := 1) cls rfl (bitsOfNat_length 3 c) (by omega)).trans (natOfBits_bits 3 c)

/-- The length field is read back once the header is in. -/
theorem wireBits_size (c : Nat) (a : Station) (k : Nat) (p : List Byte) {i : Nat} (h : 19 ≤ i) :
    fieldOf ((wireBits c a k p).take i) 13 6 = p.length % 64 := by
  have form : wireBits c a k p = (false :: (bitsOfNat 3 c ++ (bitsOfNat 5 a.val ++ bitsOfNat 4 k)))
      ++ (bitsOfNat 6 p.length ++ (p.flatMap bitsOfByte ++ bitsOfNat 16 (crc16 (contentBits c a k p)).toNat)) := by
    simp only [wireBits, contentBits, List.append_assoc, List.cons_append]
  exact (fieldOf_part form (by simp [bitsOfNat_length]) (bitsOfNat_length 6 p.length) h).trans
    (natOfBits_bits 6 p.length)

/-- The CRC sent is the CRC computed (R164). -/
theorem wireBits_crc (c : Nat) (a : Station) (k : Nat) (p : List Byte) : crcFits (wireBits c a k p) = true := by
  let content := contentBits c a k p
  have length : content.length = 18 + 8 * p.length := contentBits_length c a k p
  have sent : ((wireBits c a k p).drop 1).take ((wireBits c a k p).length - 17) = content := by
    rw [wireBits_length]
    change (content ++ bitsOfNat 16 (crc16 content).toNat).take _ = _
    rw [show 19 + 8 * p.length + 16 - 17 = content.length by rw [length]; omega, List.take_left]
  have check : (wireBits c a k p).drop ((wireBits c a k p).length - 16) = bitsOfNat 16 (crc16 content).toNat := by
    rw [wireBits_length, show 19 + 8 * p.length + 16 - 16 = (false :: content).length by
      rw [List.length_cons, length]; omega]
    change ((false :: content) ++ bitsOfNat 16 (crc16 content).toNat).drop _ = _
    rw [List.drop_left]
  unfold crcFits
  dsimp only
  rw [sent, check, natOfBits_bits, Nat.mod_eq_of_lt (crc16 content).isLt]
  exact decide_eq_true rfl

/-- A receiver reads on through every part of a station's frame and finds the whole good (R164). -/
theorem judge_wireBits {c k : Nat} (a : Station) {p : List Byte} (hk : kindClass k = some c) (hp : p.length ≤ 32)
    {data : List Bool} {i : Nat} (form : data.reverse = (wireBits c a k p).take i) (hi : i ≤ (wireBits c a k p).length)
    (x : Bool) (m : Nat) : judgeData x m data = if i = (wireBits c a k p).length then .good else .reading x m data := by
  obtain ⟨kindSmall, classSmall⟩ := kindClass_lt hk
  have whole := wireBits_length c a k p
  have size : ((wireBits c a k p).take i).length = i := List.length_take_of_le hi
  have kindGood : ¬ (decide (i = 13) && !kindFits ((wireBits c a k p).take i)) = true := by
    rw [Bool.and_eq_true, decide_eq_true_eq]
    rintro ⟨at13, unfit⟩
    obtain ⟨kind, cls⟩ := wireBits_kind c a k p (i := i) (by omega)
    have fits : kindFits ((wireBits c a k p).take i) = true := by
      unfold kindFits
      rw [kind, cls, Nat.mod_eq_of_lt kindSmall, Nat.mod_eq_of_lt classSmall, hk]
      exact decide_eq_true rfl
    rw [fits] at unfit
    exact nomatch unfit
  have payload : 19 ≤ i → fieldOf ((wireBits c a k p).take i) 13 6 = p.length := fun h => by
    rw [wireBits_size c a k p h]
    exact Nat.mod_eq_of_lt (by omega)
  have sizeGood : ¬ (decide (i = headerBits) && decide (32 < fieldOf ((wireBits c a k p).take i) 13 6)) = true := by
    rw [Bool.and_eq_true, decide_eq_true_eq, decide_eq_true_eq]
    rintro ⟨at19, long⟩
    have header : i = 19 := at19
    rw [payload (by omega)] at long
    omega
  have last : (decide (headerBits < i)
      && decide (i = headerBits + 8 * fieldOf ((wireBits c a k p).take i) 13 6 + 16)) = true
      ↔ i = (wireBits c a k p).length := by
    rw [Bool.and_eq_true, decide_eq_true_eq, decide_eq_true_eq, whole]
    unfold headerBits
    constructor
    · rintro ⟨past, ends⟩
      rw [payload (by omega)] at ends
      exact ends
    · intro ends
      rw [payload (by omega)]
      exact ⟨by omega, ends⟩
  unfold judgeData
  dsimp only
  rw [form, size, if_neg kindGood, if_neg sizeGood]
  by_cases ends : i = (wireBits c a k p).length
  · rw [if_pos (last.2 ends), if_pos ends, ends, List.take_length, wireBits_crc]
    rfl
  · rw [if_neg (fun h => ends (last.1 h)), if_neg ends]

/-- A receiver finds every frame of a station good (R164). -/
theorem frameBits_good {c k : Nat} (a : Station) {p : List Byte} (hk : kindClass k = some c) (hp : p.length ≤ 32) :
    judgeBits (frameBits c a k p) = .good := by
  let body := contentBits c a k p ++ bitsOfNat 16 (crc16 (contentBits c a k p)).toNat
  have wire : wireBits c a k p = false :: body := rfl
  have part : ∀ u v, body = u ++ v → (u.reverse ++ [false]).reverse = (wireBits c a k p).take (u.length + 1) :=
    fun u v split => by
      rw [List.reverse_append, List.reverse_reverse, wire, List.take_succ_cons, split, List.take_left]
      rfl
  have full : (wireBits c a k p).length = body.length + 1 := rfl
  change (stuff false 1 body ++ List.replicate 9 true).foldl Reader.read (.reading false 1 [false]) = .good
  refine read_stuffed body _ false 1 [false] ?_ (fun u v _ hv split x m => ?_) fun x m => ?_
  · intro empty
    have length := wireBits_length c a k p
    rw [full, empty, List.length_nil] at length
    omega
  · have short : u.length + 1 < (wireBits c a k p).length := by
      have := List.length_pos_of_ne_nil hv
      rw [full, split, List.length_append]
      omega
    rw [judge_wireBits a hk hp (part u v split) (le_of_lt short) x m, if_neg (ne_of_lt short)]
  · rw [judge_wireBits a hk hp (part body [] (List.append_nil body).symm) (le_of_eq full.symm) x m, if_pos full.symm]

/-- Before its acknowledgement slot a frame holds no run of 7 (R163). -/
theorem frameBits_noRun (c k : Nat) (a : Station) (p : List Byte) (b : Bool) :
    ¬ List.replicate 7 b <:+: (frameBits c a k p).take ((frameBits c a k p).length - 9) := by
  let sent := stuff false 1 (contentBits c a k p ++ bitsOfNat 16 (crc16 (contentBits c a k p)).toNat)
  have form : frameBits c a k p = (false :: sent) ++ List.replicate 9 true := rfl
  have cut : (frameBits c a k p).take ((frameBits c a k p).length - 9) = List.replicate 1 false ++ sent := by
    rw [form, List.length_append, List.length_replicate, Nat.add_sub_cancel, List.take_left]
    rfl
  rw [cut]
  exact runsWithin_noRun (stuff_runsWithin _ false 1 (by decide)) b

/-- The acknowledgement slot of a node that takes part and sends nothing (R164, R167, R176). -/
theorem ackSlot_listens {s : State} (hears : s.receives = true) (silent : ∀ x, s.lc.tx = some x → x.begun = false)
    (bits : List Bool) : s.ackSlot bits = !decide (judgeBits bits = .good) := by
  have sends : s.lc.sends = false := by
    unfold LC.sends
    cases hx : s.lc.tx with
    | none => rfl
    | some x => exact silent x hx
  unfold State.ackSlot
  rw [hears, sends]
  rfl

/-- Settles O54: what is sent carries its fields, is read back good, keeps its runs short, and is acknowledged. -/
theorem sentFramesAreJudgedGood : Obligations.SentFramesAreJudgedGood := by
  refine ⟨fun s => ⟨fun none => ?_, fun x hx => ?_⟩, fun c k a p hk hp =>
    ⟨frameBits_good a hk hp, frameBits_noRun c k a p, fun s hears silent => ⟨?_, fun bits bad => ?_⟩⟩⟩
  · unfold State.lineOut
    rw [none]
    rfl
  · obtain ⟨c, cls, carries⟩ := frame_carries x.frame
    refine ⟨c, x.frame.kindCode, x.frame.bytes, carries, cls, ?_⟩
    unfold State.lineOut
    rw [hx, Option.map_some, Frame.bits, cls]
    rfl
  · rw [ackSlot_listens hears silent, frameBits_good a hk hp]
    rfl
  · rw [ackSlot_listens hears silent, decide_eq_false bad]
    rfl

end Sys2Proof.Machine
end
